-- ==== Sys2Proof/Word.lean ====
section
/-! DEFINITION. The words the CX1 moves and their plainest arithmetic (00_scope.md R2; 02_block_formats.md R48, R49). -/

namespace Sys2Proof

/-- One byte of memory. -/
abbrev Byte := BitVec 8
/-- A 16-bit half. -/
abbrev W16 := BitVec 16
/-- One lane of a vector register (R49). -/
abbrev W32 := BitVec 32
/-- A scalar register, an instruction word, an address (R135, R142). -/
abbrev W64 := BitVec 64
/-- One bit for each lane of a team: a mask or a predicate (R8). -/
abbrev Lanes := BitVec 32
/-- The data bits of a 128-byte line or of a vector register (R48, R49). -/
abbrev Line := BitVec 1024
/-- One 32-byte sector. -/
abbrev Sector := BitVec 256
/-- The side-band of a line, Table 02.4. -/
abbrev SideBand := BitVec 128
/-- A die clock, an applied vector or a stamp: nine entries, by die (R107). -/
abbrev Clock := List Nat

/-- The clock after package reset (R107). -/
def Clock.zero : Clock := [0, 0, 0, 0, 0, 0, 0, 0, 0]

/-- Reconvergence address none: all ones (01_teams_blocks_yards.md). -/
def rpcNone : W64 := BitVec.allOnes 64

/-- All 32 lanes. -/
def allLanes : Lanes := BitVec.allOnes 32

end Sys2Proof
end

