-- ==== Sys2Proof/Syntax.lean ====
section
/-! DEFINITION. The instructions of the CX1 and the steps its device makes: one constructor of Instr for each row of
spec/opcode_table.json (05_instruction_word_and_opcode_map.md Tables 05.12 to 05.15; 95_what_each_step_holds.md). -/

namespace Sys2Proof

/-- Operand types TY 00, 01 and 10 of Table 05.2. -/
inductive Ty
  | vec | scal | mix
  deriving DecidableEq, Repr

/-- A guard (R141): predicate p0 to p15 and its negation. -/
structure Guard where
  p : BitVec 4
  neg : Bool
  deriving DecidableEq, Repr

/-- A source selector (Table 05.3): a register with its last-read bit, or a hold latch. -/
inductive Sel
  | reg (idx : BitVec 8) (last : Bool)
  | latch (n : BitVec 2)
  deriving DecidableEq, Repr

/-- A destination with its write-suppress bit (R146). -/
structure Dst where
  idx : BitVec 8
  ws : Bool
  deriving DecidableEq, Repr

/-- Source B in the forms R, I (20 bits) and L of Tables 07.1 and 08.1. -/
inductive Opnd
  | sel (s : Sel)
  | imm (v : BitVec 20)
  | lit (v : W64)
  deriving DecidableEq, Repr

/-- A source with the forms R, I (10 bits) and L: source C of IADDC, SHF and BFI, source B of FMA. -/
inductive Opnd10
  | sel (s : Sel)
  | imm (v : BitVec 10)
  | lit (v : W64)
  deriving DecidableEq, Repr

/-- Saturation of IADD and ISUB (R189). -/
inductive SatMode
  | wrap | sat | usat
  deriving DecidableEq, Repr

/-- Conditions of ICMP (Table 07.4). -/
inductive ICond
  | eq | ne | lt | le | gt | ge | ltu | leu | gtu | geu
  deriving DecidableEq, Repr

/-- Conditions of FCMP (Table 08.3). -/
inductive FCond
  | eq | ne | lt | le | gt | ge | num | nan
  deriving DecidableEq, Repr

/-- How a comparison combines with the old predicate bit (R193). -/
inductive Comb
  | set | and | or
  deriving DecidableEq, Repr

/-- Rounding modes (Table 02.6). -/
inductive Rnd
  | rn | rz | ru | rd | sr
  deriving DecidableEq, Repr

/-- Conversion modes (R60). -/
inductive CMode
  | sat | special
  deriving DecidableEq, Repr

/-- Branch modes (Table 07.9). -/
inductive BrMode
  | uniform | any | all
  deriving DecidableEq, Repr

/-- Element formats (Table 02.2). -/
inductive ElemFmt
  | e4m3 | e5m2 | e3m2 | e2m3 | e2m1 | mxint8
  deriving DecidableEq, Repr

/-- Formats of CVT and CVTS (Table 08.6). -/
inductive CvtFmt
  | f32 | f16 | bf16 | int32 | uint32 | int16 | int8 | uint8
  | elem (f : ElemFmt)
  deriving DecidableEq, Repr

/-- What BRSC does to a block's scale (R240); shift names the scalar that holds k. -/
inductive BrscMode
  | e8m0
  | shift (k : Sel)
  | fresh
  deriving DecidableEq, Repr

/-- Special registers (Table 07.11). -/
inductive SpecReg
  | laneid | teamid | blockid
  | yard (k : BitVec 2)
  | nearmask | offmask | flags | flagen | seed | trystat | stqocc | sbleft | sbmode | cycle
  | faultrec (k : BitVec 3)
  deriving DecidableEq, Repr

/-- Load widths (Table 09.2). -/
inductive LdW
  | u8 | s8 | u16 | s16 | b32 | b64 | b128
  deriving DecidableEq, Repr

/-- Store widths (Table 09.2). -/
inductive StW
  | b8 | b16 | b32 | b64 | b128
  deriving DecidableEq, Repr

/-- Scopes (Table 04.1). -/
inductive Scope
  | team | blk | die | dev | fab
  deriving DecidableEq, Repr

/-- Ordering annotations (Table 04.2); plain is ANN 0 on a load or a store. -/
inductive Ann
  | plain | rlx | acq | rel | ar
  deriving DecidableEq, Repr

/-- The ORD field (Table 09.3). -/
structure Ord where
  ann : Ann
  scope : Option Scope
  deriving DecidableEq, Repr

/-- Line spaces of LDB and STB (Table 09.1). -/
inductive LineSp
  | g | prv | spad
  deriving DecidableEq, Repr

/-- Atomic operations (Table 09.5). -/
inductive AtomOp
  | add | min | max | umin | umax | and | or | xor | exch | fadd | fmin | fmax
  deriving DecidableEq, Repr

/-- Lane operations of LRED and LSCAN (Table 08.13). -/
inductive LaneOp
  | iadd | imin | imax | umin | umax | and | or | xor | fadd | fmin | fmax
  deriving DecidableEq, Repr

/-- Modes of VOTE (R246). -/
inductive VoteMode
  | mask | some | every | agree | count
  deriving DecidableEq, Repr

/-- Fence kinds other than .sc (Table 04.5). -/
inductive FenceKind
  | r | w | rw
  deriving DecidableEq, Repr

/-- The barrier object an instruction names: a scratchpad offset in a scalar, or a yard slot (R269). -/
inductive BarRef
  | local (a : Sel)
  | yard (k : BitVec 2)
  deriving DecidableEq, Repr

/-- The object TESTP tests: a barrier object or the batch barrier (R273, R274). -/
inductive TestRef
  | bar (r : BarRef)
  | batch
  deriving DecidableEq, Repr

/-- The amount of SHFL: a register or an immediate (R245). -/
inductive ShAmt
  | sel (s : Sel)
  | imm (n : BitVec 5)
  deriving DecidableEq, Repr

/-- The count of BINIT: a scalar or an immediate (Table 09.8). -/
inductive BCount
  | sel (s : Sel)
  | imm (n : BitVec 10)
  deriving DecidableEq, Repr

/-- The slot a tile or ACTLD instruction sets (R291): harness and slot. -/
structure SlotRef where
  h : BitVec 2
  k : BitVec 4
  deriving DecidableEq, Repr

/-- Register groups of MLOAD (R312). -/
inductive MlN
  | x1 | x2 | x4
  deriving DecidableEq, Repr

/-- A parameter block: the four extension words of CPY, MMA and COLL (R154). -/
structure PBlock where
  w0 : W64
  w1 : W64
  w2 : W64
  w3 : W64
  deriving DecidableEq, Repr

/-- Operations of a pair half (Table 05.15). -/
inductive POp
  | iadd | isub | imul | imin | imax | iabs | and | or | xor | andn | shl | shr | sar | mov
  | fadd (r : BitVec 2) | fsub (r : BitVec 2) | fmul (r : BitVec 2) | fmin | fmax
  | h2add (bf : Bool) | h2mul (bf : Bool)
  deriving DecidableEq, Repr

/-- One half of a pair (Table 05.9). -/
structure Half where
  op : POp
  d : BitVec 8
  a : Sel
  p : BitVec 3
  neg : Bool
  deriving DecidableEq, Repr

/-- A 32-byte extension block of the fabric (Table 17.16). -/
structure ExtBlock where
  d0 : W64
  d1 : W64
  d2 : W64
  d3 : W64
  deriving DecidableEq, Repr

/-- What a host core or PCIe requester does to device memory (R132, R436). Sizes are in bytes. -/
inductive HostOp
  | load (pa size : Nat)
  | store (pa size : Nat) (v : W64)
  | amo (op : AtomOp) (pa size : Nat) (v : W64) (aq rl : Bool)
  | cas (pa size : Nat) (cmp v : W64) (aq rl : Bool)
  | fenceRwW | fenceRRw | fenceRwRw
  deriving DecidableEq, Repr

/-- A request that reaches the fabric ingress of this package (R120, R122, R431). Offsets are physical addresses of
this package; id names the request at its source, which the reply carries back. -/
inductive FabReq
  /-- a write of the masked bytes of one line, with its extension block when it carries one -/
  | write (src cls id line : Nat) (mask : BitVec 128) (data : Line) (rel : Bool) (ext : Option ExtBlock)
  /-- a read of some 32-byte sectors of one line, up to the whole line -/
  | read (src id line : Nat) (need : BitVec 4)
  /-- an atomic on one word of 4 or 8 bytes; ext carries a FATOMIC block for the floating-point operations -/
  | atomic (src id pa size : Nat) (op : AtomOp) (v : W64) (rel : Bool) (ext : Option ExtBlock)
  | cas (src id pa size : Nat) (cmp v : W64) (rel : Bool)
  deriving DecidableEq, Repr

/-- The reply of another package to a request of this one (R122, R431). -/
structure Reply where
  data : Line
  side : SideBand
  /-- 0, or the fault code of the poison the reply carries (R401) -/
  poison : Nat
  deriving DecidableEq, Repr

/-- A node value of a collective (R318, R319): per-element values with empty leaves, NARROW blocks, or a MERGE triple. -/
inductive NodeVal
  /-- FP32 or BF16 bits per element -/
  | wide (x : List (Option W32))
  /-- per block: its scale and codes, none when every element is empty -/
  | narrow (b : List (Option (BitVec 12 × List (BitVec 8))))
  | merge (m s : W32) (v : List W32)
  | empty
  deriving DecidableEq, Repr

/-- What a participant reports to rank 0 at formation (R317). -/
structure CollReport where
  rank : Nat
  len : Nat
  /-- word 3 of the block with the fields that must agree (OPN, ROP, WIRE, NFMT, INSW, ROOT) -/
  sig : Nat
  count : Nat
  badTable : Bool
  breach : Bool
  granted : Bool
  deriving DecidableEq, Repr

/-- Rank 0's declaration (R317, R439). -/
structure CollDecl where
  ok : Bool
  lens : List Nat
  inSwitch : Bool
  deriving DecidableEq, Repr

/-- A collective message from another package or a switch (R439, Table 17.17): CREQ, CRESULT, GRANT or CLOSS with the
extension block it rode on and, for CREQ and CRESULT, the value. -/
structure CollMsg where
  ext : ExtBlock
  /-- destination die of this package and destination rank -/
  die : Nat
  rank : Nat
  val : NodeVal
  deriving DecidableEq, Repr

/-- Where an uncorrectable error strikes (Table 17.11, R402). -/
inductive ErrSite
  | l1 (die core line : Nat)
  | rdc (die line : Nat)
  | l2 (line : Nat)
  /-- a buffered sector, a queue entry, a pound entry: by its place -/
  | tryBuffer (team idx : Nat)
  | storeQueue (team idx : Nat)
  | pound (die slice idx : Nat)
  | spad (block line : Nat)
  | tile (block word : Nat)
  /-- a register word; found says that the scrubber, or a read of other lanes, has found the error, which is then logged; else the first
  read of the word finds it -/
  | vreg (team idx lane : Nat) (found : Bool)
  | sreg (team idx : Nat) (found : Bool)
  /-- a sector of HBM, or one that an expander returns poisoned -/
  | hbm (sector : Nat)
  deriving DecidableEq, Repr

/-- A boot image as the flash holds it (R428); its header holds the security version and the key slot. -/
structure BootImage where
  /-- the 384 bytes of the public modulus -/
  key : List Byte
  /-- the 384 bytes of the signature -/
  sig : List Byte
  header : List Byte
  payload : List Byte
  deriving DecidableEq, Repr

/-- The instructions and events of spec/opcode_table.json, in its order. -/
inductive Instr
  -- control and system (Tables 07.8, 07.15, 07.11; R117 for TFENCE's name see R212)
  | nop (g : Guard)
  | bra (g : Guard) (disp : BitVec 30) (m : BrMode)
  | brc (g : Guard) (disp : BitVec 20) (rdisp : BitVec 18)
  | brx (g : Guard) (a : Sel) (m : BrMode)
  | call (g : Guard) (d : BitVec 8) (disp : BitVec 30)
  | callx (g : Guard) (d : BitVec 8) (a : Sel)
  | ret (g : Guard) (a : Sel)
  | reconv (g : Guard)
  | exit (g : Guard)
  | yield (g : Guard)
  | loop (g : Guard) (d : BitVec 8) (disp : BitVec 30)
  | lnch (g : Guard) (d : Dst) (a b : Sel) (nb : Bool)
  | mfs (g : Guard) (d : Dst) (r : SpecReg)
  | mts (g : Guard) (r : SpecReg) (a : Sel)
  | trap (g : Guard) (code : BitVec 8)
  | tfence (g : Guard)
  | bkpt (g : Guard)
  | reth (g : Guard)
  -- integer and address (Table 07.2)
  | iadd (g : Guard) (ty : Ty) (d : Dst) (a : Sel) (b : Opnd) (m : SatMode)
  | isub (g : Guard) (ty : Ty) (d : Dst) (a : Sel) (b : Opnd) (m : SatMode)
  | iaddc (g : Guard) (ty : Ty) (d : Dst) (a : Sel) (b : Opnd) (c : Opnd10) (co : Bool)
  | imul (g : Guard) (ty : Ty) (d : Dst) (a : Sel) (b : Opnd)
  | imulh (g : Guard) (ty : Ty) (d : Dst) (a : Sel) (b : Opnd) (u : Bool)
  | imulw (g : Guard) (ty : Ty) (d : Dst) (a : Sel) (b : Opnd) (u : Bool)
  | imad (g : Guard) (ty : Ty) (d : Dst) (a : Sel) (b : Opnd) (c : Sel)
  | idiv (g : Guard) (ty : Ty) (d : BitVec 8) (a : Sel) (b : Opnd) (u : Bool)
  | irem (g : Guard) (ty : Ty) (d : BitVec 8) (a : Sel) (b : Opnd) (u : Bool)
  | imin (g : Guard) (ty : Ty) (d : Dst) (a : Sel) (b : Opnd) (u : Bool)
  | imax (g : Guard) (ty : Ty) (d : Dst) (a : Sel) (b : Opnd) (u : Bool)
  | iabs (g : Guard) (ty : Ty) (d : Dst) (a : Sel) (sat : Bool)
  | and (g : Guard) (ty : Ty) (d : Dst) (a : Sel) (b : Opnd)
  | or (g : Guard) (ty : Ty) (d : Dst) (a : Sel) (b : Opnd)
  | xor (g : Guard) (ty : Ty) (d : Dst) (a : Sel) (b : Opnd)
  | andn (g : Guard) (ty : Ty) (d : Dst) (a : Sel) (b : Opnd)
  | shl (g : Guard) (ty : Ty) (d : Dst) (a : Sel) (b : Opnd)
  | shr (g : Guard) (ty : Ty) (d : Dst) (a : Sel) (b : Opnd)
  | sar (g : Guard) (ty : Ty) (d : Dst) (a : Sel) (b : Opnd)
  | shf (g : Guard) (ty : Ty) (d : Dst) (a b : Sel) (c : Opnd10) (left : Bool)
  | rot (g : Guard) (ty : Ty) (d : Dst) (a : Sel) (b : Opnd) (left : Bool)
  | popc (g : Guard) (ty : Ty) (d : Dst) (a : Sel)
  | clz (g : Guard) (ty : Ty) (d : Dst) (a : Sel)
  | ctz (g : Guard) (ty : Ty) (d : Dst) (a : Sel)
  | brev (g : Guard) (ty : Ty) (d : Dst) (a : Sel)
  | bfx (g : Guard) (ty : Ty) (d : Dst) (a : Sel) (b : Opnd) (s : Bool)
  | bfi (g : Guard) (ty : Ty) (d : Dst) (a : Sel) (b : Opnd) (c : Opnd10)
  | lea (g : Guard) (ty : Ty) (d : Dst) (a : Sel) (b : Opnd) (k : BitVec 3) (w32 : Bool)
  | icmp (g : Guard) (ty : Ty) (p : BitVec 4) (a : Sel) (b : Opnd) (cond : ICond) (m : Comb)
  | isel (g : Guard) (ty : Ty) (d : Dst) (a : Sel) (b : Opnd) (p : BitVec 4)
  | mov (g : Guard) (ty : Ty) (d : Dst) (a : Sel)
  | movi (g : Guard) (ty : Ty) (d : Dst) (v : BitVec 20)
  | movl (g : Guard) (ty : Ty) (d : Dst) (v : W64)
  | pand (g : Guard) (d a b : BitVec 4)
  | por (g : Guard) (d a b : BitVec 4)
  | pxor (g : Guard) (d a b : BitVec 4)
  | pnot (g : Guard) (d a : BitVec 4)
  | pset (g : Guard) (d : BitVec 4) (a : Sel) (v : Bool)
  | pget (g : Guard) (d : Dst) (a : BitVec 4) (v : Bool)
  -- floating point (Tables 08.2, 08.5; R229 to R233)
  | fadd (g : Guard) (ty : Ty) (d : Dst) (a : Sel) (b : Opnd) (r : BitVec 2)
  | fsub (g : Guard) (ty : Ty) (d : Dst) (a : Sel) (b : Opnd) (r : BitVec 2)
  | fmul (g : Guard) (ty : Ty) (d : Dst) (a : Sel) (b : Opnd) (r : BitVec 2)
  | fma (g : Guard) (ty : Ty) (d : Dst) (a : Sel) (b : Opnd10) (c : Sel) (np nc : Bool) (r : BitVec 2)
  | fmin (g : Guard) (ty : Ty) (d : Dst) (a : Sel) (b : Opnd)
  | fmax (g : Guard) (ty : Ty) (d : Dst) (a : Sel) (b : Opnd)
  | fcmp (g : Guard) (ty : Ty) (p : BitVec 4) (a : Sel) (b : Opnd) (cond : FCond) (m : Comb)
  | frnd (g : Guard) (ty : Ty) (d : Dst) (a : Sel) (r : BitVec 2)
  | fclass (g : Guard) (ty : Ty) (p : BitVec 4) (a : Sel) (mask : BitVec 10) (m : Comb)
  | fdiv (g : Guard) (ty : Ty) (d : BitVec 8) (a : Sel) (b : Opnd) (r : BitVec 2)
  | h2add (g : Guard) (ty : Ty) (d : Dst) (a : Sel) (b : Opnd) (bf : Bool) (r : BitVec 2)
  | h2mul (g : Guard) (ty : Ty) (d : Dst) (a : Sel) (b : Opnd) (bf : Bool) (r : BitVec 2)
  | h2fma (g : Guard) (ty : Ty) (d : Dst) (a : Sel) (b : Opnd) (c : Sel) (bf : Bool) (r : BitVec 2)
  | fdot2 (g : Guard) (ty : Ty) (d : Dst) (a : Sel) (b : Opnd) (c : Sel) (bf : Bool) (r : BitVec 2)
  | rcp (g : Guard) (ty : Ty) (d : Dst) (a : Sel) (acc : Bool)
  | rsq (g : Guard) (ty : Ty) (d : Dst) (a : Sel) (acc : Bool)
  | sqrt (g : Guard) (ty : Ty) (d : Dst) (a : Sel) (acc : Bool)
  | exp2 (g : Guard) (ty : Ty) (d : Dst) (a : Sel) (acc : Bool)
  | log2 (g : Guard) (ty : Ty) (d : Dst) (a : Sel) (acc : Bool)
  | sin (g : Guard) (ty : Ty) (d : Dst) (a : Sel) (acc : Bool)
  | cos (g : Guard) (ty : Ty) (d : Dst) (a : Sel) (acc : Bool)
  | tanh (g : Guard) (ty : Ty) (d : Dst) (a : Sel) (acc : Bool)
  | sigm (g : Guard) (ty : Ty) (d : Dst) (a : Sel) (acc : Bool)
  | cvt (g : Guard) (ty : Ty) (d : Dst) (a : Sel) (dst src : CvtFmt) (cm : CMode) (r : BitVec 2)
  | cvts (g : Guard) (d : Dst) (a : Sel) (dst : CvtFmt) (cm : CMode)
  -- block-aware and cross-lane (Table 08.9; R244 to R248)
  | bmax (g : Guard) (d : Dst) (a : Sel)
  | bscale (g : Guard) (d : Dst) (a : Sel) (f : ElemFmt)
  | bqnt (g : Guard) (ty : Ty) (d : BitVec 8) (a b : Sel) (f : ElemFmt) (j : BitVec 3) (lay : Bool) (cm : CMode)
      (r : Rnd)
  | bdq (g : Guard) (d : Dst) (a : Sel) (j : BitVec 3)
  | brsc (g : Guard) (d : Dst) (a : Sel) (mode : BrscMode) (cm : CMode) (r : Rnd)
  | bsum (g : Guard) (d : Dst) (a : Sel) (j : BitVec 3) (all : Bool) (r : BitVec 2)
  | sget (g : Guard) (d : Dst) (a : Sel) (j : BitVec 3) (fmt : Bool)
  | sset (g : Guard) (ty : Ty) (d : Dst) (a b : Sel) (j : BitVec 3) (fmt : Bool)
  | bpack (g : Guard) (d : BitVec 8) (a : Sel) (j : BitVec 3)
  | bunpk (g : Guard) (d : Dst) (a : Sel) (j : BitVec 3) (s : Bool)
  | shflIdx (g : Guard) (ty : Ty) (d : Dst) (a : Sel) (b : ShAmt) (c : Sel)
  | shflUp (g : Guard) (ty : Ty) (d : Dst) (a : Sel) (b : ShAmt) (c : Sel)
  | shflDown (g : Guard) (ty : Ty) (d : Dst) (a : Sel) (b : ShAmt) (c : Sel)
  | shflXor (g : Guard) (ty : Ty) (d : Dst) (a : Sel) (b : ShAmt) (c : Sel)
  | vote (g : Guard) (d : Dst) (p : BitVec 4) (m : VoteMode)
  | lred (g : Guard) (d : Dst) (a : Sel) (op : LaneOp) (r : BitVec 2)
  | lscan (g : Guard) (d : Dst) (a : Sel) (op : LaneOp) (excl : Bool) (r : BitVec 2)
  | lmatch (g : Guard) (d : Dst) (a : Sel)
  -- memory and atomics (Table 09.1)
  | ld (g : Guard) (d : BitVec 8) (a : Sel) (w : LdW) (prv scl : Bool) (o : Ord)
  | st (g : Guard) (a b : Sel) (w : StW) (prv scl : Bool) (o : Ord)
  | lds (g : Guard) (d : Dst) (a : Sel) (w : LdW) (scl : Bool) (o : Ord)
  | sts (g : Guard) (a b : Sel) (w : StW) (scl : Bool) (o : Ord)
  | ldc (g : Guard) (d : BitVec 8) (a : Sel) (w : LdW) (scl : Bool)
  | ldb (g : Guard) (d : Dst) (a : Sel) (sp : LineSp)
  | stb (g : Guard) (a b : Sel) (sp : LineSp)
  | pref (g : Guard) (a : Sel) (scl l1 : Bool)
  | stm (g : Guard) (a b : Sel) (w : StW) (k : BitVec 2)
  | atom (g : Guard) (d : BitVec 8) (a b : Sel) (op : AtomOp) (b64 scl : Bool) (o : Ord)
  | cas (g : Guard) (d : BitVec 8) (a b : Sel) (b64 scl : Bool) (o : Ord)
  | red (g : Guard) (a b : Sel) (op : AtomOp) (b64 scl : Bool) (o : Ord)
  | atoms (g : Guard) (d : BitVec 8) (a b : Sel) (op : AtomOp) (b64 scl : Bool) (o : Ord)
  | cass (g : Guard) (d : BitVec 8) (a b : Sel) (b64 scl : Bool) (o : Ord)
  -- ordering, barriers, speculation (R265; Tables 09.8, 09.10)
  | fence (g : Guard) (s : Scope) (k : FenceKind)
  | fenceDevSc (g : Guard)
  | binit (g : Guard) (a : Sel) (n : BCount)
  | arrive (g : Guard) (a : Sel) (cnt : Option Sel) (s : Option Scope)
  | arriveYard (g : Guard) (k : BitVec 2) (cnt : Option Sel) (dev : Bool)
  | expect (g : Guard) (r : BarRef) (b : Sel)
  | wait (g : Guard) (r : BarRef) (b : Sel)
  | waitBatch (g : Guard) (b : Sel)
  | testp (g : Guard) (p : BitVec 4) (r : TestRef) (b : Sel)
  | watch (g : Guard) (d : Dst) (a b : Sel)
  | unwatch (g : Guard) (a : Sel)
  | tryT (g : Guard) (disp : BitVec 20)
  | tryL (g : Guard) (disp : BitVec 20) (rdisp : BitVec 18)
  | commit (g : Guard) (s : Scope)
  | commitSplit (g : Guard) (s : Scope)
  | abort (g : Guard) (code : BitVec 8)
  | abortl (g : Guard) (code : BitVec 8)
  | tstat (g : Guard) (d : Dst) (k : BitVec 2)
  | sqocc (g : Guard) (d : Dst)
  | sbget (g : Guard) (d : Dst)
  -- engines (Table 10.1)
  | cpy (g : Guard) (pb : PBlock)
  | cbatch (g : Guard) (d : Dst)
  | mma (g : Guard) (pb : PBlock)
  | mzero (g : Guard) (a b : Sel)
  | mload (g : Guard) (d : BitVec 8) (a : Sel) (n : MlN)
  | mstoreV (g : Guard) (a b : Sel)
  | mstoreS (g : Guard) (slot : Option SlotRef) (a b c : Sel)
  | actld (g : Guard) (slot : Option SlotRef) (a : Sel)
  | harn (g : Guard) (n : BitVec 4) (h : BitVec 3)
  | unharn (g : Guard)
  | slotw (g : Guard) (h : BitVec 2) (mask : BitVec 16)
  | coll (g : Guard) (pb : PBlock)
  | puts (g : Guard) (a b c : Sel) (spad : Bool)
  | gets (g : Guard) (a b c : Sel) (spad : Bool)
  | mirwWin (g : Guard) (a b : Sel) (k : BitVec 2)
  | mirwPort (g : Guard) (d : Dst) (a b : Sel)
  -- the pair form (R156)
  | pair (h0 h1 : Half) (hs : Bool)
  -- events: admission, retirement, launches
  | blockAdmission (launch : Nat)
  | teamRetirement (team : Nat)
  | blockRetirement (block : Nat)
  | launchAccept (part : Nat)
  | launchEnd (launch : Nat)
  | lnchDeferredAppend (team : Nat) (off : Bool)
  -- memory, clocks and caches
  | longLatencyResult (op : Nat)
  | storeQueueDrain (team : Nat)
  | storeApply (write : Nat)
  | clockAnnouncement (i : Nat)
  | loadService (op part : Nat) (reply : Option Reply)
  | writeWindowOpen (die stack : Nat)
  | rdcLineExpiry (die line : Nat)
  | scFenceSequence
  | budgetPeriod (die : Nat)
  | atomicApply (op part : Nat) (reply : Option Reply)
  | poundReplay (die slice : Nat)
  | atomicResend (op part : Nat)
  -- barriers, watches, speculation
  | remoteArrival (i : Nat)
  | watchEvent (i : Nat)
  | monitorLoss (die core i : Nat)
  | conflictNotice (i : Nat)
  -- engines
  | copyLanding (die core copy n : Nat)
  | mmaExecute (die core : Nat)
  | tileOpExecute (die core : Nat)
  | actldBankLoad (die core : Nat)
  | collDeclaration (coll : Nat) (reports : List CollReport) (decl : Option CollDecl)
  | collCreqReceive (m : CollMsg)
  | collCresultReceive (m : CollMsg)
  | collGrantReceive (m : CollMsg)
  | collClossReceive (m : CollMsg)
  | collChunkTimeout (coll chunk : Nat)
  | putsSignalArrival (i : Nat)
  | fabricIngressWrite (r : FabReq)
  | getsLanding (xfer n : Nat) (reply : Option Reply)
  | transferFailure (xfer code : Nat)
  | mirroredStoreArrival (i : Nat)
  -- contexts and partitions
  | timeSliceExpiry (part : Nat)
  | graceExpiry (part : Nat)
  | contextEviction (part : Nat)
  | contextStart (part : Nat)
  | partitionRelinquish (part : Nat)
  | imageLanding (i : Nat)
  | regsDeadlockPark (die core : Nat)
  | spillReturn (die core : Nat)
  | watchdogLimit (team : Nat)
  | faultEntryDeferred (die : Nat)
  | faultRetry (die : Nat) (seq : W16)
  | faultKill (die : Nat) (seq : W16)
  | lqpush (queue : Nat) (v : W64)
  | contextValidate (part slot : Nat) (v : W64)
  | contextEnd (part slot : Nat)
  | partdiesWrite (part : Nat) (v : W64)
  | debugHalt (part : Nat)
  | debugResume (part : Nat)
  | invalidateGo (v : W64)
  | invalidationComplete
  | migrationFenceArm (die n : Nat) (v : W64)
  | migrationRelease (die n : Nat) (v : W64)
  | migrationMove (die n : Nat)
  | migrationDone (die n : Nat)
  | pinWindowEnable (die n : Nat) (v : W64)
  | homecfgWrite (v : W64)
  | measurementExtend (v : W64)
  | attestationGo (v : W64)
  | attestationDone
  | xwinEnable (n : Nat) (v : W64)
  | telemetryCounterClear (die n : Nat)
  | registerWrite (pa : Nat) (v : W64)
  -- attachments, errors, package
  | cxlLinkFailure (port : Nat)
  | cxlCompletionTimeout (id : Nat)
  | fabricLinkUp (port : Nat) (caps : ExtBlock)
  | fabricTimeout (id : Nat)
  | pcieInboundRequest (relaxed : Bool) (op : HostOp)
  | uncorrectableError (site : ErrSite)
  | demandScrubWriteback (sector : Nat)
  | packageReset
  | mainPowerUp
  | supplyUndervoltage
  | powerCapSet (watts : Nat)
  | clockStepDown (mean10 : Nat)
  | clockStepUp (mean100 : Nat)
  | telemetrySample (power : Nat) (temps : List Nat)
  | datetimeSet (us : Nat)
  | firmwareUpdate (img : BootImage)
  | solnalAttestationRequest (nonce : List Byte)
  | ualinkLinkFailure (port : Nat)
  | hostCoreAccess (core : Nat) (op : HostOp)
  | chuteResend (write : Nat)
  | fabricWriteCompletion (id : Nat)
  | bootStageMeasurement (n : Nat) (img : BootImage)
  | standbyPowerUp
  | telemetryIntervalSet (ms : Nat)
  deriving DecidableEq, Repr

end Sys2Proof
end

