-- ==== Sys2Proof/WellFormed.lean ====
section
/-! DEFINITION. Which instructions have an encoding: register indexes in range, suppressed destinations with index 0,
operand forms and modifiers that the entries list (R137 to R140, R146, R160, R185, R218, R252 to R254, R291). -/

namespace Sys2Proof

/-- The register file a field names. -/
inductive Kind
  | v | s
  deriving DecidableEq, Repr

/-- The files of D, A and C, and of B, under a TY (Table 05.2). -/
def Ty.kind : Ty → Kind
  | .scal => .s
  | _ => .v
def Ty.kindB : Ty → Kind
  | .vec => .v
  | _ => .s

/-- A scalar index lies below 64 (R137). -/
def idxOk (k : Kind) (i : BitVec 8) : Bool := k = .v || i.toNat < 64

def Sel.ok (k : Kind) : Sel → Bool
  | .reg i _ => idxOk k i
  | .latch _ => true

/-- A selector of a register group of n registers: aligned, and a latch only when n is 1 (R254). -/
def Sel.okGroup (k : Kind) (n : Nat) : Sel → Bool
  | .reg i _ => idxOk k i && i.toNat % n = 0
  | .latch _ => n = 1

/-- A destination: index 0 when suppressed (R146). -/
def Dst.ok (k : Kind) (d : Dst) : Bool := idxOk k d.idx && (!d.ws || d.idx = 0)

/-- Source B: the I and L forms replace B, which TY 10 forbids (R185, R218). -/
def Opnd.ok (ty : Ty) : Opnd → Bool
  | .sel s => s.ok ty.kindB
  | .imm _ => ty ≠ .mix
  | .lit _ => ty ≠ .mix

/-- Source B that may be a register or a literal only. -/
def Opnd.okRL (ty : Ty) : Opnd → Bool
  | .sel s => s.ok ty.kindB
  | .imm _ => false
  | .lit _ => ty ≠ .mix

/-- Source C in the forms R and I(C) (R185). -/
def Opnd10.okC (ty : Ty) : Opnd10 → Bool
  | .sel s => s.ok ty.kind
  | .imm _ => true
  | .lit _ => false

/-- FMA's source B (Table 08.1). -/
def Opnd10.okB (ty : Ty) : Opnd10 → Bool
  | .sel s => s.ok ty.kindB
  | .imm _ => ty ≠ .mix
  | .lit _ => ty ≠ .mix

def intB (ty : Ty) (d : Dst) (a : Sel) (b : Opnd) : Bool := d.ok ty.kind && a.ok ty.kind && b.ok ty
def intRL (ty : Ty) (d : Dst) (a : Sel) (b : Opnd) : Bool := d.ok ty.kind && a.ok ty.kind && b.okRL ty
def unary (ty : Ty) (d : Dst) (a : Sel) : Bool := d.ok ty.kind && a.ok ty.kind
/-- Special functions and CVT take TY 00 and 01 only (R229, R231). -/
def unaryVS (ty : Ty) (d : Dst) (a : Sel) : Bool := ty ≠ .mix && unary ty d a
def vecUn (d : Dst) (a : Sel) : Bool := d.ok .v && a.ok .v

/-- A predicate destination is p1 to p15 (R193). -/
def predD (p : BitVec 4) : Bool := p ≠ 0

/-- Registers per value of a load or store width (Table 09.2). -/
def LdW.regs : LdW → Nat
  | .b64 => 2
  | .b128 => 4
  | _ => 1
def StW.regs : StW → Nat
  | .b64 => 2
  | .b128 => 4
  | _ => 1

/-- Legal ORD fields of a load, a store and an atomic (R253); a 128-bit access carries no annotation. -/
def Ord.okLd (o : Ord) (wide : Bool) : Bool :=
  (o.ann = .plain && o.scope = none) || ((o.ann = .rlx || o.ann = .acq) && !wide)
def Ord.okSt (o : Ord) (wide : Bool) : Bool :=
  (o.ann = .plain && o.scope = none) || ((o.ann = .rlx || o.ann = .rel) && !wide)
/-- On an atomic ANN 0 is written rlx (R253). -/
def Ord.okAt (o : Ord) : Bool := o.ann ≠ .plain

/-- A global address: a vector pair, or a scalar (Table 09.4). -/
def addrOk (scl : Bool) (a : Sel) : Bool := if scl then a.ok .s else a.okGroup .v 2
/-- An offset: a vector register or latch, or a scalar. -/
def offOk (scl : Bool) (a : Sel) : Bool := if scl then a.ok .s else a.ok .v
/-- A data group of n registers, or a scalar; a .scl form holds at most 64 bits (R252). -/
def dataOk (scl : Bool) (n : Nat) (b : Sel) : Bool := if scl then n ≠ 4 && b.ok .s else b.okGroup .v n
def destOk (scl : Bool) (n : Nat) (d : BitVec 8) : Bool :=
  if scl then n ≠ 4 && idxOk .s d else d.toNat % n = 0

/-- Operations that a .b64 atomic may name (Table 09.5). -/
def AtomOp.ok64 : AtomOp → Bool
  | .fadd | .fmin | .fmax => false
  | _ => true

def BarRef.ok : BarRef → Bool
  | .local a => a.ok .s
  | .yard _ => true

/-- COMMIT names scope 2 to 5 (R279). -/
def Scope.okCommit (s : Scope) : Bool := s ≠ .team

/-- A marker of the given width names s0 to s63 (R154). -/
def markerOk (w : Nat) (v : Nat) : Bool := !(v / 256 = 2 ^ (w - 8) - 1 && 64 ≤ v % 256)
/-- The 32-bit and 16-bit fields of a word, by position. -/
def okMark32 (w : W64) (lo : Nat) : Bool := markerOk 32 (w.extractLsb' lo 32).toNat
def okMark16 (w : W64) (lo : Nat) : Bool := markerOk 16 (w.extractLsb' lo 16).toNat
def okMark64 (w : W64) : Bool := markerOk 64 w.toNat

/-- First extension word that holds a reserved marker (Tables 10.3, 10.5, 10.6). -/
def cpyMark (p : PBlock) : Option Nat :=
  if !okMark64 p.w0 then some 1
  else if !okMark64 p.w1 then some 2
  else if !(okMark32 p.w2 32 && okMark16 p.w2 16 && okMark16 p.w2 0) then some 3
  else if !(okMark16 p.w3 48 && okMark16 p.w3 32) then some 4
  else none
def mmaMark (p : PBlock) : Option Nat :=
  if !(okMark32 p.w0 32 && okMark16 p.w0 16) then some 1
  else if !(okMark32 p.w1 32 && okMark16 p.w1 16) then some 2
  else if !(okMark16 p.w2 48 && okMark16 p.w2 32 && okMark16 p.w2 16 && okMark16 p.w2 0) then some 3
  else none
def collMark (p : PBlock) : Option Nat :=
  if !(okMark32 p.w0 32 && okMark32 p.w0 0) then some 1
  else if !(okMark32 p.w1 32 && okMark32 p.w1 0) then some 2
  else if !okMark64 p.w2 then some 3
  else if !(okMark16 p.w3 48 && okMark16 p.w3 32) then some 4
  else none

/-- Blocks per line (Table 02.5). -/
def ElemFmt.blocks : ElemFmt → Nat
  | .e4m3 | .e5m2 | .mxint8 => 4
  | .e3m2 | .e2m3 => 5
  | .e2m1 => 8

def CvtFmt.isElem : CvtFmt → Bool
  | .elem _ => true
  | _ => false

/-- Pairs of Table 08.7. -/
def cvtOk (dst src : CvtFmt) : Bool :=
  dst ≠ src && ((!dst.isElem && !src.isElem) || (src = .f32 && dst.isElem) || (src.isElem && dst = .f32))
/-- Destinations of CVTS (R233). -/
def cvtsOk : CvtFmt → Bool
  | .f16 | .bf16 | .int16 | .int8 | .uint8 | .elem _ => true
  | _ => false

/-- A pair half runs on the scalar unit only where Table 05.15 allows it. -/
def POp.scalOk : POp → Bool
  | .fadd _ | .fsub _ | .fmul _ | .fmin | .fmax | .h2add _ | .h2mul _ => false
  | _ => true

def Half.ok (k : Kind) (h : Half) : Bool := idxOk k h.d && h.a.ok k && (k = .v || h.op.scalOk)

/-- The register a half reads as A, if any. -/
def Sel.regIdx : Sel → Option (BitVec 8)
  | .reg i _ => some i
  | .latch _ => none

/-- R158: D banks differ, A banks differ, and neither half reads what the other writes in the same file. -/
def pairOk (h0 h1 : Half) (hs : Bool) : Bool :=
  h0.d.toNat % 4 ≠ h1.d.toNat % 4
    && (match h0.a.regIdx, h1.a.regIdx with
        | some i, some j => i.toNat % 4 ≠ j.toNat % 4
        | _, _ => true)
    && (hs || (h0.a.regIdx ≠ some h1.d && h1.a.regIdx ≠ some h0.d))

def SpecReg.isVec : SpecReg → Bool
  | .laneid => true
  | _ => false
def SpecReg.isFaultrec : SpecReg → Bool
  | .faultrec _ => true
  | _ => false

/-- The slot field of MSTORE.S and ACTLD needs no check: SETEN 0 leaves it zero. -/
def Instr.wf : Instr → Bool
  | .nop _ | .bra _ _ _ | .brc _ _ _ | .reconv _ | .exit _ | .yield _ | .trap _ _ | .tfence _ | .bkpt _ | .reth _ => true
  | .brx _ a _ | .ret _ a => a.ok .s
  | .call _ d _ | .loop _ d _ => idxOk .s d
  | .callx _ d a => idxOk .s d && a.ok .s
  | .lnch _ d a b _ => d.ok .s && a.ok .s && b.ok .s
  | .mfs _ d r => d.ok (if r.isVec then .v else .s) && !(d.ws && r.isFaultrec)
  | .mts _ r a => a.ok .s && r ∉ [.faultrec 1, .faultrec 2, .faultrec 3, .faultrec 4, .faultrec 5, .faultrec 6, .faultrec 7]
  | .iadd _ ty d a b _ | .isub _ ty d a b _ => intB ty d a b
  | .iaddc _ ty d a b c _ =>
    d.ok ty.kind && a.ok ty.kind && b.okRL ty && c.okC ty
      && (match b, c with | .lit _, .imm _ => false | _, _ => true)
  | .imul _ ty d a b | .and _ ty d a b | .or _ ty d a b | .xor _ ty d a b | .andn _ ty d a b | .shl _ ty d a b
  | .shr _ ty d a b | .sar _ ty d a b => intB ty d a b
  | .imulh _ ty d a b _ | .imulw _ ty d a b _ | .imin _ ty d a b _ | .imax _ ty d a b _ | .rot _ ty d a b _
  | .bfx _ ty d a b _ => intB ty d a b
  | .imad _ ty d a b c => intRL ty d a b && c.ok ty.kind
  | .idiv _ ty d a b _ | .irem _ ty d a b _ => idxOk ty.kind d && a.ok ty.kind && b.ok ty
  | .iabs _ ty d a _ | .popc _ ty d a | .clz _ ty d a | .ctz _ ty d a | .brev _ ty d a => unary ty d a
  | .shf _ ty d a b c _ => d.ok ty.kind && a.ok ty.kind && b.ok ty.kindB && c.okC ty
  | .bfi _ ty d a b c =>
    d.ok ty.kind && a.ok ty.kind && b.okRL ty && c.okC ty
      && (match b, c with | .lit _, .imm _ => false | _, _ => true)
  | .lea _ ty d a b k w32 => intB ty d a b && k.toNat ≤ 4 && (!w32 || ty = .scal)
  | .icmp _ ty p a b _ _ => predD p && a.ok ty.kind && b.ok ty
  | .isel _ ty d a b _ => intRL ty d a b
  | .mov _ ty d a => d.ok ty.kind && a.ok (if ty = .mix then .s else ty.kind)
  | .movi _ ty d _ => d.ok ty.kind
  | .movl _ ty d _ => d.ok ty.kind
  | .pand _ d _ _ | .por _ d _ _ | .pxor _ d _ _ => predD d
  | .pnot _ d _ => predD d
  | .pset _ d a v => predD d && a.ok (if v then .v else .s)
  | .pget _ d _ v => d.ok (if v then .v else .s)
  | .fadd _ ty d a b _ | .fsub _ ty d a b _ | .fmul _ ty d a b _ => intB ty d a b
  | .fma _ ty d a b c _ _ _ => d.ok ty.kind && a.ok ty.kind && b.okB ty && c.ok ty.kind
  | .fmin _ ty d a b | .fmax _ ty d a b => intB ty d a b
  | .fcmp _ ty p a b _ _ => predD p && a.ok ty.kind && b.ok ty
  | .frnd _ ty d a _ => unaryVS ty d a
  | .fclass _ ty p a _ _ => ty ≠ .mix && predD p && a.ok ty.kind
  | .fdiv _ ty d a b _ => idxOk ty.kind d && a.ok ty.kind && b.ok ty
  | .h2add _ ty d a b _ _ | .h2mul _ ty d a b _ _ => intRL ty d a b
  | .h2fma _ ty d a b c _ _ | .fdot2 _ ty d a b c _ _ => intRL ty d a b && c.ok ty.kind
  | .rcp _ ty d a acc | .rsq _ ty d a acc | .sqrt _ ty d a acc | .exp2 _ ty d a acc | .log2 _ ty d a acc
  | .sin _ ty d a acc | .cos _ ty d a acc | .tanh _ ty d a acc | .sigm _ ty d a acc =>
    unaryVS ty d a && !(acc && d.ws)
  | .cvt _ ty d a dst src _ _ => unaryVS ty d a && cvtOk dst src
  | .cvts _ d a dst _ => vecUn d a && cvtsOk dst
  | .bmax _ d a | .bscale _ d a _ | .bdq _ d a _ | .bunpk _ d a _ _ | .lmatch _ d a => vecUn d a
  | .bqnt _ ty _ a b f j _ _ _ => ty ≠ .scal && a.ok .v && b.ok ty.kindB && j.toNat < f.blocks
  | .brsc _ d a mode _ _ => vecUn d a && (match mode with | .shift k => k.ok .s | _ => true)
  | .bsum _ d a j all _ => vecUn d a && (!all || j = 0)
  | .sget _ d a j fmt => vecUn d a && (!fmt || j = 0)
  | .sset _ ty d a b j fmt => ty ≠ .scal && vecUn d a && b.ok ty.kindB && (!fmt || j = 0)
  | .bpack _ _ a _ => a.ok .v
  | .shflIdx _ ty d a b c | .shflUp _ ty d a b c | .shflDown _ ty d a b c | .shflXor _ ty d a b c =>
    ty ≠ .scal && vecUn d a && c.ok .v && (match b with | .sel s => s.ok ty.kindB | .imm _ => ty = .vec)
  | .vote _ d _ _ => d.ok .v
  | .lred _ d a op r => vecUn d a && (op = .fadd || r = 0)
  | .lscan _ d a op _ r => vecUn d a && (op = .fadd || r = 0)
  | .ld _ d a w prv scl o =>
    (if prv then offOk scl a else addrOk scl a) && destOk scl w.regs d && o.okLd (w = .b128)
  | .st _ a b w prv scl o =>
    (if prv then offOk scl a else addrOk scl a) && dataOk scl w.regs b && o.okSt (w = .b128)
  | .lds _ d a w scl o =>
    offOk scl a && destOk scl w.regs d.idx && (!d.ws || d.idx = 0) && o.okLd (w = .b128)
  | .sts _ a b w scl o => offOk scl a && dataOk scl w.regs b && o.okSt (w = .b128)
  | .ldc _ d a w scl => offOk scl a && destOk scl w.regs d
  | .ldb _ d a sp => a.ok .s && d.ok .v && !(d.ws && sp ≠ .spad)
  | .stb _ a b _ => a.ok .s && b.ok .v
  | .pref _ a scl _ => addrOk scl a
  | .stm _ a b w _ => a.ok .v && b.okGroup .v w.regs
  | .atom _ d a b op b64 scl o =>
    addrOk scl a && dataOk scl (if b64 then 2 else 1) b && destOk scl (if b64 then 2 else 1) d
      && (!b64 || op.ok64) && o.okAt
  | .cas _ d a b b64 scl o =>
    addrOk scl a && dataOk scl (if b64 then 2 else 1) b && destOk scl (if b64 then 2 else 1) d && o.okAt
  | .red _ a b op b64 scl o =>
    addrOk scl a && dataOk scl (if b64 then 2 else 1) b && (!b64 || op.ok64) && o.okAt
  | .atoms _ d a b op b64 scl o =>
    offOk scl a && dataOk scl (if b64 then 2 else 1) b && destOk scl (if b64 then 2 else 1) d
      && (!b64 || op.ok64) && o.okAt
  | .cass _ d a b b64 scl o =>
    offOk scl a && dataOk scl (if b64 then 2 else 1) b && destOk scl (if b64 then 2 else 1) d && o.okAt
  | .fence _ _ _ | .fenceDevSc _ => true
  | .binit _ a n => a.ok .s && (match n with | .sel s => s.ok .s | .imm _ => true)
  | .arrive _ a cnt _ => a.ok .s && (match cnt with | some s => s.ok .s | none => true)
  | .arriveYard _ _ cnt _ => (match cnt with | some s => s.ok .s | none => true)
  | .expect _ r b | .wait _ r b => r.ok && b.ok .s
  | .waitBatch _ b => b.ok .s
  | .testp _ p r b => predD p && b.ok .s && (match r with | .bar r => r.ok | .batch => true)
  | .watch _ d a b => d.ok .s && a.ok .s && b.ok .s
  | .unwatch _ a => a.ok .s
  | .tryT _ _ | .tryL _ _ _ | .abort _ _ | .abortl _ _ => true
  | .commit _ s | .commitSplit _ s => s.okCommit
  | .tstat _ d k => d.ok .s && k.toNat < 3
  | .sqocc _ d | .sbget _ d | .cbatch _ d => d.ok .s
  | .cpy _ pb => cpyMark pb = none
  | .mma _ pb => mmaMark pb = none
  | .coll _ pb => collMark pb = none
  | .mzero _ a b => a.ok .s && b.ok .s
  | .mload _ d a n => a.ok .s && d.toNat % (match n with | .x1 => 1 | .x2 => 2 | .x4 => 4) = 0
  | .mstoreV _ a b => a.ok .s && b.ok .v
  | .mstoreS _ _ a b c => a.ok .s && b.ok .s && c.ok .s
  | .actld _ _ a => a.ok .s
  | .harn _ _ _ | .unharn _ => true
  | .slotw _ _ mask => mask ≠ 0
  | .puts _ a b c _ | .gets _ a b c _ => a.ok .s && b.ok .s && c.ok .s
  | .mirwWin _ a b _ => a.ok .s && b.ok .s
  | .mirwPort _ d a b => d.ok .s && a.ok .s && b.ok .s
  | .pair h0 h1 hs => h0.ok .v && h1.ok (if hs then .s else .v) && pairOk h0 h1 hs
  -- events have no encoding
  | _ => false

end Sys2Proof
end

