-- ==== Sys2Proof/Decode.lean ====
section
/-! DEFINITION. From instruction words to instructions and back (05_instruction_word_and_opcode_map.md; the encoding tables
of 07 to 10). A word becomes the fields of Table 05.1, the fields become an instruction or a named refusal; the encoder
goes the other way from the same tables. -/

namespace Sys2Proof

/-- Why an encoding is illegal (R160). `word` is the index of the offending word: 0, or 1 to 4 for an extension word. -/
inductive DecErr
  | reservedOp | reservedFn | reservedTy | reservedM | nonZeroField | badIndex | badSelector | badSuppress
  | badExtension | badPair
  | badMarker (word : Nat)
  /-- too few extension words were given -/
  | short
  deriving DecidableEq, Repr

/-- DETAIL of the illegal-instruction fault (Table 16.1). -/
def DecErr.word : DecErr → Nat
  | .badMarker n => n
  | _ => 0

abbrev Dec (α : Type) := Except DecErr α

/-- A check that refuses by name. -/
def req (c : Bool) (e : DecErr) : Dec Unit := if c then .ok () else .error e

/-- The fields of a full-form word (Table 05.1). -/
structure Fields where
  op : BitVec 7
  fn : BitVec 6
  ty : BitVec 2
  d : BitVec 8
  ws : BitVec 1
  a : BitVec 10
  b : BitVec 10
  c : BitVec 10
  g : BitVec 4
  gn : BitVec 1
  m : BitVec 3
  x : BitVec 1
  deriving DecidableEq, Repr

/-- Table 05.1, from a word. -/
def unpack (w : W64) : Fields :=
  { op := w.extractLsb' 56 7, fn := w.extractLsb' 50 6, ty := w.extractLsb' 48 2, d := w.extractLsb' 40 8,
    ws := w.extractLsb' 39 1, a := w.extractLsb' 29 10, b := w.extractLsb' 19 10, c := w.extractLsb' 9 10,
    g := w.extractLsb' 5 4, gn := w.extractLsb' 4 1, m := w.extractLsb' 1 3, x := w.extractLsb' 0 1 }

/-- Table 05.1, to a word with bit 63 zero. -/
def pack (f : Fields) : W64 :=
  0#1 ++ f.op ++ f.fn ++ f.ty ++ f.d ++ f.ws ++ f.a ++ f.b ++ f.c ++ f.g ++ f.gn ++ f.m ++ f.x

/-- Bits [28:9], [38:9] and the RDISP field (R139, R198). -/
def Fields.imm20 (f : Fields) : BitVec 20 := f.b ++ f.c
def Fields.disp30 (f : Fields) : BitVec 30 := f.a ++ f.b ++ f.c
def Fields.rdisp (f : Fields) : BitVec 18 := f.d ++ f.a

/-! ## Codes of the small types -/

def Ty.code : Ty → BitVec 2
  | .vec => 0 | .scal => 1 | .mix => 2
def Rnd.code : Rnd → BitVec 3
  | .rn => 0 | .rz => 1 | .ru => 2 | .rd => 3 | .sr => 4
def SatMode.code : SatMode → BitVec 3
  | .wrap => 0 | .sat => 1 | .usat => 2
def ICond.code : ICond → BitVec 4
  | .eq => 0 | .ne => 1 | .lt => 2 | .le => 3 | .gt => 4 | .ge => 5 | .ltu => 6 | .leu => 7 | .gtu => 8 | .geu => 9
def FCond.code : FCond → BitVec 4
  | .eq => 0 | .ne => 1 | .lt => 2 | .le => 3 | .gt => 4 | .ge => 5 | .num => 6 | .nan => 7
def Comb.code : Comb → BitVec 3
  | .set => 0 | .and => 1 | .or => 2
def BrMode.code : BrMode → BitVec 3
  | .uniform => 0 | .any => 1 | .all => 2
/-- Format codes of Table 02.2. -/
def ElemFmt.code : ElemFmt → BitVec 3
  | .e4m3 => 1 | .e5m2 => 2 | .e3m2 => 3 | .e2m3 => 4 | .e2m1 => 5 | .mxint8 => 6
/-- Format numbers of Table 08.6. -/
def CvtFmt.code : CvtFmt → BitVec 4
  | .f32 => 0 | .f16 => 1 | .bf16 => 2 | .int32 => 3 | .uint32 => 4 | .int16 => 5 | .int8 => 6 | .uint8 => 7
  | .elem f => 1#1 ++ f.code
def CMode.code : CMode → BitVec 1
  | .sat => 0 | .special => 1
/-- Special-register numbers (Table 07.11). -/
def SpecReg.code : SpecReg → BitVec 6
  | .laneid => 0 | .teamid => 1 | .blockid => 2 | .yard k => 1#4 ++ k | .nearmask => 8 | .offmask => 9 | .flags => 0x10
  | .flagen => 0x11 | .seed => 0x12 | .trystat => 0x18 | .stqocc => 0x20 | .sbleft => 0x21 | .sbmode => 0x22
  | .cycle => 0x28 | .faultrec _ => 0x30
/-- Width codes of Table 09.2. -/
def LdW.code : LdW → BitVec 3
  | .u8 => 0 | .s8 => 1 | .u16 => 2 | .s16 => 3 | .b32 => 4 | .b64 => 5 | .b128 => 6
def StW.code : StW → BitVec 3
  | .b8 => 0 | .b16 => 2 | .b32 => 4 | .b64 => 5 | .b128 => 6
/-- Scope codes of Table 09.3. -/
def Scope.code : Scope → BitVec 3
  | .team => 1 | .blk => 2 | .die => 3 | .dev => 4 | .fab => 5
def Ann.code : Ann → BitVec 3
  | .plain => 0 | .rlx => 1 | .acq => 2 | .rel => 3 | .ar => 4
def scopeCode : Option Scope → BitVec 3
  | none => 0
  | some s => s.code
/-- The ORD field of a load or a store. -/
def Ord.code (o : Ord) : BitVec 10 := 0#4 ++ scopeCode o.scope ++ o.ann.code
/-- On an atomic, .rlx is ANN 0 (R253). -/
def Ord.codeAt (o : Ord) : BitVec 10 := 0#4 ++ scopeCode o.scope ++ (if o.ann = .rlx then 0 else o.ann.code)
def LineSp.code : LineSp → BitVec 6
  | .g => 0 | .prv => 1 | .spad => 2
def AtomOp.code : AtomOp → BitVec 4
  | .add => 0 | .min => 1 | .max => 2 | .umin => 3 | .umax => 4 | .and => 5 | .or => 6 | .xor => 7 | .exch => 8
  | .fadd => 9 | .fmin => 10 | .fmax => 11
def LaneOp.code : LaneOp → BitVec 5
  | .iadd => 0 | .imin => 1 | .imax => 2 | .umin => 3 | .umax => 4 | .and => 5 | .or => 6 | .xor => 7 | .fadd => 8
  | .fmin => 9 | .fmax => 10
def VoteMode.code : VoteMode → BitVec 3
  | .mask => 0 | .some => 1 | .every => 2 | .agree => 3 | .count => 4
def FenceKind.code : FenceKind → BitVec 2
  | .r => 0 | .w => 1 | .rw => 2
def MlN.code : MlN → BitVec 3
  | .x1 => 0 | .x2 => 1 | .x4 => 2
/-- Pair opcodes and modifiers of Table 05.15. -/
def POp.code : POp → BitVec 6 × BitVec 3
  | .iadd => (1, 0) | .isub => (2, 0) | .imul => (3, 0) | .imin => (4, 0) | .imax => (5, 0) | .iabs => (6, 0)
  | .and => (7, 0) | .or => (8, 0) | .xor => (9, 0) | .andn => (10, 0) | .shl => (11, 0) | .shr => (12, 0)
  | .sar => (13, 0) | .mov => (14, 0) | .fadd r => (16, 0#1 ++ r) | .fsub r => (17, 0#1 ++ r)
  | .fmul r => (18, 0#1 ++ r) | .fmin => (19, 0) | .fmax => (20, 0)
  | .h2add bf => (21, 0#2 ++ BitVec.ofBool bf) | .h2mul bf => (22, 0#2 ++ BitVec.ofBool bf)

/-! ## Codes read back -/

def decTy (t : BitVec 2) : Dec Ty :=
  match t.toNat with
  | 0 => .ok .vec | 1 => .ok .scal | 2 => .ok .mix | _ => .error .reservedTy
def decRnd (m : BitVec 3) : Dec Rnd :=
  match m.toNat with
  | 0 => .ok .rn | 1 => .ok .rz | 2 => .ok .ru | 3 => .ok .rd | 4 => .ok .sr | _ => .error .reservedM
/-- A rounding code 0 to 3. -/
def decRnd4 (m : BitVec 3) : Dec (BitVec 2) := if m.toNat < 4 then .ok (m.extractLsb' 0 2) else .error .reservedM
def decSat (m : BitVec 3) : Dec SatMode :=
  match m.toNat with
  | 0 => .ok .wrap | 1 => .ok .sat | 2 => .ok .usat | _ => .error .reservedM
def decICond (c : BitVec 4) : Dec ICond :=
  match c.toNat with
  | 0 => .ok .eq | 1 => .ok .ne | 2 => .ok .lt | 3 => .ok .le | 4 => .ok .gt | 5 => .ok .ge | 6 => .ok .ltu
  | 7 => .ok .leu | 8 => .ok .gtu | 9 => .ok .geu | _ => .error .reservedFn
def decFCond (c : BitVec 4) : Dec FCond :=
  match c.toNat with
  | 0 => .ok .eq | 1 => .ok .ne | 2 => .ok .lt | 3 => .ok .le | 4 => .ok .gt | 5 => .ok .ge | 6 => .ok .num
  | 7 => .ok .nan | _ => .error .reservedFn
def decComb (m : BitVec 3) : Dec Comb :=
  match m.toNat with
  | 0 => .ok .set | 1 => .ok .and | 2 => .ok .or | _ => .error .reservedM
def decBrMode (m : BitVec 3) : Dec BrMode :=
  match m.toNat with
  | 0 => .ok .uniform | 1 => .ok .any | 2 => .ok .all | _ => .error .reservedM
def decElem (c : Nat) : Dec ElemFmt :=
  match c with
  | 1 => .ok .e4m3 | 2 => .ok .e5m2 | 3 => .ok .e3m2 | 4 => .ok .e2m3 | 5 => .ok .e2m1 | 6 => .ok .mxint8
  | _ => .error .reservedFn
def decCvt (c : Nat) : Dec CvtFmt :=
  match c with
  | 0 => .ok .f32 | 1 => .ok .f16 | 2 => .ok .bf16 | 3 => .ok .int32 | 4 => .ok .uint32 | 5 => .ok .int16
  | 6 => .ok .int8 | 7 => .ok .uint8 | 9 => .ok (.elem .e4m3) | 10 => .ok (.elem .e5m2) | 11 => .ok (.elem .e3m2)
  | 12 => .ok (.elem .e2m3) | 13 => .ok (.elem .e2m1) | 14 => .ok (.elem .mxint8) | _ => .error .reservedFn
def decSpec (fn : BitVec 6) (k : BitVec 3) : Dec SpecReg :=
  match fn.toNat with
  | 0 => .ok .laneid | 1 => .ok .teamid | 2 => .ok .blockid | 4 => .ok (.yard 0) | 5 => .ok (.yard 1)
  | 6 => .ok (.yard 2) | 7 => .ok (.yard 3) | 8 => .ok .nearmask | 9 => .ok .offmask | 0x10 => .ok .flags
  | 0x11 => .ok .flagen | 0x12 => .ok .seed | 0x18 => .ok .trystat | 0x20 => .ok .stqocc | 0x21 => .ok .sbleft
  | 0x22 => .ok .sbmode | 0x28 => .ok .cycle | 0x30 => .ok (.faultrec k) | _ => .error .reservedFn
def decLdW (c : Nat) : Dec LdW :=
  match c with
  | 0 => .ok .u8 | 1 => .ok .s8 | 2 => .ok .u16 | 3 => .ok .s16 | 4 => .ok .b32 | 5 => .ok .b64 | 6 => .ok .b128
  | _ => .error .reservedFn
def decStW (c : Nat) : Dec StW :=
  match c with
  | 0 => .ok .b8 | 2 => .ok .b16 | 4 => .ok .b32 | 5 => .ok .b64 | 6 => .ok .b128 | _ => .error .reservedFn
def decScope (c : Nat) (e : DecErr) : Dec (Option Scope) :=
  match c with
  | 0 => .ok none | 1 => .ok (some .team) | 2 => .ok (some .blk) | 3 => .ok (some .die) | 4 => .ok (some .dev)
  | 5 => .ok (some .fab) | _ => .error e
def decAnn (c : Nat) : Dec Ann :=
  match c with
  | 0 => .ok .plain | 1 => .ok .rlx | 2 => .ok .acq | 3 => .ok .rel | 4 => .ok .ar | _ => .error .nonZeroField
/-- The ORD field (R253); the caller checks what its class of access allows. -/
def decOrd (c : BitVec 10) : Dec Ord := do
  req (c.extractLsb' 6 4 = 0) .nonZeroField
  let s ← decScope (c.extractLsb' 3 3).toNat .nonZeroField
  let a ← decAnn (c.extractLsb' 0 3).toNat
  pure { ann := a, scope := s }
/-- On an atomic ANN 0 means .rlx and ANN 1 is reserved. -/
def decOrdAt (c : BitVec 10) : Dec Ord := do
  let o ← decOrd c
  req (o.ann ≠ .rlx) .nonZeroField
  pure { o with ann := if o.ann = .plain then .rlx else o.ann }
def decSp (c : BitVec 6) : Dec LineSp :=
  match c.toNat with
  | 0 => .ok .g | 1 => .ok .prv | 2 => .ok .spad | _ => .error .reservedFn
def decAtom (c : Nat) : Dec AtomOp :=
  match c with
  | 0 => .ok .add | 1 => .ok .min | 2 => .ok .max | 3 => .ok .umin | 4 => .ok .umax | 5 => .ok .and | 6 => .ok .or
  | 7 => .ok .xor | 8 => .ok .exch | 9 => .ok .fadd | 10 => .ok .fmin | 11 => .ok .fmax | _ => .error .reservedFn
def decLane (c : Nat) : Dec LaneOp :=
  match c with
  | 0 => .ok .iadd | 1 => .ok .imin | 2 => .ok .imax | 3 => .ok .umin | 4 => .ok .umax | 5 => .ok .and | 6 => .ok .or
  | 7 => .ok .xor | 8 => .ok .fadd | 9 => .ok .fmin | 10 => .ok .fmax | _ => .error .reservedFn
def decVote (m : BitVec 3) : Dec VoteMode :=
  match m.toNat with
  | 0 => .ok .mask | 1 => .ok .some | 2 => .ok .every | 3 => .ok .agree | 4 => .ok .count | _ => .error .reservedM
def decMl (m : BitVec 3) : Dec MlN :=
  match m.toNat with
  | 0 => .ok .x1 | 1 => .ok .x2 | 2 => .ok .x4 | _ => .error .reservedM
def decPOp (p : BitVec 6) (m : BitVec 3) : Dec POp := do
  let z : Dec Unit := req (m = 0) .reservedM
  match p.toNat with
  | 1 => z; pure .iadd
  | 2 => z; pure .isub
  | 3 => z; pure .imul
  | 4 => z; pure .imin
  | 5 => z; pure .imax
  | 6 => z; pure .iabs
  | 7 => z; pure .and
  | 8 => z; pure .or
  | 9 => z; pure .xor
  | 10 => z; pure .andn
  | 11 => z; pure .shl
  | 12 => z; pure .shr
  | 13 => z; pure .sar
  | 14 => z; pure .mov
  | 16 => pure (.fadd (← decRnd4 m))
  | 17 => pure (.fsub (← decRnd4 m))
  | 18 => pure (.fmul (← decRnd4 m))
  | 19 => z; pure .fmin
  | 20 => z; pure .fmax
  | 21 => req (m.toNat < 2) .reservedM; pure (.h2add (m.getLsbD 0))
  | 22 => req (m.toNat < 2) .reservedM; pure (.h2mul (m.getLsbD 0))
  | _ => .error .reservedOp

/-! ## Selectors and forms -/

/-- A source selector (R138). -/
def decSel (k : Kind) (r : BitVec 10) : Dec Sel := do
  let idx := r.extractLsb' 0 8
  if r.getLsbD 9 then
    req (!r.getLsbD 8 && idx.toNat < 4) .badSelector
    pure (.latch (r.extractLsb' 0 2))
  else
    req (idxOk k idx) .badIndex
    pure (.reg idx (r.getLsbD 8))
/-- A selector of a group of n registers (R254). -/
def decGroup (k : Kind) (n : Nat) (r : BitVec 10) : Dec Sel := do
  let s ← decSel k r
  req (s.okGroup k n) .badSelector
  pure s
def encSel : Sel → BitVec 10
  | .reg i l => 0#1 ++ BitVec.ofBool l ++ i
  | .latch n => 0x80#8 ++ n

/-- A predicate selector: L = 0, K = 0 and INDEX[7:4] zero (R194, R196). -/
def decPred (r : BitVec 10) : Dec (BitVec 4) := do
  req (r.toNat < 16) .badSelector
  pure (r.extractLsb' 0 4)
def encPred (p : BitVec 4) : BitVec 10 := 0#6 ++ p
/-- A predicate destination p1 to p15 (R193). -/
def decPredD (d : BitVec 8) : Dec (BitVec 4) := do
  req (d.toNat < 16 && d ≠ 0) .badIndex
  pure (d.extractLsb' 0 4)
def encPredD (p : BitVec 4) : BitVec 8 := 0#4 ++ p

/-- A destination that may be suppressed (R146). -/
def decDst (k : Kind) (f : Fields) : Dec Dst := do
  req (idxOk k f.d) .badIndex
  req (f.ws = 0 || f.d = 0) .badSuppress
  pure { idx := f.d, ws := f.ws = 1 }
/-- A destination that may not. -/
def decDstN (k : Kind) (f : Fields) : Dec (BitVec 8) := do
  req (f.ws = 0) .badSuppress
  req (idxOk k f.d) .badIndex
  pure f.d

def Fields.guard (f : Fields) : Guard := { p := f.g, neg := f.gn = 1 }

/-- Instructions with no extension word (R152). -/
def noExt (f : Fields) : Dec Unit := req (f.x = 0) .badExtension
/-- The one extension word of an L form. -/
def oneExt (f : Fields) (ext : List W64) : Dec W64 := do
  req (f.x = 1) .badExtension
  match ext with
  | w :: _ => pure w
  | [] => .error .short
/-- The four words of a parameter block. -/
def fourExt (f : Fields) (ext : List W64) : Dec PBlock := do
  req (f.x = 1) .badExtension
  match ext with
  | w0 :: w1 :: w2 :: w3 :: _ => pure { w0, w1, w2, w3 }
  | _ => .error .short

/-- What the two-source entries share: guard, TY, source A, source B in form R, I or L, variant bit. -/
structure TwoSrc where
  ty : Ty
  a : Sel
  b : Opnd
  var : Bool

/-- Source B under form FN[1:0] (Tables 07.1, 08.1); in forms R and L field C is left to the caller. -/
def decB (ty : Ty) (imm : Bool) (f : Fields) (ext : List W64) : Dec Opnd := do
  match (f.fn.extractLsb' 0 2).toNat with
  | 0 =>
    noExt f
    pure (.sel (← decSel ty.kindB f.b))
  | 1 =>
    req (imm && ty ≠ .mix) .reservedFn
    noExt f
    pure (.imm f.imm20)
  | 2 =>
    req (ty ≠ .mix) .reservedFn
    req (f.b = 0) .nonZeroField
    pure (.lit (← oneExt f ext))
  | _ => .error .reservedFn

/-- C is zero unless the I form of a B-immediate entry uses it (R140, R185). -/
def cZero (f : Fields) (b : Opnd) : Dec Unit :=
  match b with
  | .imm _ => pure ()
  | _ => req (f.c = 0) .nonZeroField

/-- The two-source entries: forms R, I(B), L; FN above the form is `hi`, checked by the caller. -/
def decTwo (imm : Bool) (f : Fields) (ext : List W64) : Dec (Ty × Sel × Opnd) := do
  let ty ← decTy f.ty
  let b ← decB ty imm f ext
  cZero f b
  let a ← decSel ty.kind f.a
  pure (ty, a, b)

/-- FN of the integer entries: [5:3] zero and the variant bit where the entry has one (R185). -/
def decVar (allowed : Bool) (f : Fields) : Dec Bool := do
  req (f.fn.extractLsb' 3 3 = 0 && (allowed || f.fn.getLsbD 2 = false)) .reservedFn
  pure (f.fn.getLsbD 2)

def m0 (f : Fields) : Dec Unit := req (f.m = 0) .reservedM
def fn0 (f : Fields) : Dec Unit := req (f.fn = 0) .reservedFn

def decInt (f : Fields) (ext : List W64) (mk : Guard → Ty → Dst → Sel → Opnd → Instr) : Dec Instr := do
  let _ ← decVar false f
  m0 f
  let (ty, a, b) ← decTwo true f ext
  pure (mk f.guard ty (← decDst ty.kind f) a b)
def decIntV (f : Fields) (ext : List W64) (mk : Guard → Ty → Dst → Sel → Opnd → Bool → Instr) : Dec Instr := do
  let v ← decVar true f
  m0 f
  let (ty, a, b) ← decTwo true f ext
  pure (mk f.guard ty (← decDst ty.kind f) a b v)
def decIntM (f : Fields) (ext : List W64) (mk : Guard → Ty → Dst → Sel → Opnd → SatMode → Instr) : Dec Instr := do
  let _ ← decVar false f
  let m ← decSat f.m
  let (ty, a, b) ← decTwo true f ext
  pure (mk f.guard ty (← decDst ty.kind f) a b m)
def decDiv (f : Fields) (ext : List W64) (mk : Guard → Ty → BitVec 8 → Sel → Opnd → Bool → Instr) : Dec Instr := do
  let v ← decVar true f
  m0 f
  let (ty, a, b) ← decTwo true f ext
  pure (mk f.guard ty (← decDstN ty.kind f) a b v)
/-- Source C in the forms R and I(C) of SHF, BFI and IADDC. -/
def decC10 (ty : Ty) (isImm : Bool) (f : Fields) : Dec Opnd10 := do
  if isImm then pure (.imm f.c) else pure (.sel (← decSel ty.kind f.c))
def decUn (f : Fields) (mk : Guard → Ty → Dst → Sel → Instr) : Dec Instr := do
  noExt f
  req (f.b = 0 && f.c = 0) .nonZeroField
  let ty ← decTy f.ty
  let a ← decSel ty.kind f.a
  pure (mk f.guard ty (← decDst ty.kind f) a)
/-- FP32 two-source entries (Table 08.2). -/
def decFp (f : Fields) (ext : List W64) (mk : Guard → Ty → Dst → Sel → Opnd → BitVec 2 → Instr) : Dec Instr := do
  req (f.fn.extractLsb' 2 4 = 0) .reservedFn
  let r ← decRnd4 f.m
  let (ty, a, b) ← decTwo true f ext
  pure (mk f.guard ty (← decDst ty.kind f) a b r)
/-- Packed entries (R228). -/
def decPk (f : Fields) (ext : List W64) : Dec (Ty × Dst × Sel × Opnd × Bool × BitVec 2) := do
  req (f.fn.extractLsb' 4 2 = 0) .reservedFn
  req (f.m.toNat < 2) .reservedM
  let ty ← decTy f.ty
  let b ← decB ty false f ext
  let a ← decSel ty.kind f.a
  pure (ty, ← decDst ty.kind f, a, b, f.m.getLsbD 0, f.fn.extractLsb' 2 2)
def decSfu (f : Fields) (mk : Guard → Ty → Dst → Sel → Bool → Instr) : Dec Instr := do
  m0 f
  req (f.ty ≠ 2) .reservedTy
  req (f.ws = 0 || f.fn.getLsbD 5 = false) .badSuppress
  decUn f (fun g ty d a => mk g ty d a (f.fn.getLsbD 5))
/-- TY = 11 entries without extension words. -/
def t11 (f : Fields) : Dec Unit := do
  req (f.ty = 3) .reservedTy
  noExt f
def t11n (f : Fields) : Dec Unit := do
  t11 f
  req (f.ws = 0) .badSuppress
def zD (f : Fields) : Dec Unit := req (f.d = 0) .nonZeroField
def zA (f : Fields) : Dec Unit := req (f.a = 0) .nonZeroField
def zB (f : Fields) : Dec Unit := req (f.b = 0) .nonZeroField
def zC (f : Fields) : Dec Unit := req (f.c = 0) .nonZeroField
def zABC (f : Fields) : Dec Unit := do zA f; zB f; zC f
/-- A control word with no operand at all. -/
def decBare (f : Fields) (i : Instr) : Dec Instr := do
  t11n f; m0 f; zD f; zABC f
  pure i
/-- Block-aware entries: TY 00, plain C field below the given mask width (Table 08.9). -/
def decBlk (f : Fields) (cbits : Nat) : Dec (Dst × Sel) := do
  noExt f
  req (f.ty = 0) .reservedTy
  zB f
  req (f.c.toNat < 2 ^ cbits) .nonZeroField
  pure (← decDst .v f, ← decSel .v f.a)
def decShfl (f : Fields) (mk : Guard → Ty → Dst → Sel → ShAmt → Sel → Instr) : Dec Instr := do
  noExt f
  let ty ← decTy f.ty
  req (ty ≠ .scal) .reservedTy
  let b ← match f.m.toNat with
    | 0 => do pure (ShAmt.sel (← decSel ty.kindB f.b))
    | 1 => do
      req (ty = .vec) .reservedM
      req (f.b.toNat < 32) .nonZeroField
      pure (ShAmt.imm (f.b.extractLsb' 0 5))
    | _ => .error .reservedM
  pure (mk f.guard ty (← decDst .v f) (← decSel .v f.a) b (← decSel .v f.c))
/-- An address selector (Table 09.4). -/
def decAddr (scl : Bool) (r : BitVec 10) : Dec Sel := if scl then decSel .s r else decGroup .v 2 r
def decOff (scl : Bool) (r : BitVec 10) : Dec Sel := decSel (if scl then .s else .v) r
/-- A data operand of n registers, or a scalar, of at most 64 bits. -/
def decData (scl : Bool) (n : Nat) (r : BitVec 10) : Dec Sel := do
  if scl then
    req (n ≠ 4) .reservedFn
    decSel .s r
  else decGroup .v n r
def decDest (scl : Bool) (n : Nat) (d : BitVec 8) : Dec (BitVec 8) := do
  req (!(scl && n = 4)) .reservedFn
  req (destOk scl n d) .badIndex
  pure d
/-- The atomic group: operation, width, ORD. -/
def decAt (f : Fields) (spad : Bool) : Dec (Sel × Sel × Bool × Bool × Ord) := do
  t11n f; m0 f
  let scl := f.fn.getLsbD 5
  let b64 := f.fn.getLsbD 4
  let o ← decOrdAt f.c
  let a ← if spad then decOff scl f.a else decAddr scl f.a
  let b ← decData scl (if b64 then 2 else 1) f.b
  pure (a, b, b64, scl, o)
def decAtOp (f : Fields) : Dec AtomOp := do
  let op ← decAtom (f.fn.extractLsb' 0 4).toNat
  req (!f.fn.getLsbD 4 || op.ok64) .reservedFn
  pure op
/-- A barrier reference (Table 09.8): a scalar offset with C zero, or a yard slot in C[1:0] with A zero. -/
def decBar (yard : Bool) (f : Fields) : Dec BarRef := do
  if yard then
    zA f
    req (f.c.toNat < 4) .nonZeroField
    pure (.yard (f.c.extractLsb' 0 2))
  else
    zC f
    pure (.local (← decSel .s f.a))
/-- The slot field of MSTORE.S and ACTLD (R291). -/
def decSlot (d : BitVec 8) : Dec (Option SlotRef) := do
  req (d.getLsbD 7 = false) .nonZeroField
  if d.getLsbD 6 then pure (some { h := d.extractLsb' 4 2, k := d.extractLsb' 0 4 })
  else
    req (d = 0) .nonZeroField
    pure none
def encSlot : Option SlotRef → BitVec 8
  | none => 0
  | some r => 1#2 ++ r.h ++ r.k

/-! ## The opcode map (Tables 05.12, 05.13) -/

def decCtl (f : Fields) : Dec Instr := do
  let g := f.guard
  match f.op.toNat with
  | 0x01 => fn0 f; decBare f (.nop g)
  | 0x02 => fn0 f; t11n f; zD f; pure (.bra g f.disp30 (← decBrMode f.m))
  | 0x03 => fn0 f; t11n f; m0 f; pure (.brc g f.imm20 f.rdisp)
  | 0x04 => fn0 f; t11n f; zD f; zB f; zC f; pure (.brx g (← decSel .s f.a) (← decBrMode f.m))
  | 0x05 => fn0 f; t11n f; m0 f; pure (.call g (← decDstN .s f) f.disp30)
  | 0x06 => fn0 f; t11n f; m0 f; zB f; zC f; pure (.callx g (← decDstN .s f) (← decSel .s f.a))
  | 0x07 => fn0 f; t11n f; m0 f; zD f; zB f; zC f; pure (.ret g (← decSel .s f.a))
  | 0x08 => fn0 f; decBare f (.reconv g)
  | 0x09 => fn0 f; decBare f (.exit g)
  | 0x0A => fn0 f; decBare f (.yield g)
  | 0x0B => fn0 f; t11n f; m0 f; pure (.loop g (← decDstN .s f) f.disp30)
  | 0x0C =>
    fn0 f; t11 f; zC f
    req (f.m.toNat < 2) .reservedM
    pure (.lnch g (← decDst .s f) (← decSel .s f.a) (← decSel .s f.b) (f.m.getLsbD 0))
  | 0x0D =>
    t11 f; m0 f; zA f; zB f
    let r ← decSpec f.fn (f.c.extractLsb' 0 3)
    req (if r.isFaultrec then f.c.toNat < 8 && f.ws = 0 else f.c = 0) .nonZeroField
    pure (.mfs g (← decDst (if r.isVec then .v else .s) f) r)
  | 0x0E =>
    t11n f; m0 f; zD f; zB f; zC f
    pure (.mts g (← decSpec f.fn 0) (← decSel .s f.a))
  | 0x0F =>
    match f.fn.toNat with
    | 0 =>
      t11n f; m0 f; zD f; zA f; zB f
      req (f.c.toNat < 256) .nonZeroField
      pure (.trap g (f.c.extractLsb' 0 8))
    | 1 => decBare f (.tfence g)
    | 2 => decBare f (.bkpt g)
    | 3 => decBare f (.reth g)
    | _ => .error .reservedFn
  | _ => .error .reservedOp

def decIntOp (f : Fields) (ext : List W64) : Dec Instr := do
  let g := f.guard
  match f.op.toNat with
  | 0x10 => decIntM f ext .iadd
  | 0x11 => decIntM f ext .isub
  | 0x12 =>
    let co ← decVar true f
    m0 f
    let ty ← decTy f.ty
    let isImm := f.fn.extractLsb' 0 2 = 1
    let b ← if isImm then do noExt f; pure (Opnd.sel (← decSel ty.kindB f.b)) else decB ty false f ext
    pure (.iaddc g ty (← decDst ty.kind f) (← decSel ty.kind f.a) b (← decC10 ty isImm f) co)
  | 0x13 => decInt f ext .imul
  | 0x14 => decIntV f ext .imulh
  | 0x15 => decIntV f ext .imulw
  | 0x16 =>
    let _ ← decVar false f
    m0 f
    let ty ← decTy f.ty
    let b ← decB ty false f ext
    pure (.imad g ty (← decDst ty.kind f) (← decSel ty.kind f.a) b (← decSel ty.kind f.c))
  | 0x17 => decDiv f ext .idiv
  | 0x18 => decDiv f ext .irem
  | 0x19 => decIntV f ext .imin
  | 0x1A => decIntV f ext .imax
  | 0x1B =>
    fn0 f
    req (f.m.toNat < 2) .reservedM
    decUn f (fun g ty d a => .iabs g ty d a (f.m.getLsbD 0))
  | 0x1C => decInt f ext .and
  | 0x1D => decInt f ext .or
  | 0x1E => decInt f ext .xor
  | 0x1F => decInt f ext .andn
  | 0x20 => decInt f ext .shl
  | 0x21 => decInt f ext .shr
  | 0x22 => decInt f ext .sar
  | 0x23 =>
    let left ← decVar true f
    m0 f; noExt f
    let ty ← decTy f.ty
    req ((f.fn.extractLsb' 0 2).toNat < 2) .reservedFn
    pure (.shf g ty (← decDst ty.kind f) (← decSel ty.kind f.a) (← decSel ty.kindB f.b)
      (← decC10 ty (f.fn.getLsbD 0) f) left)
  | 0x24 => decIntV f ext .rot
  | 0x25 =>
    m0 f
    match f.fn.toNat with
    | 0 => decUn f .popc
    | 1 => decUn f .clz
    | 2 => decUn f .ctz
    | 3 => decUn f .brev
    | _ => .error .reservedFn
  | 0x26 => decIntV f ext .bfx
  | 0x27 =>
    let _ ← decVar false f
    m0 f
    let ty ← decTy f.ty
    let isImm := f.fn.extractLsb' 0 2 = 1
    let b ← if isImm then do noExt f; pure (Opnd.sel (← decSel ty.kindB f.b)) else decB ty false f ext
    pure (.bfi g ty (← decDst ty.kind f) (← decSel ty.kind f.a) b (← decC10 ty isImm f))
  | 0x28 =>
    let w32 ← decVar true f
    req (f.m.toNat ≤ 4) .reservedM
    let (ty, a, b) ← decTwo true f ext
    req (!w32 || ty = .scal) .reservedFn
    pure (.lea g ty (← decDst ty.kind f) a b f.m w32)
  | 0x29 =>
    let cond ← decICond (f.fn.extractLsb' 2 4)
    let m ← decComb f.m
    req (f.ws = 0) .badSuppress
    let (ty, a, b) ← decTwo true f ext
    pure (.icmp g ty (← decPredD f.d) a b cond m)
  | 0x2A =>
    let _ ← decVar false f
    m0 f
    let ty ← decTy f.ty
    let b ← decB ty false f ext
    pure (.isel g ty (← decDst ty.kind f) (← decSel ty.kind f.a) b (← decPred f.c))
  | 0x2B =>
    fn0 f; m0 f; noExt f; zC f
    let ty ← decTy f.ty
    if ty = .mix then
      zA f
      pure (.mov g ty (← decDst ty.kind f) (← decSel .s f.b))
    else
      zB f
      pure (.mov g ty (← decDst ty.kind f) (← decSel ty.kind f.a))
  | 0x2C =>
    fn0 f; m0 f; noExt f; zA f
    let ty ← decTy f.ty
    pure (.movi g ty (← decDst ty.kind f) f.imm20)
  | 0x2D =>
    fn0 f; m0 f; zABC f
    let ty ← decTy f.ty
    let w ← oneExt f ext
    pure (.movl g ty (← decDst ty.kind f) w)
  | 0x2E =>
    t11 f
    match f.fn.toNat with
    | 0 => m0 f; zC f; req (f.ws = 0) .badSuppress; pure (.pand g (← decPredD f.d) (← decPred f.a) (← decPred f.b))
    | 1 => m0 f; zC f; req (f.ws = 0) .badSuppress; pure (.por g (← decPredD f.d) (← decPred f.a) (← decPred f.b))
    | 2 => m0 f; zC f; req (f.ws = 0) .badSuppress; pure (.pxor g (← decPredD f.d) (← decPred f.a) (← decPred f.b))
    | 3 => m0 f; zC f; zB f; req (f.ws = 0) .badSuppress; pure (.pnot g (← decPredD f.d) (← decPred f.a))
    | 4 =>
      req (f.m.toNat < 2) .reservedM
      zC f; zB f
      req (f.ws = 0) .badSuppress
      pure (.pset g (← decPredD f.d) (← decSel (if f.m = 1 then .v else .s) f.a) (f.m = 1))
    | 5 =>
      req (f.m.toNat < 2) .reservedM
      zC f; zB f
      pure (.pget g (← decDst (if f.m = 1 then .v else .s) f) (← decPred f.a) (f.m = 1))
    | _ => .error .reservedFn
  | _ => .error .reservedOp

def decFpOp (f : Fields) (ext : List W64) : Dec Instr := do
  let g := f.guard
  match f.op.toNat with
  | 0x30 => decFp f ext .fadd
  | 0x31 => decFp f ext .fsub
  | 0x32 => decFp f ext .fmul
  | 0x33 =>
    req (f.fn.extractLsb' 4 2 = 0) .reservedFn
    let r ← decRnd4 f.m
    let ty ← decTy f.ty
    let b ← match (f.fn.extractLsb' 0 2).toNat with
      | 0 => do noExt f; pure (Opnd10.sel (← decSel ty.kindB f.b))
      | 1 => do req (ty ≠ .mix) .reservedFn; noExt f; pure (Opnd10.imm f.b)
      | 2 => do
        req (ty ≠ .mix) .reservedFn
        req (f.b = 0) .nonZeroField
        pure (Opnd10.lit (← oneExt f ext))
      | _ => .error .reservedFn
    pure (.fma g ty (← decDst ty.kind f) (← decSel ty.kind f.a) b (← decSel ty.kind f.c) (f.fn.getLsbD 2)
      (f.fn.getLsbD 3) r)
  | 0x34 => req (f.fn.extractLsb' 2 4 = 0) .reservedFn; m0 f; decFp f ext (fun g ty d a b _ => .fmin g ty d a b)
  | 0x35 => req (f.fn.extractLsb' 2 4 = 0) .reservedFn; m0 f; decFp f ext (fun g ty d a b _ => .fmax g ty d a b)
  | 0x36 =>
    let cond ← decFCond (f.fn.extractLsb' 2 4)
    let m ← decComb f.m
    req (f.ws = 0) .badSuppress
    let (ty, a, b) ← decTwo true f ext
    pure (.fcmp g ty (← decPredD f.d) a b cond m)
  | 0x37 =>
    fn0 f
    let r ← decRnd4 f.m
    req (f.ty ≠ 2) .reservedTy
    decUn f (fun g ty d a => .frnd g ty d a r)
  | 0x38 =>
    fn0 f; noExt f; zB f
    let m ← decComb f.m
    req (f.ws = 0) .badSuppress
    let ty ← decTy f.ty
    req (ty ≠ .mix) .reservedTy
    pure (.fclass g ty (← decPredD f.d) (← decSel ty.kind f.a) f.c m)
  | 0x39 => zC f; let (ty, d, a, b, bf, r) ← decPk f ext; pure (.h2add g ty d a b bf r)
  | 0x3A => zC f; let (ty, d, a, b, bf, r) ← decPk f ext; pure (.h2mul g ty d a b bf r)
  | 0x3B => let (ty, d, a, b, bf, r) ← decPk f ext; pure (.h2fma g ty d a b (← decSel ty.kind f.c) bf r)
  | 0x3C => let (ty, d, a, b, bf, r) ← decPk f ext; pure (.fdot2 g ty d a b (← decSel ty.kind f.c) bf r)
  | 0x3D =>
    req (f.fn.extractLsb' 2 4 = 0) .reservedFn
    let r ← decRnd4 f.m
    let (ty, a, b) ← decTwo true f ext
    pure (.fdiv g ty (← decDstN ty.kind f) a b r)
  | 0x3E =>
    match (f.fn.extractLsb' 0 5).toNat with
    | 0 => decSfu f .rcp
    | 1 => decSfu f .rsq
    | 2 => decSfu f .sqrt
    | 3 => decSfu f .exp2
    | 4 => decSfu f .log2
    | 5 => decSfu f .sin
    | 6 => decSfu f .cos
    | 7 => decSfu f .tanh
    | 8 => decSfu f .sigm
    | _ => .error .reservedFn
  | 0x3F =>
    req (f.fn.extractLsb' 0 2 = 0) .reservedFn
    noExt f; zB f
    req (f.c.toNat < 32) .nonZeroField
    let r ← decRnd4 f.m
    let dst ← decCvt (f.fn.extractLsb' 2 4).toNat
    let src ← decCvt (f.c.extractLsb' 0 4).toNat
    req (cvtOk dst src) .reservedFn
    let ty ← decTy f.ty
    req (ty ≠ .mix) .reservedTy
    pure (.cvt g ty (← decDst ty.kind f) (← decSel ty.kind f.a) dst src (if f.c.getLsbD 4 then .special else .sat) r)
  | _ => .error .reservedOp

def decBlkOp (f : Fields) : Dec Instr := do
  let g := f.guard
  let j := f.c.extractLsb' 0 3
  let lay := f.c.getLsbD 3
  let cm : CMode := if f.c.getLsbD 4 then .special else .sat
  match f.op.toNat with
  | 0x40 =>
    req (f.fn.extractLsb' 0 2 = 0) .reservedFn
    m0 f; noExt f; zB f
    req (f.ty = 0) .reservedTy
    req (f.c = 0 || f.c = 0x10) .nonZeroField
    let dst ← decCvt (f.fn.extractLsb' 2 4).toNat
    req (cvtsOk dst) .reservedFn
    pure (.cvts g (← decDst .v f) (← decSel .v f.a) dst cm)
  | 0x41 => fn0 f; m0 f; let (d, a) ← decBlk f 0; pure (.bmax g d a)
  | 0x42 =>
    m0 f
    let e ← decElem f.fn.toNat
    let (d, a) ← decBlk f 0
    pure (.bscale g d a e)
  | 0x43 =>
    noExt f
    let e ← decElem f.fn.toNat
    let r ← decRnd f.m
    let ty ← decTy f.ty
    req (ty ≠ .scal) .reservedTy
    req (f.c.toNat < 32) .nonZeroField
    req (j.toNat < e.blocks) .nonZeroField
    pure (.bqnt g ty (← decDstN .v f) (← decSel .v f.a) (← decSel ty.kindB f.b) e j lay cm r)
  | 0x44 => fn0 f; m0 f; let (d, a) ← decBlk f 3; pure (.bdq g d a j)
  | 0x45 =>
    noExt f
    let r ← decRnd f.m
    req (f.c = 0 || f.c = 0x10) .nonZeroField
    let d ← decDst .v f
    let a ← decSel .v f.a
    let mode ← match f.fn.toNat with
      | 0 => do req (f.ty = 0) .reservedTy; zB f; pure BrscMode.e8m0
      | 1 => do req (f.ty = 2) .reservedTy; pure (BrscMode.shift (← decSel .s f.b))
      | 2 => do req (f.ty = 0) .reservedTy; zB f; pure BrscMode.fresh
      | _ => .error .reservedFn
    pure (.brsc g d a mode cm r)
  | 0x46 =>
    req (f.fn.toNat < 2) .reservedFn
    let r ← decRnd4 f.m
    let all := f.fn.getLsbD 0
    let (d, a) ← decBlk f (if all then 0 else 3)
    pure (.bsum g d a j all r)
  | 0x47 =>
    req (f.fn.toNat < 2) .reservedFn
    m0 f
    let fmt := f.fn.getLsbD 0
    let (d, a) ← decBlk f (if fmt then 0 else 3)
    pure (.sget g d a j fmt)
  | 0x48 =>
    req (f.fn.toNat < 2) .reservedFn
    m0 f; noExt f
    let fmt := f.fn.getLsbD 0
    let ty ← decTy f.ty
    req (ty ≠ .scal) .reservedTy
    req (f.c.toNat < (if fmt then 1 else 8)) .nonZeroField
    pure (.sset g ty (← decDst .v f) (← decSel .v f.a) (← decSel ty.kindB f.b) j fmt)
  | 0x49 =>
    fn0 f; m0 f
    req (f.ws = 0) .badSuppress
    let (d, a) ← decBlk f 3
    pure (.bpack g d.idx a j)
  | 0x4A =>
    req (f.fn.toNat < 2) .reservedFn
    m0 f
    let (d, a) ← decBlk f 3
    pure (.bunpk g d a j (f.fn.getLsbD 0))
  | 0x4B =>
    match f.fn.toNat with
    | 0 => decShfl f .shflIdx
    | 1 => decShfl f .shflUp
    | 2 => decShfl f .shflDown
    | 3 => decShfl f .shflXor
    | _ => .error .reservedFn
  | 0x4C =>
    fn0 f; noExt f; zB f; zC f
    req (f.ty = 0) .reservedTy
    pure (.vote g (← decDst .v f) (← decPred f.a) (← decVote f.m))
  | 0x4D =>
    req (f.fn.getLsbD 5 = false) .reservedFn
    let op ← decLane (f.fn.extractLsb' 0 5).toNat
    let r ← decRnd4 f.m
    req (op = .fadd || f.m = 0) .reservedM
    let (d, a) ← decBlk f 0
    pure (.lred g d a op r)
  | 0x4E =>
    let op ← decLane (f.fn.extractLsb' 0 5).toNat
    let r ← decRnd4 f.m
    req (op = .fadd || f.m = 0) .reservedM
    let (d, a) ← decBlk f 0
    pure (.lscan g d a op (f.fn.getLsbD 5) r)
  | 0x4F => fn0 f; m0 f; let (d, a) ← decBlk f 0; pure (.lmatch g d a)
  | _ => .error .reservedOp

def decMemOp (f : Fields) : Dec Instr := do
  let g := f.guard
  let scl := f.fn.getLsbD 5
  match f.op.toNat with
  | 0x50 =>
    t11n f; m0 f; zB f
    req (f.fn.getLsbD 4 = false) .reservedFn
    let prv := f.fn.getLsbD 3
    let w ← decLdW (f.fn.extractLsb' 0 3).toNat
    let o ← decOrd f.c
    req (o.okLd (w = .b128)) .nonZeroField
    pure (.ld g (← decDest scl w.regs f.d) (← if prv then decOff scl f.a else decAddr scl f.a) w prv scl o)
  | 0x51 =>
    t11n f; m0 f; zD f
    req (f.fn.getLsbD 4 = false) .reservedFn
    let prv := f.fn.getLsbD 3
    let w ← decStW (f.fn.extractLsb' 0 3).toNat
    let o ← decOrd f.c
    req (o.okSt (w = .b128)) .nonZeroField
    pure (.st g (← if prv then decOff scl f.a else decAddr scl f.a) (← decData scl w.regs f.b) w prv scl o)
  | 0x52 =>
    t11 f; m0 f; zB f
    req ((f.fn.extractLsb' 3 2).toNat = 0) .reservedFn
    let w ← decLdW (f.fn.extractLsb' 0 3).toNat
    let o ← decOrd f.c
    req (o.okLd (w = .b128)) .nonZeroField
    req (f.ws = 0 || f.d = 0) .badSuppress
    pure (.lds g { idx := ← decDest scl w.regs f.d, ws := f.ws = 1 } (← decOff scl f.a) w scl o)
  | 0x53 =>
    t11n f; m0 f; zD f
    req ((f.fn.extractLsb' 3 2).toNat = 0) .reservedFn
    let w ← decStW (f.fn.extractLsb' 0 3).toNat
    let o ← decOrd f.c
    req (o.okSt (w = .b128)) .nonZeroField
    pure (.sts g (← decOff scl f.a) (← decData scl w.regs f.b) w scl o)
  | 0x54 =>
    t11n f; m0 f; zB f; zC f
    req ((f.fn.extractLsb' 3 2).toNat = 0) .reservedFn
    let w ← decLdW (f.fn.extractLsb' 0 3).toNat
    pure (.ldc g (← decDest scl w.regs f.d) (← decOff scl f.a) w scl)
  | 0x55 =>
    t11 f; m0 f; zB f; zC f
    let sp ← decSp f.fn
    req (f.ws = 0 || sp = .spad) .badSuppress
    pure (.ldb g (← decDst .v f) (← decSel .s f.a) sp)
  | 0x56 =>
    t11n f; m0 f; zD f; zC f
    let sp ← decSp f.fn
    pure (.stb g (← decSel .s f.a) (← decSel .v f.b) sp)
  | 0x57 =>
    t11n f; zD f; zB f; zC f
    req (f.m.toNat < 2) .reservedM
    req (f.fn.extractLsb' 0 5 = 0) .reservedFn
    pure (.pref g (← decAddr scl f.a) scl (f.m.getLsbD 0))
  | 0x58 =>
    t11n f; m0 f; zD f; zC f
    req (scl = false) .reservedFn
    let w ← decStW (f.fn.extractLsb' 0 3).toNat
    pure (.stm g (← decSel .v f.a) (← decGroup .v w.regs f.b) w (f.fn.extractLsb' 3 2))
  | 0x59 =>
    let (a, b, b64, scl, o) ← decAt f false
    pure (.atom g (← decDest scl (if b64 then 2 else 1) f.d) a b (← decAtOp f) b64 scl o)
  | 0x5A =>
    let (a, b, b64, scl, o) ← decAt f false
    req (f.fn.extractLsb' 0 4 = 0) .reservedFn
    pure (.cas g (← decDest scl (if b64 then 2 else 1) f.d) a b b64 scl o)
  | 0x5B =>
    let (a, b, b64, scl, o) ← decAt f false
    zD f
    pure (.red g a b (← decAtOp f) b64 scl o)
  | 0x5C =>
    let (a, b, b64, scl, o) ← decAt f true
    pure (.atoms g (← decDest scl (if b64 then 2 else 1) f.d) a b (← decAtOp f) b64 scl o)
  | 0x5D =>
    let (a, b, b64, scl, o) ← decAt f true
    req (f.fn.extractLsb' 0 4 = 0) .reservedFn
    pure (.cass g (← decDest scl (if b64 then 2 else 1) f.d) a b b64 scl o)
  | _ => .error .reservedOp

def decSyncOp (f : Fields) : Dec Instr := do
  let g := f.guard
  match f.op.toNat with
  | 0x60 =>
    t11n f; m0 f; zD f; zABC f
    req (f.fn.getLsbD 5 = false) .reservedFn
    match ← decScope (f.fn.extractLsb' 0 3).toNat .reservedFn with
    | none => .error .reservedFn
    | some s =>
      match (f.fn.extractLsb' 3 2).toNat with
      | 0 => pure (.fence g s .r)
      | 1 => pure (.fence g s .w)
      | 2 => pure (.fence g s .rw)
      | _ => req (s = .dev) .reservedFn; pure (.fenceDevSc g)
  | 0x61 =>
    t11n f; m0 f; zD f
    req (f.fn.toNat < 2) .reservedFn
    if f.fn.getLsbD 0 then
      zB f
      pure (.binit g (← decSel .s f.a) (.imm f.c))
    else
      zC f
      pure (.binit g (← decSel .s f.a) (.sel (← decSel .s f.b)))
  | 0x62 =>
    t11n f; zD f
    req (f.fn.toNat < 4) .reservedFn
    let cnt ← if f.fn.getLsbD 1 then do pure (some (← decSel .s f.b)) else do zB f; pure none
    match ← decBar (f.fn.getLsbD 0) f with
    | .yard k =>
      req (f.m = 0 || f.m = 4) .reservedM
      pure (.arriveYard g k cnt (f.m = 4))
    | .local a => pure (.arrive g a cnt (← decScope f.m.toNat .reservedM))
  | 0x63 =>
    t11n f; m0 f; zD f
    req (f.fn.toNat < 2) .reservedFn
    pure (.expect g (← decBar (f.fn.getLsbD 0) f) (← decSel .s f.b))
  | 0x64 =>
    t11n f; m0 f; zD f
    match f.fn.toNat with
    | 0 => pure (.wait g (← decBar false f) (← decSel .s f.b))
    | 1 => pure (.wait g (← decBar true f) (← decSel .s f.b))
    | 2 => zA f; zC f; pure (.waitBatch g (← decSel .s f.b))
    | _ => .error .reservedFn
  | 0x65 =>
    t11n f; m0 f
    let p ← decPredD f.d
    match f.fn.toNat with
    | 0 => pure (.testp g p (.bar (← decBar false f)) (← decSel .s f.b))
    | 1 => pure (.testp g p (.bar (← decBar true f)) (← decSel .s f.b))
    | 2 => zA f; zC f; pure (.testp g p .batch (← decSel .s f.b))
    | _ => .error .reservedFn
  | 0x66 => fn0 f; t11 f; m0 f; zC f; pure (.watch g (← decDst .s f) (← decSel .s f.a) (← decSel .s f.b))
  | 0x67 => fn0 f; t11n f; m0 f; zD f; zB f; zC f; pure (.unwatch g (← decSel .s f.a))
  | 0x68 =>
    t11n f; m0 f
    match f.fn.toNat with
    | 0 => zD f; zA f; pure (.tryT g f.imm20)
    | 1 => pure (.tryL g f.imm20 f.rdisp)
    | _ => .error .reservedFn
  | 0x69 =>
    t11n f; m0 f; zD f; zABC f
    req (f.fn.toNat < 16) .reservedFn
    match ← decScope (f.fn.extractLsb' 0 3).toNat .reservedFn with
    | none => .error .reservedFn
    | some s =>
      req s.okCommit .reservedFn
      if f.fn.getLsbD 3 then pure (.commitSplit g s) else pure (.commit g s)
  | 0x6A =>
    fn0 f; t11n f; m0 f; zD f; zA f; zB f
    req (f.c.toNat < 256) .nonZeroField
    pure (.abort g (f.c.extractLsb' 0 8))
  | 0x6B =>
    fn0 f; t11n f; m0 f; zD f; zA f; zB f
    req (f.c.toNat < 256) .nonZeroField
    pure (.abortl g (f.c.extractLsb' 0 8))
  | 0x6C =>
    fn0 f; t11 f; m0 f; zA f; zB f
    req (f.c.toNat < 3) .nonZeroField
    pure (.tstat g (← decDst .s f) (f.c.extractLsb' 0 2))
  | 0x6D => fn0 f; t11 f; m0 f; zABC f; pure (.sqocc g (← decDst .s f))
  | 0x6E => fn0 f; t11 f; m0 f; zABC f; pure (.sbget g (← decDst .s f))
  | _ => .error .reservedOp

/-- CPY, MMA and COLL: every field of the word zero, then the block and its markers (R154, R291). -/
def decBlock (f : Fields) (ext : List W64) (bad : PBlock → Option Nat) : Dec PBlock := do
  fn0 f; m0 f; zD f; zABC f
  req (f.ty = 3) .reservedTy
  req (f.ws = 0) .badSuppress
  let pb ← fourExt f ext
  match bad pb with
  | some n => .error (.badMarker n)
  | none => pure pb

def decEngOp (f : Fields) (ext : List W64) : Dec Instr := do
  let g := f.guard
  match f.op.toNat with
  | 0x70 => pure (.cpy g (← decBlock f ext cpyMark))
  | 0x71 => fn0 f; t11 f; m0 f; zABC f; pure (.cbatch g (← decDst .s f))
  | 0x72 => pure (.mma g (← decBlock f ext mmaMark))
  | 0x73 => fn0 f; t11n f; m0 f; zD f; zC f; pure (.mzero g (← decSel .s f.a) (← decSel .s f.b))
  | 0x74 =>
    fn0 f; t11n f; zB f; zC f
    let n ← decMl f.m
    req (f.d.toNat % (match n with | .x1 => 1 | .x2 => 2 | .x4 => 4) = 0) .badIndex
    pure (.mload g f.d (← decSel .s f.a) n)
  | 0x75 =>
    t11n f; m0 f
    match f.fn.toNat with
    | 0 => zD f; zC f; pure (.mstoreV g (← decSel .s f.a) (← decSel .v f.b))
    | 1 => pure (.mstoreS g (← decSlot f.d) (← decSel .s f.a) (← decSel .s f.b) (← decSel .s f.c))
    | _ => .error .reservedFn
  | 0x76 => fn0 f; t11n f; m0 f; zB f; zC f; pure (.actld g (← decSlot f.d) (← decSel .s f.a))
  | 0x77 =>
    fn0 f; t11n f; m0 f; zD f; zA f; zB f
    req (f.c.toNat < 128) .nonZeroField
    pure (.harn g (f.c.extractLsb' 0 4) (f.c.extractLsb' 4 3))
  | 0x78 => fn0 f; decBare f (.unharn g)
  | 0x79 =>
    t11n f; m0 f; zD f; zA f
    req (f.fn.toNat < 4) .reservedFn
    req (f.imm20.toNat < 65536 && f.imm20 ≠ 0) .nonZeroField
    pure (.slotw g (f.fn.extractLsb' 0 2) (f.imm20.extractLsb' 0 16))
  | 0x7A => pure (.coll g (← decBlock f ext collMark))
  | 0x7B =>
    t11n f; m0 f; zD f
    req (f.fn.toNat < 2) .reservedFn
    pure (.puts g (← decSel .s f.a) (← decSel .s f.b) (← decSel .s f.c) (f.fn.getLsbD 0))
  | 0x7C =>
    t11n f; m0 f; zD f
    req (f.fn.toNat < 2) .reservedFn
    pure (.gets g (← decSel .s f.a) (← decSel .s f.b) (← decSel .s f.c) (f.fn.getLsbD 0))
  | 0x7D =>
    m0 f
    match f.fn.toNat with
    | 0 =>
      t11n f; zD f
      req (f.c.toNat < 4) .nonZeroField
      pure (.mirwWin g (← decSel .s f.a) (← decSel .s f.b) (f.c.extractLsb' 0 2))
    | 1 => t11 f; zC f; pure (.mirwPort g (← decDst .s f) (← decSel .s f.a) (← decSel .s f.b))
    | _ => .error .reservedFn
  | _ => .error .reservedOp

/-- A full-form word's instruction. -/
def decFields (f : Fields) (ext : List W64) : Dec Instr :=
  match f.op.toNat / 16 with
  | 0 => decCtl f
  | 1 => decIntOp f ext
  | 2 => decIntOp f ext
  | 3 => decFpOp f ext
  | 4 => decBlkOp f
  | 5 => decMemOp f
  | 6 => decSyncOp f
  | _ => decEngOp f ext

/-! ## The pair form (Tables 05.8, 05.9) -/

def decHalf (k : Kind) (w : BitVec 31) : Dec Half := do
  let op ← decPOp (w.extractLsb' 25 6) (w.extractLsb' 0 3)
  req (k = .v || op.scalOk) .badPair
  let d := w.extractLsb' 17 8
  req (idxOk k d) .badIndex
  let a ← decSel k (w.extractLsb' 7 10)
  pure { op, d, a, p := w.extractLsb' 4 3, neg := w.getLsbD 3 }

def encHalf (h : Half) : BitVec 31 := h.op.code.1 ++ h.d ++ encSel h.a ++ h.p ++ BitVec.ofBool h.neg ++ h.op.code.2

def decPair (w : W64) : Dec Instr := do
  let hs := w.getLsbD 31
  let h0 ← decHalf .v (w.extractLsb' 32 31)
  let h1 ← decHalf (if hs then .s else .v) (w.extractLsb' 0 31)
  req (pairOk h0 h1 hs) .badPair
  pure (.pair h0 h1 hs)

/-- Extension words that follow a word (R152, Table 05.6); a word whose X contradicts its entry has none. -/
def extWords (w : W64) : Nat :=
  let f := unpack w
  if w.getLsbD 63 || f.x = 0 then 0
  else
    let op := f.op.toNat
    if op = 0x70 || op = 0x72 || op = 0x7A then 4
    else if op = 0x2D then 1
    else if 0x10 ≤ op && op < 0x3E && f.fn.extractLsb' 0 2 = 2 && op ≠ 0x23 && op ≠ 0x25 && op ≠ 0x1B
        && op < 0x3F && op ≠ 0x2B && op ≠ 0x2C && op ≠ 0x2E && op ≠ 0x2F && op ≠ 0x37 && op ≠ 0x38 then 1
    else 0

/-- The instruction of a word and the words that follow it, or the name of what is illegal (R160). -/
def decode (w : W64) (ext : List W64) : Dec Instr :=
  if w.getLsbD 63 then decPair w else decFields (unpack w) ext

/-! ## The encoder -/

/-- A word all of whose fields are named. -/
def full (op : Nat) (fn : BitVec 6) (ty : BitVec 2) (d : BitVec 8) (ws : Bool) (a b c : BitVec 10) (g : Guard)
    (m : BitVec 3) (x : Bool) : W64 :=
  pack { op := BitVec.ofNat 7 op, fn, ty, d, ws := BitVec.ofBool ws, a, b, c, g := g.p, gn := BitVec.ofBool g.neg, m,
         x := BitVec.ofBool x }

/-- Fields B and C of a 20-bit immediate. -/
def hi10 (v : BitVec 20) : BitVec 10 := v.extractLsb' 10 10
def lo10 (v : BitVec 20) : BitVec 10 := v.extractLsb' 0 10

/-- The two-source entries: FN is the form plus the bits above it; C is the third selector where there is one. -/
def encTwo (op : Nat) (hi : BitVec 4) (g : Guard) (ty : Ty) (d : BitVec 8) (ws : Bool) (a : Sel) (b : Opnd)
    (c : BitVec 10) (m : BitVec 3) : List W64 :=
  match b with
  | .sel s => [full op (hi ++ 0#2) ty.code d ws (encSel a) (encSel s) c g m false]
  | .imm v => [full op (hi ++ 1#2) ty.code d ws (encSel a) (hi10 v) (lo10 v) g m false]
  | .lit l => [full op (hi ++ 2#2) ty.code d ws (encSel a) 0 c g m true, l]
def encInt (op : Nat) (g : Guard) (ty : Ty) (d : Dst) (a : Sel) (b : Opnd) (var : Bool) (m : BitVec 3) : List W64 :=
  encTwo op (0#3 ++ BitVec.ofBool var) g ty d.idx d.ws a b 0 m
/-- IADDC and BFI: source B a register or a literal, source C a register or an immediate. -/
def encBC (op : Nat) (g : Guard) (ty : Ty) (d : Dst) (a : Sel) (b : Opnd) (c : Opnd10) (var : Bool) : List W64 :=
  match c with
  | .imm v =>
    (match b with
     | .sel s => [full op (0#3 ++ BitVec.ofBool var ++ 1#2) ty.code d.idx d.ws (encSel a) (encSel s) v g 0 false]
     | _ => [])
  | .sel s => encTwo op (0#3 ++ BitVec.ofBool var) g ty d.idx d.ws a b (encSel s) 0
  | .lit _ => []
/-- SHF: source C in form R or I(C). -/
def encC (op : Nat) (g : Guard) (ty : Ty) (d : Dst) (a b : Sel) (c : Opnd10) (var : Bool) : List W64 :=
  match c with
  | .sel s => [full op (0#3 ++ BitVec.ofBool var ++ 0#2) ty.code d.idx d.ws (encSel a) (encSel b) (encSel s) g 0 false]
  | .imm v => [full op (0#3 ++ BitVec.ofBool var ++ 1#2) ty.code d.idx d.ws (encSel a) (encSel b) v g 0 false]
  | .lit _ => []
def encUn (op : Nat) (fn : BitVec 6) (g : Guard) (ty : Ty) (d : Dst) (a : Sel) (m : BitVec 3) : List W64 :=
  [full op fn ty.code d.idx d.ws (encSel a) 0 0 g m false]
def encSfu (n : BitVec 5) (g : Guard) (ty : Ty) (d : Dst) (a : Sel) (acc : Bool) : List W64 :=
  encUn 0x3E (BitVec.ofBool acc ++ n) g ty d a 0
/-- TY = 11 words without extension. -/
def w11 (op : Nat) (fn : BitVec 6) (d : BitVec 8) (a b c : BitVec 10) (g : Guard) (m : BitVec 3) : List W64 :=
  [full op fn 3 d false a b c g m false]
def w11d (op : Nat) (fn : BitVec 6) (d : Dst) (a b c : BitVec 10) (g : Guard) (m : BitVec 3) : List W64 :=
  [full op fn 3 d.idx d.ws a b c g m false]
def encShfl (fn : BitVec 6) (g : Guard) (ty : Ty) (d : Dst) (a : Sel) (b : ShAmt) (c : Sel) : List W64 :=
  match b with
  | .sel s => [full 0x4B fn ty.code d.idx d.ws (encSel a) (encSel s) (encSel c) g 0 false]
  | .imm n => [full 0x4B fn ty.code d.idx d.ws (encSel a) (0#5 ++ n) (encSel c) g 1 false]
def bit (b : Bool) : BitVec 1 := BitVec.ofBool b
def fnLd (scl prv : Bool) (w : BitVec 3) : BitVec 6 := bit scl ++ 0#1 ++ bit prv ++ w
def fnAt (scl b64 : Bool) (op : BitVec 4) : BitVec 6 := bit scl ++ bit b64 ++ op
def d30 (disp : BitVec 30) : BitVec 10 × BitVec 10 × BitVec 10 :=
  (disp.extractLsb' 20 10, disp.extractLsb' 10 10, disp.extractLsb' 0 10)
def encDisp (op : Nat) (d : BitVec 8) (disp : BitVec 30) (g : Guard) (m : BitVec 3) : List W64 :=
  w11 op 0 d (d30 disp).1 (d30 disp).2.1 (d30 disp).2.2 g m
def encBar (op : Nat) (hi : BitVec 5) (d : BitVec 8) (r : BarRef) (b : BitVec 10) (g : Guard) (m : BitVec 3) : List W64 :=
  match r with
  | .local a => w11 op (hi ++ 0#1) d (encSel a) b 0 g m
  | .yard k => w11 op (hi ++ 1#1) d 0 b (0#8 ++ k) g m
def encBlock (op : Nat) (g : Guard) (pb : PBlock) : List W64 :=
  [full op 0 3 0 false 0 0 0 g 0 true, pb.w0, pb.w1, pb.w2, pb.w3]
def cnt10 : Option Sel → BitVec 10
  | some s => encSel s
  | none => 0

/-- The words of an instruction (Tables 05.1, 05.8, 05.12 to 05.15, 07.2, 07.8, 08.2, 08.5, 08.9, 09.1, 09.8, 09.10,
10.1). Events have no words. -/
def encode : Instr → List W64
  | .nop g => w11 0x01 0 0 0 0 0 g 0
  | .bra g disp m => encDisp 0x02 0 disp g m.code
  | .brc g disp rd => w11 0x03 0 (rd.extractLsb' 10 8) (rd.extractLsb' 0 10) (hi10 disp) (lo10 disp) g 0
  | .brx g a m => w11 0x04 0 0 (encSel a) 0 0 g m.code
  | .call g d disp => encDisp 0x05 d disp g 0
  | .callx g d a => w11 0x06 0 d (encSel a) 0 0 g 0
  | .ret g a => w11 0x07 0 0 (encSel a) 0 0 g 0
  | .reconv g => w11 0x08 0 0 0 0 0 g 0
  | .exit g => w11 0x09 0 0 0 0 0 g 0
  | .yield g => w11 0x0A 0 0 0 0 0 g 0
  | .loop g d disp => encDisp 0x0B d disp g 0
  | .lnch g d a b nb => w11d 0x0C 0 d (encSel a) (encSel b) 0 g (0#2 ++ bit nb)
  | .mfs g d r => w11d 0x0D r.code d 0 0 (match r with | .faultrec k => 0#7 ++ k | _ => 0) g 0
  | .mts g r a => w11 0x0E r.code 0 (encSel a) 0 0 g 0
  | .trap g code => w11 0x0F 0 0 0 0 (0#2 ++ code) g 0
  | .tfence g => w11 0x0F 1 0 0 0 0 g 0
  | .bkpt g => w11 0x0F 2 0 0 0 0 g 0
  | .reth g => w11 0x0F 3 0 0 0 0 g 0
  | .iadd g ty d a b m => encInt 0x10 g ty d a b false m.code
  | .isub g ty d a b m => encInt 0x11 g ty d a b false m.code
  | .iaddc g ty d a b c co => encBC 0x12 g ty d a b c co
  | .imul g ty d a b => encInt 0x13 g ty d a b false 0
  | .imulh g ty d a b u => encInt 0x14 g ty d a b u 0
  | .imulw g ty d a b u => encInt 0x15 g ty d a b u 0
  | .imad g ty d a b c => encTwo 0x16 0 g ty d.idx d.ws a b (encSel c) 0
  | .idiv g ty d a b u => encTwo 0x17 (0#3 ++ bit u) g ty d false a b 0 0
  | .irem g ty d a b u => encTwo 0x18 (0#3 ++ bit u) g ty d false a b 0 0
  | .imin g ty d a b u => encInt 0x19 g ty d a b u 0
  | .imax g ty d a b u => encInt 0x1A g ty d a b u 0
  | .iabs g ty d a sat => encUn 0x1B 0 g ty d a (0#2 ++ bit sat)
  | .and g ty d a b => encInt 0x1C g ty d a b false 0
  | .or g ty d a b => encInt 0x1D g ty d a b false 0
  | .xor g ty d a b => encInt 0x1E g ty d a b false 0
  | .andn g ty d a b => encInt 0x1F g ty d a b false 0
  | .shl g ty d a b => encInt 0x20 g ty d a b false 0
  | .shr g ty d a b => encInt 0x21 g ty d a b false 0
  | .sar g ty d a b => encInt 0x22 g ty d a b false 0
  | .shf g ty d a b c left => encC 0x23 g ty d a b c left
  | .rot g ty d a b left => encInt 0x24 g ty d a b left 0
  | .popc g ty d a => encUn 0x25 0 g ty d a 0
  | .clz g ty d a => encUn 0x25 1 g ty d a 0
  | .ctz g ty d a => encUn 0x25 2 g ty d a 0
  | .brev g ty d a => encUn 0x25 3 g ty d a 0
  | .bfx g ty d a b s => encInt 0x26 g ty d a b s 0
  | .bfi g ty d a b c => encBC 0x27 g ty d a b c false
  | .lea g ty d a b k w32 => encInt 0x28 g ty d a b w32 k
  | .icmp g ty p a b cond m => encTwo 0x29 cond.code g ty (encPredD p) false a b 0 m.code
  | .isel g ty d a b p => encTwo 0x2A 0 g ty d.idx d.ws a b (encPred p) 0
  | .mov g ty d a =>
    if ty = .mix then [full 0x2B 0 2 d.idx d.ws 0 (encSel a) 0 g 0 false]
    else [full 0x2B 0 ty.code d.idx d.ws (encSel a) 0 0 g 0 false]
  | .movi g ty d v => [full 0x2C 0 ty.code d.idx d.ws 0 (hi10 v) (lo10 v) g 0 false]
  | .movl g ty d v => [full 0x2D 0 ty.code d.idx d.ws 0 0 0 g 0 true, v]
  | .pand g d a b => w11 0x2E 0 (encPredD d) (encPred a) (encPred b) 0 g 0
  | .por g d a b => w11 0x2E 1 (encPredD d) (encPred a) (encPred b) 0 g 0
  | .pxor g d a b => w11 0x2E 2 (encPredD d) (encPred a) (encPred b) 0 g 0
  | .pnot g d a => w11 0x2E 3 (encPredD d) (encPred a) 0 0 g 0
  | .pset g d a v => w11 0x2E 4 (encPredD d) (encSel a) 0 0 g (0#2 ++ bit v)
  | .pget g d a v => w11d 0x2E 5 d (encPred a) 0 0 g (0#2 ++ bit v)
  | .fadd g ty d a b r => encInt 0x30 g ty d a b false (0#1 ++ r)
  | .fsub g ty d a b r => encInt 0x31 g ty d a b false (0#1 ++ r)
  | .fmul g ty d a b r => encInt 0x32 g ty d a b false (0#1 ++ r)
  | .fma g ty d a b c np nc r =>
    let hi := 0#2 ++ bit nc ++ bit np
    match b with
    | .sel s => [full 0x33 (hi ++ 0#2) ty.code d.idx d.ws (encSel a) (encSel s) (encSel c) g (0#1 ++ r) false]
    | .imm v => [full 0x33 (hi ++ 1#2) ty.code d.idx d.ws (encSel a) v (encSel c) g (0#1 ++ r) false]
    | .lit l => [full 0x33 (hi ++ 2#2) ty.code d.idx d.ws (encSel a) 0 (encSel c) g (0#1 ++ r) true, l]
  | .fmin g ty d a b => encInt 0x34 g ty d a b false 0
  | .fmax g ty d a b => encInt 0x35 g ty d a b false 0
  | .fcmp g ty p a b cond m => encTwo 0x36 cond.code g ty (encPredD p) false a b 0 m.code
  | .frnd g ty d a r => encUn 0x37 0 g ty d a (0#1 ++ r)
  | .fclass g ty p a mask m => [full 0x38 0 ty.code (encPredD p) false (encSel a) 0 mask g m.code false]
  | .h2add g ty d a b bf r => encTwo 0x39 (0#2 ++ r) g ty d.idx d.ws a b 0 (0#2 ++ bit bf)
  | .h2mul g ty d a b bf r => encTwo 0x3A (0#2 ++ r) g ty d.idx d.ws a b 0 (0#2 ++ bit bf)
  | .h2fma g ty d a b c bf r => encTwo 0x3B (0#2 ++ r) g ty d.idx d.ws a b (encSel c) (0#2 ++ bit bf)
  | .fdot2 g ty d a b c bf r => encTwo 0x3C (0#2 ++ r) g ty d.idx d.ws a b (encSel c) (0#2 ++ bit bf)
  | .fdiv g ty d a b r => encTwo 0x3D 0 g ty d false a b 0 (0#1 ++ r)
  | .rcp g ty d a acc => encSfu 0 g ty d a acc
  | .rsq g ty d a acc => encSfu 1 g ty d a acc
  | .sqrt g ty d a acc => encSfu 2 g ty d a acc
  | .exp2 g ty d a acc => encSfu 3 g ty d a acc
  | .log2 g ty d a acc => encSfu 4 g ty d a acc
  | .sin g ty d a acc => encSfu 5 g ty d a acc
  | .cos g ty d a acc => encSfu 6 g ty d a acc
  | .tanh g ty d a acc => encSfu 7 g ty d a acc
  | .sigm g ty d a acc => encSfu 8 g ty d a acc
  | .cvt g ty d a dst src cm r =>
    [full 0x3F (dst.code ++ 0#2) ty.code d.idx d.ws (encSel a) 0 (0#5 ++ cm.code ++ src.code) g (0#1 ++ r) false]
  | .cvts g d a dst cm =>
    [full 0x40 (dst.code ++ 0#2) 0 d.idx d.ws (encSel a) 0 (0#5 ++ cm.code ++ 0#4) g 0 false]
  | .bmax g d a => encUn 0x41 0 g .vec d a 0
  | .bscale g d a f => encUn 0x42 (0#3 ++ f.code) g .vec d a 0
  | .bqnt g ty d a b f j lay cm r =>
    [full 0x43 (0#3 ++ f.code) ty.code d false (encSel a) (encSel b) (0#5 ++ cm.code ++ bit lay ++ j) g r.code false]
  | .bdq g d a j => [full 0x44 0 0 d.idx d.ws (encSel a) 0 (0#7 ++ j) g 0 false]
  | .brsc g d a mode cm r =>
    let c := 0#5 ++ cm.code ++ 0#4
    match mode with
    | .e8m0 => [full 0x45 0 0 d.idx d.ws (encSel a) 0 c g r.code false]
    | .shift k => [full 0x45 1 2 d.idx d.ws (encSel a) (encSel k) c g r.code false]
    | .fresh => [full 0x45 2 0 d.idx d.ws (encSel a) 0 c g r.code false]
  | .bsum g d a j all r => [full 0x46 (0#5 ++ bit all) 0 d.idx d.ws (encSel a) 0 (0#7 ++ j) g (0#1 ++ r) false]
  | .sget g d a j fmt => [full 0x47 (0#5 ++ bit fmt) 0 d.idx d.ws (encSel a) 0 (0#7 ++ j) g 0 false]
  | .sset g ty d a b j fmt =>
    [full 0x48 (0#5 ++ bit fmt) ty.code d.idx d.ws (encSel a) (encSel b) (0#7 ++ j) g 0 false]
  | .bpack g d a j => [full 0x49 0 0 d false (encSel a) 0 (0#7 ++ j) g 0 false]
  | .bunpk g d a j s => [full 0x4A (0#5 ++ bit s) 0 d.idx d.ws (encSel a) 0 (0#7 ++ j) g 0 false]
  | .shflIdx g ty d a b c => encShfl 0 g ty d a b c
  | .shflUp g ty d a b c => encShfl 1 g ty d a b c
  | .shflDown g ty d a b c => encShfl 2 g ty d a b c
  | .shflXor g ty d a b c => encShfl 3 g ty d a b c
  | .vote g d p m => [full 0x4C 0 0 d.idx d.ws (encPred p) 0 0 g m.code false]
  | .lred g d a op r => encUn 0x4D (0#1 ++ op.code) g .vec d a (0#1 ++ r)
  | .lscan g d a op excl r => encUn 0x4E (bit excl ++ op.code) g .vec d a (0#1 ++ r)
  | .lmatch g d a => encUn 0x4F 0 g .vec d a 0
  | .ld g d a w prv scl o => w11 0x50 (fnLd scl prv w.code) d (encSel a) 0 o.code g 0
  | .st g a b w prv scl o => w11 0x51 (fnLd scl prv w.code) 0 (encSel a) (encSel b) o.code g 0
  | .lds g d a w scl o => w11d 0x52 (fnLd scl false w.code) d (encSel a) 0 o.code g 0
  | .sts g a b w scl o => w11 0x53 (fnLd scl false w.code) 0 (encSel a) (encSel b) o.code g 0
  | .ldc g d a w scl => w11 0x54 (fnLd scl false w.code) d (encSel a) 0 0 g 0
  | .ldb g d a sp => w11d 0x55 sp.code d (encSel a) 0 0 g 0
  | .stb g a b sp => w11 0x56 sp.code 0 (encSel a) (encSel b) 0 g 0
  | .pref g a scl l1 => w11 0x57 (bit scl ++ 0#5) 0 (encSel a) 0 0 g (0#2 ++ bit l1)
  | .stm g a b w k => w11 0x58 (0#1 ++ k ++ w.code) 0 (encSel a) (encSel b) 0 g 0
  | .atom g d a b op b64 scl o => w11 0x59 (fnAt scl b64 op.code) d (encSel a) (encSel b) o.codeAt g 0
  | .cas g d a b b64 scl o => w11 0x5A (fnAt scl b64 0) d (encSel a) (encSel b) o.codeAt g 0
  | .red g a b op b64 scl o => w11 0x5B (fnAt scl b64 op.code) 0 (encSel a) (encSel b) o.codeAt g 0
  | .atoms g d a b op b64 scl o => w11 0x5C (fnAt scl b64 op.code) d (encSel a) (encSel b) o.codeAt g 0
  | .cass g d a b b64 scl o => w11 0x5D (fnAt scl b64 0) d (encSel a) (encSel b) o.codeAt g 0
  | .fence g s k => w11 0x60 (0#1 ++ k.code ++ s.code) 0 0 0 0 g 0
  | .fenceDevSc g => w11 0x60 0x1C 0 0 0 0 g 0
  | .binit g a n =>
    match n with
    | .sel s => w11 0x61 0 0 (encSel a) (encSel s) 0 g 0
    | .imm c => w11 0x61 1 0 (encSel a) 0 c g 0
  | .arrive g a cnt s => w11 0x62 (0#4 ++ bit cnt.isSome ++ 0#1) 0 (encSel a) (cnt10 cnt) 0 g (scopeCode s)
  | .arriveYard g k cnt dev =>
    w11 0x62 (0#4 ++ bit cnt.isSome ++ 1#1) 0 0 (cnt10 cnt) (0#8 ++ k) g (if dev then 4 else 0)
  | .expect g r b => encBar 0x63 0 0 r (encSel b) g 0
  | .wait g r b => encBar 0x64 0 0 r (encSel b) g 0
  | .waitBatch g b => w11 0x64 2 0 0 (encSel b) 0 g 0
  | .testp g p r b =>
    match r with
    | .bar r => encBar 0x65 0 (encPredD p) r (encSel b) g 0
    | .batch => w11 0x65 2 (encPredD p) 0 (encSel b) 0 g 0
  | .watch g d a b => w11d 0x66 0 d (encSel a) (encSel b) 0 g 0
  | .unwatch g a => w11 0x67 0 0 (encSel a) 0 0 g 0
  | .tryT g disp => w11 0x68 0 0 0 (hi10 disp) (lo10 disp) g 0
  | .tryL g disp rd => w11 0x68 1 (rd.extractLsb' 10 8) (rd.extractLsb' 0 10) (hi10 disp) (lo10 disp) g 0
  | .commit g s => w11 0x69 (0#3 ++ s.code) 0 0 0 0 g 0
  | .commitSplit g s => w11 0x69 (1#3 ++ s.code) 0 0 0 0 g 0
  | .abort g code => w11 0x6A 0 0 0 0 (0#2 ++ code) g 0
  | .abortl g code => w11 0x6B 0 0 0 0 (0#2 ++ code) g 0
  | .tstat g d k => w11d 0x6C 0 d 0 0 (0#8 ++ k) g 0
  | .sqocc g d => w11d 0x6D 0 d 0 0 0 g 0
  | .sbget g d => w11d 0x6E 0 d 0 0 0 g 0
  | .cpy g pb => encBlock 0x70 g pb
  | .cbatch g d => w11d 0x71 0 d 0 0 0 g 0
  | .mma g pb => encBlock 0x72 g pb
  | .mzero g a b => w11 0x73 0 0 (encSel a) (encSel b) 0 g 0
  | .mload g d a n => w11 0x74 0 d (encSel a) 0 0 g n.code
  | .mstoreV g a b => w11 0x75 0 0 (encSel a) (encSel b) 0 g 0
  | .mstoreS g slot a b c => w11 0x75 1 (encSlot slot) (encSel a) (encSel b) (encSel c) g 0
  | .actld g slot a => w11 0x76 0 (encSlot slot) (encSel a) 0 0 g 0
  | .harn g n h => w11 0x77 0 0 0 0 (0#3 ++ h ++ n) g 0
  | .unharn g => w11 0x78 0 0 0 0 0 g 0
  | .slotw g h mask => w11 0x79 (0#4 ++ h) 0 0 (0#4 ++ mask.extractLsb' 10 6) (mask.extractLsb' 0 10) g 0
  | .coll g pb => encBlock 0x7A g pb
  | .puts g a b c spad => w11 0x7B (0#5 ++ bit spad) 0 (encSel a) (encSel b) (encSel c) g 0
  | .gets g a b c spad => w11 0x7C (0#5 ++ bit spad) 0 (encSel a) (encSel b) (encSel c) g 0
  | .mirwWin g a b k => w11 0x7D 0 0 (encSel a) (encSel b) (0#8 ++ k) g 0
  | .mirwPort g d a b => w11d 0x7D 1 d (encSel a) (encSel b) 0 g 0
  | .pair h0 h1 hs => [1#1 ++ encHalf h0 ++ BitVec.ofBool hs ++ encHalf h1]
  | _ => []

/-- Decoding of a list of words, as the machine lays them out. -/
def decodeWords : List W64 → Dec Instr
  | [] => .error .short
  | w :: ext => decode w ext

/-- The words of an instruction whose bits are w, numbered as spec/opcode_table.json numbers them: word n is bits
64n + 63 to 64n; bits above nbits are zero. -/
def tableWord (nbits w n : Nat) : W64 := BitVec.ofNat 64 ((w % 2 ^ nbits) / 2 ^ (64 * n))

/-- The instruction this decoder reads from a row of the table (R135: one word, then its extension words). -/
def decodeTableWord (nbits w : Nat) : Option Instr :=
  match decode (tableWord nbits w 0) [tableWord nbits w 1, tableWord nbits w 2, tableWord nbits w 3, tableWord nbits w 4] with
  | .ok i => some i
  | .error _ => none

end Sys2Proof
end

