-- ==== Sys2Proof/Config.lean ====
section
/-! DEFINITION. What every CX1 fixes, and the values the spec leaves open: free values have no body, so nothing can be
proved of them beyond what the definitions that use them say. -/

namespace Sys2Proof.Config

/-- Cores of a compute die (Table 00.1). -/
def coresPerDie : Nat := 512
/-- Host cores of the I/O die (Table 00.1). -/
def hostCores : Nat := 64
/-- Compute dies; die 8 is the I/O die (Table 00.1). -/
def computeDies : Nat := 8
/-- Physical vector and scalar registers of a core (Table 00.1). -/
def physVec : Nat := 2048
def physScal : Nat := 1024
/-- Scratchpad of a core in KiB and tile store in 64 KiB units (Table 00.1). -/
def coreSpad : Nat := 256
def coreTile : Nat := 32
/-- Core cycles of a budget period (R93). -/
def periodCycles : Nat := 4096
/-- Moves of the device after which a budget period of some die ends, even while more can move (log 3). -/
def movesPerPeriod : Nat := 64
/-- Budget periods after which a remote-data cache line expires: 65,536 core cycles (R113). -/
def rdcPeriods : Nat := 16
/-- 128-byte lines of a core's L1, of a die's remote-data cache and of one of its 64 L2 slices: 128 KiB, 64 MiB and 3 MiB (Table 00.1). -/
def l1Lines : Nat := 1024
def rdcLines : Nat := 524288
def sliceLines : Nat := 24576
/-- Sectors at which a memory controller's write queue opens its window (R92). -/
def windowOpens : Nat := 96
/-- Entries of a store queue (R90), of the try buffer and the read set (R282). -/
def storeQueue : Nat := 32
def tryEntries : Nat := 64
/-- Copies in progress in a core (R300), matrix-engine queue entries (R304), monitors of a core (R275). -/
def copySlots : Nat := 64
def matrixQueue : Nat := 16
def monitors : Nat := 64
/-- Entries of a pound (R264), of a core TLB and a die TLB (R417). -/
def poundEntries : Nat := 256
def coreTlb : Nat := 64
def dieTlb : Nat := 16384
/-- Launch queues and gates of the package (R374). -/
def queues : Nat := 131072
def gates : Nat := 4096

/-- 128-byte lines of the on-chip arrays of a compute die that the scrubber walks: 3,156 MiB (R448). -/
def scrubLines : Nat := 25853952
/-- Bytes of pinned lines a die may hold: 96 MiB (R89). -/
def pinLimit : Nat := 96 * 2 ^ 20

/-- A free 64-bit value: nothing constrains it. Applied to the counter of free values in State (log 7). -/
opaque freeWord : Nat → W64
/-- A free byte: what HBM reads after its homes were moved (R427), by address and counter (log 7). -/
opaque freeByte : Nat → Nat → Byte
/-- The side-band of a line of HBM, likewise. -/
opaque freeSide : Nat → Nat → SideBand
/-- The event code of Solnal's error history for each kind of event that is no fault code (R449): 1 boot rejection, 2 link
failure, 3 supply, 4 cap. -/
opaque eventCode : Nat → Nat
/-- The CX1's own approximation of special function fn in grade .A (true) or .F (false): the spec publishes no bits and
states only a bound (R69); what uses it keeps it within the bound (log 9). -/
opaque sfu : Nat → Bool → W32 → W32
/-- The low 12 bits of CYCLE within a budget period, by die and counter (R208; log 2). -/
opaque cycleLow : Nat → Nat → BitVec 12
/-- The security version and the key slot that the header bytes of a boot image hold: the spec gives the header no layout (R428,
log 35). -/
opaque headerSvn : List Byte → Nat
opaque headerSlot : List Byte → Nat
/-- Hash of the boot key of a slot, as fused (R428). -/
opaque fuseKeyHash : Nat → BitVec 256
/-- Revocation fuse of a slot (R428). -/
opaque fuseRevoked : Nat → Bool
/-- The fused security version counter (R428). -/
opaque fuseSvn : Nat
/-- The 16 bytes of the part's serial number (Table 17.13). -/
opaque serial : Nat → Byte
/-- Modulus and secret exponent of the device identity key (R430). -/
opaque identityModulus : Nat
opaque identityExponent : Nat

end Sys2Proof.Config
end

