-- ==== Sys2Proof/Machine/State.lean ====
section
/-! DEFINITION. Everything the spec gives the machine, as plain data, and its value after package reset (INVENTORY.md, State). -/

namespace Sys2Proof.Machine

/-- The machine stops with a fault only on an access the spec says does not exist. -/
inductive Fault
  /-- A host core or a PCIe requester reaches a physical address outside every range of Table 03.2 and every control
  block: raised by hostCoreAccess and pcieInboundRequest. Safe: the run stops where the spec gives no answer. -/
  | unmappedHostAccess (pa : Nat)
  deriving DecidableEq, Repr

/-- Why a step has no meaning in the model. -/
inductive Refusal
  /-- The instruction has no meaning in this model yet: raised by Dispatch.lean's refused arms. Safe. -/
  | notModelled (mnemonic : String)
  /-- exec was asked for a team instruction while no path is chosen to issue: raised by every team instruction.
  Safe: step never asks so. -/
  | noIssuingPath
  deriving DecidableEq, Repr

/-! ## Teams -/

/-- A poisoned lane (R401): the lane, the code of the poison's source and the failed sector's physical address. A register error that nothing
has found yet has code latentError (R402). -/
structure Poison where
  lane : Nat
  code : Nat
  addr : Nat
  deriving DecidableEq, Repr

/-- A mapped vector register (R142, R48). -/
structure VReg where
  data : Line
  sb : SideBand
  /-- poisoned lanes, ascending (R401) -/
  poison : List Poison
  /-- written by a long-latency instruction and not read since (Table 05.5) -/
  fresh : Bool
  /-- the same physical register as the one the open try snapshot names (R280) -/
  snap : Bool
  deriving DecidableEq, Repr

/-- A mapped scalar register (R142). -/
structure SReg where
  val : W64
  poison : Option Poison
  fresh : Bool
  snap : Bool
  deriving DecidableEq, Repr

/-- A register that holds a value and no mark. -/
def SReg.plain (v : W64) : SReg := { val := v, poison := none, fresh := false, snap := false }

/-- What a valid hold latch holds (R147), with its poison (R401). -/
inductive Latch
  | vec (data : Line) (sb : SideBand) (poison : List Poison)
  | scal (v : W64) (poison : Option Poison)
  deriving DecidableEq, Repr

/-- Wait reasons (Table 01.9). -/
inductive Reason
  | barrier | watch | remoteLoad | expander | regs | storeBudget | harness | slot | launch
  deriving DecidableEq, Repr

/-- What a side waits for (R36, R38, R204): its reason and wait object (Table 15.8), or a YIELD with yield-due. For
regs, obj is 2 × (registers needed) plus 1 for the scalar file. -/
inductive Wait
  | none
  | on (r : Reason) (obj : Nat)
  | atYield
  deriving DecidableEq, Repr

/-- A path (01_teams_blocks_yards.md). -/
structure Path where
  pc : W64
  mask : Lanes
  rpc : W64
  deriving DecidableEq, Repr

/-- An LNCH that waits for room (R205): the queue, the record it read and its destination. -/
structure LnchWait where
  queue : Nat
  record : List W64
  dst : Dst
  a : Sel
  b : Sel
  stamp : Clock
  deriving DecidableEq, Repr

/-- One side of a team: its path, latches h0 to h3 and wait (R147, R36). -/
structure Side where
  path : Option Path
  latches : List (Option Latch)
  wait : Wait
  lnch : Option LnchWait
  deriving DecidableEq, Repr

/-- A loft entry's kind (Table 01.2). -/
inductive LoftKind
  | path | join
  deriving DecidableEq, Repr

/-- A loft entry held on chip (R15, Table 01.2). -/
structure LoftEnt where
  kind : LoftKind
  mask : Lanes
  rpc : W64
  pc : W64
  /-- it passes the checks of R16, which count when it is popped -/
  ok : Bool
  deriving DecidableEq, Repr

/-- Bytes of one 32-byte sector: bit i of mask names byte i. -/
structure Piece where
  /-- sector-aligned physical address -/
  addr : Nat
  mask : BitVec 32
  data : Sector
  deriving DecidableEq, Repr

/-- What a write carries to its home: pieces, and whole lines' side-band by line number. -/
structure WBody where
  pieces : List Piece
  sides : List (Nat × SideBand)
  deriving DecidableEq, Repr

/-- What leaves with a store queue entry. -/
inductive Send
  | nothing
  /-- a write to a home of this package or to another package -/
  | write (w : WBody)
  /-- an STM's bytes for yard y (R81, R259): offset of the sector, mask, data -/
  | mirror (yard : Nat) (off : Nat) (mask : BitVec 32) (data : Sector)
  deriving DecidableEq, Repr

/-- A store queue entry (R90): the bytes the team's own loads see, the charge, and what is sent as it leaves. -/
structure QEntry where
  view : Piece
  charge : Nat
  send : Send
  /-- owed to a COMMIT: the home applies the part as one step (R129) -/
  commit : Bool
  /-- a fabric-scope release store (R120) -/
  rel : Bool
  /-- the one stamp that the parts of a COMMIT carry, as it stood when the commit began (R129) -/
  stamp : Option Clock
  deriving DecidableEq, Repr

/-- Spaces of a try sector (R282). -/
inductive SecKind
  | mem | spad | memSide | spadSide
  deriving DecidableEq, Repr

/-- A try-buffer sector: bytes by index with the lane that wrote them, later writes of a lane replacing its earlier
ones (R282). TRY.T uses lane 0 for every write. -/
structure BufSec where
  kind : SecKind
  /-- sector number, or line number for a side-band -/
  key : Nat
  bytes : List (Nat × Nat × Byte)
  deriving DecidableEq, Repr

/-- A read-set sector (R282, R283): its address as the region used it, and whether its home has registered it. -/
structure ReadSec where
  kind : SecKind
  key : Nat
  va : Nat
  registered : Bool
  deriving DecidableEq, Repr

/-- One add into a partial-sum slot inside a region, for COMMIT's recomputation (R389). -/
structure SlotAdd where
  addr : Nat
  lane : Nat
  val : W32
  deriving DecidableEq, Repr

/-- An open try region (R280, R282, R287). -/
structure Try where
  lane : Bool
  target : W64
  rpc : W64
  mask : Lanes
  prpc : W64
  loft : Nat
  sVregs : List (Nat × VReg)
  sSregs : List (Nat × SReg)
  sPreds : List Lanes
  sFlags : BitVec 6
  sFlagen : BitVec 6
  sDraw : W32
  sSlots : List (Nat × W32)
  adds : List SlotAdd
  buf : List BufSec
  reads : List ReadSec
  aborted : Lanes
  /-- buffered store instructions (R397) -/
  stores : Nat
  /-- first operation number issued inside the region -/
  since : Nat
  /-- the commit has begun (R284): entries not yet in the store queue; none before -/
  begun : Option (List QEntry)
  /-- the scope that the COMMIT names -/
  scope : Scope
  /-- the one stamp of the commit's parts, once its release is done (R129) -/
  released : Option Clock
  deriving DecidableEq, Repr

/-- The team's own batch barrier (R274): outstanding copies of batches PHASE onward, the open batch last. -/
structure Batch where
  phase : W16
  closed : W16
  owed : List Nat
  /-- join of the stamps of its landings and their widest scope (R123) -/
  stamp : Clock
  scope : Scope
  deriving DecidableEq, Repr

/-- A FENCE.DEV.SC that has reached the sequencer: the side and address it stands at, and whether the sequencer has taken it
(R118). -/
structure ScFence where
  off : Bool
  pc : W64
  passed : Bool
  deriving DecidableEq, Repr

/-- A SLOTW in progress (R306), at most one for each side: where it stands, the queued instructions it waits for, and the joint instructions of the
team that have not entered the queue yet. -/
structure SlotWait where
  off : Bool
  pc : W64
  ids : List Nat
  joints : List Nat
  deriving DecidableEq, Repr

/-- Why a team is parked (R399, R349): a fault-queue entry by die and number, or a spill with the registers written out; due while a
register deadlock has chosen it and its outstanding register writes still land. -/
structure Park where
  fault : Option (Nat × Nat)
  spill : Option (Nat × Nat)
  due : Bool
  deriving DecidableEq, Repr

/-- A team (R6, R8). -/
structure Team where
  block : Nat
  idx : Nat
  pipe : Bool
  age : Nat
  near : Side
  off : Side
  /-- the side that issues next (R9): true for the off side -/
  turn : Bool
  /-- on-chip top of the loft, top first, at most four (R15) -/
  loft : List LoftEnt
  loftDepth : Nat
  exited : Lanes
  preds : List Lanes
  vregs : List (Nat × VReg)
  sregs : List (Nat × SReg)
  flags : BitVec 6
  flagen : BitVec 6
  draw : W32
  /-- handler mode and the side it runs on (R209) -/
  handler : Option Bool
  /-- the eight shadow registers s56 to s63 of the handler (Table 07.14) -/
  shadow : List SReg
  frec : List W64
  retst : W32
  region : Option Try
  trystat : List W64
  batch : Batch
  queue : List QEntry
  /-- partial-sum slots by physical address (R389) -/
  slots : List (Nat × W32)
  /-- the harness it is a member of, and how many matrix instructions it has issued in it (R29) -/
  harness : Option (Nat × Nat)
  /-- harness faults it owes at its next matrix instruction or slot wait: harness and DETAIL bit 8 (R30, R310) -/
  owedFaults : List (Nat × Bool)
  yieldDue : Bool
  halted : Bool
  killed : Bool
  park : Park
  /-- budget periods spent blocked (R391), and whether this REGS wait of a last unparked team has been reported -/
  waited : Nat
  told : Bool
  /-- join of the stamps its strong loads and atomics returned since its last acquire (R116) -/
  seen : Clock
  /-- COLL instructions issued (R316) -/
  colls : Nat
  /-- it is in the active set of its pipe (R346) -/
  active : Bool
  scFence : Option ScFence
  slotw : List SlotWait
  deriving DecidableEq, Repr

/-! ## Blocks -/

/-- The stamp a range of bytes was last written with (R112): newest record first. -/
structure StampRec where
  addr : Nat
  len : Nat
  stamp : Clock
  deriving DecidableEq, Repr

/-- What a barrier object has counted since BINIT (R123, R270): join of stamps and widest scope. -/
structure BarMeta where
  off : Nat
  stamp : Clock
  scope : Scope
  deriving DecidableEq, Repr

/-- A dependency slot (R305): instructions that set it and are queued, and its failed mark. -/
structure DepSlot where
  pend : List Nat
  failed : Bool
  deriving DecidableEq, Repr

/-- A matrix instruction as one member issued it (R29): its block with markers and after substitution. -/
structure JointPart where
  team : Nat
  off : Bool
  pc : W64
  raw : PBlock
  pb : PBlock
  /-- the member's draw counter and key at its issue (R309) -/
  draw : W32
  key : Nat
  zero : Bool
  deriving DecidableEq, Repr

/-- What engine landings have overwritten in the block's scratchpad since a matrix instruction was first issued: bytes and side-bands as they
stood, oldest first. The instruction may still read them (R295, R330). -/
structure Older where
  bytes : List (Nat × Byte)
  sides : List (Nat × SideBand)
  deriving DecidableEq, Repr

/-- A joint instruction some members have issued: its number and the parts, oldest first. -/
structure Joint where
  k : Nat
  parts : List JointPart
  older : Older
  deriving DecidableEq, Repr

/-- A harness of a block (R28 to R30). -/
structure Harness where
  size : Nat
  members : List Nat
  convened : Bool
  left : List Nat
  joints : List Joint
  /-- joint instructions already complete -/
  done : Nat
  slots : List DepSlot
  deriving DecidableEq, Repr

/-- A mirrored window of a block (R326). -/
structure MWindow where
  yard : Nat
  base : Nat
  size : Nat
  cnt : Bool
  bar : Nat
  deriving DecidableEq, Repr

/-- Where a block's state stands (R407, R409, R410). -/
inductive Residence
  | core | shadow | saved | emergency
  deriving DecidableEq, Repr

/-- A block (R6, R7, R18). -/
structure Block where
  launch : Nat
  idx : Nat
  die : Nat
  core : Nat
  res : Residence
  /-- the KiB of the core's scratchpad and the 64 KiB units of its tile store that it was granted, in the order of its own
  offsets (R17, Table 16.7; log 28) -/
  spadMap : List Nat
  tileMap : List Nat
  spad : List Host.Cell
  spadSb : List (Nat × SideBand)
  spadPoison : List (Nat × Nat)
  spadStamps : List StampRec
  /-- accumulators by word index, zero where none is listed -/
  tile : List (Nat × W32)
  tilePoison : List Nat
  bars : List BarMeta
  harnesses : List Harness
  windows : List MWindow
  deriving DecidableEq, Repr

/-! ## Launches -/

/-- A contribution to a yard phase (R390). -/
structure Contrib where
  yard : Nat
  phase : W16
  block : Nat
  team : Nat
  addr : Nat
  val : W32
  deriving DecidableEq, Repr

/-- A launch in flight (R375, R376). -/
structure Launch where
  ctx : Nat
  queue : Nat
  record : List W64
  fixed : Bool
  gang : Bool
  /-- yard table entries with NBLK non-zero: index and 128 bits (R22) -/
  yards : List (Nat × BitVec 128)
  order : Nat
  /-- next block to place and blocks retired -/
  placed : Nat
  retired : Nat
  /-- blocks placed out of order under FIXEDORDER (R388) -/
  placedSet : List Nat
  /-- a report set STICKY since acceptance (Table 15.2) -/
  sticky : Bool
  /-- STATUS once the launch is to end; 0 while it runs -/
  status : Nat
  /-- stamp every die acquires before its first team issues (R131, R206) -/
  acq : Clock
  acqDies : List Nat
  contribs : List Contrib
  /-- slots left by retired teams: block, team, address, value (R390 launch end) -/
  finalSlots : List (Nat × Nat × Nat × W32)
  deriving DecidableEq, Repr

/-! ## Cores -/

/-- An L1 line (R85): its owner tag (Table 02.4, R422), sectors held, data, side-band, and whether it is constant space. -/
structure L1Line where
  line : Nat
  owner : Nat
  cst : Bool
  held : BitVec 4
  data : Line
  sb : SideBand
  deriving DecidableEq, Repr

/-- A monitor (R275), by the number of the WATCH that armed it. -/
structure Monitor where
  id : Nat
  block : Nat
  off : Nat
  sector : Nat
  team : Nat
  deriving DecidableEq, Repr

/-- Rows of len bytes, pitch bytes apart. -/
structure Span where
  off : Nat
  pitch : Nat
  rows : Nat
  len : Nat
  deriving DecidableEq, Repr

/-- A copy in progress (R296, R300). -/
structure Copy where
  id : Nat
  block : Nat
  team : Nat
  /-- the side that issued it -/
  off : Bool
  pc : W64
  pb : PBlock
  ctx : Nat
  key : Nat
  draw : W32
  /-- batch number under BATCH = 1 -/
  batch : Option W16
  /-- destination lines or sectors already landed -/
  landed : List Nat
  /-- bytes of the next one that the copy budget has already been charged with (R300) -/
  paid : Nat
  /-- fault-queue entry it is paused on -/
  paused : Option Nat
  stamp : Clock
  /-- scratchpad ranges it leases from its issue on (R293) -/
  leases : List Span
  deriving DecidableEq, Repr

/-- What a matrix-engine queue entry does (R304). -/
inductive MOp
  | mma (parts : List JointPart)
  | mzero (off len : Nat)
  | mload (team : Nat) (off n op : Nat)
  | mstoreV (off : Nat) (lanes : Lanes) (data : Line)
  | mstoreS (off dst len : Nat)
  | actld (src : Nat)
  deriving DecidableEq, Repr

/-- A matrix-engine queue entry. -/
structure MqEntry where
  id : Nat
  block : Nat
  team : Nat
  h : Nat
  op : MOp
  /-- harness and slot it sets -/
  slot : Option (Nat × Nat)
  /-- instructions its wait mask names that entered before it, and whether one of them failed (R306) -/
  waits : List Nat
  doomed : Bool
  older : Older
  deriving DecidableEq, Repr

/-- An activation bank (R313): LO, INV, slopes and intercepts that differ from the identity table, by segment. -/
structure ActBank where
  lo : W32
  inv : W32
  segs : List (Nat × W32 × W32)
  deriving DecidableEq, Repr

/-- A TLB entry (R417): level 0 in table entries of the die TLB names the level of the table they lead to. -/
structure TlbEnt where
  tag : Nat
  va : Nat
  level : Nat
  leaf : Bool
  pte : W64
  deriving DecidableEq, Repr

/-- A core's image of a context that has left it (R407 to R410). -/
structure Image where
  ctx : Nat
  res : Residence
  seq : Nat
  late : Nat
  nlate : Nat
  banks : ActBank × ActBank
  active : Bool
  mq : List MqEntry
  /-- fault-queue entry its spill or restore waits on -/
  pend : Option Nat
  /-- number of the free values that its device state was written as (R408, log 30) -/
  fill : Nat
  deriving DecidableEq, Repr

/-- A core. -/
structure Core where
  l1 : List L1Line
  /-- count of acquires that discarded the L1 (R134) -/
  epoch : Nat
  monitors : List Monitor
  copies : List Copy
  mq : List MqEntry
  banks : ActBank × ActBank
  active : Bool
  tlb : List TlbEnt
  images : List Image
  deriving DecidableEq, Repr

/-! ## Dies -/

/-- A remote-data cache or host data cache line (R84, R111, R113, R132). -/
structure RdcLine where
  line : Nat
  held : BitVec 4
  data : Line
  sb : SideBand
  stamp : Clock
  /-- the stamps of the writes whose values the line holds (R112) -/
  vals : List StampRec
  filled : Nat
  owner : Nat
  deriving DecidableEq, Repr

/-- An L2 line's tags (R83, R422): the data are those of memory. -/
structure L2Line where
  line : Nat
  owner : Nat
  dirty : Bool
  deriving DecidableEq, Repr

/-- A pinned-window register pair (Table 03.4) and the hit flag of the running period (R88). -/
structure PinWin where
  base : BitVec 31
  err : Bool
  fade : Byte
  fade0 : Byte
  size : W16
  en : Bool
  hit : Bool
  deriving DecidableEq, Repr

/-- Remaining budgets of a context on a die in this period (R387). -/
structure Budget where
  ctx : Nat
  chute : Nat
  copy : Nat
  coll : Nat
  cls0 : Nat
  walk : Nat
  deriving DecidableEq, Repr

/-- A migration fence (Table 17.9). -/
structure MigFence where
  old : BitVec 36
  done : Bool
  new : BitVec 36
  size : BitVec 14
  en : Bool
  deriving DecidableEq, Repr

/-- A release of a migration fence that runs (R421), by its number, with the range as it was at the release: its registers may be written
again, and armed again, meanwhile (log 90). -/
structure MigJob where
  id : Nat
  fence : Nat
  old : BitVec 36
  new : BitVec 36
  /-- with MOVE, and the lines left to move -/
  move : Bool
  left : List Nat
  /-- parked atomics sent on to the new address: operation and part -/
  sent : List (Nat × Nat)
  deriving DecidableEq, Repr

/-- A ring of reports (Tables 15.9, 16.4). -/
structure Ring where
  base : W64
  lost : W16
  tail : W16
  head : W16
  deriving DecidableEq, Repr

/-- Who a die fault queue entry stops (Table 17.7). -/
inductive FqSource
  | team (uid : Nat)
  | copy (core id : Nat)
  | spill (core ctx : Nat)
  | restore (core ctx : Nat)
  | landing (i : Nat)
  | group (coll : Nat)
  deriving DecidableEq, Repr

/-- An unanswered fault-queue entry and everyone who joined it (R418). -/
structure FqEnt where
  /-- SEQ once written; entries waiting for room hold none -/
  seq : Option W16
  tag : Nat
  code : Nat
  granule : Nat
  words : List W64
  who : List FqSource
  deriving DecidableEq, Repr

/-- The telemetry counters of Table 18.2, in the order of their registers. -/
structure Counters where
  c0over : W64
  sigdrop : W64
  collrerun : W64
  collfail : W64
  memce : W64
  arrce : W64
  uncorr : W64
  pcieur : W64
  fabfail : W64
  xfail : W64
  deriving DecidableEq, Repr

/-- A signal port's binding (R327). -/
structure PortBind where
  port : Nat
  block : Nat
  off : Nat
  deriving DecidableEq, Repr

/-- A parked atomic (R264): the operation and part, with the address it is replayed at. -/
structure Parked where
  op : Nat
  part : Nat
  sector : Nat
  /-- parked behind this migration fence, below 8, or held by this release of one, if any -/
  fence : Option Nat
  deriving DecidableEq, Repr

/-- A die: compute dies 0 to 7 and the I/O die 8. -/
structure Die where
  clock : Clock
  applied : Clock
  /-- budget periods since package reset, and the last CYCLE read (R208) -/
  period : Nat
  cyc : W64
  rdc : List RdcLine
  l2 : List L2Line
  tlb : List TlbEnt
  pins : List PinWin
  budgets : List Budget
  /-- write queue of each stack: sectors, and whether its window is open (R92) -/
  wq : List (List Nat × Bool)
  /-- pounds by slice; slice 0 on die 8 is the I/O die's (R264) -/
  pounds : List (Nat × List Parked)
  wdLimit : W32
  wd : Ring
  er : Ring
  fq : Ring
  held : W16
  fqEnts : List FqEnt
  emergBase : BitVec 31
  emergEn : Bool
  scrubPasses : W16
  scrubLines : BitVec 24
  scrubEn : Bool
  scrubPos : Nat
  mig : List MigFence
  jobs : List MigJob
  ctr : Counters
  ports : List PortBind
  clockMHz : Nat
  nextMHz : Nat
  deriving DecidableEq, Repr

/-! ## The launch scheduler -/

/-- A launch queue's registers (Table 15.3), the age of each queued record, and its launches in flight. -/
structure Queue where
  base : BitVec 40
  fullerr : Bool
  size : Nat
  part : Nat
  ctx : Nat
  cls : Nat
  irq : Bool
  serial : Bool
  devapp : Bool
  en : Bool
  tail : W32
  head : W32
  done : W32
  /-- age and LNCH stamp of each queued record, head first (R382, R206) -/
  ages : List (Nat × Clock)
  /-- join of the stamps of its launches' completion reports (R131) -/
  stamp : Clock
  deriving DecidableEq, Repr

/-- A gate barrier (Table 15.4). -/
structure Gate where
  phase : W16
  arr : W16
  pend : W16
  /-- join of the stamps of the completion reports that have arrived (R131) -/
  stamp : Clock
  deriving DecidableEq, Repr

/-- A context slot: PARTCTX, CTXERR, PTROOT and, while VALID, the descriptor's fields (Tables 15.5, 15.6, 16.4, 17.1). -/
structure Ctx where
  desc : BitVec 46
  err : Bool
  valid : Bool
  sticky : Bool
  first : W16
  count : W32
  ptroot : BitVec 35
  tag : Nat
  latcrit : Bool
  debug : Bool
  sbmode : Bool
  seed : W64
  handler : W64
  save : W64
  chuteb : Nat
  copyb : Nat
  collb : Nat
  cls0b : Nat
  walkb : Nat
  slice : Nat
  grace : Nat
  /-- saves counted by the scheduler, and the logical cores recorded at the last eviction (R408, R409) -/
  seq : Nat
  recorded : List Nat
  /-- a saved image exists -/
  saved : Bool
  /-- the context has been ended, and its stores still leave or its launches and records still end (R386, R387, R93) -/
  ending : Bool
  deriving DecidableEq, Repr

/-- A partition (Table 15.5) with its placement state (R383), slice counts (R385) and debug register (Table 16.5). -/
structure Part where
  dies : Byte
  derr : Bool
  idle : Bool
  graced : Bool
  switch : Bool
  run : Nat
  accepts : Nat
  /-- queue served last, by class; before the first one the highest, so that the search begins at queue 0 (log 63) -/
  lastQ : List Nat
  rot : Nat
  prev : List (Nat × Nat)
  sliceCount : Nat
  /-- periods since yield-due was set; none while it is clear -/
  graceCount : Option Nat
  /-- the context to start once the swap is over -/
  next : Option Nat
  halt : Bool
  forcefo : Bool
  /-- an eviction has found every team at a blocking point: the cores issue nothing more (R406) -/
  stopped : Bool
  deriving DecidableEq, Repr

/-- A running invalidation (R420): range and what it waits for. -/
structure Inval where
  va : BitVec 41
  tag : Byte
  pages : W32
  err : Bool
  busy : Bool
  /-- operations and writes in flight, and queued entries, that BUSY waits for -/
  ops : List Nat
  writes : List Nat
  teams : List Nat
  deriving DecidableEq, Repr

/-- The scheduler of die 8 (15_launch_and_scheduling.md). Queues and gates not listed stand at reset. -/
structure Sched where
  queues : List (Nat × Queue)
  gates : List (Nat × Gate)
  parts : List Part
  ctxs : List (Nat × Ctx)
  /-- records appended and launches accepted so far, for ages and acceptance order -/
  appended : Nat
  accepted : Nat
  inv : Inval
  /-- host interrupts raised by queue, and by partition for a grace limit -/
  irqs : List Nat
  graceIrqs : List Nat
  deriving DecidableEq, Repr

/-! ## Traffic in flight -/

/-- A write on its way to its home (R108). -/
structure NWrite where
  id : Nat
  src : Nat
  home : Nat
  team : Option Nat
  ctx : Nat
  stamp : Clock
  owner : Nat
  body : WBody
  /-- part of a COMMIT (R129) -/
  commit : Bool
  /-- the fabric stream it came in: 4 × package + class (R121) -/
  stream : Option Nat
  deriving DecidableEq, Repr

/-- A clock announcement on its way to die dst (R109). -/
structure Announce where
  id : Nat
  src : Nat
  dst : Nat
  val : Nat
  deriving DecidableEq, Repr

/-- How a load's bytes become a lane value (Table 09.2). -/
inductive LoadExt
  | zero | sign
  deriving DecidableEq, Repr

/-- A lane's place in a long-latency load: lane, physical address of its first byte, the bytes forwarded from the
team's own queue at issue (by index in the value). -/
structure LaneAddr where
  lane : Nat
  addr : Nat
  fwd : List (Nat × Byte)
  deriving DecidableEq, Repr

/-- One line request of a load (R97, R111). -/
structure LinePart where
  line : Nat
  need : BitVec 4
  home : Nat
  /-- another package, for fabric-window lines -/
  pkg : Option Nat
  clock : Clock
  /-- data once served: data, side-band, poison code, fill stamp, stamps of the values -/
  got : Option (Line × SideBand × Nat × Clock × List StampRec)
  /-- came from a cache and is not to be installed -/
  noRdc : Bool
  noL1 : Bool
  epoch : Nat
  deriving DecidableEq, Repr

/-- One address request of an atomic (R262): lanes with their operands, ascending. -/
structure AtomPart where
  addr : Nat
  home : Nat
  pkg : Option Nat
  lanes : List (Nat × W64 × W64)
  stamp : Clock
  /-- a fabric-scope release (R120) -/
  rel : Bool
  sent : Bool
  parked : Bool
  /-- refused by a full pound, waiting to be resent -/
  refused : Bool
  /-- where a request through the package's own window is applied, once it has arrived there (R76, R421) -/
  dest : Option Nat
  /-- old value of each lane once applied, with poison code -/
  got : Option (List (Nat × W64) × Nat × Clock)
  deriving DecidableEq, Repr

/-- What a long-latency operation does. -/
inductive OpKind
  /-- width in bytes, extension, line parts, lanes; the scalar form uses lane 0; cst for constant space -/
  | load (size : Nat) (ext : LoadExt) (cst : Bool) (tryRead : Bool) (parts : List LinePart) (lanes : List LaneAddr)
  | line (tryRead : Bool) (fwd : List (Nat × Byte)) (fwdSb : Option SideBand) (part : LinePart)
  /-- operation, or compare-and-swap when none; size; parts -/
  | atomic (f : Option AtomOp) (size : Nat) (parts : List AtomPart)
  /-- a result computed at issue: lane values, or a scalar -/
  | value (data : List (Nat × W32)) (scal : W64)
  | mload (n : Nat) (got : Option (List (Nat × Nat × W32) × List (Nat × Nat)))
  deriving DecidableEq, Repr

/-- Where a long-latency result lands (R347). -/
inductive LDst
  | none
  | vec (idx n : Nat)
  | scal (idx : Nat)
  deriving DecidableEq, Repr

/-- A long-latency operation in flight (Table 05.4). -/
structure MemOp where
  id : Nat
  team : Nat
  off : Bool
  pc : W64
  die : Nat
  core : Nat
  ctx : Nat
  kind : OpKind
  dst : LDst
  lanes : Lanes
  /-- the scalar form of an atomic: one access for all lanes -/
  scalar : Bool
  /-- flags it raises when it lands (FDIV, IDIV and the special functions raise theirs at issue) -/
  strong : Bool
  acq : Option Scope
  /-- a fabric-window acquire or load waits with REMOTE_LOAD, an expander load with EXPANDER -/
  reason : Option Reason
  deriving DecidableEq, Repr

/-- A remote arrival on a yard barrier (R271). -/
structure Arrival where
  launch : Nat
  yard : Nat
  count : Nat
  team : Nat
  blockIdx : Nat
  teamIdx : Nat
  pc : W64
  /-- the side that issued it -/
  off : Bool
  die : Nat
  stamp : Clock
  ctx : Nat
  deriving DecidableEq, Repr

/-- A mirrored store on its way to one block (R81, R326). -/
structure Mirror where
  launch : Nat
  yard : Nat
  blockIdx : Nat
  src : Nat
  die : Nat
  off : Nat
  mask : BitVec 32
  data : Sector
  stamp : Clock
  deriving DecidableEq, Repr

/-- A PUTS signal on its way to a port of this package (R323). -/
structure Signal where
  die : Nat
  port : Nat
  len : Nat
  stamp : Clock
  /-- writes that must be applied before it -/
  after : List Nat
  deriving DecidableEq, Repr

/-- A one-sided transfer in progress (R322, R324). -/
structure Xfer where
  id : Nat
  gets : Bool
  team : Nat
  /-- BLOCKID × 32 + TEAMID -/
  key : Nat
  /-- the side that issued it -/
  off : Bool
  block : Nat
  pc : W64
  ctx : Nat
  die : Nat
  core : Nat
  spad : Bool
  /-- destination and source: global virtual addresses, or scratchpad offsets -/
  dst : Nat
  src : Nat
  /-- the physical address of each 64 KiB page of a global range, as translated at issue -/
  dstMap : List (Nat × Nat)
  srcMap : List (Nat × Nat)
  /-- source lines of a PUTS that have come from another package, by virtual line number: data, side-band -/
  got : List (Nat × Line × SideBand)
  pkg : Nat
  len : Nat
  bar : Nat
  sig : Bool
  sigDie : Nat
  sigPort : Nat
  /-- 32-byte units sent or landed -/
  moved : List Nat
  /-- bytes of the next unit that the collective link budget has already been charged with (R323) -/
  paid : Nat
  /-- the transfer's last byte has been read (R293) -/
  read : Bool
  stamp : Clock
  deriving DecidableEq, Repr

/-- Traffic that has left for another package, or waits for a route to it (R432). -/
inductive OutKind
  | write (body : WBody) (rel : Bool)
  | load (op part : Nat)
  | atomic (op part : Nat)
  | puts (xfer unit : Nat) (body : WBody)
  | signal (xfer : Nat)
  | gets (xfer unit : Nat)
  | reply (id : Nat) (r : Reply)
  | coll (m : CollMsg)
  /-- an AMO of a host core: operation, or compare-and-swap when none; address, size, operands -/
  | host (f : Option AtomOp) (pa size : Nat) (v c : W64) (rel : Bool)
  deriving DecidableEq, Repr

/-- One outbound request (R121, R432). -/
structure OutReq where
  id : Nat
  pkg : Nat
  cls : Nat
  team : Option Nat
  ctx : Nat
  die : Nat
  pc : W64
  kind : OutKind
  /-- budget periods of die 8 it has waited for a route or port -/
  waited : Nat
  deriving DecidableEq, Repr

/-- A write aimed at the scratchpad of a saved block (R412). -/
inductive LandKind
  | copy (die core copy n : Nat)
  | mirror (m : Mirror)
  | arrival (a : Arrival)
  | signal (s : Signal)
  /-- bytes that a failed GETS adds (R325) -/
  | bytes (bar n : Nat) (stamp : Clock)
  /-- the record and the missing bytes of a failed collective (R320) -/
  | collEnd (bar n : Nat) (lo census : W64) (stamp : Clock)
  /-- the record of a collective whose communicator has been formed (R316) -/
  | collRecord (bar : Nat) (lo census : W64)
  /-- the scratchpad part of a begun commit (R284) -/
  | commit (team : Nat) (r : Try)
  deriving DecidableEq, Repr

structure ImgLand where
  block : Nat
  kind : LandKind
  paused : Option Nat
  deriving DecidableEq, Repr

/-- A watch event of a monitor on its way to a core (R276). -/
structure WatchNote where
  mon : Nat
  die : Nat
  core : Nat
  block : Nat
  off : Nat
  deriving DecidableEq, Repr

/-- A CONFLICT notice on its way to a team's core (R283). -/
structure ConflictNote where
  team : Nat
  va : Nat
  deriving DecidableEq, Repr

/-- A node value a participant's engine holds for a chunk (R439). -/
structure NodeHeld where
  chunk : Nat
  lo : Nat
  hi : Nat
  val : NodeVal
  deriving DecidableEq, Repr

/-- One team's COLL: where it stands, its word, and its parameter block with markers in place. -/
structure CollRaw where
  team : Nat
  /-- TEAMID -/
  idx : Nat
  pc : W64
  word : W64
  /-- the team's second side issued it -/
  off : Bool
  pb : PBlock
  deriving DecidableEq, Repr

/-- A block collective (R316 to R321). -/
structure Coll where
  id : Nat
  block : Nat
  k : Nat
  ctx : Nat
  die : Nat
  pc : W64
  pb : PBlock
  /-- who has issued it -/
  raws : List CollRaw
  formed : Bool
  /-- participants by rank: package and die, or the member blocks of its yard; one's own rank -/
  parts : List (Nat × Nat)
  yardBlocks : List Nat
  rank : Nat
  /-- its group table is defective; its own source lines fail the checks -/
  badTable : Bool
  badSource : Bool
  decl : Option CollDecl
  /-- combining slots granted by switches, and a refusal -/
  grants : List Nat
  refusedGrant : Bool
  nodes : List NodeHeld
  /-- values sent: chunk, lowest rank of the node, destination rank -/
  sent : List (Nat × Nat × Nat)
  /-- bytes of the next value that the collective link budget has already been charged with (R321) -/
  paid : Nat
  landed : List Nat
  reruns : List Nat
  /-- periods since its last chunk landed (R433) -/
  waited : Nat
  /-- periods since a participant's package became unreachable, 0 while all can be reached (R433) -/
  lost : Nat
  status : Nat
  census : W64
  /-- code of the translation fault that its group table waits on -/
  paused : Option Nat
  deriving DecidableEq, Repr

/-- An atomic of an agent outside the dies that a migration fence holds (R421): where it will be applied, the fence, below 8, or the
release of it, and whether that has sent it to the new address. -/
structure ExtPark where
  pa : Nat
  die : Nat
  fence : Nat
  moved : Bool
  deriving DecidableEq, Repr

/-- A load or atomic of another package that has arrived at ingress, and the clock it carries (R120). -/
structure Ingress where
  req : FabReq
  /-- number of its arrival: writes of die 8 below it are earlier -/
  uid : Nat
  clock : Clock
  park : Option ExtPark
  deriving DecidableEq, Repr

/-- A team that has left while traffic of its own is still out, as reports about that traffic name it (R396): BLOCKID × 32 + TEAMID, core, RETST. -/
structure Gone where
  team : Nat
  key : Nat
  core : Nat
  retst : W32
  deriving DecidableEq, Repr

/-- Everything in flight between units. -/
structure Net where
  writes : List NWrite
  anns : List Announce
  ops : List MemOp
  arrivals : List Arrival
  mirrors : List Mirror
  signals : List Signal
  xfers : List Xfer
  out : List OutReq
  lands : List ImgLand
  notes : List WatchNote
  conflicts : List ConflictNote
  colls : List Coll
  collIn : List CollMsg
  /-- the fence sequencer's queue of teams (R118) -/
  scq : List Nat
  /-- outstanding expander requests by name, with the budget periods of die 8 each has waited (R435) -/
  xwait : List (Nat × Nat)
  ingress : List Ingress
  gone : List Gone
  deriving DecidableEq, Repr

/-! ## I/O die, Solnal, memory -/

/-- A UALink port (R432, R433, R439). -/
structure Port where
  up : Bool
  retrains : Nat
  combine : Bool
  slots : Nat
  /-- it has been up since package reset -/
  trained : Bool
  deriving DecidableEq, Repr

/-- An expander window register (R434). -/
structure XWin where
  failed : Bool
  port : BitVec 2
  en : Bool
  deriving DecidableEq, Repr

/-- An inbound PCIe window (R436). -/
structure PciWin where
  base : BitVec 36
  size : W32
  en : Bool
  deriving DecidableEq, Repr

/-- What the device keeps of a host core (R132): its last loaded value, the stamps its loads returned, and, once the release of an AMO
that waits for its home has been done, the next number and the clock C_8 it carries (R111). -/
structure HostCore where
  last : W64
  seen : Clock
  rel : Option (Nat × Clock)
  /-- an AMO that a migration fence holds, by its address -/
  amo : Option (Nat × ExtPark)
  deriving DecidableEq, Repr

/-- A route entry (R432). -/
structure Route where
  valid : Bool
  port : BitVec 4
  deriving DecidableEq, Repr

/-- An entry of Solnal's error history (R449). -/
structure HistEnt where
  time : Nat
  die : Nat
  code : Nat
  tag : Nat
  addr : Nat
  deriving DecidableEq, Repr

/-- The I/O die's own registers (R427, R432, R434 to R438, R445). -/
structure Io where
  lock : Bool
  lw : BitVec 2
  fabid : BitVec 10
  fabto : W32
  routes : List (Nat × Route)
  ports : List Port
  xwins : List XWin
  xto : W32
  pcis : List PciWin
  meas : List (BitVec 256)
  measData : List W64
  measErr : Bool
  attNonce : List W64
  attBuf : BitVec 40
  attErr : Bool
  attDone : Bool
  /-- the report in production (ATTCTL.BUSY): its buffer, none for Solnal, and its nonce -/
  attJob : Option (Option Nat × List Byte)
  throttled : Bool
  mhz : W16
  cap : W16
  /-- host cores out of reset and the stage-1 image they run (R428) -/
  mainOn : Bool
  svn : Nat
  bootCopy : Option Nat
  /-- the measurement register that the next boot stage extends (R429) -/
  stage : Nat
  hosts : List (Nat × HostCore)
  hostCache : List RdcLine
  /-- reports of the main side on their way to Solnal's history (R449) -/
  unsaid : List HistEnt
  /-- Unsupported Request completions and read data handed to PCIe requesters, newest first -/
  pcieOut : List (Option W64)
  deriving DecidableEq, Repr

/-- A telemetry sample (Table 18.1). -/
structure Sample where
  time : Nat
  power : Nat
  temps : List Nat
  mhz : Option W16
  ctrs : List Counters
  ports : List Port
  failed : List Bool
  losts : List (W16 × W16 × W16)
  ends : Nat × Nat
  /-- the main side was off: items read UnavailableOffline -/
  offline : Bool
  /-- items of the main side that it reset before they were read, by number: clock, counters, ports, windows, LOST fields (R451) -/
  unread : List Nat
  deriving DecidableEq, Repr

/-- A Redfish event of R450, R445 or Table 18.5. -/
structure Event where
  time : Nat
  kind : Nat
  fabid : BitVec 10
  die : Nat
  tag : Nat
  coll : Nat
  status : Nat
  chunks : Nat
  lostPkg : Nat
  deriving DecidableEq, Repr

/-- Solnal (18_fleet_operation.md). -/
structure Solnal where
  on : Bool
  clock : Nat
  interval : Nat
  sample : Option Sample
  /-- items of the latest sample may still be on their way (R451) -/
  reading : Bool
  history : List HistEnt
  overwritten : Nat
  gap : Bool
  flash : List (Option BootImage)
  /-- the copy whose update may still be incomplete (R451) -/
  writing : Option Nat
  /-- the flash copy last accepted at boot -/
  accepted : Option Nat
  events : List Event
  ended : Nat × Nat
  report : List Byte
  deriving DecidableEq, Repr

/-- HBM and expander memory, by physical address (Table 03.2). -/
structure Mem where
  /-- data bytes that differ from what an unlisted address reads as (log 6, R427) -/
  cells : List Host.Cell
  /-- side-band of lines other than zero -/
  side : List (Nat × SideBand)
  /-- poisoned sectors with the code (R424) -/
  poison : List (Nat × Nat)
  /-- sectors whose demand-scrub write-back is pending (R425) -/
  corr : List Nat
  stamps : List StampRec
  /-- the homes were moved: HBM bytes not listed read as free values (R427) -/
  rehomed : Option Nat
  /-- ranges whose unlisted bytes read as free values: start, length, number of the values (the device state of images, R408) -/
  loose : List (Nat × Nat × Nat)
  deriving DecidableEq, Repr

/-- What moves next: an event, or one side of a team (log 3). -/
inductive Move
  | event (i : Instr)
  | issue (team : Nat) (off : Bool)
  deriving DecidableEq, Repr

/-- The model's own fields (log 3, log 7): the moves named in advance, the path issuing now, the counter of free values,
the counter of names for teams, blocks, launches and operations, the word of an instruction that the issuing path fetched but
could not decode or perform (R160, Table 16.3), whose turn it is, the moves since a budget period last ended,
and the die whose period ends next. -/
structure Run where
  agenda : List Move
  cur : Option (Nat × Bool)
  word : W64
  free : Nat
  uid : Nat
  turn : Nat
  moves : Nat
  die : Nat
  deriving DecidableEq, Repr

/-- The machine. -/
structure State where
  mem : Mem
  teams : List (Nat × Team)
  blocks : List (Nat × Block)
  launches : List (Nat × Launch)
  cores : List (Nat × Core)
  dies : List Die
  sched : Sched
  net : Net
  io : Io
  solnal : Solnal
  run : Run
  deriving DecidableEq, Repr

/-! ## Reset -/

/-- The identity activation table (R313): LO 0, INV 1.0, slopes 1.0, intercepts +0. -/
def ActBank.identity : ActBank := { lo := 0, inv := 0x3F800000, segs := [] }

/-- A core that holds nothing. -/
def Core.reset : Core :=
  { l1 := [], epoch := 0, monitors := [], copies := [], mq := [], banks := (.identity, .identity), active := false,
    tlb := [], images := [] }

/-- Table 03.4's reset column. -/
def PinWin.reset : PinWin := { base := 0, err := false, fade := 0, fade0 := 0, size := 0, en := false, hit := false }

def MigFence.reset : MigFence :=
  { old := 0, done := false, new := 0, size := 0, en := false }

def Ring.reset : Ring := { base := 0, lost := 0, tail := 0, head := 0 }

def Counters.reset : Counters :=
  { c0over := 0, sigdrop := 0, collrerun := 0, collfail := 0, memce := 0, arrce := 0, uncorr := 0, pcieur := 0,
    fabfail := 0, xfail := 0 }

/-- A die after package reset (R107, Tables 15.9, 16.4, 16.9, 17.5, 17.9, 17.12, 18.2). -/
def Die.reset : Die :=
  { clock := .zero, applied := .zero, period := 0, cyc := 0, rdc := [], l2 := [], tlb := [],
    pins := List.replicate 16 .reset, budgets := [], wq := [([], false), ([], false)], pounds := [],
    wdLimit := 0, wd := .reset, er := .reset, fq := .reset, held := 0, fqEnts := [], emergBase := 0, emergEn := false,
    scrubPasses := 0, scrubLines := 4096, scrubEn := true, scrubPos := 0, mig := List.replicate 8 .reset, jobs := [], ctr := .reset,
    ports := [], clockMHz := 2700, nextMHz := 2700 }

/-- Table 15.3's reset column. -/
def Queue.reset : Queue :=
  { base := 0, fullerr := false, size := 0, part := 0, ctx := 0, cls := 0, irq := false, serial := false,
    devapp := false, en := false, tail := 0, head := 0, done := 0, ages := [], stamp := .zero }

/-- Table 15.4's reset column. -/
def Gate.reset : Gate := { phase := 0, arr := 0, pend := 0, stamp := .zero }

/-- An empty context slot (Tables 15.5, 16.4, 17.1). -/
def Ctx.reset : Ctx :=
  { desc := 0, err := false, valid := false, sticky := false, first := 0, count := 0, ptroot := 0, tag := 0,
    latcrit := false, debug := false, sbmode := false, seed := 0, handler := 0, save := 0, chuteb := 0, copyb := 0,
    collb := 0, cls0b := 0, walkb := 0, slice := 0, grace := 0, seq := 0, recorded := [], saved := false, ending := false }

/-- Partition p after reset (Table 15.5): partition 0 holds every die. -/
def Part.reset (p : Nat) : Part :=
  { dies := if p = 0 then 0xFF else 0, derr := false, idle := true, graced := false, switch := false, run := 0,
    accepts := 0, lastQ := [131071, 131071, 131071, 131071], rot := 0, prev := [], sliceCount := 0, graceCount := none, next := none,
    halt := false, forcefo := false, stopped := false }

def Sched.reset : Sched :=
  { queues := [], gates := [], parts := [.reset 0, .reset 1, .reset 2, .reset 3, .reset 4, .reset 5, .reset 6, .reset 7],
    ctxs := [], appended := 0, accepted := 0,
    inv := { va := 0, tag := 0, pages := 0, err := false, busy := false, ops := [], writes := [], teams := [] },
    irqs := [], graceIrqs := [] }

def Net.reset : Net :=
  { writes := [], anns := [], ops := [], arrivals := [], mirrors := [], signals := [], xfers := [], out := [],
    lands := [], notes := [], conflicts := [], colls := [], collIn := [], scq := [], xwait := [], ingress := [], gone := [] }

/-- The I/O die's registers after package reset; XWIN, the ports and the main side's power state are DESIGN CHOICE
(log 5). -/
def Io.reset : Io :=
  { lock := false, lw := 3, fabid := 0, fabto := 1024, routes := [],
    ports := List.replicate 16 { up := false, retrains := 0, combine := false, slots := 0, trained := false },
    xwins := List.replicate 16 { failed := false, port := 0, en := false }, xto := 64,
    pcis := List.replicate 16 { base := 0, size := 0, en := false },
    meas := List.replicate 8 0, measData := [0, 0, 0, 0], measErr := false, attNonce := [0, 0, 0, 0], attBuf := 0,
    attErr := false, attDone := false, attJob := none, throttled := false, mhz := 2700, cap := 3400,
    mainOn := false, svn := 0, bootCopy := none, stage := 0, hosts := [], hostCache := [], unsaid := [], pcieOut := [] }

/-- Solnal: only the interval's default is the spec's (R442), the rest DESIGN CHOICE (log 5). -/
def Solnal.reset : Solnal :=
  { on := false, clock := 0, interval := 100, sample := none, reading := false, history := [], overwritten := 0, gap := false,
    flash := [none, none], writing := none, accepted := none, events := [], ended := (0, 0), report := [] }

/-- The machine right after package reset (R5, R107; the Reset columns of every register table). -/
def State.reset : State :=
  { mem := { cells := [], side := [], poison := [], corr := [], stamps := [], rehomed := none, loose := [] },
    teams := [], blocks := [], launches := [], cores := [],
    dies := [.reset, .reset, .reset, .reset, .reset, .reset, .reset, .reset, .reset],
    sched := .reset, net := .reset, io := .reset, solnal := .reset,
    run := { agenda := [], cur := none, word := 0, free := 0, uid := 0, turn := 0, moves := 0, die := 0 } }

end Sys2Proof.Machine
end

