-- ==== Sys2Proof/Machine/Maps.lean ====
section
/-! DEFINITION. Finite maps as rising lists of keyed values, and the bits and bytes of words: the helpers that every
operation on State uses. -/

namespace Sys2Proof.Machine

variable {α : Type}

/-! ## Rising lists of keyed values -/

/-- The value at a key. -/
def look (k : Nat) : List (Nat × α) → Option α
  | [] => none
  | (i, v) :: r => if i = k then some v else look k r

/-- Insert or replace, keys strictly rising. -/
def place (k : Nat) (v : α) : List (Nat × α) → List (Nat × α)
  | [] => [(k, v)]
  | (i, w) :: r => if k < i then (k, v) :: (i, w) :: r else if k = i then (k, v) :: r else (i, w) :: place k v r

/-- Remove a key. -/
def drop (k : Nat) : List (Nat × α) → List (Nat × α)
  | [] => []
  | (i, w) :: r => if i = k then drop k r else (i, w) :: drop k r

/-- Keys strictly rising. -/
def rising : List (Nat × α) → Bool
  | [] => true
  | [_] => true
  | (i, _) :: (j, w) :: r => decide (i < j) && rising ((j, w) :: r)

/-- Change the value at a key, if there is one. -/
def change (k : Nat) (f : α → α) : List (Nat × α) → List (Nat × α)
  | [] => []
  | (i, w) :: r => if i = k then (i, f w) :: r else (i, w) :: change k f r

/-- Change element n of a list. -/
def modAt (n : Nat) (f : α → α) : List α → List α
  | [] => []
  | x :: r => match n with
    | 0 => f x :: r
    | n + 1 => x :: modAt n f r

/-- Replace element n of a list. -/
def setAt (n : Nat) (v : α) (l : List α) : List α := modAt n (fun _ => v) l

/-- Replace element n of a list that reads as a default beyond its end. -/
def putAt (n : Nat) (v dflt : α) : List α → List α
  | [] => match n with
    | 0 => [v]
    | n + 1 => dflt :: putAt n v dflt []
  | x :: r => match n with
    | 0 => v :: r
    | n + 1 => x :: putAt n v dflt r

/-- The numbers lo, lo + 1, … of the given count. -/
def from_ (lo : Nat) : Nat → List Nat
  | 0 => []
  | n + 1 => lo :: from_ (lo + 1) n

/-- 0 to n − 1. -/
def upTo (n : Nat) : List Nat := from_ 0 n

/-- Element n of a list, or a default. -/
def nth (l : List α) (n : Nat) (dflt : α) : α :=
  match l, n with
  | [], _ => dflt
  | x :: _, 0 => x
  | _ :: r, n + 1 => nth r n dflt

/-- The first element a test accepts. -/
def first (p : α → Bool) : List α → Option α
  | [] => none
  | x :: r => if p x then some x else first p r

/-- Insert a number into a rising list without repeats. -/
def insertNat (k : Nat) : List Nat → List Nat
  | [] => [k]
  | i :: r => if k < i then k :: i :: r else if k = i then i :: r else i :: insertNat k r

/-- Sort numbers, without repeats. -/
def sortNat (l : List Nat) : List Nat := l.foldl (fun acc k => insertNat k acc) []

/-- The least element under a key, the first on a tie. -/
def leastBy (key : α → Nat) : List α → Option α
  | [] => none
  | x :: r =>
    match leastBy key r with
    | none => some x
    | some y => if key y < key x then some y else some x

/-! ## Bits -/

/-- A field of a natural number: w bits from bit lo. -/
def fieldN (v lo w : Nat) : Nat := v / 2 ^ lo % 2 ^ w
/-- A field of a word as a natural number: bits [lo + w − 1 : lo]. -/
def bits {n : Nat} (v : BitVec n) (lo w : Nat) : Nat := fieldN v.toNat lo w
/-- A single bit. -/
def bitOf {n : Nat} (v : BitVec n) (i : Nat) : Bool := v.getLsbD i
/-- One bit as a number. -/
def b1 (b : Bool) : Nat := if b then 1 else 0
/-- Sign-extension of a w-bit field to 64 bits. -/
def sext64 {n : Nat} (v : BitVec n) : W64 := BitVec.ofInt 64 v.toInt
/-- A 64-bit word from a number. -/
def w64 (n : Nat) : W64 := BitVec.ofNat 64 n
def w32 (n : Nat) : W32 := BitVec.ofNat 32 n
/-- The lanes of a mask, ascending. -/
def lanesOf (m : Lanes) : List Nat := (upTo 32).filter (fun l => m.getLsbD l)
/-- A mask from lane numbers. -/
def laneMask (ls : List Nat) : Lanes := ls.foldl (fun m l => m ||| (1#32 <<< l)) 0
/-- Population count of a mask. -/
def popCount {n : Nat} (m : BitVec n) : Nat := (upTo n).foldl (fun c i => c + b1 (m.getLsbD i)) 0

/-! ## Lanes of a line -/

/-- Lane l of a vector register: bits [32l + 31 : 32l] (R49). -/
def laneOf (x : Line) (l : Nat) : W32 := x.extractLsb' (32 * l) 32
/-- A line from lane values. -/
def lineOf (f : Nat → W32) : Line :=
  BitVec.ofNat 1024 ((upTo 32).foldr (fun l acc => acc * 2 ^ 32 + (f l).toNat) 0)
/-- Replace the lanes of a mask. -/
def mergeLanes (m : Lanes) (new old : Line) : Line := lineOf (fun l => if m.getLsbD l then laneOf new l else laneOf old l)
/-- One value in every lane. -/
def splat (v : W32) : Line := lineOf (fun _ => v)

/-! ## Bytes, little-endian -/

/-- Byte i of a word of any width. -/
def byteOf {n : Nat} (v : BitVec n) (i : Nat) : Byte := v.extractLsb' (8 * i) 8
/-- The first n bytes of a word. -/
def toBytes {w : Nat} (n : Nat) (v : BitVec w) : List Byte := (upTo n).map (byteOf v)
/-- A number from bytes, the first least significant. -/
def ofBytes (l : List Byte) : Nat := l.foldr (fun b acc => acc * 256 + b.toNat) 0
/-- Replace the bytes a mask names: byte i of new under bit i. -/
def mergeBytes (n : Nat) {w k : Nat} (m : BitVec k) (new old : BitVec w) : BitVec w :=
  BitVec.ofNat w (ofBytes ((upTo n).map (fun i => if m.getLsbD i then byteOf new i else byteOf old i)))

/-! ## Clocks (R107) -/

/-- Entry j of a clock. -/
def clk (c : Clock) (j : Nat) : Nat := nth c j 0
/-- Elementwise maximum. -/
def joinClk : Clock → Clock → Clock
  | a :: r, b :: q => (if a < b then b else a) :: joinClk r q
  | [], q => q
  | r, [] => r
/-- a is at or below b in every entry. -/
def leClk : Clock → Clock → Bool
  | a :: r, b :: q => decide (a ≤ b) && leClk r q
  | _, _ => true

end Sys2Proof.Machine
end

