-- ==== Sys2Proof/Machine/Kinds.lean ====
section
/-! DEFINITION. Helpers on the operand types of Syntax.lean: ranks of scopes, fields of the MMA block that other files ask for. -/

namespace Sys2Proof

/-- Scope codes in order of width (Table 09.3). -/
def Scope.rank : Scope → Nat
  | .team => 1 | .blk => 2 | .die => 3 | .dev => 4 | .fab => 5
/-- Die scope or wider. -/
def Scope.wide (c : Scope) : Bool := 3 ≤ c.rank
def Scope.max (a b : Scope) : Scope := if a.rank < b.rank then b else a
/-- The slot an MMA sets (Table 10.5: SETEN, SLOT). -/
def PBlock.mmaSlot (p : PBlock) : Option Nat := if p.w3.getLsbD 31 then some (Machine.bits p.w3 32 4) else none

end Sys2Proof
end

