-- ==== Sys2Proof/Machine/Ops.lean ====
section
/-! DEFINITION. The named operations on State: its parts, launch-record fields, the physical address map, memory and
scratchpad bytes, clocks, report rings, faults and kills, the one entry into the trap handler and the return from it. -/

namespace Sys2Proof.Machine

/-! ## Parts of State -/

def State.teamAt (s : State) (u : Nat) : Option Team := look u s.teams
def State.setTeam (s : State) (u : Nat) (t : Team) : State := { s with teams := place u t s.teams }
def State.modTeam (s : State) (u : Nat) (f : Team → Team) : State := { s with teams := change u f s.teams }
def State.blockAt (s : State) (b : Nat) : Option Block := look b s.blocks
def State.setBlock (s : State) (b : Nat) (x : Block) : State := { s with blocks := place b x s.blocks }
def State.modBlock (s : State) (b : Nat) (f : Block → Block) : State := { s with blocks := change b f s.blocks }
def State.launchAt (s : State) (l : Nat) : Option Launch := look l s.launches
def State.modLaunch (s : State) (l : Nat) (f : Launch → Launch) : State := { s with launches := change l f s.launches }
/-- A core's key: its die and its number on the die. -/
def coreKey (die core : Nat) : Nat := 512 * die + core
def State.coreAt (s : State) (die core : Nat) : Core := (look (coreKey die core) s.cores).getD .reset
def State.modCore (s : State) (die core : Nat) (f : Core → Core) : State :=
  { s with cores := place (coreKey die core) (f (s.coreAt die core)) s.cores }
def State.die (s : State) (d : Nat) : Die := nth s.dies d .reset
def State.modDie (s : State) (d : Nat) (f : Die → Die) : State := { s with dies := modAt d f s.dies }
/-- A context slot's key: 16 × partition + slot. -/
def State.ctxAt (s : State) (c : Nat) : Ctx := (look c s.sched.ctxs).getD .reset
def State.modCtx (s : State) (c : Nat) (f : Ctx → Ctx) : State :=
  { s with sched := { s.sched with ctxs := place c (f (s.ctxAt c)) s.sched.ctxs } }
def State.queueAt (s : State) (q : Nat) : Queue := (look q s.sched.queues).getD .reset
def State.modQueue (s : State) (q : Nat) (f : Queue → Queue) : State :=
  { s with sched := { s.sched with queues := place q (f (s.queueAt q)) s.sched.queues } }
def State.gateAt (s : State) (g : Nat) : Gate := (look g s.sched.gates).getD .reset
def State.setGate (s : State) (g : Nat) (x : Gate) : State :=
  { s with sched := { s.sched with gates := place g x s.sched.gates } }
def State.partAt (s : State) (p : Nat) : Part := nth s.sched.parts p (.reset 1)
def State.modPart (s : State) (p : Nat) (f : Part → Part) : State :=
  { s with sched := { s.sched with parts := modAt p f s.sched.parts } }
def State.setNet (s : State) (f : Net → Net) : State := { s with net := f s.net }
/-- The partition of a context slot key. -/
def partOf (c : Nat) : Nat := c / 16
/-- The compute dies of a partition. -/
def Part.dieList (p : Part) : List Nat := (upTo 8).filter (fun d => p.dies.getLsbD d)
/-- The next free name, and the machine after taking it. -/
def State.uid (s : State) : Nat := s.run.uid
def State.bump (s : State) : State := { s with run := { s.run with uid := s.run.uid + 1 } }
/-- The next free value, and the machine after taking it (log 7). -/
def State.freeW (s : State) : W64 := Config.freeWord s.run.free
def State.useFree (s : State) : State := { s with run := { s.run with free := s.run.free + 1 } }

def State.useFrees (s : State) (n : Nat) : State := { s with run := { s.run with free := s.run.free + n } }

/-! ## The launch record and its header word (Tables 01.4, 15.1) -/

def Launch.dw (l : Launch) (k : Nat) : W64 := nth l.record k 0
def Launch.header (l : Launch) : W64 := l.dw 0
def Launch.compat16 (l : Launch) : Bool := l.header.getLsbD 63
def Launch.vfloor (l : Launch) : Nat := bits l.header 49 9
def Launch.sfloor (l : Launch) : Nat := bits l.header 42 7
/-- Teams per block. -/
def Launch.teams (l : Launch) : Nat := bits l.header 37 5 + 1
/-- Scratchpad bytes of a block. -/
def Launch.spadBytes (l : Launch) : Nat := 1024 * bits l.header 28 9
/-- Tile-store bytes of a block. -/
def Launch.tileBytes (l : Launch) : Nat := 65536 * bits l.header 22 6
/-- Private bytes of a team. -/
def Launch.privBytes (l : Launch) : Nat := 4096 * bits l.header 14 8
def Launch.entry (l : Launch) : W64 := w64 (bits (l.dw 1) 0 57)
def Launch.yardTab (l : Launch) : Nat := bits (l.dw 2) 0 57
def Launch.constBase (l : Launch) : Nat := bits (l.dw 3) 0 57
def Launch.privBase (l : Launch) : Nat := bits (l.dw 4) 0 57
def Launch.blockCount (l : Launch) : Nat := bits (l.dw 5) 24 24 + 1
def Launch.constSize (l : Launch) : Nat := bits (l.dw 5) 0 17
def Launch.waitPhase (l : Launch) : Nat := bits (l.dw 5) 48 16
def Launch.doneAddr (l : Launch) : Nat := bits (l.dw 7) 0 57

/-- The launch that stands in for none: a team's launch is always in State while the team is. -/
def Launch.none_ : Launch :=
  { ctx := 0, queue := 0, record := [], fixed := false, gang := false, yards := [], order := 0, placed := 0,
    retired := 0, placedSet := [], sticky := false, status := 0, acq := .zero, acqDies := [], contribs := [],
    finalSlots := [] }
def Block.none_ : Block :=
  { launch := 0, idx := 0, die := 0, core := 0, res := .core, spadMap := [], tileMap := [], spad := [], spadSb := [],
    spadPoison := [], spadStamps := [], tile := [], tilePoison := [], bars := [], harnesses := [], windows := [] }
def State.block (s : State) (b : Nat) : Block := (s.blockAt b).getD .none_
def State.launch (s : State) (l : Nat) : Launch := (s.launchAt l).getD .none_
/-- The launch of a block, of a team. -/
def State.launchOf (s : State) (b : Nat) : Launch := s.launch (s.block b).launch
def State.ctxOf (s : State) (b : Nat) : Nat := (s.launchOf b).ctx
/-- A team still holds its slot. -/
def Team.resident (t : Team) (s : State) (die core : Nat) : Bool :=
  let b := s.block t.block
  b.die = die && b.core = core && b.res = .core
/-- The owner tag of a context. -/
def State.tagOf (s : State) (c : Nat) : Nat := (s.ctxAt c).tag

/-! ## Physical addresses (R76, R82) -/

inductive Region
  | hbm
  | expander
  | fabric (pkg off : Nat)
  | control
  | unmapped
  deriving DecidableEq, Repr

/-- Table 03.2, with the control blocks of R374. -/
def regionOf (pa : Nat) : Region :=
  if pa < 2 ^ 40 then .hbm
  else if 2 ^ 42 ≤ pa && pa < 2 ^ 43 then .expander
  else if 2 ^ 51 ≤ pa && pa < 2 ^ 52 then .fabric (fieldN pa 41 10) (fieldN pa 0 41)
  else if 2 ^ 41 ≤ pa && pa < 2 ^ 41 + 9 * 2 ^ 24 then .control
  else .unmapped

/-- The home die of an HBM address (R82); lw = log2 of the interleave width. -/
def hbmHome (lw pa : Nat) : Nat :=
  let w := 2 ^ lw
  let x := Nat.xor (fieldN pa 12 3) (fieldN pa 24 3)
  let g := if lw = 3 then 0 else fieldN pa (37 + lw) (3 - lw)
  g * w + x % w
/-- The stack and the L2 slice of an HBM address (R82). -/
def hbmStack (pa : Nat) : Nat := Nat.xor (fieldN pa 11 1) (fieldN pa 20 1)
def hbmSlice (pa : Nat) : Nat := 16 * fieldN pa 15 2 + fieldN pa 7 4

/-- The home die of an address of this package: die 8 for the expander region (R101). -/
def State.homeOf (s : State) (pa : Nat) : Nat := if pa < 2 ^ 40 then hbmHome s.io.lw.toNat pa else 8

/-! ## Memory bytes -/

/-- An address lies in a range. -/
def inRange (a : Nat) (r : Nat × Nat × Nat) : Bool := r.1 ≤ a && a < r.1 + r.2.1
/-- What an address not listed reads as (log 6, R427, R408). -/
def Mem.unlisted (m : Mem) (a : Nat) : Byte :=
  match first (inRange a) m.loose with
  | some r => Config.freeByte r.2.2 a
  | none => match m.rehomed with
    | none => 0
    | some c => if a < 2 ^ 40 then Config.freeByte c a else 0
def Mem.byte (m : Mem) (a : Nat) : Byte := (look a m.cells).getD (m.unlisted a)
/-- Write one byte, keeping the canonical form. -/
def Mem.setByte (m : Mem) (a : Nat) (b : Byte) : Mem :=
  { m with cells := if b = m.unlisted a then drop a m.cells else place a b m.cells }
/-- Write the bytes of a sector that the mask names. -/
def Mem.setMasked (m : Mem) (a : Nat) (mask : BitVec 32) (data : Sector) : Mem :=
  (upTo 32).foldl (fun m i => if mask.getLsbD i then m.setByte (a + i) (byteOf data i) else m) m
/-- Write a run of bytes. -/
def Mem.setBytes (m : Mem) : Nat → List Byte → Mem
  | _, [] => m
  | a, b :: r => (m.setByte a b).setBytes (a + 1) r
def Mem.bytes (m : Mem) (a n : Nat) : List Byte := (from_ a n).map m.byte
def Mem.word (m : Mem) (a : Nat) : W64 := w64 (ofBytes (m.bytes a 8))
def Mem.sector (m : Mem) (a : Nat) : Sector := BitVec.ofNat 256 (ofBytes (m.bytes a 32))
def Mem.line (m : Mem) (l : Nat) : Line := BitVec.ofNat 1024 (ofBytes (m.bytes (128 * l) 128))
/-- The side-band of a line not listed. -/
def Mem.unlistedSb (m : Mem) (l : Nat) : SideBand :=
  match m.rehomed with
  | none => 0
  | some c => if l < 2 ^ 33 then Config.freeSide c l else 0
def Mem.sb (m : Mem) (l : Nat) : SideBand := (look l m.side).getD (m.unlistedSb l)
def Mem.setSb (m : Mem) (l : Nat) (v : SideBand) : Mem :=
  { m with side := if v = m.unlistedSb l then drop l m.side else place l v m.side }
/-- The canonical form: addresses strictly rising, no entry equal to what an unlisted address reads as. -/
def Mem.wf (m : Mem) : Bool := rising m.cells && m.cells.all (fun c => c.2 ≠ m.unlisted c.1)

/-! ### Stamps of values (R112) -/

def noteStamp (l : List StampRec) (a n : Nat) (c : Clock) : List StampRec :=
  let rest := l.filter (fun r => !(a ≤ r.addr && r.addr + r.len ≤ a + n))
  if n = 0 then l
  else if c = .zero && rest.all (fun r => r.addr + r.len ≤ a || a + n ≤ r.addr) then rest
  else { addr := a, len := n, stamp := c } :: rest
def stampOfByte (l : List StampRec) (a : Nat) : Clock :=
  match first (fun r => r.addr ≤ a && a < r.addr + r.len) l with
  | some r => r.stamp
  | none => .zero
/-- Join of the stamps of the writes whose values the bytes hold. -/
def stampOf (l : List StampRec) (a n : Nat) : Clock :=
  (from_ a n).foldl (fun c i => joinClk c (stampOfByte l i)) .zero

/-! ### The L2 of a home and its pinned windows (R83, R87, R88, R422) -/

def PinWin.covers (w : PinWin) (pa : Nat) : Bool :=
  w.en && 2 ^ 21 * w.base.toNat ≤ pa && pa < 2 ^ 21 * w.base.toNat + 2 ^ 21 * (w.size.toNat + 1)
/-- Sectors enter a controller's write queue, which opens its window once it holds 96 (R92). -/
def wqAdd (q : List Nat × Bool) (secs : List Nat) : List Nat × Bool :=
  let l := q.1 ++ secs
  (l, q.2 || decide (Config.windowOpens ≤ l.length))
/-- Room for a line in its slice: the line of the slice allocated first that no enabled window covers is evicted (log 68), a dirty one
through its controller's write queue; none where windows pin the whole slice. -/
def Die.roomL2 (d : Die) (line : Nat) : Option Die :=
  let same := d.l2.filter (fun x => hbmSlice (128 * x.line) = hbmSlice (128 * line))
  if same.length < Config.sliceLines then some d
  else (same.filter (fun x => !d.pins.any (fun w => w.covers (128 * x.line)))).getLast?.map (fun v =>
    { d with l2 := d.l2.filter (fun x => x.line ≠ v.line)
             wq := if v.dirty then modAt (hbmStack (128 * v.line)) (fun q => wqAdd q (from_ (4 * v.line) 4)) d.wq else d.wq })
/-- An access at the home: the line is allocated with the requester's tag, a write takes the writer's (R422); a line
already there is a hit in every enabled window that covers it (R88). -/
def Die.touchL2 (d : Die) (line owner : Nat) (write : Bool) : Die :=
  match first (fun x => x.line = line) d.l2 with
  | some x =>
    let d := { d with pins := d.pins.map (fun w => if w.covers (128 * line) then { w with hit := true } else w) }
    if write then
      { d with l2 := d.l2.map (fun y => if y.line = line then { x with owner := owner, dirty := true } else y) }
    else d
  | none => match d.roomL2 line with
    | some d => { d with l2 := { line := line, owner := owner, dirty := write } :: d.l2 }
    | none => d
/-- Accesses to lines k to k + n - 1 at their home. While no slice can fill up they are made together. -/
def Die.touchLines (d : Die) (k n owner : Nat) (write : Bool) : Die :=
  if Config.sliceLines < d.l2.length + n then (from_ k n).foldl (fun (d : Die) l => d.touchL2 l owner write) d
  else
    let old := (d.l2.filter (fun x => k ≤ x.line && x.line < k + n)).map (·.line)
    let new := (from_ k n).filter (fun l => !old.contains l)
    { d with
      pins := if old = [] then d.pins else d.pins.map (fun w => if old.any (fun l => w.covers (128 * l)) then { w with hit := true } else w)
      l2 := new.reverse.map (fun l => ({ line := l, owner := owner, dirty := write } : L2Line)) ++
        (if write then d.l2.map (fun y => if k ≤ y.line && y.line < k + n then { y with owner := owner, dirty := true } else y) else d.l2) }
/-- Only HBM lines are held in an L2. -/
def State.touchL2 (s : State) (pa owner : Nat) (write : Bool) : State :=
  if pa < 2 ^ 40 then s.modDie (s.homeOf pa) (fun d => d.touchL2 (pa / 128) owner write) else s
/-- Every line of n bytes is accessed at its home; the lines of one 4 KiB page have one home (R82). -/
def State.touchRange (s : State) (pa n owner : Nat) (write : Bool) : State :=
  if n = 0 then s
  else (from_ (pa / 4096) ((pa + n - 1) / 4096 - pa / 4096 + 1)).foldl (fun (s : State) g =>
    let lo := Nat.max pa (4096 * g) / 128
    let hi := (Nat.min (pa + n) (4096 * g + 4096) - 1) / 128
    if 4096 * g < 2 ^ 40 then s.modDie (s.homeOf (4096 * g)) (fun d => d.touchLines lo (hi + 1 - lo) owner write) else s) s

/-! ### A write applied at its home -/

/-- Watch events of a write to the sector at pa (R276): one note for each monitor on it. -/
def State.watchNotes (s : State) (pa : Nat) : List WatchNote :=
  s.cores.foldr (fun (k, c) acc =>
    (c.monitors.filter (fun m => m.sector = pa / 32)).map (fun m => ⟨m.id, k / 512, k % 512, m.block, m.off⟩) ++ acc) []
/-- CONFLICT notices of a write of agent `by` to a registered sector (R283). -/
def State.conflictNotes (s : State) (kind : SecKind) (key : Nat) (blk : Option Nat) (by_ : Option Nat) :
    List ConflictNote :=
  s.teams.foldr (fun (u, t) acc =>
    match t.region with
    | some r =>
      if some u = by_ || r.begun.isSome || (match blk with | some b => t.block ≠ b | none => false) then acc
      else match first (fun x => x.kind = kind && x.key = key && x.registered) r.reads with
        | some x => ⟨u, x.va⟩ :: acc
        | none => acc
    | none => acc) []
/-- What follows a write to a sector of memory: watch events and conflicts. -/
def State.afterWrite (s : State) (pa : Nat) (by_ : Option Nat) : State :=
  { s with net := { s.net with notes := s.net.notes ++ s.watchNotes pa
                               conflicts := s.net.conflicts ++ s.conflictNotes .mem (pa / 32) none by_ } }

/-- One piece of a write, applied: bytes, stamp, poison of a whole sector cleared (R424), L2, watches, conflicts. -/
def State.applyPiece (s : State) (p : Piece) (stamp : Clock) (owner : Nat) (by_ : Option Nat) : State :=
  if p.mask = 0 then s
  else
    let m := s.mem.setMasked p.addr p.mask p.data
    let full := p.mask = BitVec.allOnes 32
    let st :=
      if full then noteStamp m.stamps p.addr 32 stamp
      else (upTo 32).foldl (fun l i => if p.mask.getLsbD i then noteStamp l (p.addr + i) 1 stamp else l) m.stamps
    let m := { m with stamps := st }
    let m := if full then { m with poison := drop (p.addr / 32) m.poison } else m
    (({ s with mem := m }).touchL2 p.addr owner true).afterWrite p.addr by_

/-- A write body applied at the homes of this package. -/
def State.applyBody (s : State) (w : WBody) (stamp : Clock) (owner : Nat) (by_ : Option Nat) : State :=
  let s := w.pieces.foldl (fun s p => s.applyPiece p stamp owner by_) s
  w.sides.foldl (fun s (l, v) => { s with mem := s.mem.setSb l v }) s

/-- Pieces of a run of bytes at a physical address. -/
def piecesOf (pa : Nat) (bs : List Byte) : List Piece :=
  let n := bs.length
  if n = 0 then []
  else (from_ (pa / 32) ((pa + n - 1) / 32 - pa / 32 + 1)).map (fun sec =>
    let at_ := fun i => let a := 32 * sec + i
                        if pa ≤ a && a < pa + n then some (nth bs (a - pa) 0) else none
    { addr := 32 * sec
      mask := BitVec.ofNat 32 ((upTo 32).foldr (fun i acc => 2 * acc + b1 (at_ i).isSome) 0)
      data := BitVec.ofNat 256 (ofBytes ((upTo 32).map (fun i => (at_ i).getD 0))) })

/-- A write the device makes by itself in this package's memory: report rings, completion words, images (R396, R377). It
is applied at once, with the clock of the die that makes it. -/
def State.devWrite (s : State) (die pa : Nat) (bs : List Byte) : State :=
  match regionOf pa with
  | .hbm | .expander => s.applyBody { pieces := piecesOf pa bs, sides := [] } (s.die die).clock 0 none
  | _ => s
def wordsBytes (ws : List W64) : List Byte := ws.flatMap (toBytes 8)

/-! ## Scratchpad (R48, R52, R78) -/

def Block.byte (b : Block) (o : Nat) : Byte := (look o b.spad).getD 0
def Block.setByte (b : Block) (o : Nat) (v : Byte) : Block :=
  { b with spad := if v = 0 then drop o b.spad else place o v b.spad }
def Block.bytes (b : Block) (o n : Nat) : List Byte := (from_ o n).map b.byte
def Block.word (b : Block) (o : Nat) : W64 := w64 (ofBytes (b.bytes o 8))
def Block.line (b : Block) (l : Nat) : Line := BitVec.ofNat 1024 (ofBytes (b.bytes (128 * l) 128))
def Block.sb (b : Block) (l : Nat) : SideBand := (look l b.spadSb).getD 0
def Block.setSb (b : Block) (l : Nat) (v : SideBand) : Block :=
  { b with spadSb := if v = 0 then drop l b.spadSb else place l v b.spadSb }
def Block.setBytes (b : Block) : Nat → List Byte → Block
  | _, [] => b
  | o, v :: r => (b.setByte o v).setBytes (o + 1) r
/-- Bytes written to a scratchpad with their stamp; a whole sector loses its poison (R424). -/
def Block.write (b : Block) (o : Nat) (bs : List Byte) (stamp : Clock) : Block :=
  let n := bs.length
  let b := { b.setBytes o bs with spadStamps := noteStamp b.spadStamps o n stamp }
  { b with spadPoison := b.spadPoison.filter (fun (sec, _) => !(o ≤ 32 * sec && 32 * sec + 32 ≤ o + n)) }
/-- Sectors that n bytes at o touch. -/
def sectorsOf (o n : Nat) : List Nat := if n = 0 then [] else from_ (o / 32) ((o + n - 1) / 32 - o / 32 + 1)
/-- A write to a block's scratchpad by an agent: bytes and CONFLICT notices of its teams' regions (R283). -/
def State.spadWrite (s : State) (blk o : Nat) (bs : List Byte) (stamp : Clock) (by_ : Option Nat) : State :=
  let s := s.modBlock blk (fun b => b.write o bs stamp)
  let cs := (sectorsOf o bs.length).flatMap (fun sec => s.conflictNotes .spad sec (some blk) by_)
  { s with net := { s.net with conflicts := s.net.conflicts ++ cs } }
/-- A whole line with its side-band. -/
def State.spadWriteLine (s : State) (blk l : Nat) (v : Line) (sb : SideBand) (stamp : Clock) (by_ : Option Nat) : State :=
  let s := s.spadWrite blk (128 * l) (toBytes 128 v) stamp by_
  let s := s.modBlock blk (fun b => b.setSb l sb)
  { s with net := { s.net with conflicts := s.net.conflicts ++ s.conflictNotes .spadSide l (some blk) by_ } }
def Older.none_ : Older := { bytes := [], sides := [] }
/-- The bytes and side-bands of n bytes at o, noted before an engine's landing replaces them. -/
def Older.note (x : Older) (b : Block) (o n : Nat) : Older :=
  { bytes := x.bytes ++ (from_ o n).map (fun i => (i, b.byte i))
    sides := x.sides ++ (if n = 0 then [] else (from_ (o / 128) ((o + n - 1) / 128 - o / 128 + 1)).map (fun l => (l, b.sb l))) }
/-- An engine's landing of n bytes at o overtakes the matrix instructions of the block that some member has issued (R295, R330). -/
def State.overtake (s : State) (blk o n : Nat) : State :=
  let b := s.block blk
  let s := s.modBlock blk (fun b => { b with harnesses := b.harnesses.map (fun h =>
    { h with joints := h.joints.map (fun j => { j with older := j.older.note b o n }) }) })
  if (s.coreAt b.die b.core).mq.any (fun e => e.block = blk) then
    s.modCore b.die b.core (fun c => { c with mq := c.mq.map (fun e => if e.block = blk then { e with older := e.older.note b o n } else e) })
  else s
/-- Poison of the sectors that n bytes at o touch: the first poisoned sector and its code. -/
def poisonIn (l : List (Nat × Nat)) (o n : Nat) : Option (Nat × Nat) :=
  first (fun (sec, _) => o < 32 * sec + 32 && 32 * sec < o + n) l

/-! ## Clocks (R107 to R112) -/

/-- R109: an agent of die d releases at die scope or wider: C_d[d] grows and an announcement goes to every die. -/
def State.increment (s : State) (d : Nat) : State :=
  let s := s.modDie d (fun x => { x with clock := modAt d (· + 1) x.clock })
  let v := clk (s.die d).clock d
  let anns := (upTo 9).map (fun h => ({ id := s.uid, src := d, dst := h, val := v } : Announce))
  { s with net := { s.net with anns := s.net.anns ++ anns } }.bump
def State.releaseAt (s : State) (d : Nat) (c : Scope) : State := if c.wide then s.increment d else s

/-- R112 step 1: merge a stamp into a die's clock. -/
def State.merge (s : State) (d : Nat) (stamp : Clock) : State :=
  s.modDie d (fun x => { x with clock := joinClk x.clock stamp })
/-- R112 step 2: discard remote-data cache lines whose fill stamp does not cover the clock; on die 8 the host data
caches (R132). -/
def State.discardRdc (s : State) (d : Nat) : State :=
  let c := (s.die d).clock
  let s := s.modDie d (fun x => { x with rdc := x.rdc.filter (fun l => leClk c l.stamp) })
  if d = 8 then { s with io := { s.io with hostCache := s.io.hostCache.filter (fun l => leClk c l.stamp) } } else s
/-- R112 step 3: the core's L1 keeps its constant-space lines only. -/
def State.discardL1 (s : State) (d c : Nat) : State :=
  s.modCore d c (fun x => { x with l1 := x.l1.filter (·.cst), epoch := x.epoch + 1 })
/-- R112: an acquire of a stamp at a scope by an agent of core c of die d. -/
def State.acquireAt (s : State) (d c : Nat) (scope : Scope) (stamp : Clock) : State :=
  if scope.wide then
    let s := s.merge d stamp
    let s := if 4 ≤ scope.rank then s.discardRdc d else s
    s.discardL1 d c
  else s
/-- R112 at device scope by a die before teams of a launch or of a restored context issue (R131, R206). -/
def State.dieAcquire (s : State) (d : Nat) (stamp : Clock) : State :=
  let s := (s.merge d stamp).discardRdc d
  { s with cores := s.cores.map (fun (k, x) =>
      if k / 512 = d then (k, { x with l1 := x.l1.filter (·.cst), epoch := x.epoch + 1 }) else (k, x)) }

/-! ## Telemetry counters (R443) -/

/-- Counters saturate at all ones. -/
def satInc (w : W64) : W64 := if w = BitVec.allOnes 64 then w else w + 1
def satAdd (w v : W64) : W64 := if 2 ^ 64 ≤ w.toNat + v.toNat then BitVec.allOnes 64 else w + v
/-- What a period adds to the two counters of things that no event shows: class-0 requests over their bound (R100) and corrections inside
arrays, free numbers both (log 59). -/
def Counters.pass (c : Counters) (c0 ce : W64) : Counters := { c with c0over := satAdd c.c0over c0, arrce := satAdd c.arrce ce }
/-- An expander request has failed with 0x0402 or 0x0403 (Table 18.2). -/
def State.countX (s : State) : State := s.modDie 8 (fun d => { d with ctr := { d.ctr with xfail := satInc d.ctr.xfail } })

/-! ## Report rings (R396, R398, R391) -/

def Ring.used (r : Ring) : Nat := (r.tail - r.head).toNat
def Ring.lose (r : Ring) : Ring := { r with lost := if r.lost = BitVec.allOnes 16 then r.lost else r.lost + 1 }
/-- Append one record of the given bytes to a ring of n records at its base. -/
def State.ringWrite (s : State) (die : Nat) (get : Die → Ring) (set : Die → Ring → Die) (n : Nat) (bs : List Byte) :
    State :=
  let r := get (s.die die)
  if r.used < n then
    (s.devWrite die (r.base.toNat + bs.length * (r.tail.toNat % n)) bs).modDie die
      (fun d => set d { get d with tail := (get d).tail + 1 })
  else s.modDie die (fun d => set d (get d).lose)

/-- A report of Table 16.3 for context slot c; sticky reports set CTXERR.STICKY, FIRST and the flag of Table 15.2. -/
def State.report (s : State) (die c : Nat) (fr : List W64) (sticky : Bool) : State :=
  let s := s.ringWrite die (·.er) (fun d r => { d with er := r }) 256 (wordsBytes fr)
  let code := bits (nth fr 0 0) 0 16
  let s := s.modCtx c (fun x =>
    { x with count := if x.count = BitVec.allOnes 32 then x.count else x.count + 1
             first := if sticky && !x.sticky then BitVec.ofNat 16 code else x.first
             sticky := x.sticky || sticky })
  if sticky then
    { s with launches := s.launches.map (fun (k, l) => if l.ctx = c then (k, { l with sticky := true }) else (k, l)) }
  else s

/-- A watchdog report (Table 15.8). -/
def State.wdReport (s : State) (die obj ctx blk team core kind reason : Nat) : State :=
  let lo := s.tagOf ctx * 2 ^ 56 + blk % 2 ^ 24 * 2 ^ 32 + team % 32 * 2 ^ 27 + core % 512 * 2 ^ 18 + kind % 16 * 2 ^ 14
    + reason % 16 * 2 ^ 10
  s.ringWrite die (·.wd) (fun d r => { d with wd := r }) 256 (wordsBytes [w64 lo, w64 obj])

/-! ## Faults (Tables 16.1, 16.3) -/

/-- What one condition of Table 16.1 writes into the fault record. -/
structure FaultInfo where
  code : Nat
  cause : Nat
  /-- 0 none, 1 fetch, 2 load, 3 store, 4 atomic, 5 engine -/
  access : Nat
  lanes : Lanes
  addr : Nat
  detail : Nat
  paddr : Nat
  deriving DecidableEq, Repr

/-- A fault that names no access. -/
def plainFault (code detail : Nat) : FaultInfo :=
  { code := code, cause := 0, access := 0, lanes := allLanes, addr := 0, detail := detail, paddr := 0 }
/-- An illegal-operand fault (R161) with its cause (Table 16.2). -/
def illegalOperand (cause sel : Nat) : FaultInfo := { plainFault 0x0302 sel with cause := cause }
/-- A fault of a memory access. -/
def accessFault (code access : Nat) (lanes : Lanes) (addr detail : Nat) : FaultInfo :=
  { code := code, cause := 0, access := access, lanes := lanes, addr := addr, detail := detail, paddr := 0 }

/-- The fault record of team u (Table 16.3). -/
def State.record (s : State) (u : Nat) (off : Bool) (pc word : W64) (f : FaultInfo) (replay killed : Bool) : List W64 :=
  match s.teamAt u with
  | none => List.replicate 8 0
  | some t =>
    let b := s.block t.block
    [ w64 (2 ^ 63 + b1 replay * 2 ^ 62 + b1 killed * 2 ^ 61 + b1 off * 2 ^ 60 + f.access % 16 * 2 ^ 56
        + f.cause % 2 ^ 16 * 2 ^ 32 + f.code % 2 ^ 16),
      w64 (bits pc 0 57), w64 f.addr, f.lanes ++ t.retst,
      (if f.code = 0x0301 || f.code = 0x0302 then word else 0), w64 f.detail,
      w64 (if f.code = 0x0401 || f.code = 0x0601 then f.paddr % 2 ^ 52 else 0),
      w64 (s.tagOf (s.ctxOf t.block) * 2 ^ 56 + b.idx % 2 ^ 24 * 2 ^ 32 + t.idx % 32 * 2 ^ 27 + b.core % 512 * 2 ^ 18
        + b.die % 16 * 2 ^ 14) ]

/-- A team as reports name it, also after it has left: BLOCKID × 32 + TEAMID, core, RETST. -/
def State.whoIs (s : State) (u : Nat) : Gone :=
  match s.teamAt u with
  | some t => { team := u, key := 32 * (s.block t.block).idx + t.idx, core := (s.block t.block).core, retst := t.retst }
  | none => (first (fun (y : Gone) => y.team = u) s.net.gone).getD { team := u, key := 0, core := 0, retst := 0 }
/-- Traffic of a team is still out. -/
def State.stillOut (s : State) (u : Nat) : Bool :=
  s.net.ops.any (fun o => o.team = u) || s.net.writes.any (fun w => w.team = some u) || s.net.out.any (fun o => o.team = some u)
    || s.net.arrivals.any (fun a => a.team = u) || s.net.xfers.any (fun f => f.team = u) || s.net.colls.any (fun c => c.raws.any (fun r => r.team = u))
    || s.cores.any (fun y => y.2.copies.any (fun c => c.team = u))
/-- A team leaves; what reports will need of it stays while it is needed. -/
def State.leaves (s : State) (u : Nat) : State :=
  { s with teams := drop u s.teams, net := { s.net with gone := (s.net.gone ++ [s.whoIs u]).filter (fun y => s.stillOut y.team) } }

/-- The report of an engine fault (R396): key is BLOCKID × 32 + TEAMID of the issuing team, whose RETST it carries, as it was when the team
left (log 19), and off the side that issued the instruction. -/
def State.engineRecord (s : State) (u key : Nat) (off : Bool) (die core c : Nat) (pc : W64) (code addr detail : Nat) (killed : Bool)
    (lanes : Lanes := allLanes) : List W64 :=
  let ret := (s.whoIs u).retst
  [ w64 (2 ^ 63 + b1 killed * 2 ^ 61 + b1 off * 2 ^ 60 + 5 * 2 ^ 56 + code % 2 ^ 16), w64 (bits pc 0 57), w64 addr, lanes ++ ret, 0,
    w64 detail, 0,
    w64 (s.tagOf c * 2 ^ 56 + key / 32 % 2 ^ 24 * 2 ^ 32 + key % 32 * 2 ^ 27 + core % 512 * 2 ^ 18 + die % 16 * 2 ^ 14) ]
def State.engineReport (s : State) (u key : Nat) (off : Bool) (die core c : Nat) (pc : W64) (code addr detail : Nat) : State :=
  s.report die c (s.engineRecord u key off die core c pc code addr detail false) (code ≠ 0x0504)

/-! ## Errors contained and logged (R402, R423, R449) -/

/-- An entry of Solnal's history; one that cannot reach Solnal leaves SEQUENCEGAP (R449). -/
def State.history (s : State) (e : HistEnt) : State :=
  let h := s.solnal
  if !h.on then { s with solnal := { h with gap := true } }
  else
    let full := 4096 ≤ h.history.length
    { s with solnal := { h with history := (if full then h.history.drop 1 else h.history) ++ [{ e with time := h.clock }]
                                overwritten := h.overwritten + b1 full } }
/-- A report of the main side is on its way to Solnal: it has reached it when a budget period of die 8 ends (R449, log 55). -/
def State.tell (s : State) (e : HistEnt) : State := { s with io := { s.io with unsaid := s.io.unsaid ++ [e] } }
/-- Solnal receives the reports on their way and what is left of the sample it reads. -/
def State.heard (s : State) : State :=
  let t := s.io.unsaid.foldl State.history s
  { t with io := { s.io with unsaid := [] }, solnal := { t.solnal with reading := false } }
/-- An error contained: counted on its die and recorded by Solnal (R423). -/
def State.contained (s : State) (die code tag addr : Nat) : State :=
  let s := if die < 9 then s.modDie die (fun d => { d with ctr := { d.ctr with uncorr := satInc d.ctr.uncorr } }) else s
  s.tell { time := 0, die := die, code := code, tag := tag, addr := addr }
/-- The physical register that a register error's report names: how a core numbers the physical registers that hold a team's names is
not stated, so the number is a free value below the count of the file (log 64). -/
def physReg (free n : Nat) : Nat := (Config.freeWord free).toNat % n
/-- The code of a register error that nothing has found yet: the read that finds it faults with 0x0405 and kills, in a try region too
(R402, Table 16.1). -/
def latentError : Nat := 0x10405
/-- The report of a register error that is logged (R402): sticky, without a kill; DETAIL names the physical register. -/
def State.logReg (s : State) (u : Nat) (t : Team) (file : Nat) : State :=
  let b := s.block t.block
  let key := 32 * b.idx + t.idx
  let ws := setAt 0 (w64 (2 ^ 63 + 0x0405)) (s.engineRecord u key false b.die b.core (s.ctxOf t.block) 0 0x0405 0 (physReg s.run.free file) false)
  ((s.contained b.die 0x0405 (s.tagOf (s.ctxOf t.block)) 0).report b.die (s.ctxOf t.block) ws true).useFree
/-- An empty side. -/
def Side.empty : Side := { path := none, latches := [none, none, none, none], wait := .none, lnch := none }

/-- What a begun commit still has to put into the store queue. -/
def Team.commitOwed (t : Team) : List QEntry := (t.region.bind (·.begun)).getD []
/-- The team is gone: no path, no handler; a begun commit goes on through its queue with its locks (R284, R413), every other region leaves
no write (R129), its adds into partial-sum slots among them (R389). -/
def Team.dead (t : Team) : Team :=
  { t with near := .empty, off := .empty, loft := [], loftDepth := 0, exited := allLanes, handler := none,
           killed := true, park := { fault := none, spill := none, due := false }, harness := none, owedFaults := [],
           scFence := none, slotw := [], queue := t.queue ++ t.commitOwed
           slots := (match t.region with | some r => if r.begun.isSome then t.slots else r.sSlots | none => t.slots)
           region := t.region.bind (fun r => r.begun.map (fun _ => { r with begun := some [] })) }

/-- Kill one team with its record already made; no report, as for END (R396). -/
def State.killQuiet (s : State) (u : Nat) : State :=
  let s := s.modTeam u Team.dead
  { s with net := { s.net with scq := s.net.scq.filter (· ≠ u), conflicts := s.net.conflicts.filter (·.team ≠ u) } }

/-- Kill one team: its record with KILLED, the report, the context's sticky error (R396). -/
def State.killOne (s : State) (u : Nat) (off : Bool) (pc word : W64) (f : FaultInfo) : State :=
  match s.teamAt u with
  | none => s
  | some t =>
    let fr := s.record u off pc word f false true
    let b := s.block t.block
    let s := s.modTeam u (fun t => { t with frec := fr })
    (s.killQuiet u).report b.die (s.ctxOf t.block) fr true

/-! ### Harnesses dissolve (R30) -/

def Harness.none_ : Harness :=
  { size := 0, members := [], convened := false, left := [], joints := [], done := 0,
    slots := List.replicate 16 { pend := [], failed := false } }
def Block.harness (b : Block) (h : Nat) : Harness := nth b.harnesses h .none_
def Block.modHarness (b : Block) (h : Nat) (f : Harness → Harness) : Block :=
  { b with harnesses := putAt h (f (b.harness h)) .none_ b.harnesses }
def Harness.failSlot (x : Harness) (k : Nat) : Harness :=
  { x with slots := modAt k (fun y => { y with failed := true }) x.slots }
/-- The slot of a joint instruction that lacks a part: that of the block issued last (R29). -/
def Joint.slot (j : Joint) : Option Nat := j.parts.getLast?.bind (·.pb.mmaSlot)
/-- The slots of the joint instructions that some but not all members have issued. -/
def Harness.owedSlots (x : Harness) : List Nat := x.joints.filterMap Joint.slot
/-- The harness is empty again; joints that lack a part are discarded and their slots marked failed. -/
def Harness.dissolve (x : Harness) : Harness :=
  let y := x.owedSlots.foldl Harness.failSlot x
  { y with size := 0, members := [], convened := false, left := [], joints := [], done := 0 }

/-- Is a side blocked at a slot wait on harness h that names one of these slots, or, with none given, any slot? -/
def Side.slotWait (x : Side) (h : Nat) (ks : Option (List Nat)) : Bool :=
  match x.wait with
  | .on .slot obj => obj / 2 ^ 16 = h && (match ks with | some ks => ks.any (fun k => obj.testBit k) | none => true)
  | _ => false
def Team.side (t : Team) (off : Bool) : Side := if off then t.off else t.near
def Team.setSide (t : Team) (off : Bool) (x : Side) : Team := if off then { t with off := x } else { t with near := x }

/-- DETAIL of a harness fault. -/
def harnessFault (h : Nat) (operands : Bool) : FaultInfo := plainFault 0x0307 (h + 256 * b1 operands)

/-- R30: harness h of a block dissolves without team `except`, or loses it before it has convened: where it has convened the others owe a harness
fault. Those
blocked at a slot wait on the slot of a discarded joint instruction take it at once; after an operand failure all that are blocked at
a slot wait on the harness do (R310). Of a harness that has not convened the team that is killed merely leaves the members; the others go on
waiting and owe nothing, a choice of the model (log 84). -/
def State.dissolve (s : State) (blk h : Nat) (except : Nat) (operands : Bool) : State :=
  let x := (s.block blk).harness h
  let ks := if operands then none else some x.owedSlots
  let ms := if x.convened then x.members.filter (fun u => u ≠ except && !x.left.contains u) else []
  let s := s.modBlock blk (fun b => b.modHarness h (fun x =>
    if x.convened then x.dissolve else { x with members := x.members.filter (· ≠ except) }))
  ms.foldl (fun s u =>
    match s.teamAt u with
    | none => s
    | some t =>
      let t' := { t with harness := none, owedFaults := t.owedFaults ++ [(h, operands)] }
      let hit := fun off => match (t.side off).path with
        | some p => if (t.side off).slotWait h ks then some (off, p.pc) else none
        | none => none
      match hit false, hit true with
      | some (off, pc), _ | none, some (off, pc) => s.killOne u off pc 0 (harnessFault h operands)
      | none, none => s.setTeam u t') s

/-- A kill with everything it brings: the harness the team was in dissolves (R30). -/
def State.kill (s : State) (u : Nat) (off : Bool) (pc word : W64) (f : FaultInfo) : State :=
  match s.teamAt u with
  | none => s
  | some t =>
    let s := s.killOne u off pc word f
    match t.harness with
    | some (h, _) => s.dissolve t.block h u false
    | none => s

/-! ### Budgets and walks (R387, R417) -/

/-- A context's remaining budgets on a die in this period: the descriptor's values where none is listed (R387). -/
def State.budget (s : State) (d c : Nat) : Budget :=
  match first (fun b => b.ctx = c) (s.die d).budgets with
  | some b => b
  | none =>
    let x := s.ctxAt c
    { ctx := c, chute := x.chuteb, copy := x.copyb, coll := x.collb, cls0 := x.cls0b, walk := x.walkb }
def State.setBudget (s : State) (d c : Nat) (f : Budget → Budget) : State :=
  let b := f (s.budget d c)
  s.modDie d (fun x => { x with budgets := { b with ctx := c } :: x.budgets.filter (fun y => y.ctx ≠ c) })

/-- Shift of the index and log2 of the page size of a level (Table 17.2). -/
def levelShift : Nat → Nat
  | 1 => 43
  | 2 => 30
  | 3 => 21
  | _ => 16
/-- A TLB entry maps an address. -/
def TlbEnt.hits (e : TlbEnt) (tag va : Nat) : Bool :=
  e.tag = tag && e.leaf && e.va / 2 ^ levelShift e.level = va / 2 ^ levelShift e.level
/-- The context slot that holds an owner tag. -/
def State.slotOf (s : State) (tag : Nat) : Option Nat := (s.sched.ctxs.find? (fun y => y.2.valid && y.2.tag = tag)).map Prod.fst
/-! ### The die fault queue (R418) and parking (R399) -/

/-- An entry written into the ring. -/
def State.fqWrite (s : State) (die : Nat) (e : FqEnt) : State :=
  let r := (s.die die).fq
  let seq := r.tail
  let ws := modAt 0 (fun w => w ||| (seq.setWidth 64 <<< 16)) e.words
  let s := s.devWrite die (r.base.toNat + 32 * (seq.toNat % 1024)) (wordsBytes ws)
  s.modDie die (fun d => { d with fq := { d.fq with tail := d.fq.tail + 1 }
                                  fqEnts := d.fqEnts ++ [{ e with seq := some seq, words := ws }] })

/-- A translation fault of one requester, whose walk has been charged where it was made: it joins an unanswered entry of the same tag, code and granule, or writes one,
or waits for room and is counted in HELD. -/
def State.fqEnter (s : State) (die tag code va : Nat) (source access level blk team core slot : Nat) (who : FqSource) :
    State :=
  let g := va / 65536
  if ((s.die die).fqEnts.any (fun e => e.tag = tag && e.code = code && e.granule = g)) then
    s.modDie die (fun d => { d with fqEnts := d.fqEnts.map (fun e =>
      if e.tag = tag && e.code = code && e.granule = g then { e with who := e.who ++ [who] } else e) })
  else
    let ws := [w64 (2 ^ 63 + source * 2 ^ 60 + access * 2 ^ 56 + tag * 2 ^ 48 + code), w64 (va % 2 ^ 57),
      w64 (blk % 2 ^ 24 * 2 ^ 40 + team % 32 * 2 ^ 35 + core % 512 * 2 ^ 26 + slot % 64 * 2 ^ 20 + level % 8), 0]
    let e : FqEnt := { seq := none, tag := tag, code := code, granule := g, words := ws, who := [who] }
    if (s.die die).fq.used < 1024 then s.fqWrite die e
    else s.modDie die (fun d => { d with held := d.held + 1, fqEnts := d.fqEnts ++ [e] })

/-- R399: a translation fault parks the team at the faulting instruction, both sides' latches kept. -/
def State.parkTeam (s : State) (u : Nat) (off : Bool) (pc : W64) (f : FaultInfo) : State :=
  match s.teamAt u with
  | none => s
  | some t =>
    let fr := s.record u off pc 0 f true false
    let b := s.block t.block
    let s := s.modTeam u (fun t => { t with frec := fr, park := { t.park with fault := some (b.die, f.code) } })
    s.fqEnter b.die (s.tagOf (s.ctxOf t.block)) f.code f.addr 0 f.access f.detail b.idx t.idx b.core 0 (.team u)

/-! ## The trap handler (R209, R210, R214) -/

/-- Entering the team trap handler from path P of a side: the ONE way a team takes a handler cause. A context without a
handler loses the team with code 0x0309. -/
def State.enterHandler (s : State) (u : Nat) (off : Bool) (cause detail : Nat) (resume : W64) : State :=
  match s.teamAt u with
  | none => s
  | some t =>
    match (t.side off).path with
    | none => s
    | some p =>
      let h := (s.ctxAt (s.ctxOf t.block)).handler
      if h = 0 then s.kill u off p.pc 0 (plainFault 0x0309 cause)
      else
        let sd := { t.side off with path := some { p with pc := h }, wait := .none, lnch := none,
                                    latches := [none, none, none, none] }
        s.setTeam u { t.setSide off sd with
          handler := some off
          shadow := [w64 cause, resume, w64 detail, p.mask.setWidth 64, 0, 0, 0, 0].map SReg.plain }

/-- RESUME, shadow s57. -/
def Team.resume (t : Team) : W64 := (nth t.shadow 1 (.plain 0)).val
/-- R214: the return from the handler: handler mode ends and P resumes at shadow s57. -/
def Team.leaveHandler (t : Team) (off : Bool) : Team :=
  match (t.side off).path with
  | none => t
  | some p =>
    { t.setSide off { t.side off with path := some { p with pc := t.resume }, wait := .none } with
      handler := none }

/-- A register target must be 8-byte aligned and lie below 2^57 (R198). -/
def targetOk (a : W64) : Bool := bits a 0 3 = 0 && bits a 57 7 = 0
/-- A target or reconvergence address reached by displacement (R198). -/
def addrOk57 (a : W64) : Bool := bits a 57 7 = 0

end Sys2Proof.Machine
end

