-- ==== Sys2Proof/Machine/Translate.lean ====
section
/-! DEFINITION. From virtual to physical addresses: the walk, the TLBs, permissions and the checks on the physical address
(17_translation_errors_links.md R415 to R417; R75, R76, R374). -/

namespace Sys2Proof.Machine

/-- What an access needs of a leaf (Table 17.4). -/
inductive Perm
  | rd | wr | rdwr | ex
  deriving DecidableEq, Repr

/-- Bits [4:2] of an entry answer a permission. -/
def Perm.allows (p : Perm) (e : W64) : Bool :=
  match p with
  | .rd => e.getLsbD 2
  | .wr => e.getLsbD 3
  | .rdwr => e.getLsbD 2 && e.getLsbD 3
  | .ex => e.getLsbD 4

/-- The index of a virtual address at a level. -/
def levelIndex (lvl va : Nat) : Nat :=
  match lvl with
  | 1 => fieldN va 43 14
  | 2 => fieldN va 30 13
  | 3 => fieldN va 21 9
  | _ => fieldN va 16 5

/-- A walk step: what an entry at a level leads to, or the code of the fault (R416). -/
inductive WalkStep
  | table (t : Nat)
  | leaf (e : W64)
  | bad (code : Nat)
  deriving DecidableEq, Repr

/-- Reading one page-table entry (R416). -/
def walkEntry (e : W64) (lvl : Nat) : WalkStep :=
  if e.getLsbD 0 = false then .bad 0x0101
  else if bits e 52 12 ≠ 0 || bits e 5 7 ≠ 0 || (e.getLsbD 1 && lvl = 1) || (!e.getLsbD 1 && lvl = 4)
      || (!e.getLsbD 1 && bits e 2 3 ≠ 0) then .bad 0x0103
  else if e.getLsbD 1 then
    (if fieldN (4096 * bits e 12 40) 0 (levelShift lvl) ≠ 0 then .bad 0x0103 else .leaf e)
  else if (lvl = 1 && bits e 12 4 ≠ 0) || 2 ^ 40 ≤ 4096 * bits e 12 40 then .bad 0x0103
  else .table (4096 * bits e 12 40)

/-- The result of translating one address. -/
inductive Tran
  /-- physical address, and the machine with its TLBs filled -/
  | ok (pa : Nat) (s : State)
  | fault (code level : Nat)
  /-- the walk waits: for the next budget period, or for its home to have applied what the die's clock covers -/
  | wait
  deriving DecidableEq

/-- First in, first out beyond the capacity (log 11). -/
def fillTlb (cap : Nat) (e : TlbEnt) (l : List TlbEnt) : List TlbEnt :=
  (e :: l.filter (fun x => !(x.tag = e.tag && x.level = e.level && x.leaf = e.leaf && x.va = e.va))).take cap

/-- The homes of this package have applied all that the die's clock covers, so that reading any line is allowed now (R111). -/
def State.covered (s : State) (die : Nat) : Bool := (upTo 9).all (fun h => leClk (s.die die).clock (s.die h).applied)

/-- The four levels, from table t at a level; tables are read at their homes, for cov only once those have applied what the
die's clock covers (R111; log 12). Entries read are returned for the die TLB. -/
def walkFrom (s : State) (cov : Bool) (die tag va : Nat) : Nat → Nat → Nat → List TlbEnt → Except (Option (Nat × Nat)) (W64 × Nat × List TlbEnt)
  | 0, lvl, _, _ => .error (some (0x0103, lvl))
  | fuel + 1, lvl, t, acc =>
    let pa := t + 8 * levelIndex lvl va
    if cov && !leClk (s.die die).clock (s.die (s.homeOf pa)).applied then .error none
    else
      let e := s.mem.word pa
      let ent : TlbEnt := { tag := tag, va := va / 2 ^ levelShift lvl * 2 ^ levelShift lvl, level := lvl, leaf := false, pte := e }
      match walkEntry e lvl with
      | .bad c => .error (some (c, lvl))
      | .leaf e => .ok (e, lvl, { ent with leaf := true } :: acc)
      | .table t' => walkFrom s cov die tag va fuel (lvl + 1) t' (ent :: acc)

/-- The walk of a context's tables from its root, with nothing cached. -/
def State.walkRoot (s : State) (cov : Bool) (die c va : Nat) : Except (Option (Nat × Nat)) (W64 × Nat × List TlbEnt) :=
  walkFrom s cov die (s.tagOf c) va 4 1 (2 ^ 17 * (s.ctxAt c).ptroot.toNat) []

/-- The entries that a walk from table t at a level reads, the failing one too. -/
def walkReads (s : State) (va : Nat) : Nat → Nat → Nat → List Nat
  | 0, _, _ => []
  | fuel + 1, lvl, t =>
    let pa := t + 8 * levelIndex lvl va
    pa :: (match walkEntry (s.mem.word pa) lvl with
      | .table t' => walkReads s va fuel (lvl + 1) t'
      | _ => [])
/-- A walk has been made: its reads of tables at their homes' L2 (R83), its charge (R387, R417). -/
def State.walkPaid (s : State) (die c va fuel lvl t : Nat) : State :=
  ((walkReads s va fuel lvl t).foldl (fun (s : State) pa => s.touchL2 pa (s.tagOf c) false) s).setBudget die c
    (fun b => { b with walk := b.walk - 1 })

/-- A walk for the scheduler's own accesses and for images: the tables as their homes hold them (log 12). -/
def State.walk (s : State) (die c va : Nat) : Except (Option (Nat × Nat)) (W64 × Nat × List TlbEnt) := s.walkRoot false die c va

/-- Such a walk from the root. -/
def State.walkDone (s : State) (die c va : Nat) : State := s.walkPaid die c va 4 1 (2 ^ 17 * (s.ctxAt c).ptroot.toNat)
/-- Where a walk of a requester starts: levels left, level and table. Table entries of the die TLB stand for the tables they lead to. -/
def State.walkStart (s : State) (die c va : Nat) : Nat × Nat × Nat :=
  let start := fun lvl => first (fun (e : TlbEnt) => e.tag = s.tagOf c && !e.leaf && e.level = lvl
    && e.va / 2 ^ levelShift lvl = va / 2 ^ levelShift lvl) (s.die die).tlb
  match start 3, start 2, start 1 with
  | some e, _, _ => (1, 4, 4096 * bits e.pte 12 40)
  | none, some e, _ => (2, 3, 4096 * bits e.pte 12 40)
  | none, none, some e => (3, 2, 4096 * bits e.pte 12 40)
  | none, none, none => (4, 1, 2 ^ 17 * (s.ctxAt c).ptroot.toNat)
/-- The leaf of an address: the core's TLB, then the die's, then a walk charged to the walk budget (R417, R387); State.walkAt charges the
one that faults. -/
def State.leafOf (s : State) (die core c va : Nat) : Except (Option (Nat × Nat)) (W64 × Nat × State) :=
  let tag := s.tagOf c
  match first (fun e => e.hits tag va) (s.coreAt die core).tlb with
  | some e => .ok (e.pte, e.level, s)
  | none =>
    match first (fun e => e.hits tag va) (s.die die).tlb with
    | some e => .ok (e.pte, e.level, s.modCore die core (fun x => { x with tlb := fillTlb Config.coreTlb e x.tlb }))
    | none =>
      if (s.budget die c).walk = 0 then .error none
      else
        let from0 := s.walkStart die c va
        match walkFrom s true die tag va from0.1 from0.2.1 from0.2.2 [] with
        | .error x => .error x
        | .ok (e, lvl, ents) =>
          let s := s.walkPaid die c va from0.1 from0.2.1 from0.2.2
          let s := s.modDie die (fun d => { d with tlb := ents.foldr (fillTlb Config.dieTlb) d.tlb })
          let lf := first (fun (x : TlbEnt) => x.leaf) ents
          let s := match lf with
            | some x => s.modCore die core (fun k => { k with tlb := fillTlb Config.coreTlb x k.tlb })
            | none => s
          .ok (e, lvl, s)

/-- The machine after a requester has looked an address up, whatever came of it: TLBs filled, or the faulting walk charged. -/
def State.walkAt (s : State) (die core c va : Nat) : State :=
  match s.leafOf die core c va with
  | .ok (_, _, s) => s
  | .error (some _) => let y := s.walkStart die c va
                       s.walkPaid die c va y.1 y.2.1 y.2.2
  | .error none => s
def State.walkAll (s : State) (die core c : Nat) (vas : List Nat) : State :=
  vas.foldl (fun (s : State) va => s.walkAt die core c va) s
/-- One address of each 64 KiB granule, the first: no requester walks for a granule twice in one instruction. -/
def granules : List Nat → List Nat
  | [] => []
  | a :: r => a :: (granules r).filter (fun b => b / 65536 ≠ a / 65536)
/-- Translation of a 57-bit virtual address for an access (R416, Table 17.4). -/
def State.translate (s : State) (die core c va : Nat) (p : Perm) : Tran :=
  match s.leafOf die core c va with
  | .error none => .wait
  | .error (some (code, lvl)) => .fault code lvl
  | .ok (e, lvl, s) =>
    if p.allows e then .ok (4096 * bits e 12 40 + va % 2 ^ levelShift lvl) s
    else .fault 0x0102 lvl

/-- The expander window of an address (R434). -/
def State.xwinAt (s : State) (pa : Nat) : XWin := nth s.io.xwins ((pa - 2 ^ 42) / 2 ^ 38) { failed := false, port := 0, en := false }
/-- An access to the expander that R435 fails: its window has failed. -/
def State.xFailed (s : State) (pa : Nat) : Bool :=
  match regionOf pa with
  | .expander => (s.xwinAt pa).failed
  | _ => false
/-- Is a physical address one a device access may reach (R76, R374, R434)? -/
def State.paOk (s : State) (pa : Nat) : Bool :=
  match regionOf pa with
  | .hbm => true
  | .expander => (s.xwinAt pa).en || (s.xwinAt pa).failed
  | .fabric _ off => off < 2 ^ 40
  | .control | .unmapped => false

/-- A team's private byte (R80): virtual address of offset a. -/
def State.privVa (s : State) (t : Team) (a : Nat) : Nat :=
  let b := s.block t.block
  let l := s.launch b.launch
  (l.privBase + (b.idx * l.teams + t.idx) * l.privBytes + a) % 2 ^ 64

end Sys2Proof.Machine
end

