-- ==== Sys2Proof/Machine/Region.lean ====
section
/-! DEFINITION. What stops an instruction short, the loft and the refill of slots (R10 to R16), and the ends of a try
region that an abort brings (R285 to R287). -/

namespace Sys2Proof.Machine

/-- How an instruction ends without its own effect. -/
inductive Halt
  /-- an exact fault that kills the team (Table 16.1) -/
  | fault (f : FaultInfo)
  /-- a replayable fault: the team is parked (R399) -/
  | park (f : FaultInfo)
  /-- held in the pipe until what it needs is there; the flag says that it is a switch point, which clears the latches -/
  | stall (clear : Bool)
  /-- the first read of a long-latency result that is not there yet: a switch point at which the team may leave its pipe (Table 05.5) -/
  | leave
  /-- blocked at a switch point with a reason of Table 01.9 -/
  | wait (w : Wait)
  /-- entry into the trap handler (Table 07.13) -/
  | handler (cause detail : Nat) (resume : W64)
  /-- a whole-team abort of the try region (Table 09.13): code, user code, words 1 and 2 -/
  | abort (code : Nat) (user : Option Nat) (w1 w2 : W64)
  /-- a per-lane abort (R287) -/
  | abortLanes (lanes : Lanes) (code : Nat) (user : Option Nat) (w1 w2 : W64)
  /-- no path is chosen to issue -/
  | refuse
  /-- ends so after lookups of these addresses, whose walks are charged and whose translations stay (R417) -/
  | after (vas : List Nat) (h : Halt)
  deriving DecidableEq, Repr

/-- A check that stops by name. -/
def need (c : Bool) (h : Halt) : Except Halt Unit := if c then .ok () else .error h

/-- What may end short after lookups that have been made. -/
def walkedBy {α : Type} (vas : List Nat) (r : Except Halt α) : Except Halt α :=
  match r with
  | .ok y => .ok y
  | .error h => .error (.after vas h)
/-- The lookups a halt comes after. -/
def Halt.walks : Halt → List Nat
  | .after vas h => vas ++ h.walks
  | _ => []

/-! ## The loft -/

/-- An entry as 32 bytes (Table 01.2). -/
def LoftEnt.bytes (e : LoftEnt) (n : Nat) : List Byte :=
  toBytes 8 (w64 (bits e.pc 0 57)) ++ toBytes 8 e.rpc
    ++ toBytes 8 (w64 (n % 256 * 2 ^ 40 + (match e.kind with | .path => 1 | .join => 2) * 2 ^ 32 + e.mask.toNat))
    ++ List.replicate 8 0
/-- An entry read back from its bytes, with the checks of R16, which count when it is popped. An entry of a reserved kind is popped
where a JOIN is: the spec does not say at which step of R12 (log 65). -/
def loftOfBytes (bs : List Byte) (n : Nat) : LoftEnt :=
  let pc := w64 (ofBytes (bs.take 8))
  let rpc := w64 (ofBytes ((bs.drop 8).take 8))
  let hi := w64 (ofBytes ((bs.drop 16).take 8))
  let kind := bits hi 32 8
  { kind := if kind = 1 then .path else .join, mask := hi.setWidth 32, rpc := rpc, pc := pc
    ok := targetOk pc && (rpc = rpcNone || targetOk rpc) && bits hi 40 8 = n && bits hi 48 16 = 0
      && ofBytes (bs.drop 24) = 0 && (kind = 1 || kind = 2) }

/-- The physical address of loft entry n of a team (R15): a private access with its own permission and the checks on its physical
address. -/
def State.loftPa (s : State) (u n : Nat) (write : Bool) : Except Halt (Nat × State) :=
  match s.teamAt u with
  | none => .error .refuse
  | some t =>
    let b := s.block t.block
    let va := s.privVa t (32 * n)
    let access := if write then 3 else 2
    match s.translate b.die b.core (s.ctxOf t.block) va (if write then .wr else .rd) with
    | .ok pa s => if s.paOk pa then .ok (pa, s) else .error (.after [va] (.fault (accessFault 0x0202 access allLanes va 0)))
    | .fault code lvl => .error (.after [va] (.park (accessFault code access allLanes va lvl)))
    | .wait => .error (.stall false)
/-- A deep entry in memory: the bytes as they stand, whether or not their sector is poisoned, and free values from another package or a
failed expander window, for which the spec names no fault of loft traffic (log 65). -/
def State.loftRead (s : State) (pa n : Nat) : LoftEnt × State :=
  let free := (loftOfBytes (wordsBytes ((from_ s.run.free 4).map Config.freeWord)) n, s.useFree.useFree.useFree.useFree)
  match regionOf pa with
  | .fabric pkg off => if pkg = s.io.fabid.toNat then (loftOfBytes (s.mem.bytes off 32) n, s) else free
  | _ => if s.xFailed pa then free else (loftOfBytes (s.mem.bytes pa 32) n, s)
/-- A deep entry written: a whole sector, which loses its poison (R424); to another package or a failed window it is lost. -/
def State.loftWrite (s : State) (pa : Nat) (bs : List Byte) : State :=
  let put := fun (a : Nat) => { s with mem := { s.mem.setBytes a bs with poison := if a % 32 = 0 then drop (a / 32) s.mem.poison else s.mem.poison } }
  match regionOf pa with
  | .fabric pkg off => if pkg = s.io.fabid.toNat then put off else s
  | _ => if s.xFailed pa then s else put pa

/-- A push: with four entries on chip the deepest goes to memory (R15). -/
def State.loftPush (s : State) (u : Nat) (e : LoftEnt) : Except Halt State :=
  match s.teamAt u with
  | none => .error .refuse
  | some t =>
    match t.loft with
    | [a, b, c, d] =>
      match s.loftPa u (t.loftDepth - 4) true with
      | .error h => .error h
      | .ok (pa, s) =>
        .ok ((s.loftWrite pa (d.bytes (t.loftDepth - 4))).modTeam u (fun t => { t with loft := [e, a, b, c], loftDepth := t.loftDepth + 1 }))
    | _ => .ok (s.setTeam u { t with loft := e :: t.loft, loftDepth := t.loftDepth + 1 })

/-- R15: the core holds the top n entries on chip, four after every pop; those that lie in memory are brought in. -/
def State.loftFill (u n : Nat) : Nat → State → Except Halt State
  | 0, s => .ok s
  | fuel + 1, s =>
    match s.teamAt u with
    | none => .ok s
    | some t =>
      let k := t.loft.length
      if Nat.min n t.loftDepth ≤ k then .ok s
      else
        let i := t.loftDepth - 1 - k
        match s.loftPa u i false with
        | .error h => .error h
        | .ok (pa, s) =>
          let r := s.loftRead pa i
          walkedBy [s.privVa t (32 * i)] (State.loftFill u n fuel (r.2.modTeam u (fun t => { t with loft := t.loft ++ [r.1] })))

/-- The top entry. -/
def State.loftTop (s : State) (u : Nat) : Except Halt (LoftEnt × State) :=
  match State.loftFill u 1 1 s with
  | .error h => .error h
  | .ok s =>
    match s.teamAt u with
    | none => .error .refuse
    | some t => .ok (t.loft.head?.getD { kind := .join, mask := 0, rpc := 0, pc := 0, ok := false }, s)

/-- What looking at the top entry looks up: its address, where it lies in memory. -/
def State.topVas (s : State) (u : Nat) : List Nat :=
  match s.teamAt u with
  | some t => if t.loft = [] && t.loftDepth ≠ 0 then [s.privVa t (32 * (t.loftDepth - 1))] else []
  | none => []
def Team.loftDrop (t : Team) : Team := { t with loft := t.loft.drop 1, loftDepth := t.loftDepth - 1 }
/-- R287: the loft truncated to n entries. -/
def Team.loftTrim (t : Team) (n : Nat) : Team :=
  if n < t.loftDepth then { t with loft := t.loft.drop (t.loftDepth - n), loftDepth := n } else t

/-- Lanes that may run: not exited, and inside a TRY.L region not aborted (R12, R13, R287). -/
def Team.live (t : Team) : Lanes :=
  ~~~ t.exited &&& (match t.region with | some r => ~~~ r.aborted | none => allLanes)

/-- A path that enters a slot from the loft starts with invalid latches (R151). -/
def Side.entered (p : Path) : Side := { Side.empty with path := some p }

/-- R12: refill of the slots; at most 64 entries can be popped. An entry is checked when it is popped (R16). -/
def refillLoop (u : Nat) : Nat → State → Except Halt State
  | 0, s => .ok s
  | fuel + 1, s =>
    match s.teamAt u with
    | none => .ok s
    | some t =>
      let near := t.near.path.isNone
      let off := t.off.path.isNone
      if t.loftDepth = 0 || !(near || off) then .ok s
      else
        let vas := s.topVas u
        match s.loftTop u with
        | .error h => .error h
        | .ok (e, s) => walkedBy vas (
          let pop := fun (f : Team → Team) => s.modTeam u (fun t => f t.loftDrop)
          let m := e.mask &&& t.live
          if e.kind = .join && !(near && off) then .ok s
          else if !e.ok then .error (.fault (plainFault 0x0306 (t.loftDepth - 1)))
          else match e.kind with
          | .join =>
            if m = 0 then refillLoop u fuel (pop id)
            else refillLoop u fuel (pop (fun t => { t with near := .entered { pc := e.pc + 8, mask := m, rpc := e.rpc } }))
          | .path =>
            let p : Path := { pc := e.pc, mask := m, rpc := e.rpc }
            if m = 0 then refillLoop u fuel (pop id)
            else if near then refillLoop u fuel (pop (fun t => { t with near := .entered p }))
            else refillLoop u fuel (pop (fun t => { t with off := .entered p })))

/-- Both slots and the loft are empty: every lane has exited (R13). -/
def Team.empty (t : Team) : Bool := t.near.path.isNone && t.off.path.isNone && t.loftDepth = 0
/-- The slots are refilled, and after a pop the top four entries stand on chip again (R15). -/
def State.refill (s : State) (u : Nat) : Except Halt State := do
  let vas := s.topVas u
  let d : State → Option Nat := fun s => (s.teamAt u).map (·.loftDepth)
  let s1 ← refillLoop u 65 s
  let s2 ← if d s1 = d s then .ok s1 else walkedBy vas (State.loftFill u 4 4 s1)
  .ok (s2.modTeam u (fun t => if t.empty then { t with exited := allLanes } else t))

/-- A path ends: its slot becomes empty and the slots refill (R12, R13). -/
def State.endPath (s : State) (u : Nat) (off : Bool) : Except Halt State :=
  (s.modTeam u (fun t => t.setSide off .empty)).refill u

/-! ## Aborts -/

/-- TRYSTAT word 0 (Table 09.14). -/
def tryWord (lanes : Lanes) (user : Nat) (active lane : Bool) (code : Nat) : W64 :=
  w64 (lanes.toNat * 2 ^ 32 + user % 256 * 2 ^ 16 + b1 active * 2 ^ 15 + b1 lane * 2 ^ 14 + code % 256)
/-- The USER field of word 0. -/
def tryUser (w : W64) : Nat := bits w 16 8

/-- Lanes of a register as they stand in a snapshot; a register that was unmapped there reads zero (R287). -/
def restoreLanes (m : Lanes) (cur : VReg) (old : Option VReg) : VReg :=
  let pl := (match old with | some o => o.poison | none => []).filter (fun p => m.getLsbD p.lane)
  { cur with
    data := mergeLanes m (match old with | some o => o.data | none => 0) cur.data
    poison := cur.poison.filter (fun p => !m.getLsbD p.lane) ++ pl }
/-- R287: the vector registers and p1 to p15 of aborted lanes return to their snapshot values. -/
def Team.restore (t : Team) (r : Try) (m : Lanes) : Team :=
  let vs := t.vregs.map (fun (i, v) => (i, restoreLanes m v (look i r.sVregs)))
  let lost := r.sVregs.filter (fun (i, _) => (look i t.vregs).isNone)
  let vs := lost.foldl (fun l (i, v) => place i { restoreLanes m { v with data := 0, poison := [] } (some v) with snap := false } l) vs
  { t with vregs := vs
           preds := (upTo 16).map (fun i => (nth r.sPreds i 0 &&& m) ||| (nth t.preds i 0 &&& ~~~ m)) }
/-- Snapshot registers not still named are freed, the others are the team's own again. -/
def Team.unsnap (t : Team) : Team :=
  { t with vregs := t.vregs.map (fun (i, v) => (i, { v with snap := false }))
           sregs := t.sregs.map (fun (i, v) => (i, { v with snap := false })) }

/-- R287: a whole rollback of region r. -/
def Team.rollback (t : Team) (r : Try) (code : Nat) (user : Option Nat) (w1 w2 : W64) : Team :=
  let usr := user.getD (tryUser (nth t.trystat 0 0))
  let t := { t with
    vregs := r.sVregs, sregs := r.sSregs, preds := r.sPreds, flags := r.sFlags, flagen := r.sFlagen,
    draw := r.sDraw, slots := r.sSlots, region := none,
    near := .entered { pc := r.target, mask := r.mask, rpc := r.prpc }, off := .empty, scFence := none,
    park := { fault := none, spill := none, due := t.park.due },
    trystat := [tryWord r.mask usr false r.lane code, w1, w2] }
  (t.loftTrim r.loft).unsnap

/-- Pending long-latency results of a region are discarded with it (R286). -/
def State.dropOps (s : State) (u since : Nat) : State :=
  { s with net := { s.net with ops := s.net.ops.filter (fun o => !(o.team = u && since ≤ o.id))
                               conflicts := s.net.conflicts.filter (·.team ≠ u) } }

/-- A team that an abort leaves ready awaits no answer of a die fault queue any more (R286). -/
def State.leaveFq (s : State) (u : Nat) : State :=
  { s with dies := s.dies.map (fun (d : Die) =>
      { d with fqEnts := d.fqEnts.map (fun e => { e with who := e.who.filter (fun w => w ≠ .team u) }) }) }
/-- After an abort has cut the loft, what stands on top of it is brought on chip; a walk that waits or faults leaves it for the next
pop. -/
def State.loftAgain (s : State) (u : Nat) : State :=
  match State.loftFill u 4 4 s, s.teamAt u with
  | .ok s, _ => s
  | .error h, some t => s.walkAll (s.block t.block).die (s.block t.block).core (s.ctxOf t.block) h.walks
  | .error _, none => s

/-- A whole-team abort of the open region. -/
def State.abortRegion (s : State) (u code : Nat) (user : Option Nat) (w1 w2 : W64) : State :=
  match s.teamAt u with
  | none => s
  | some t =>
    match t.region with
    | none => s
    | some r => (((s.setTeam u (t.rollback r code user w1 w2)).leaveFq u).dropOps u r.since).loftAgain u

/-- A per-lane abort under TRY.L (R287): the lanes leave the issuing path; no lane left ends the region, and of its adds into slots none
stays (R389). -/
def State.abortLanes (s : State) (u : Nat) (off : Bool) (lanes : Lanes) (code : Nat) (user : Option Nat) (w1 w2 : W64) :
    Except Halt State :=
  match s.teamAt u with
  | none => .ok s
  | some t =>
    match t.region with
    | none => .ok s
    | some r =>
      let lanes := lanes &&& r.mask
      let ab := r.aborted ||| lanes
      let usr := user.getD (tryUser (nth t.trystat 0 0))
      let buf := r.buf.map (fun b => { b with bytes := b.bytes.filter (fun (_, l, _) => !lanes.getLsbD l) })
      let r' := { r with aborted := ab, buf := buf }
      if r.mask &&& ~~~ ab = 0 then
        let t := t.restore r ab
        let t := { t with
          region := none, near := .entered { pc := r.target, mask := r.mask, rpc := r.prpc }, off := .empty, slots := r.sSlots
          scFence := none, park := { fault := none, spill := none, due := t.park.due }
          trystat := [tryWord ab usr false true code, w1, w2] }
        .ok ((((s.setTeam u ((t.loftTrim r.loft).unsnap)).leaveFq u).dropOps u r.since).loftAgain u)
      else
        let t := { t with region := some r', trystat := [tryWord ab usr true true code, w1, w2] }
        match (t.side off).path with
        | none => .ok (s.setTeam u t)
        | some p =>
          let m := p.mask &&& ~~~ lanes
          if m = 0 then (s.setTeam u t).endPath u off
          else .ok (s.setTeam u (t.setSide off { t.side off with path := some { p with mask := m } }))

/-- A condition of a data access: outside a region the fault itself, inside one the abort of Table 09.11. -/
def dataHalt (t : Team) (store : Bool) (replay : Bool) (f : FaultInfo) : Halt :=
  match t.region with
  | none => if replay then .park f else .fault f
  | some r =>
    let w2 := w64 (b1 store * 2 ^ 16 + f.code)
    if store || !r.lane then .abort 6 none (w64 f.addr) w2 else .abortLanes f.lanes 6 none (w64 f.addr) w2

end Sys2Proof.Machine
end

