-- ==== Sys2Proof/Machine/Flags.lean ====
section
/-! DEFINITION. The six flags of Table 02.13 and how instructions raise them (R72). -/

namespace Sys2Proof.Machine

/-- FLAGS bits by name: [0] IV, [1] DZ, [2] OF, [3] UF, [4] NX, [5] ST. -/
abbrev Fl := BitVec 6

def flNone : Fl := 0
def flIV : Fl := 1
def flDZ : Fl := 2
def flOF : Fl := 4
def flUF : Fl := 8
def flNX : Fl := 16
def flST : Fl := 32

/-- A flag raised when a condition holds. -/
def flIf (c : Bool) (f : Fl) : Fl := if c then f else 0

/-- Flags are only ever ORed in (R72). -/
def Team.raise (t : Team) (f : Fl) : Team := { t with flags := t.flags ||| f }

/-- The flags raised in the active lanes together (R72). -/
def raisedIn (m : Lanes) (f : Nat → Fl) : Fl := (lanesOf m).foldl (fun a l => a ||| f l) 0

end Sys2Proof.Machine
end

