-- ==== Sys2Proof/Machine/Issue.lean ====
section
/-! DEFINITION. The path that issues, and what its instruction leaves when it ends: its own effect, or one of the ways of
Halt (R159 to R163, R399 to R401). -/

namespace Sys2Proof.Machine

/-- The path that issues now, with what its instruction reads of its team's surroundings. -/
structure Iss where
  u : Nat
  off : Bool
  t : Team
  p : Path
  b : Block
  l : Launch
  /-- context slot -/
  c : Nat
  /-- number of the next free value -/
  free : Nat
  /-- the word fetched at its pc -/
  fetched : W64

/-- The path that step has chosen (log 3). -/
def State.issuing (s : State) : Option Iss :=
  match s.run.cur with
  | none => none
  | some (u, off) =>
    match s.teamAt u with
    | none => none
    | some t =>
      match (t.side off).path with
      | none => none
      | some p =>
        let b := s.block t.block
        let l := s.launch b.launch
        some { u := u, off := off, t := t, p := p, b := b, l := l, c := l.ctx, free := s.run.free, fetched := s.run.word }

/-- Predicate p of a team: p0 reads all ones (R141). -/
def Team.pred (t : Team) (p : Nat) : Lanes := if p = 0 then allLanes else nth t.preds p 0
/-- The lanes in which a guard is true. -/
def Team.guardLanes (t : Team) (g : Guard) : Lanes := if g.neg then ~~~ t.pred g.p.toNat else t.pred g.p.toNat
/-- The active lanes of an instruction (R8, R141). -/
def Iss.act (x : Iss) (g : Guard) : Lanes := x.p.mask &&& x.t.guardLanes g

/-- Every latch of a side loses its valid bit (R149). -/
def Side.clear (sd : Side) : Side := { sd with latches := [none, none, none, none] }
/-- A result enters a side's latches (R147). -/
def Side.push (sd : Side) (y : Latch) : Side := { sd with latches := some y :: sd.latches.take 3 }

/-- The path's next address: words past the instruction. -/
def Team.advance (t : Team) (off : Bool) (words : Nat) : Team :=
  let sd := t.side off
  t.setSide off { sd with path := sd.path.map (fun p => { p with pc := p.pc + w64 (8 * words) }) }

/-- An instruction has issued: no path is chosen, the other side is next (R9), the wait count restarts (R391). -/
def State.issued (s : State) (u : Nat) (off : Bool) : State :=
  let s := { s with run := { s.run with cur := none } }
  s.modTeam u (fun t =>
    let t := t.setSide off { t.side off with wait := .none, lnch := none }
    { t with turn := !off, waited := 0, told := false })

/-- The path no longer issues, whatever else happened. -/
def State.unissue (s : State) (off : Bool) (u : Nat) : State :=
  { s.modTeam u (fun t => { t with turn := !off, waited := 0, told := false }) with run := { s.run with cur := none } }

/-- Teams that share a team's pipe. -/
def State.pipeMates (s : State) (t : Team) : List (Nat × Team) :=
  let b := s.block t.block
  s.teams.filter (fun y => y.2.pipe = t.pipe && y.2.resident s b.die b.core)
/-- R346: a team that stops at a switch point whose condition holds leaves the active set of its pipe, each time it may (log 77); a pipe with
eight or fewer resident teams keeps all of them active. -/
def State.leavePipe (s : State) (u : Nat) : State :=
  match s.teamAt u with
  | none => s
  | some t => if (s.pipeMates t).length ≤ 8 then s else s.modTeam u (fun t => { t with active := false })

/-- A halt that has no path to another: the instruction has no effect (R393) and the team is killed, parked, held,
blocked, rolled back or stands in its handler; the walks that it has made stay charged. A held or blocked path stays chosen, so that step
can tell. Of the switch points only those whose condition of Table 05.5 holds let the team leave its pipe. -/
def State.stop1 (s : State) (x : Iss) : Halt → State
  | .fault f =>
    let s := if f.code = latentError then s.contained x.b.die 0x0405 (s.tagOf x.c) 0 else s
    let s := if f.code % 65536 = 0x0405 then s.useFree else s
    (s.kill x.u x.off x.p.pc x.fetched f).unissue x.off x.u
  | .park f => (s.parkTeam x.u x.off x.p.pc f).unissue x.off x.u
  | .stall clear => if clear then s.modTeam x.u (fun t => t.setSide x.off (t.side x.off).clear) else s
  | .leave => (s.modTeam x.u (fun t => t.setSide x.off { (t.side x.off).clear with wait := .none })).leavePipe x.u
  | .wait w => (s.modTeam x.u (fun t => t.setSide x.off { (t.side x.off).clear with wait := w })).leavePipe x.u
  | .handler cause detail resume => (s.enterHandler x.u x.off cause detail resume).unissue x.off x.u
  | .abort code user w1 w2 => (s.abortRegion x.u code user w1 w2).unissue x.off x.u
  | .abortLanes _ _ _ _ _ => s
  | .refuse => s
  | .after vas h => (s.walkAll x.b.die x.b.core x.c vas).stop1 x h

def State.stop (s : State) (x : Iss) : Halt → State
  | .abortLanes lanes code user w1 w2 =>
    match s.abortLanes x.u x.off lanes code user w1 w2 with
    | .ok s' => s'.unissue x.off x.u
    | .error h => s.stop1 x h
  | .after vas h => (s.walkAll x.b.die x.b.core x.c vas).stop x h
  | h => s.stop1 x h

/-- One team instruction: its meaning on the issuing path, or what stopped it. -/
def State.issue (s : State) (f : Iss → Except Halt State) : Host.Outcome State Fault Refusal :=
  match s.issuing with
  | none => .refused .noIssuingPath
  | some x =>
    match f x with
    | .ok s' => .next (s'.issued x.u x.off)
    | .error h => .next (s.stop x h)

end Sys2Proof.Machine
end

