-- ==== Sys2Proof/Machine/Operands.lean ====
section
/-! DEFINITION. Reading operands and writing results: mapped registers and last-read bits (R142 to R145), hold latches and
switch points (R147 to R150), poison (R401), leases of MLOAD registers (R294), the register pool (R347, R348). -/

namespace Sys2Proof.Machine

/-! ## What an instruction names -/

/-- A source: the file, the selector, and how many registers its group has. -/
structure SrcUse where
  k : Kind
  sel : Sel
  n : Nat
  /-- the old value of the destination, which the instruction completes: no read that exempts it from a lease (R250) -/
  old : Bool
/-- A destination register group. -/
structure DstUse where
  k : Kind
  idx : Nat
  n : Nat

def src (k : Kind) (s : Sel) : SrcUse := { k := k, sel := s, n := 1, old := false }
def srcN (k : Kind) (n : Nat) (s : Sel) : SrcUse := { k := k, sel := s, n := n, old := false }
/-- The register a destination writes, if any (R146). -/
def dstUses (k : Kind) (d : Dst) : List DstUse := if d.ws then [] else [{ k := k, idx := d.idx.toNat, n := 1 }]

/-- The registers of a group. -/
def SrcUse.regs (x : SrcUse) : List Nat :=
  match x.sel with
  | .reg i _ => from_ i.toNat x.n
  | .latch _ => []
def SrcUse.isLast (x : SrcUse) : Bool :=
  match x.sel with
  | .reg _ l => l
  | .latch _ => false
def DstUse.regs (x : DstUse) : List Nat := from_ x.idx x.n

/-! ## Registers -/

def VReg.zero : VReg := { data := 0, sb := 0, poison := [], fresh := false, snap := false }

/-- In handler mode s56 to s63 name the shadow registers (R210). -/
def Team.shadowed (t : Team) (i : Nat) : Bool := t.handler.isSome && 56 ≤ i && i < 64
def Team.vget (t : Team) (i : Nat) : Option VReg := look i t.vregs
def Team.sget (t : Team) (i : Nat) : Option SReg :=
  if t.shadowed i then some (nth t.shadow (i - 56) (.plain 0))
  else look i t.sregs
def Team.mapped (t : Team) (k : Kind) (i : Nat) : Bool :=
  match k with
  | .v => (t.vget i).isSome
  | .s => (t.sget i).isSome
/-- Written by a long-latency instruction and not read since (Table 05.5). -/
def Team.fresh (t : Team) (k : Kind) (i : Nat) : Bool :=
  match k with
  | .v => match t.vget i with | some r => r.fresh | none => false
  | .s => match t.sget i with | some r => r.fresh | none => false
/-- The register a scalar index names among the landing places: shadow registers stand above the file. -/
def Team.landIdx (t : Team) (i : Nat) : Nat := if t.shadowed i then i + 8 else i

/-- A long-latency operation of the team that has not written register i yet. -/
def State.pending (s : State) (u : Nat) (t : Team) (k : Kind) (i : Nat) : Option MemOp :=
  first (fun o => o.team = u && (match k, o.dst with
    | .v, .vec j n => j ≤ i && i < j + n
    | .s, .scal j => j = t.landIdx i
    | _, _ => false)) s.net.ops
def OpKind.isMload : OpKind → Bool
  | .mload _ _ => true
  | _ => false

/-- A read register loses its mark (Table 05.5). -/
def Team.unfresh (t : Team) (k : Kind) (i : Nat) : Team :=
  match k with
  | .v => if t.fresh .v i then { t with vregs := change i (fun r => { r with fresh := false }) t.vregs } else t
  | .s =>
    if !t.fresh .s i then t
    else if t.shadowed i then { t with shadow := modAt (i - 56) (fun r => { r with fresh := false }) t.shadow }
    else { t with sregs := change i (fun r => { r with fresh := false }) t.sregs }
/-- R143: a last read frees the name; in handler mode s56 to s63 stay (R210). -/
def Team.free (t : Team) (k : Kind) (i : Nat) : Team :=
  match k with
  | .v => { t with vregs := drop i t.vregs }
  | .s => if t.shadowed i then t else { t with sregs := drop i t.sregs }

/-! ## Footprint and pool (R145, R347) -/

/-- Mapped registers, and registers that only the open snapshot names. -/
def Team.footprint (t : Team) (k : Kind) : Nat :=
  match k with
  | .v => t.vregs.length + (match t.region with
    | some r => (r.sVregs.filter (fun (i, _) => match look i t.vregs with | some v => !v.snap | none => true)).length
    | none => 0)
  | .s => t.sregs.length + (match t.region with
    | some r => (r.sSregs.filter (fun (i, _) => match look i t.sregs with | some v => !v.snap | none => true)).length
    | none => 0)
def Launch.floor (l : Launch) (k : Kind) : Nat := match k with | .v => l.vfloor | .s => l.sfloor
def physOf (k : Kind) : Nat := match k with | .v => Config.physVec | .s => Config.physScal
/-- Physical registers of a core that are neither reserved nor held. -/
def State.poolFree (s : State) (die core : Nat) (k : Kind) : Nat :=
  physOf k - s.teams.foldl (fun n (_, t) =>
    if t.resident s die core then
      n + Nat.max (if t.park.spill.isSome then 0 else t.footprint k) ((s.launchOf t.block).floor k) else n) 0

/-- Does a team's snapshot hold the register as it is mapped now? -/
def Team.held (t : Team) (k : Kind) (i : Nat) : Bool :=
  match k with
  | .v => match look i t.vregs with | some r => r.snap | none => false
  | .s => match look i t.sregs with | some r => r.snap | none => false
/-- Registers that K bits return, and registers that destinations take (R347). -/
def Team.frees (t : Team) (srcs : List SrcUse) (k : Kind) : Nat :=
  (sortNat ((srcs.filter (fun x => x.k = k && x.isLast)).flatMap SrcUse.regs)).countP
    (fun i => t.mapped k i && !t.held k i && !(k = .s && t.shadowed i))
def Team.takes (t : Team) (srcs : List SrcUse) (dsts : List DstUse) (k : Kind) : Nat :=
  let ks := (srcs.filter (fun x => x.k = k && x.isLast)).flatMap SrcUse.regs
  (sortNat ((dsts.filter (fun x => x.k = k)).flatMap DstUse.regs)).countP
    (fun i => !(k = .s && t.shadowed i) && (!t.mapped k i || t.held k i || ks.contains i))

/-- A team blocked with REGS for a file: how many pool registers it needs. -/
def Team.regsNeed (t : Team) (k : Kind) : Option Nat :=
  let one := fun (sd : Side) => match sd.wait with
    | .on .regs obj => if obj % 2 = (match k with | .v => 0 | .s => 1) then some (obj / 2) else none
    | _ => none
  match one t.near with
  | some n => some n
  | none => one t.off

/-! ## The checks before an instruction reads its sources -/

/-- A wait for the pool: twice the registers needed, plus 1 for the scalar file. -/
def regsWait (k : Kind) (n : Nat) : Halt := .wait (.on .regs (2 * n + (match k with | .v => 0 | .s => 1)))

/-- R144, R150: mapped registers, then valid latches of the right kind; `clear` says that the latches were cleared. -/
def Iss.checkSrc (x : Iss) (clear : Bool) (a : SrcUse) : Except Halt Unit :=
  match a.sel with
  | .reg i _ =>
    need ((from_ i.toNat a.n).all (x.t.mapped a.k)) (.fault (illegalOperand 1 (encSel a.sel).toNat))
  | .latch n =>
    match nth (x.t.side x.off).latches n.toNat none with
    | none => .error (.fault (illegalOperand 2 (encSel a.sel).toNat))
    | some y =>
      if clear then .error (.fault (illegalOperand 2 (encSel a.sel).toNat))
      else need (match a.k, y with | .v, .vec _ _ _ => true | .s, .scal _ _ => true | _, _ => false)
        (.fault (illegalOperand 3 (encSel a.sel).toNat))

/-- R145: the write raises a footprint that is at or above its floor. -/
def Iss.raises (x : Iss) (srcs : List SrcUse) (dsts : List DstUse) (k : Kind) : Bool :=
  x.l.floor k ≤ x.t.footprint k && x.t.frees srcs k < x.t.takes srcs dsts k

/-- Pool registers a write needs beyond what its team may hold of its own (R347). -/
def Iss.poolNeed (x : Iss) (srcs : List SrcUse) (dsts : List DstUse) (k : Kind) : Nat :=
  let fp := x.t.footprint k
  Nat.max 0 ((fp + x.t.takes srcs dsts k - x.t.frees srcs k - x.l.floor k) - (fp - x.l.floor k))

/-- R348: the pool serves an older waiter first. -/
def State.olderWaits (s : State) (x : Iss) (k : Kind) : Bool :=
  s.teams.any (fun (v, t) => v ≠ x.u && !t.halted && t.park.fault.isNone && t.park.spill.isNone && t.resident s x.b.die x.b.core && t.age < x.t.age
    && (match t.regsNeed k with | some n => n ≤ s.poolFree x.b.die x.b.core k | none => false))

def Iss.checkPool (x : Iss) (s : State) (srcs : List SrcUse) (dsts : List DstUse) (k : Kind) : Except Halt Unit :=
  if x.raises srcs dsts k then
    let n := x.poolNeed srcs dsts k
    if n ≤ s.poolFree x.b.die x.b.core k && !s.olderWaits x k then .ok () else .error (regsWait k n)
  else .ok ()

/-- Is the instruction a switch point here (Table 05.5)? Where both sides stand at reads of one pending result, the read that issues first
once it has landed is the first read; while they wait each side's read clears its own latches, a choice of the model (log 67). -/
def Iss.switches (x : Iss) (act : Lanes) (srcs : List SrcUse) (dsts : List DstUse) (static : Bool) : Bool :=
  static || srcs.any (fun a => a.regs.any (x.t.fresh a.k))
    || (act ≠ 0 && (x.raises srcs dsts .v || x.raises srcs dsts .s))

/-- An atomic that stands in the I/O die's pound (R264). -/
def MemOp.inPound (o : MemOp) : Bool :=
  match o.kind with
  | .atomic _ _ ps => ps.any (fun p => p.parked)
  | _ => false
/-- The wait of a read whose long-latency result has not landed: with the reason of a fabric or expander load (R98), but for an atomic that
is parked, whose team stands at a switch point only (R264). -/
def pendingHalt (o : MemOp) : Halt :=
  match (if o.inPound then none else o.reason) with
  | some r => .wait (.on r (match o.kind with
    | .load _ _ _ _ _ (l :: _) => l.addr
    | .line _ _ _ p => 128 * p.line
    | .atomic _ _ (p :: _) => p.addr
    | _ => 0))
  | none => .leave

/-- A destination with a result still to land: an MLOAD's register is leased (R294), any other is held for. -/
def Iss.checkDst (x : Iss) (s : State) (k : Kind) (i : Nat) : Except Halt Unit :=
  match s.pending x.u x.t k i with
  | none => .ok ()
  | some o => .error (if o.kind.isMload then .fault { plainFault 0x0303 i with access := 0 } else .stall false)

/-- A source whose long-latency result has not landed waits for it (R148). -/
def Iss.landed (x : Iss) (s : State) (a : SrcUse) : Except Halt Unit :=
  a.regs.forM (fun i => match s.pending x.u x.t a.k i with
    | some o => .error (pendingHalt o)
    | none => .ok ())
/-- A destination leased by an MLOAD that the instruction does not also read (R294). An instruction that also reads the register, a partial
one of Table 08.16 too, waits as a read does and takes no lease fault (Table 05.11; log 86). -/
def Iss.leaseFree (x : Iss) (s : State) (srcs : List SrcUse) (d : DstUse) : Except Halt Unit :=
  d.regs.forM (fun i => match s.pending x.u x.t d.k i with
    | some o => if o.kind.isMload && !(srcs.any (fun a => !a.old && a.k = d.k && a.regs.contains i)) then x.checkDst s d.k i else .ok ()
    | none => .ok ())
/-- A source has a register with a result still to land. -/
def Iss.waitsFor (x : Iss) (s : State) (srcs : List SrcUse) : Bool :=
  srcs.any (fun a => a.regs.any (fun i => (s.pending x.u x.t a.k i).isSome))

/-- The illegal-operand fault among the causes that an instruction tests on the values of its sources, once those have landed: it
precedes a lease fault, every other condition comes later (R162). -/
def Iss.operandFirst {α : Type} (x : Iss) (s : State) (srcs : List SrcUse) (c : Except Halt α) : Except Halt Unit :=
  if x.waitsFor s srcs then .ok ()
  else match c with
    | .error (.fault f) => if f.code = 0x0302 then .error (.fault f) else .ok ()
    | _ => .ok ()
/-- Everything an instruction checks before it reads its sources; the answer is its team with the latches of a switch
point cleared. c is what it tests on the values of its sources. -/
def Iss.enterC {α : Type} (x : Iss) (s : State) (act : Lanes) (srcs : List SrcUse) (dsts : List DstUse) (static : Bool)
    (c : Except Halt α) : Except Halt Team := do
  let sw := x.switches act srcs dsts static
  srcs.forM (x.checkSrc (sw || x.waitsFor s srcs))
  x.operandFirst s srcs c
  if act ≠ 0 then dsts.forM (x.leaseFree s srcs)
  srcs.forM (x.landed s)
  if act ≠ 0 then
    dsts.forM (fun d => d.regs.forM (x.checkDst s d.k))
    x.checkPool s srcs dsts .v
    x.checkPool s srcs dsts .s
  .ok (if sw then x.t.setSide x.off (x.t.side x.off).clear else x.t)

/-- The checks of an instruction that tests nothing on the values of its sources. -/
def Iss.enter (x : Iss) (s : State) (act : Lanes) (srcs : List SrcUse) (dsts : List DstUse) (static : Bool) : Except Halt Team :=
  x.enterC s act srcs dsts static (.ok ())

/-- Reads take the marks off, K bits free their names (R143). -/
def Team.useSrcs (t : Team) (srcs : List SrcUse) : Team :=
  let t := srcs.foldl (fun t a => a.regs.foldl (fun t i => t.unfresh a.k i) t) t
  srcs.foldl (fun t a => if a.isLast then a.regs.foldl (fun t i => t.free a.k i) t else t) t

/-! ## Values read -/

/-- A vector value: lanes, side-band, poison. -/
structure VVal where
  data : Line
  sb : SideBand
  poison : List Poison
/-- A scalar value. -/
structure SVal where
  v : W64
  poison : Option Poison

def Team.readV (t : Team) (off : Bool) (s : Sel) : VVal :=
  match s with
  | .reg i _ => match t.vget i.toNat with
    | some r => { data := r.data, sb := r.sb, poison := r.poison }
    | none => { data := 0, sb := 0, poison := [] }
  | .latch n => match nth (t.side off).latches n.toNat none with
    | some (.vec d b p) => { data := d, sb := b, poison := p }
    | _ => { data := 0, sb := 0, poison := [] }
def Team.readS (t : Team) (off : Bool) (s : Sel) : SVal :=
  match s with
  | .reg i _ => match t.sget i.toNat with
    | some r => { v := r.val, poison := r.poison }
    | none => { v := 0, poison := none }
  | .latch n => match nth (t.side off).latches n.toNat none with
    | some (.scal v p) => { v := v, poison := p }
    | _ => { v := 0, poison := none }

/-- The fault of reading poisoned lanes (R401): the code of the poison's source, the address of the lowest lane; a register error names the
physical register (Table 16.1). Lanes whose error this read finds come first (R402). -/
def poisonFault (ps : List Poison) (sel phys : Nat) : Option FaultInfo :=
  let found := ps.filter (fun p => p.code = latentError)
  let ps := if found = [] then ps else found
  match leastBy (·.lane) ps with
  | none => none
  | some p => some
    { code := p.code, cause := 0, access := 2, lanes := laneMask (ps.map (·.lane)), addr := p.addr,
      detail := if p.code % 65536 = 0x0405 then phys else sel, paddr := p.addr }
/-- The halt of a read of poisoned lanes: inside a region the abort of Table 09.11, but for an error that the read itself finds (R402). -/
def poisonHalt (t : Team) (f : FaultInfo) : Halt := if f.code = latentError then .fault f else dataHalt t false false f
/-- A read of poisoned lanes: the fault, or inside a region the abort of Table 09.11. -/
def Iss.poisoned (x : Iss) (ps : List Poison) (sel : Sel) : Except Halt Unit :=
  match poisonFault ps (encSel sel).toNat (physReg x.free Config.physVec) with
  | none => .ok ()
  | some f => .error (poisonHalt x.t f)

/-- A vector source read in the given lanes. -/
def Iss.vec (x : Iss) (m : Lanes) (s : Sel) : Except Halt VVal := do
  let v := x.t.readV x.off s
  x.poisoned (v.poison.filter (fun p => m.getLsbD p.lane)) s
  .ok v
/-- A scalar source; all lanes met the condition of a poisoned one (Table 16.3). -/
def Iss.scal (x : Iss) (perf : Bool) (s : Sel) : Except Halt W64 := do
  let v := x.t.readS x.off s
  match v.poison with
  | some p =>
    if perf then
      match poisonFault [p] (encSel s).toNat (physReg x.free Config.physScal) with
      | some f => .error (poisonHalt x.t { f with lanes := allLanes })
      | none => .ok v.v
    else .ok v.v
  | none => .ok v.v

/-! ## Values written -/

/-- Lanes of a vector register written (R142): an unmapped register is mapped, a register that a snapshot holds is
copied (R280). -/
def Team.putV (t : Team) (i : Nat) (m : Lanes) (data : Line) (sb : Option SideBand) (po : List Poison) : Team :=
  let o := (t.vget i).getD .zero
  let r : VReg :=
    { data := mergeLanes m data o.data
      sb := sb.getD o.sb
      poison := o.poison.filter (fun p => !m.getLsbD p.lane) ++ po.filter (fun p => m.getLsbD p.lane)
      fresh := o.fresh, snap := false }
  { t with vregs := place i r t.vregs }
/-- What shadow register k takes of a value written to it: bits [63:32] of s59 are reserved and read as zero (Table 07.14, R4). -/
def shadowKeeps (k : Nat) (v : W64) : W64 := if k = 3 then v &&& 0xFFFFFFFF#64 else v
/-- Shadow register k written whole. -/
def Team.putShadow (t : Team) (k : Nat) (v : W64) (po : Option Poison) (fresh : Bool) : Team :=
  { t with shadow := putAt k { val := shadowKeeps k v, poison := po, fresh := fresh, snap := false } (.plain 0) t.shadow }
/-- A scalar register written whole. -/
def Team.putS (t : Team) (i : Nat) (v : W64) (po : Option Poison) : Team :=
  if t.shadowed i then t.putShadow (i - 56) v po (t.fresh .s i)
  else
    let fr := match look i t.sregs with | some r => r.fresh | none => false
    { t with sregs := place i { val := v, poison := po, fresh := fr, snap := false } t.sregs }

/-- A result an instruction writes. -/
inductive Write
  /-- a vector result in some lanes, with a new side-band or the register's own -/
  | vec (d : Nat) (ws : Bool) (m : Lanes) (data : Line) (sb : Option SideBand) (po : List Poison)
  /-- a scalar result, or the instruction not performed -/
  | scal (d : Nat) (ws perf : Bool) (v : W64) (po : Option Poison)
  /-- a further register of a vector group, in some lanes: the instruction enters the latches once, with the first (log 16) -/
  | more (d : Nat) (m : Lanes) (data : Line) (po : List Poison)
  /-- predicate bits in some lanes; predicates enter no latch (R147) -/
  | pred (p : Nat) (m val : Lanes)

/-- A scalar register as a latch takes it. -/
def latchOf (o : Option SReg) : Latch :=
  match o with
  | some r => .scal r.val r.poison
  | none => .scal 0 none
/-- A write with its entry into the latches of the issuing side (R146, R147). -/
def Team.put (t : Team) (off : Bool) : Write → Team
  | .vec d ws m data sb po =>
    let o := if ws then .zero else (t.vget d).getD .zero
    let y : Latch := .vec (mergeLanes m data o.data) (if m = 0 then o.sb else sb.getD o.sb)
      (o.poison.filter (fun p => !m.getLsbD p.lane) ++ po.filter (fun p => m.getLsbD p.lane))
    let t := if ws || m = 0 then t else t.putV d m data sb po
    t.setSide off ((t.side off).push y)
  | .scal d ws perf v po =>
    let o := if ws then none else t.sget d
    let y : Latch := if perf then .scal v po else latchOf o
    let t := if ws || !perf then t else t.putS d v po
    t.setSide off ((t.side off).push y)
  | .more d m data po => if m = 0 then t else t.putV d m data none po
  | .pred p m val =>
    { t with preds := if p = 0 then t.preds else putAt p ((t.pred p &&& ~~~ m) ||| (val &&& m)) 0 t.preds }

/-- An instruction with fixed-latency results ends: reads marked, K bits applied, results written in order, flags
raised, the path moves past its words. Lanes of the latch that a result does not write hold what the destination holds once the K bits
are applied: zero where the instruction's own K bit has freed it, which R147 leaves open (log 66). -/
def Team.finish (t : Team) (off : Bool) (srcs : List SrcUse) (ws : List Write) (fl : Fl) (words : Nat) : Team :=
  ((ws.foldl (fun t w => t.put off w) (t.useSrcs srcs)).raise fl).advance off words

end Sys2Proof.Machine
end

