-- ==== Sys2Proof/Machine/Alu.lean ====
section
/-! DEFINITION. The shared course of an instruction that computes: operand forms of Table 07.1, per-lane and scalar results,
comparisons into predicates, long-latency results (R184 to R186, R193, R148). -/

namespace Sys2Proof.Machine

/-- An operand: a vector source, a scalar source (in a vector form, its bits [31:0] in every lane), or a value of the
instruction itself. -/
inductive Arg
  | v (a : Sel)
  | s (a : Sel)
  | imm (x : W64)

/-- The register file a type gives operand A. -/
def argA (ty : Ty) (a : Sel) : Arg := match ty.kind with | .v => .v a | .s => .s a
/-- The register file a type gives operand B (Table 05.2). -/
def argB (ty : Ty) (b : Sel) : Arg := match ty.kindB with | .v => .v b | .s => .s b
/-- Source B in the forms R, I and L of Table 07.1. -/
def argOpnd (ty : Ty) : Opnd → Arg
  | .sel b => argB ty b
  | .imm v => .imm (sext64 v)
  | .lit v => .imm v
/-- Source C in the forms R and I: the ten bits are zero-extended. -/
def argOpnd10 (ty : Ty) : Opnd10 → Arg
  | .sel c => argA ty c
  | .imm v => .imm (v.setWidth 64)
  | .lit v => .imm v
/-- Words of an instruction with this operand. -/
def wordsB : Opnd → Nat
  | .lit _ => 2
  | _ => 1
def words10 : Opnd10 → Nat
  | .lit _ => 2
  | _ => 1

def Arg.uses : Arg → List SrcUse
  | .v a => [src .v a]
  | .s a => [src .s a]
  | .imm _ => []
def argUses (args : List Arg) : List SrcUse := args.flatMap Arg.uses

/-- The lanes of an operand of a vector form. -/
def Iss.lanes (x : Iss) (act : Lanes) : Arg → Except Halt (Nat → W32)
  | .v a => do
    let y ← x.vec act a
    .ok (laneOf y.data)
  | .s a => do
    let y ← x.scal (act ≠ 0) a
    .ok (fun _ => y.setWidth 32)
  | .imm v => .ok (fun _ => v.setWidth 32)
/-- An operand of a scalar form. -/
def Iss.word (x : Iss) (perf : Bool) : Arg → Except Halt W64
  | .v _ => .ok 0
  | .s a => x.scal perf a
  | .imm v => .ok v
def Iss.lanesL (x : Iss) (act : Lanes) : List Arg → Except Halt (List (Nat → W32))
  | [] => .ok []
  | a :: r => do
    let y ← x.lanes act a
    let ys ← x.lanesL act r
    .ok (y :: ys)
def Iss.wordL (x : Iss) (perf : Bool) : List Arg → Except Halt (List W64)
  | [] => .ok []
  | a :: r => do
    let y ← x.word perf a
    let ys ← x.wordL perf r
    .ok (y :: ys)
/-- Operand i of one lane. -/
def laneArgs (vs : List (Nat → W32)) (l i : Nat) : W32 := nth vs i (fun _ => 0) l
/-- Operand i of a scalar form. -/
def wordArgs (vs : List W64) (i : Nat) : W64 := nth vs i 0

/-- A computation on w-bit operands: a result and its flags. -/
abbrev Calc := (w : Nat) → (Nat → BitVec w) → BitVec w × Fl
/-- A test on w-bit operands. -/
abbrev Test := (w : Nat) → (Nat → BitVec w) → Bool × Fl

/-- The result of a computation in every lane. -/
def calcLine (f : Calc) (vs : List (Nat → W32)) : Line := lineOf (fun l => (f 32 (laneArgs vs l)).1)
/-- The flags it raises in the active lanes. -/
def calcFlags (f : Calc) (act : Lanes) (vs : List (Nat → W32)) : Fl := raisedIn act (fun l => (f 32 (laneArgs vs l)).2)

/-- A fixed-latency computation with one register result. -/
def Iss.calc (x : Iss) (s : State) (g : Guard) (ty : Ty) (d : Dst) (args : List Arg) (words : Nat) (f : Calc) :
    Except Halt State := do
  let act := x.act g
  let t ← x.enter s act (argUses args) (dstUses ty.kind d) false
  match ty.kind with
  | .s =>
    let vs ← x.wordL (act ≠ 0) args
    let y := f 64 (wordArgs vs)
    .ok (s.setTeam x.u (t.finish x.off (argUses args) [.scal d.idx.toNat d.ws (act ≠ 0) y.1 none]
      (if act ≠ 0 then y.2 else 0) words))
  | .v =>
    let vs ← x.lanesL act args
    .ok (s.setTeam x.u (t.finish x.off (argUses args) [.vec d.idx.toNat d.ws act (calcLine f vs) none []]
      (calcFlags f act vs) words))

/-- How a comparison combines with the old bit (R193). -/
def combine (m : Comb) (old r : Lanes) : Lanes :=
  match m with
  | .set => r
  | .and => old &&& r
  | .or => old ||| r

/-- A comparison: its predicate in the active lanes (R193). -/
def Iss.compare (x : Iss) (s : State) (g : Guard) (ty : Ty) (p : BitVec 4) (m : Comb) (args : List Arg) (words : Nat)
    (f : Test) : Except Halt State := do
  let act := x.act g
  let t ← x.enter s act (argUses args) [] false
  let old := x.t.pred p.toNat
  match ty.kind with
  | .s =>
    let vs ← x.wordL (act ≠ 0) args
    let y := f 64 (wordArgs vs)
    .ok (s.setTeam x.u (t.finish x.off (argUses args)
      [.pred p.toNat act (combine m old (if y.1 then allLanes else 0))] (if act ≠ 0 then y.2 else 0) words))
  | .v =>
    let vs ← x.lanesL act args
    let r := laneMask ((upTo 32).filter (fun l => (f 32 (laneArgs vs l)).1))
    .ok (s.setTeam x.u (t.finish x.off (argUses args) [.pred p.toNat act (combine m old r)]
      (raisedIn act (fun l => (f 32 (laneArgs vs l)).2)) words))

/-! ## Long-latency results (R148, R347) -/

/-- The register a result will land in is mapped at issue and marked (Table 05.5). -/
def Team.awaitV (t : Team) (i : Nat) : Team :=
  let t := t.putV i 0 0 none []
  { t with vregs := change i (fun r => { r with fresh := true }) t.vregs }
def Team.awaitS (t : Team) (i : Nat) : Team :=
  if t.shadowed i then { t with shadow := modAt (i - 56) (fun r => { r with fresh := true }) t.shadow }
  else
    let o := (look i t.sregs).getD { val := 0, poison := none, fresh := false, snap := false }
    { t with sregs := place i { o with fresh := true, snap := false } t.sregs }
def Team.await (t : Team) : LDst → Team
  | .none => t
  | .vec i n => (from_ i n).foldl Team.awaitV t
  | .scal i => t.awaitS i
/-- The landing place of a scalar result: shadow registers stand above the file. -/
def Team.landing (t : Team) : LDst → LDst
  | .scal i => .scal (t.landIdx i)
  | d => d
def LDst.uses : LDst → List DstUse
  | .none => []
  | .vec i n => [{ k := .v, idx := i, n := n }]
  | .scal i => [{ k := .s, idx := i, n := 1 }]

/-- A long-latency operation issued by a path. -/
def Iss.memOp (x : Iss) (s : State) (kind : OpKind) (dst : LDst) (lanes : Lanes) : MemOp :=
  { id := s.uid, team := x.u, off := x.off, pc := x.p.pc, die := x.b.die, core := x.b.core, ctx := x.c, kind := kind,
    dst := x.t.landing dst, lanes := lanes, scalar := false, strong := false, acq := none, reason := none }
/-- The requests of an operation to other packages: package, class and what is asked (R122). -/
def OpKind.remote (k : OpKind) (id : Nat) : List (Nat × OutKind) :=
  let parts := fun (ps : List LinePart) =>
    (ps.zip (upTo ps.length)).filterMap (fun (p, i) => p.pkg.map (fun q => (q, OutKind.load id i)))
  match k with
  | .load _ _ _ _ ps _ => parts ps
  | .line _ _ _ p => parts [p]
  | .atomic _ _ ps => (ps.zip (upTo ps.length)).filterMap (fun (p, i) => p.pkg.map (fun q => (q, OutKind.atomic id i)))
  | _ => []
def OpKind.lineParts : OpKind → List LinePart
  | .load _ _ _ _ ps _ => ps
  | .line _ _ _ p => [p]
  | _ => []
def OpKind.atomParts : OpKind → List AtomPart
  | .atomic _ _ ps => ps
  | _ => []
/-- Sectors named by a mask. -/
def secCount (m : BitVec 4) : Nat := (upTo 4).countP (fun k => m.getLsbD k)
/-- Bytes of the line requests that a load sends. -/
def MemOp.loadBytes (o : MemOp) : Nat :=
  o.kind.lineParts.foldl (fun n p => if p.got.isSome then n else n + 32 * secCount p.need) 0
/-- R99: a load of a context with LATCRIT travels in class 0 while the context's class-0 budget of the period covers its bytes, and is
charged to it; every other request is of class 1. -/
def State.takeClass (s : State) (o : MemOp) : Nat × State :=
  let n := o.loadBytes
  if (s.ctxAt o.ctx).latcrit && n ≠ 0 && n ≤ (s.budget o.die o.ctx).cls0 then
    (0, s.setBudget o.die o.ctx (fun b => { b with cls0 := b.cls0 - n }))
  else (1, s)
def State.addOut (s : State) (o : OutReq) : State :=
  (s.setNet (fun n => { n with out := n.out ++ [{ o with id := s.uid }] })).bump
def State.addOp (s : State) (o : MemOp) : State :=
  let y := s.takeClass o
  let s := (y.2.setNet (fun n => { n with ops := n.ops ++ [o] })).bump
  (o.kind.remote o.id).foldl (fun (s : State) (q : Nat × OutKind) => s.addOut
    { id := 0, pkg := q.1, cls := y.1, team := some o.team, ctx := o.ctx, die := o.die, pc := o.pc, kind := q.2, waited := 0 }) s
/-- The team after an instruction whose results land later. -/
def Team.finishLong (t : Team) (off : Bool) (srcs : List SrcUse) (dst : LDst) (fl : Fl) (words : Nat) : Team :=
  (((t.useSrcs srcs).await dst).raise fl).advance off words

/-- A computation whose result lands later: IDIV, IREM, FDIV and the special functions of grade .A. -/
def Iss.calcLong (x : Iss) (s : State) (g : Guard) (ty : Ty) (d : Nat) (args : List Arg) (words : Nat) (f : Calc) :
    Except Halt State := do
  let act := x.act g
  let dst : LDst := if act = 0 then .none else match ty.kind with | .v => .vec d 1 | .s => .scal d
  let t ← x.enter s act (argUses args) dst.uses false
  match ty.kind with
  | .s =>
    let vs ← x.wordL (act ≠ 0) args
    let y := f 64 (wordArgs vs)
    let s' := s.setTeam x.u (t.finishLong x.off (argUses args) dst (if act ≠ 0 then y.2 else 0) words)
    .ok (if act = 0 then s' else s'.addOp (x.memOp s (.value [] y.1) dst act))
  | .v =>
    let vs ← x.lanesL act args
    let s' := s.setTeam x.u (t.finishLong x.off (argUses args) dst (calcFlags f act vs) words)
    .ok (if act = 0 then s'
      else s'.addOp (x.memOp s (.value ((lanesOf act).map (fun l => (l, (f 32 (laneArgs vs l)).1))) 0) dst act))

end Sys2Proof.Machine
end

