-- ==== Sys2Proof/Machine/Num.lean ====
section
/-! DEFINITION. Exact values and their single rounding: raw formats, element formats, scales, stochastic draws, blocks and
lines (02_block_formats.md). -/

namespace Sys2Proof.Machine

/-! ## Exact values -/

/-- ± n / d × 2^e with d > 0: an exact real value; a zero keeps its sign. -/
structure Ex where
  neg : Bool
  n : Nat
  d : Nat
  e : Int
  deriving DecidableEq, Repr

/-- A floating-point datum: a NaN (signalling or quiet), an infinity, or a finite value. -/
inductive FV
  | nan (sig : Bool)
  | inf (neg : Bool)
  | fin (x : Ex)
  deriving DecidableEq, Repr

/-- 2^k as a natural number for k ≥ 0, else 1. -/
def pow2 (k : Int) : Nat := 2 ^ k.toNat
/-- n × 2^(a − b) as a numerator: the factor that brings exponent a down to b ≤ a. -/
def scaleN (n : Nat) (a b : Int) : Nat := n * pow2 (a - b)

def Ex.zero (neg : Bool) : Ex := { neg := neg, n := 0, d := 1, e := 0 }
def Ex.ofNat (n : Nat) : Ex := { neg := false, n := n, d := 1, e := 0 }
def Ex.ofInt (i : Int) : Ex := { neg := decide (i < 0), n := i.natAbs, d := 1, e := 0 }
def Ex.isZero (x : Ex) : Bool := x.n = 0
def Ex.flip (x : Ex) : Ex := { x with neg := !x.neg }
def Ex.mul (a b : Ex) : Ex := { neg := a.neg != b.neg, n := a.n * b.n, d := a.d * b.d, e := a.e + b.e }
/-- Quotient by a non-zero value. -/
def Ex.div (a b : Ex) : Ex := { neg := a.neg != b.neg, n := a.n * b.d, d := a.d * b.n, e := a.e - b.e }
/-- The signed numerator over denominator a.d × b.d and exponent min(a.e, b.e). -/
def Ex.num2 (a b : Ex) : Int :=
  let e := if a.e < b.e then a.e else b.e
  let x : Int := scaleN (a.n * b.d) a.e e
  if a.neg then -x else x
/-- Exact sum; the sign of an exact zero is decided by the caller through `addFV`. -/
def Ex.add (a b : Ex) : Ex :=
  let s := a.num2 b + b.num2 a
  { neg := decide (s < 0), n := s.natAbs, d := a.d * b.d, e := if a.e < b.e then a.e else b.e }
/-- Comparison of exact values: signed. -/
def Ex.lt (a b : Ex) : Bool := decide (a.num2 b < b.num2 a)
def Ex.eq (a b : Ex) : Bool := decide (a.num2 b = b.num2 a)
def Ex.abs (a : Ex) : Ex := { a with neg := false }

/-- floor(log2 (n / d)) for n, d > 0. -/
def log2Q (n d : Nat) : Int :=
  let k : Int := (Nat.log2 n : Int) - (Nat.log2 d : Int)
  if 0 ≤ k then (if n < d * pow2 k then k - 1 else k) else (if n * pow2 (-k) < d then k - 1 else k)

/-! ## Rounding (R54 to R58) -/

/-- A value m × 2^q of the grid, and whether it differs from the exact one. -/
structure Grid where
  m : Nat
  q : Int
  inexact : Bool
  deriving DecidableEq, Repr

/-- One rounding of |x| on the grid of p significand bits with least quantum 2^qmin, unbounded above (R55). The draw is
used by SR only (R58). -/
def roundMag (p : Nat) (qmin : Int) (x : Ex) (mode : Rnd) (draw : Nat) : Grid :=
  if x.n = 0 then { m := 0, q := qmin, inexact := false }
  else
    let l := x.e + log2Q x.n x.d
    let q0 := l + 1 - (p : Int)
    let q := if q0 < qmin then qmin else q0
    let n := if q ≤ x.e then scaleN x.n x.e q else x.n
    let d := if q ≤ x.e then x.d else x.d * pow2 (q - x.e)
    let f := n / d
    let r := n % d
    let up := match mode with
      | .rn => d < 2 * r || (d = 2 * r && f % 2 = 1)
      | .rz => false
      | .ru => r ≠ 0 && !x.neg
      | .rd => r ≠ 0 && x.neg
      | .sr => r ≠ 0 && 2 ^ 24 ≤ r * 2 ^ 24 / d + draw
    { m := if up then f + 1 else f, q := q, inexact := r ≠ 0 }

/-- A binary format with a sign, eb exponent bits, mb fraction bits and the bias 2^(eb−1) − 1 (Tables 02.1, 02.2). -/
structure Fmt where
  eb : Nat
  mb : Nat
  deriving DecidableEq, Repr

def Fmt.f32 : Fmt := { eb := 8, mb := 23 }
def Fmt.f16 : Fmt := { eb := 5, mb := 10 }
def Fmt.bf16 : Fmt := { eb := 8, mb := 7 }
def Fmt.bias (f : Fmt) : Int := 2 ^ (f.eb - 1) - 1
/-- Exponent of the smallest subnormal. -/
def Fmt.qmin (f : Fmt) : Int := 1 - f.bias - (f.mb : Int)
def Fmt.infCode (f : Fmt) : Nat := (2 ^ f.eb - 1) * 2 ^ f.mb
def Fmt.signBit (f : Fmt) : Nat := 2 ^ (f.eb + f.mb)
/-- The canonical NaN (R42). -/
def Fmt.nanCode (f : Fmt) : Nat := f.infCode + 2 ^ (f.mb - 1)

/-- The magnitude code of a grid value: exponent and fraction fields together. -/
def Fmt.codeOf (f : Fmt) (g : Grid) : Nat := (g.q - f.qmin).toNat * 2 ^ f.mb + g.m
/-- The value of a magnitude code with a sign (R43). -/
def Fmt.valueOf (f : Fmt) (neg : Bool) (c : Nat) : Ex :=
  let x := c / 2 ^ f.mb
  let m := c % 2 ^ f.mb
  if x = 0 then { neg := neg, n := m, d := 1, e := f.qmin }
  else { neg := neg, n := 2 ^ f.mb + m, d := 1, e := f.qmin + (x : Int) - 1 }

/-- A raw float read (R41, R42). -/
def Fmt.read (f : Fmt) (v : Nat) : FV :=
  let neg := v / f.signBit % 2 = 1
  let c := v % f.signBit
  if c = f.infCode then .inf neg
  else if f.infCode < c then .nan (c % 2 ^ f.mb < 2 ^ (f.mb - 1))
  else .fin (f.valueOf neg c)

/-- Tiny after rounding (R220): with the exponent unbounded below, the rounded magnitude is below the smallest normal. -/
def Fmt.tiny (f : Fmt) (x : Ex) (mode : Rnd) (draw : Nat) : Bool :=
  let g := roundMag (f.mb + 1) (-1000000) x mode draw
  let lim := 1 - f.bias
  g.m = 0 || decide ((Nat.log2 g.m : Int) + g.q < lim)

/-- A value written in a raw float format: one rounding, then the raw-float rows of Table 02.8. -/
def Fmt.write (f : Fmt) (v : FV) (mode : Rnd) (cm : CMode) (draw : Nat) : Nat × Fl :=
  match v with
  | .nan sig => (f.nanCode, flIf sig flIV)
  | .inf neg =>
    let s := b1 neg * f.signBit
    (match cm with
     | .sat => (s + f.infCode - 1, flST)
     | .special => (s + f.infCode, flNone))
  | .fin x =>
    let s := b1 x.neg * f.signBit
    let g := roundMag (f.mb + 1) f.qmin x mode draw
    let c := f.codeOf g
    if f.infCode ≤ c then
      match cm with
      | .sat => (s + f.infCode - 1, flST ||| flNX)
      | .special =>
        let toInf := match mode with
          | .rn | .sr => true
          | .rz => false
          | .ru => !x.neg
          | .rd => x.neg
        (s + (if toInf then f.infCode else f.infCode - 1), flOF ||| flNX)
    else (s + c, if g.inexact then flNX ||| flIf (f.tiny x mode draw) flUF else flNone)

/-- The IEEE result of an operation (R220). -/
def Fmt.result (f : Fmt) (v : FV) (mode : Rnd) : Nat × Fl := f.write v mode .special 0

def FV.isNan : FV → Bool
  | .nan _ => true
  | _ => false
def FV.sig : FV → Bool
  | .nan s => s
  | _ => false
def FV.flip : FV → FV
  | .nan s => .nan s
  | .inf n => .inf !n
  | .fin x => .fin x.flip
def FV.neg : FV → Bool
  | .nan _ => false
  | .inf n => n
  | .fin x => x.neg

/-- The rounding mode of a two-bit field (Table 02.6). -/
def rndOf (r : BitVec 2) : Rnd :=
  match r.toNat with
  | 0 => .rn | 1 => .rz | 2 => .ru | _ => .rd

/-! ### IEEE operations on exact values -/

/-- Exact product with the invalid case ∞ × 0. -/
def mulFV : FV → FV → FV × Fl
  | .nan a, .nan b => (.nan false, flIf (a || b) flIV)
  | .nan a, _ => (.nan false, flIf a flIV)
  | _, .nan b => (.nan false, flIf b flIV)
  | .inf a, .inf b => (.inf (a != b), 0)
  | .inf a, .fin y => if y.n = 0 then (.nan false, flIV) else (.inf (a != y.neg), 0)
  | .fin x, .inf b => if x.n = 0 then (.nan false, flIV) else (.inf (x.neg != b), 0)
  | .fin x, .fin y => (.fin (x.mul y), 0)

/-- Exact sum; an exact zero is +0, or −0 when both are −0 or the mode is RD and the signs differ (IEEE 754-2019). -/
def addFV (mode : Rnd) : FV → FV → FV × Fl
  | .nan a, .nan b => (.nan false, flIf (a || b) flIV)
  | .nan a, _ => (.nan false, flIf a flIV)
  | _, .nan b => (.nan false, flIf b flIV)
  | .inf a, .inf b => if a = b then (.inf a, 0) else (.nan false, flIV)
  | .inf a, .fin _ => (.inf a, 0)
  | .fin _, .inf b => (.inf b, 0)
  | .fin x, .fin y =>
    let s := x.add y
    if s.n = 0 then
      (.fin (.zero (if x.n = 0 && y.n = 0 && x.neg = y.neg then x.neg else mode = .rd)), 0)
    else (.fin s, 0)

/-- ±(a × b) ± c rounded once (R222). -/
def Fmt.fma (f : Fmt) (mode : Rnd) (np nc : Bool) (a b c : Nat) : Nat × Fl :=
  let x := f.read a
  let y := f.read b
  let z := f.read c
  let (p, f1) := mulFV x y
  let p := if np then p.flip else p
  let z' := if nc then z.flip else z
  let (r, f2) := addFV mode p z'
  let (v, f3) := f.result r mode
  (v, f1 ||| f2 ||| f3)
def Fmt.add (f : Fmt) (mode : Rnd) (a b : Nat) : Nat × Fl :=
  let (r, f1) := addFV mode (f.read a) (f.read b)
  let (v, f2) := f.result r mode
  (v, f1 ||| f2)
def Fmt.sub (f : Fmt) (mode : Rnd) (a b : Nat) : Nat × Fl :=
  let (r, f1) := addFV mode (f.read a) (f.read b).flip
  let (v, f2) := f.result r mode
  (v, f1 ||| f2)
def Fmt.mul (f : Fmt) (mode : Rnd) (a b : Nat) : Nat × Fl :=
  let (r, f1) := mulFV (f.read a) (f.read b)
  let (v, f2) := f.result r mode
  (v, f1 ||| f2)

/-- Division (R227). -/
def Fmt.div (f : Fmt) (mode : Rnd) (a b : Nat) : Nat × Fl :=
  match f.read a, f.read b with
  | .nan s, .nan t => (f.nanCode, flIf (s || t) flIV)
  | .nan s, _ => (f.nanCode, flIf s flIV)
  | _, .nan t => (f.nanCode, flIf t flIV)
  | .inf _, .inf _ => (f.nanCode, flIV)
  | .inf s, .fin y => f.result (.inf (s != y.neg)) mode
  | .fin x, .inf t => f.result (.fin (.zero (x.neg != t))) mode
  | .fin x, .fin y =>
    if y.n = 0 then
      (if x.n = 0 then (f.nanCode, flIV)
       else ((f.result (.inf (x.neg != y.neg)) mode).1, flDZ))
    else f.result (.fin (x.div y)) mode

/-- round_rne(a + b, FP32) without flags, as atomics and engines add. -/
def addRne (a b : W32) : W32 := w32 (Fmt.f32.add .rn a.toNat b.toNat).1

/-! ## Integer targets (Table 02.8) -/

/-- A value converted to an integer of w bits: the integer and its flags. -/
def toIntFmt (signed : Bool) (w : Nat) (v : FV) (mode : Rnd) (draw : Nat) : Int × Fl :=
  let lo : Int := if signed then -(2 ^ (w - 1)) else 0
  let hi : Int := if signed then 2 ^ (w - 1) - 1 else 2 ^ w - 1
  match v with
  | .nan _ => (0, flIV)
  | .inf neg => (if neg then lo else hi, flST)
  | .fin x =>
    let g := roundMag 100000 0 x mode draw
    let i : Int := if x.neg then -(g.m : Int) else g.m
    if i < lo then (lo, flST ||| flNX)
    else if hi < i then (hi, flST ||| flNX)
    else (i, flIf g.inexact flNX)

/-! ## Stochastic draws (R57) -/

def mix64 (z : W64) : W64 :=
  let z := (z ^^^ (z >>> 30)) * 0xBF58476D1CE4E5B9#64
  let z := (z ^^^ (z >>> 27)) * 0x94D049BB133111EB#64
  z ^^^ (z >>> 31)

/-- What the draws of one instruction depend on: SEED, the draw counter, the team key. -/
structure Draws where
  seed : W64
  ctr : W32
  key : Nat
  deriving DecidableEq, Repr

/-- sr_draw(l, e). -/
def Draws.at (d : Draws) (l e : Nat) : Nat :=
  let w : W64 := w64 (d.key * 2 ^ 35) ||| w64 (l * 2 ^ 30) ||| w64 e
  let k := mix64 (d.seed ^^^ mix64 (d.ctr.setWidth 64))
  (mix64 (k ^^^ w) >>> 40).toNat

/-! ## Element formats (R43, R44, Table 02.2) -/

def elemFmt : ElemFmt → Fmt
  | .e4m3 => { eb := 4, mb := 3 }
  | .e5m2 => { eb := 5, mb := 2 }
  | .e3m2 => { eb := 3, mb := 2 }
  | .e2m3 => { eb := 2, mb := 3 }
  | .e2m1 => { eb := 2, mb := 1 }
  | .mxint8 => { eb := 0, mb := 7 }
def elemWidth : ElemFmt → Nat
  | .e4m3 | .e5m2 | .mxint8 => 8
  | .e3m2 | .e2m3 => 6
  | .e2m1 => 4
/-- Magnitude code of the largest finite value; in sixty-fourths for MXINT8. -/
def elemMax : ElemFmt → Nat
  | .e4m3 => 0x7E
  | .e5m2 => 0x7B
  | .e3m2 => 0x1F
  | .e2m3 => 0x1F
  | .e2m1 => 0x7
  | .mxint8 => 127
/-- The format of a side-band format code. -/
def elemOf (c : Nat) : Option ElemFmt :=
  match c with
  | 1 => some .e4m3 | 2 => some .e5m2 | 3 => some .e3m2 | 4 => some .e2m3 | 5 => some .e2m1 | 6 => some .mxint8
  | _ => none

/-- elem_value. -/
def elemValue (f : ElemFmt) (c : Nat) : FV :=
  match f with
  | .mxint8 =>
    let c := c % 256
    if c < 128 then .fin { neg := false, n := c, d := 1, e := -6 } else .fin { neg := true, n := 256 - c, d := 1, e := -6 }
  | _ =>
    let g := elemFmt f
    let neg := c / g.signBit % 2 = 1
    let m := c % g.signBit
    match f with
    | .e4m3 => if m = 0x7F then .nan false else .fin (g.valueOf neg m)
    | .e5m2 => if m = 0x7C then .inf neg else if 0x7C < m then .nan false else .fin (g.valueOf neg m)
    | _ => .fin (g.valueOf neg m)

/-- The largest finite value. -/
def elemMaxEx (f : ElemFmt) : Ex :=
  match f with
  | .mxint8 => { neg := false, n := 127, d := 1, e := -6 }
  | _ => (elemFmt f).valueOf false (elemMax f)
/-- The smallest non-zero magnitude: below it a value is flushed (R55). -/
def elemMinEx (f : ElemFmt) : Ex :=
  match f with
  | .mxint8 => { neg := false, n := 1, d := 1, e := -6 }
  | _ => (elemFmt f).valueOf false 1

/-- The code of a sign and a magnitude code. -/
def elemCode (f : ElemFmt) (neg : Bool) (m : Nat) : Nat :=
  match f with
  | .mxint8 => if neg then (256 - m) % 256 else m
  | _ => b1 neg * (elemFmt f).signBit + m
/-- zero_code. -/
def zeroCode (f : ElemFmt) (neg : Bool) : Nat :=
  match f with
  | .mxint8 => 0
  | _ => elemCode f neg 0
/-- limit_code (Table 02.8). -/
def limitCode (f : ElemFmt) (neg : Bool) (cm : CMode) : Nat :=
  match f, cm with
  | .e4m3, .special => elemCode f neg 0x7F
  | .e5m2, .special => elemCode f neg 0x7C
  | _, _ => elemCode f neg (elemMax f)

/-- What the census counts (R61). -/
inductive Ev
  | none | sat | under
  deriving DecidableEq, Repr

/-! ## Scales (R45 to R47, R63) -/

/-- s12_value of a scale that is not a NaN scale. -/
def s12Value (s : Nat) : Ex := { neg := false, n := 16 + s % 16, d := 1, e := ((s / 16 % 256 : Nat) : Int) - 127 - 4 }
def s12Nan (s : Nat) : Bool := s / 16 % 256 = 255
/-- e8m0_of. -/
def e8m0Of (s : Nat) : Nat :=
  let e := s / 16 % 256
  if e = 255 then 0xFF
  else if s % 16 = 0 then e
  else if e = 254 then 0xFE
  else e + 1
/-- An E8M0 byte as an S12 scale (R47). -/
def s12OfE8m0 (x : Nat) : Nat := if x = 0xFF then 0xFF0 else 16 * x

/-- quant_elem (R61) of an exact value or an infinity. -/
def quantElem (v : FV) (s : Nat) (f : ElemFmt) (mode : Rnd) (cm : CMode) (draw : Nat) : Nat × Ev × Fl :=
  match v with
  | .nan _ => (0, .none, 0)
  | .inf neg =>
    let c := limitCode f neg cm
    if f = .e5m2 && cm = .special then (c, .none, 0) else (c, .sat, flST)
  | .fin x =>
    let q := x.div (s12Value s)
    if q.n = 0 then (zeroCode f x.neg, .none, 0)
    else if q.abs.lt (elemMinEx f) then (zeroCode f x.neg, .under, flUF ||| flNX)
    else
      match f with
      | .mxint8 =>
        let g := roundMag 100000 (-6) q mode draw
        if 127 < g.m then (limitCode f x.neg cm, .sat, flST ||| flNX)
        else (elemCode f x.neg g.m, .none, flIf g.inexact flNX)
      | _ =>
        let fm := elemFmt f
        let g := roundMag (fm.mb + 1) fm.qmin q mode draw
        let c := fm.codeOf g
        if elemMax f < c then (limitCode f x.neg cm, .sat, flST ||| flNX)
        else (elemCode f x.neg c, .none, flIf g.inexact flNX)

/-- The smallest code of scale × maxfin at or above m, by bisection over twelve bits (R63); the largest finite scale, 0xFEF, where none
reaches m, which R63 says cannot be for FP32 inputs (a choice of the model for others, log 75). -/
def bscaleOf (m : Ex) (f : ElemFmt) : Nat :=
  let ok := fun s => !((s12Value s).mul (elemMaxEx f)).lt m
  let r := (upTo 12).foldl (fun acc i =>
    let b := 2 ^ (11 - i)
    if acc + b ≤ 0xFEF && !ok (acc + b - 1) then acc + b else acc) 0
  r
/-- bscale over exact values and infinities (R63). -/
def bscale (xs : List FV) (f : ElemFmt) : Nat :=
  if xs.any FV.isNan then 0xFF0
  else
    let m := xs.foldl (fun (m : Ex) x => match x with
      | .fin y => if m.lt y.abs then y.abs else m
      | _ => m) (.zero false)
    if m.n = 0 then 0 else bscaleOf m f

/-- quant_block (R62): scale, codes, counts of SAT and UNDER, flags. -/
def quantBlock (xs : List FV) (f : ElemFmt) (given : Option Nat) (mode : Rnd) (cm : CMode) (draw : Nat → Nat) :
    Nat × List Nat × Nat × Nat × Fl :=
  let sig := flIf (xs.any FV.sig) flIV
  if xs.any FV.isNan || (match given with | some s => s12Nan s | none => false) then
    (0xFF0, List.replicate 32 0, 0, 0, sig)
  else
    let s := match given with | some s => s | none => bscale xs f
    let r := (xs.zip (upTo 32)).map (fun (x, i) => quantElem x s f mode cm (draw i))
    (s, r.map (·.1), (r.filter (fun y => y.2.1 = .sat)).length, (r.filter (fun y => y.2.1 = .under)).length,
      r.foldl (fun a y => a ||| y.2.2) sig)

/-- dequant (R62) with the flags of R239. -/
def dequant (c s : Nat) (f : ElemFmt) : W32 × Fl :=
  if s12Nan s then (0x7FC00000#32, 0)
  else match elemValue f c with
    | .nan _ => (0x7FC00000#32, 0)
    | .inf neg => (w32 (Fmt.f32.result (.inf neg) .rn).1, 0)
    | .fin x =>
      let (v, fl) := Fmt.f32.result (.fin (x.mul (s12Value s))) .rn
      (w32 v, if fl &&& flOF = 0 then 0 else flOF ||| flNX)

/-! ## Lines and side-bands (R48 to R51) -/

def sbFormat (sb : SideBand) : Nat := bits sb 96 4
def sbLayout (sb : SideBand) : Nat := bits sb 100 4
def sbSlot (sb : SideBand) (j : Nat) : Nat := bits sb (12 * j) 12
/-- One step of the CRC of R50. -/
def crcStep (c : Nat) (b : Bool) : Nat :=
  let top := c / 2 ^ 15 % 2 = 1
  let c := c * 2 % 2 ^ 16
  if top != b then Nat.xor c 0x1021 else c
/-- CHECK over side-band bits 103 down to 0. -/
def sbCheck (sb : SideBand) : Nat := (upTo 104).foldl (fun c i => crcStep c (sb.getLsbD (103 - i))) 0
/-- A side-band from its slots, format and layout, with CHECK computed and OWNER zero. -/
def mkSb (slots : List Nat) (fmt lay : Nat) : SideBand :=
  let lo := ((slots.take 8).foldr (fun s acc => acc * 2 ^ 12 + s % 2 ^ 12) 0) + fmt * 2 ^ 96 + lay * 2 ^ 100
  BitVec.ofNat 128 (lo + sbCheck (BitVec.ofNat 128 lo) * 2 ^ 112)
/-- OWNER reads zero (R53). -/
def sbOut (sb : SideBand) : SideBand := sb &&& ~~~ (0xFF#128 <<< 104)
/-- The check of R51. -/
def sbOk (sb : SideBand) : Bool := bits sb 112 16 = sbCheck sb && sbFormat sb < 7 && sbLayout sb < 2
def sbSlots (sb : SideBand) : List Nat := (upTo 8).map (sbSlot sb)

/-- The line element that holds element i of block j (R49). -/
def elemPos (f : ElemFmt) (lay i j : Nat) : Nat := if lay = 0 then 32 * j + i else f.blocks * i + j
/-- Codes of block j of a line (block_of). -/
def blockCodes (f : ElemFmt) (lay : Nat) (x : Line) (j : Nat) : List Nat :=
  let w := elemWidth f
  (upTo 32).map (fun i => bits x (w * elemPos f lay i j) w)
/-- A field of a line replaced. -/
def setField (x : Line) (lo w v : Nat) : Line :=
  let m := BitVec.ofNat 1024 ((2 ^ w - 1) * 2 ^ lo)
  (x &&& ~~~ m) ||| BitVec.ofNat 1024 (v % 2 ^ w * 2 ^ lo)
/-- A whole line from the codes of its blocks, pad zero. -/
def packLine (f : ElemFmt) (lay : Nat) (blocks : List (List Nat)) : Line :=
  let w := elemWidth f
  (blocks.zip (upTo f.blocks)).foldl (fun x (cs, j) =>
    (cs.zip (upTo 32)).foldl (fun x (c, i) => setField x (w * elemPos f lay i j) w c) x) 0
/-- Pad bits of a 6-bit line (Table 02.5). -/
def clearPad (f : ElemFmt) (x : Line) : Line := if elemWidth f = 6 then x &&& BitVec.ofNat 1024 (2 ^ 960 - 1) else x

end Sys2Proof.Machine
end

