-- ==== Sys2Proof/Machine/Special.lean ====
section
/-! DEFINITION. The special functions (02_block_formats.md R68 to R70): special inputs, the exact and correctly rounded
results, and elsewhere the CX1's own approximation as a free value kept within the bound of Table 02.11 (log 9). -/

namespace Sys2Proof.Machine

/-! ## Fixed-point enclosures: numbers scaled by 2^512 -/

/-- π × 2^672 and ln 2 × 2^512, rounded down. -/
def piFix : Nat :=
  0x3243f6a8885a308d313198a2e03707344a4093822299f31d0082efa98ec4e6c89452821e638d01377be5466cf34e90c6cc0ac29b7c97c50dd3f84d5b5b54709179216d5d98979fb1bd1310ba698dfb5ac2ffd72db
def ln2Fix : Nat :=
  0xb17217f7d1cf79abc9e3b39803f2f6af40f343267298b62d8a0d175b8baafa2be7b876206debac98559552fb4afa1b10ed2eae35c138214427573b291169b825
def oneFix : Nat := 2 ^ 512

/-- x as a scaled integer: exact for every FP32 value. -/
def fixOf (x : Ex) : Nat := x.n * 2 ^ (x.e + 512).toNat / x.d

/-- The terms r^k / k! from term t on. -/
def expTerms (r : Nat) : Nat → Nat → Nat → Nat
  | 0, _, _ => 0
  | fuel + 1, k, t => if t = 0 then 0 else t + expTerms r fuel (k + 1) (t * r / oneFix / k)
/-- e^y for y ≥ 0 scaled: the value as n × 2^e. -/
def expFix (y : Nat) : Ex :=
  let n := y / ln2Fix
  { neg := false, n := expTerms (y % ln2Fix) 130 1 oneFix, d := 1, e := (n : Int) - 512 }
/-- The alternating terms of sine (k = 2) and cosine (k = 1), r2 = r² scaled. -/
def trigTerms (r2 : Nat) : Nat → Nat → Nat → Int
  | 0, _, _ => 0
  | fuel + 1, k, t => if t = 0 then 0 else (t : Int) - trigTerms r2 fuel (k + 2) (t * r2 / oneFix / (k * (k + 1)))
/-- atanh z = z + z³/3 + … -/
def atanhTerms (z2 : Nat) : Nat → Nat → Nat → Nat
  | 0, _, _ => 0
  | fuel + 1, k, t => if t = 0 then 0 else t / k + atanhTerms z2 fuel (k + 2) (t * z2 / oneFix)

/-- Newton's steps to the integer square root from above. -/
def sqrtSteps (n : Nat) : Nat → Nat → Nat
  | 0, x => x
  | fuel + 1, x =>
    let y := (x + n / x) / 2
    if y < x then sqrtSteps n fuel y else x
/-- floor(√n). -/
def isqrt (n : Nat) : Nat := if n = 0 then 0 else sqrtSteps n 40 (2 ^ (Nat.log2 n / 2 + 1))

/-- A value known up to an error: the exact value of the function lies within `err` of `val`. -/
structure Near where
  val : Ex
  err : Ex
  /-- val is the exact value -/
  exact : Bool

/-- An error of 2^−490 relative to a value. -/
def relErr (v : Ex) : Ex := { v.abs with e := v.e - 490 }
/-- An absolute error of 2^−490. -/
def absErr : Ex := { neg := false, n := 1, d := 1, e := -490 }
def scaled (neg : Bool) (n : Nat) : Ex := { neg := neg, n := n, d := 1, e := -512 }

/-- The functions of Table 02.11, numbered as R229 numbers them. -/
inductive Sfu
  | rcp | rsq | sqrt | exp2 | log2 | sin | cos | tanh | sigm
  deriving DecidableEq, Repr
def Sfu.code : Sfu → Nat
  | .rcp => 0 | .rsq => 1 | .sqrt => 2 | .exp2 => 3 | .log2 => 4 | .sin => 5 | .cos => 6 | .tanh => 7 | .sigm => 8

/-- √x, or 1/√x, of a positive value: 600 bits, and a last bit that says whether more follow. -/
def sqrtNear (x : Ex) : Ex :=
  let e0 := if x.e % 2 = 0 then x.e else x.e - 1
  let n := scaleN x.n x.e e0 * 2 ^ 1200
  let r := isqrt (n / x.d)
  if r * r * x.d = n then { neg := false, n := r, d := 1, e := e0 / 2 - 600 }
  else { neg := false, n := 2 * r + 1, d := 1, e := e0 / 2 - 601 }
def rsqNear (x : Ex) : Ex := sqrtNear { neg := false, n := x.d, d := x.n, e := -x.e }

/-- sin (false) or cos (true) of x: reduced by multiples of π/2. -/
def trigNear (cosine : Bool) (x : Ex) : Ex :=
  let h := piFix / 2
  let X := fixOf x * 2 ^ 160
  let k := (X + h / 2) / h
  let down := decide (k * h ≤ X)
  let r := (if down then X - k * h else k * h - X) / 2 ^ 160
  let q := (k + b1 cosine) % 4
  let r2 := r * r / oneFix
  let useCos := q % 2 = 1
  let v : Int := if useCos then trigTerms r2 130 1 oneFix else trigTerms r2 130 2 r
  let v := if !useCos && !down then -v else v
  let v := if 2 ≤ q then -v else v
  let v := if x.neg && !cosine then -v else v
  scaled (decide (v < 0)) v.natAbs

/-- log2 of a positive value. -/
def log2Near (x : Ex) : Ex :=
  let k := log2Q x.n x.d
  let m := { x with e := -k }
  let a := fixOf m
  let z := (a - oneFix) * oneFix / (a + oneFix)
  let ln := 2 * atanhTerms (z * z / oneFix) 200 1 z
  let v : Int := (k + x.e) * (oneFix : Int) + ((ln * oneFix / ln2Fix : Nat) : Int)
  scaled (decide (v < 0)) v.natAbs

/-- The value of a function at a finite, non-special input. TANH, SIGM and EXP2 are evaluated at a clamped argument where
no FP32 decision differs. -/
def Sfu.near (f : Sfu) (x : Ex) : Near :=
  match f with
  | .rcp => let v := Ex.div (.ofNat 1) x
            { val := v, err := .zero false, exact := true }
  | .rsq => { val := rsqNear x, err := .zero false, exact := true }
  | .sqrt => { val := sqrtNear x, err := .zero false, exact := true }
  | .exp2 =>
    let a := fixOf x
    let a := if 600 * oneFix < a then 600 * oneFix else a
    if a % oneFix = 0 then
      { val := { neg := false, n := 1, d := 1, e := if x.neg then -((a / oneFix : Nat) : Int) else ((a / oneFix : Nat) : Int) },
        err := .zero false, exact := true }
    else
      let f := a % oneFix
      let w := a / oneFix
      let v := if x.neg then { expFix ((oneFix - f) * ln2Fix / oneFix) with e := -512 - ((w + 1 : Nat) : Int) }
               else { expFix (f * ln2Fix / oneFix) with e := -512 + (w : Int) }
      { val := v, err := relErr v, exact := false }
  | .log2 =>
    let k := log2Q x.n x.d
    if x.n * pow2 (-k) = x.d * pow2 k then { val := .ofInt (k + x.e), err := .zero false, exact := true }
    else { val := log2Near x, err := absErr, exact := false }
  | .sin => { val := trigNear false x, err := absErr, exact := false }
  | .cos => { val := trigNear true x, err := absErr, exact := false }
  | .tanh =>
    let a := fixOf x
    let e := expFix (2 * (if 200 * oneFix < a then 200 * oneFix else a))
    let v := Ex.div (e.add { Ex.ofNat 1 with neg := true }) (e.add (.ofNat 1))
    { val := { v with neg := x.neg }, err := absErr, exact := false }
  | .sigm =>
    let a := fixOf x
    let e := expFix (if 400 * oneFix < a then 400 * oneFix else a)
    let d := e.add (.ofNat 1)
    let v := if x.neg then Ex.div (.ofNat 1) d else Ex.div e d
    { val := v, err := relErr v, exact := false }

/-- The bound of Table 02.11 at a value: some ulps, an absolute bound, or only the range [−1, 1]. -/
inductive Bound
  | ulps (n : Nat)
  | abs (e : Int)
  | unit
  deriving DecidableEq, Repr
def Sfu.bound (f : Sfu) (acc : Bool) (x : Ex) : Bound :=
  if acc then .ulps 1
  else match f with
    | .rcp | .rsq | .sqrt | .exp2 => .ulps 2
    | .log2 =>
      if !x.abs.lt { neg := false, n := 1, d := 1, e := -1 } && !Ex.lt (.ofNat 2) x.abs then .abs (-21) else .ulps 2
    | .sin | .cos => if Ex.lt (.ofNat 32768) x.abs then .unit else .abs (-21)
    | .tanh => .abs (-21)
    | .sigm => .abs (-22)

/-- An ulp of a value (R69): subnormals count in grade .A only. -/
def ulpOf (acc : Bool) (v : Ex) : Ex :=
  let q := (roundMag 24 (-149) v .rz 0).q
  { neg := false, n := 1, d := 1, e := if !acc && v.abs.lt { neg := false, n := 1, d := 1, e := -126 } then -126 else q }
/-- A finite FP32 value of the grade's grid within the bound. -/
def Bound.holds (b : Bound) (acc : Bool) (v : Near) (c : W32) : Bool :=
  match Fmt.f32.read c.toNat with
  | .fin y =>
    let far := ((y.add v.val.flip).abs).add v.err
    let subn := y.n ≠ 0 && y.abs.lt { neg := false, n := 1, d := 1, e := -126 }
    (acc || !subn) && (match b with
      | .ulps n => !((ulpOf acc v.val).mul (.ofNat n)).lt far
      | .abs e => !({ neg := false, n := 1, d := 1, e := e : Ex }).lt far
      | .unit => !Ex.lt (.ofNat 1) y.abs)
  | _ => false

/-- Flags of a delivered value: NX when it differs from the exact one, UF when it is tiny as well; grade .F turns a
subnormal result into a zero of its sign with UF and NX (R68). -/
def Sfu.deliver (acc : Bool) (exact : Bool) (v : Ex) (c : W32) : W32 × Fl :=
  let m := c.toNat % 2 ^ 31
  if !acc && m ≠ 0 && m < 2 ^ 23 then (c &&& 0x80000000#32, flUF ||| flNX)
  else
    let same := exact && (match Fmt.f32.read c.toNat with | .fin y => y.eq v | _ => false)
    if same then (c, 0)
    else (c, flNX ||| flIf (m < 2 ^ 23) flUF)

/-- Results that Table 02.11 or R70 fixes: correctly rounded in grade .A, or exact. -/
def Sfu.fixed (f : Sfu) (acc : Bool) (x : Ex) (v : Near) : Bool :=
  match f with
  | .rcp | .rsq | .sqrt => acc
  | .exp2 => v.exact && (if acc then decide (-149 ≤ v.val.e) else decide (-126 ≤ v.val.e)) && decide (v.val.e ≤ 127)
  | .log2 => v.exact && !x.lt { neg := false, n := 1, d := 1, e := -126 }
  | _ => false

/-- A finite input that Table 02.12 does not name. In grade .F a result whose exact value rounds to a subnormal is flushed, with UF and NX,
also where the error bound would allow 2^-126 (a choice of the model, log 74). -/
def Sfu.finite (f : Sfu) (acc : Bool) (a : W32) (x : Ex) : W32 × Fl :=
  let v := f.near x
  if f.fixed acc x v then
    let r := Fmt.f32.result (.fin v.val) .rn
    if !acc then ((Sfu.deliver acc true v.val (w32 r.1)).1, r.2) else (w32 r.1, r.2)
  else if f = .exp2 && !x.neg && !x.lt (.ofNat 128) then (0x7F800000#32, flOF ||| flNX)
  else
    let cand := Config.sfu f.code acc a
    let near := w32 (Fmt.f32.write (.fin v.val) .rn .sat 0).1
    if !acc && v.val.n ≠ 0 && near.toNat % 2 ^ 31 < 2 ^ 23 then (near &&& 0x80000000#32, flUF ||| flNX)
    else Sfu.deliver acc v.exact v.val (if (f.bound acc x).holds acc v cand then cand else near)

/-- A special function of an FP32 value (Tables 02.11, 02.12). -/
def Sfu.eval (f : Sfu) (acc : Bool) (a : W32) : W32 × Fl :=
  let nan : W32 := 0x7FC00000#32
  let pinf : W32 := 0x7F800000#32
  let ninf : W32 := 0xFF800000#32
  let one : W32 := 0x3F800000#32
  match Fmt.f32.read a.toNat with
  | .nan sig => (nan, flIf sig flIV)
  | .inf neg =>
    match f with
    | .rcp => (if neg then 0x80000000#32 else 0, 0)
    | .rsq => if neg then (nan, flIV) else (0, 0)
    | .sqrt => if neg then (nan, flIV) else (pinf, 0)
    | .exp2 => (if neg then 0 else pinf, 0)
    | .log2 => if neg then (nan, flIV) else (pinf, 0)
    | .sin | .cos => (nan, flIV)
    | .tanh => (if neg then 0xBF800000#32 else one, 0)
    | .sigm => (if neg then 0 else one, 0)
  | .fin x =>
    let flush := !acc && x.n ≠ 0 && a.toNat % 2 ^ 31 < 2 ^ 23
    if x.n = 0 || flush then
      match f with
      | .rcp | .rsq => (if x.neg then ninf else pinf, flDZ)
      | .sqrt | .sin | .tanh => (if x.neg then 0x80000000#32 else 0, 0)
      | .exp2 | .cos => (one, 0)
      | .log2 => (ninf, flDZ)
      | .sigm => (0x3F000000#32, 0)
    else if x.neg && (f = .rsq || f = .sqrt || f = .log2) then (nan, flIV)
    else f.finite acc a x

end Sys2Proof.Machine
end

