-- ==== Sys2Proof/Machine/Float.lean ====
section
/-! DEFINITION. FP32 and packed 16-bit arithmetic, comparisons, special functions and conversions
(08_ref_float_block_lane.md R218 to R233). -/

namespace Sys2Proof.Machine

/-! ## Operands -/

/-- Source B of Table 08.1: the I form gives FP32 bits [31:12]. -/
def argFB (ty : Ty) : Opnd → Arg
  | .sel b => argB ty b
  | .imm v => .imm (v.setWidth 64 <<< 12)
  | .lit v => .imm v
/-- Source B of FMA: the I form gives FP32 bits [31:22]. -/
def argFB10 (ty : Ty) : Opnd10 → Arg
  | .sel b => argB ty b
  | .imm v => .imm (v.setWidth 64 <<< 22)
  | .lit v => .imm v
/-- A computation on FP32 bits: a scalar form reads bits [31:0] and writes zeros above (R218). -/
def onW32 (f : (Nat → W32) → W32 × Fl) : Calc := fun w v =>
  let r := f (fun i => (v i).setWidth 32)
  (r.1.setWidth w, r.2)

/-! ## Values -/

/-- A two-operand FP32 operation by its format function. -/
def faddVal (r : BitVec 2) (a b : W32) : W32 × Fl :=
  let x := Fmt.f32.add (rndOf r) a.toNat b.toNat
  (w32 x.1, x.2)
def fsubVal (r : BitVec 2) (a b : W32) : W32 × Fl :=
  let x := Fmt.f32.sub (rndOf r) a.toNat b.toNat
  (w32 x.1, x.2)
def fmulVal (r : BitVec 2) (a b : W32) : W32 × Fl :=
  let x := Fmt.f32.mul (rndOf r) a.toNat b.toNat
  (w32 x.1, x.2)
def fmaVal (np nc : Bool) (r : BitVec 2) (a b c : W32) : W32 × Fl :=
  let x := Fmt.f32.fma (rndOf r) np nc a.toNat b.toNat c.toNat
  (w32 x.1, x.2)
def fdivVal (r : BitVec 2) (a b : W32) : W32 × Fl :=
  let x := Fmt.f32.div (rndOf r) a.toNat b.toNat
  (w32 x.1, x.2)

/-- Order of two values that are no NaN: −1, 0, 1; zeros compare equal. -/
def cmpFV : FV → FV → Int
  | .inf a, .inf b => if a = b then 0 else if a then -1 else 1
  | .inf a, _ => if a then -1 else 1
  | _, .inf b => if b then 1 else -1
  | .fin x, .fin y => if x.lt y then -1 else if y.lt x then 1 else 0
  | _, _ => 0
/-- minimumNumber and maximumNumber (R223). -/
def fminmaxVal (mx : Bool) (a b : W32) : W32 × Fl :=
  let x := Fmt.f32.read a.toNat
  let y := Fmt.f32.read b.toNat
  let fl := flIf (x.sig || y.sig) flIV
  if x.isNan && y.isNan then (0x7FC00000#32, fl)
  else if x.isNan then (b, fl)
  else if y.isNan then (a, fl)
  else
    let c := cmpFV x y
    let aLess := c < 0 || (c = 0 && x.neg)
    (if aLess != mx then a else b, fl)
/-- Rounding to an integral value (R224). -/
def frndVal (r : BitVec 2) (a : W32) : W32 × Fl :=
  match Fmt.f32.read a.toNat with
  | .nan s => (0x7FC00000#32, flIf s flIV)
  | .inf _ => (a, 0)
  | .fin x =>
    let g := roundMag 100000 0 x (rndOf r) 0
    let v : Ex := { neg := x.neg, n := scaleN g.m g.q 0, d := 1, e := 0 }
    (w32 (Fmt.f32.result (.fin v) .rn).1, 0)
/-- Table 08.3. -/
def fcmpVal (c : FCond) (a b : W32) : Bool × Fl :=
  let x := Fmt.f32.read a.toNat
  let y := Fmt.f32.read b.toNat
  let nan := x.isNan || y.isNan
  let o := cmpFV x y
  (match c with
   | .eq => !nan && o = 0
   | .ne => nan || o ≠ 0
   | .lt => !nan && o < 0
   | .le => !nan && o ≤ 0
   | .gt => !nan && 0 < o
   | .ge => !nan && 0 ≤ o
   | .num => !nan
   | .nan => nan, flIf (x.sig || y.sig) flIV)
/-- The class number of Table 08.4. -/
def fclassOf (a : W32) : Nat :=
  let subn := a.toNat % 2 ^ 31 < 2 ^ 23
  match Fmt.f32.read a.toNat with
  | .nan true => 0
  | .nan false => 1
  | .inf true => 2
  | .inf false => 9
  | .fin x =>
    if x.n = 0 then (if x.neg then 5 else 6)
    else if x.neg then (if subn then 4 else 3)
    else if subn then 7 else 8

/-! ### Packed lanes (R228) -/

def halfFmt (bf : Bool) : Fmt := if bf then .bf16 else .f16
def elt (a : W32) (e : Nat) : Nat := bits a (16 * e) 16
/-- Both elements of a packed operation. -/
def packed (f : Nat → Nat × Fl) : W32 × Fl :=
  let lo := f 0
  let hi := f 1
  (w32 (hi.1 * 2 ^ 16 + lo.1), lo.2 ||| hi.2)
def h2addVal (bf : Bool) (r : BitVec 2) (a b : W32) : W32 × Fl :=
  packed (fun e => (halfFmt bf).add (rndOf r) (elt a e) (elt b e))
def h2mulVal (bf : Bool) (r : BitVec 2) (a b : W32) : W32 × Fl :=
  packed (fun e => (halfFmt bf).mul (rndOf r) (elt a e) (elt b e))
def h2fmaVal (bf : Bool) (r : BitVec 2) (a b c : W32) : W32 × Fl :=
  packed (fun e => (halfFmt bf).fma (rndOf r) false false (elt a e) (elt b e) (elt c e))
/-- Two infinities of opposite signs. -/
def FV.opposed : FV → FV → Bool
  | .inf a, .inf b => a != b
  | _, _ => false
/-- Two products and c summed exactly, one rounding; infinities of both signs among the three raise IV (R228). -/
def fdot2Val (bf : Bool) (r : BitVec 2) (a b c : W32) : W32 × Fl :=
  let h := halfFmt bf
  let p := fun e => mulFV (h.read (elt a e)) (h.read (elt b e))
  let z := Fmt.f32.read c.toNat
  let s := addFV (rndOf r) (p 0).1 (p 1).1
  let t := addFV (rndOf r) s.1 z
  let y := Fmt.f32.result t.1 (rndOf r)
  (w32 y.1, (p 0).2 ||| (p 1).2 ||| s.2 ||| t.2 ||| y.2 ||| flIf ((p 0).1.opposed z || (p 1).1.opposed z) flIV)

/-! ### Conversions (Tables 08.6, 08.7) -/

/-- What a conversion format is. -/
inductive CvtKind
  | raw (f : Fmt)
  | int (signed : Bool) (w : Nat)
  | elem (f : ElemFmt)
def cvtKind : CvtFmt → CvtKind
  | .f32 => .raw .f32
  | .f16 => .raw .f16
  | .bf16 => .raw .bf16
  | .int32 => .int true 32
  | .uint32 => .int false 32
  | .int16 => .int true 16
  | .int8 => .int true 8
  | .uint8 => .int false 8
  | .elem f => .elem f
/-- The exact source value, read from the low bits (R230). -/
def cvtRead (k : CvtKind) (v : Nat) : FV :=
  match k with
  | .raw f => f.read (v % 2 ^ (f.eb + f.mb + 1))
  | .int signed w =>
    let m := v % 2 ^ w
    .fin (.ofInt (if signed && 2 ^ (w - 1) ≤ m then (m : Int) - 2 ^ w else m))
  | .elem f => elemValue f (v % 2 ^ elemWidth f)
/-- R232: quantised against the unit scale. -/
def cvtElem (f : ElemFmt) (v : FV) (mode : Rnd) (cm : CMode) (draw : Nat) : Nat × Fl :=
  match v with
  | .nan sig =>
    match f with
    | .e4m3 | .e5m2 => (0x7F, flIf sig flIV)
    | _ => (0, flIV)
  | _ =>
    let y := quantElem v 0x7F0 f mode cm draw
    (y.1, y.2.2)
/-- A conversion's result in w bits. -/
def cvtVal (dst src : CvtFmt) (cm : CMode) (mode : Rnd) (draw w : Nat) (a : BitVec w) : BitVec w × Fl :=
  let v := cvtRead (cvtKind src) a.toNat
  match cvtKind dst with
  | .raw f =>
    let y := f.write v mode (if src.isElem then .special else cm) draw
    (BitVec.ofNat w y.1, y.2)
  | .int signed wd =>
    let y := toIntFmt signed wd v mode draw
    (BitVec.ofInt w y.1, y.2)
  | .elem f =>
    let y := cvtElem f v mode cm draw
    (BitVec.ofNat w y.1, y.2)

/-! ## FP32 arithmetic -/

/-- Two FP32 operands. -/
def Iss.float2 (x : Iss) (s : State) (g : Guard) (ty : Ty) (d : Dst) (a : Sel) (b : Opnd) (f : W32 → W32 → W32 × Fl) :
    Except Halt State :=
  x.calc s g ty d [argA ty a, argFB ty b] (wordsB b) (onW32 (fun v => f (v 0) (v 1)))

def execFadd (g : Guard) (ty : Ty) (d : Dst) (a : Sel) (b : Opnd) (r : BitVec 2) (s : State) :
    Host.Outcome State Fault Refusal := s.issue (fun x => x.float2 s g ty d a b (faddVal r))
def execFsub (g : Guard) (ty : Ty) (d : Dst) (a : Sel) (b : Opnd) (r : BitVec 2) (s : State) :
    Host.Outcome State Fault Refusal := s.issue (fun x => x.float2 s g ty d a b (fsubVal r))
def execFmul (g : Guard) (ty : Ty) (d : Dst) (a : Sel) (b : Opnd) (r : BitVec 2) (s : State) :
    Host.Outcome State Fault Refusal := s.issue (fun x => x.float2 s g ty d a b (fmulVal r))
def execFma (g : Guard) (ty : Ty) (d : Dst) (a : Sel) (b : Opnd10) (c : Sel) (np nc : Bool) (r : BitVec 2) (s : State) :
    Host.Outcome State Fault Refusal :=
  s.issue (fun x => x.calc s g ty d [argA ty a, argFB10 ty b, argA ty c] (words10 b)
    (onW32 (fun v => fmaVal np nc r (v 0) (v 1) (v 2))))
def execFmin (g : Guard) (ty : Ty) (d : Dst) (a : Sel) (b : Opnd) (s : State) : Host.Outcome State Fault Refusal :=
  s.issue (fun x => x.float2 s g ty d a b (fminmaxVal false))
def execFmax (g : Guard) (ty : Ty) (d : Dst) (a : Sel) (b : Opnd) (s : State) : Host.Outcome State Fault Refusal :=
  s.issue (fun x => x.float2 s g ty d a b (fminmaxVal true))
def execFcmp (g : Guard) (ty : Ty) (p : BitVec 4) (a : Sel) (b : Opnd) (cond : FCond) (m : Comb) (s : State) :
    Host.Outcome State Fault Refusal :=
  s.issue (fun x => x.compare s g ty p m [argA ty a, argFB ty b] (wordsB b)
    (fun _ v => fcmpVal cond ((v 0).setWidth 32) ((v 1).setWidth 32)))
def execFrnd (g : Guard) (ty : Ty) (d : Dst) (a : Sel) (r : BitVec 2) (s : State) : Host.Outcome State Fault Refusal :=
  s.issue (fun x => x.calc s g ty d [argA ty a] 1 (onW32 (fun v => frndVal r (v 0))))
def execFclass (g : Guard) (ty : Ty) (p : BitVec 4) (a : Sel) (mask : BitVec 10) (m : Comb) (s : State) :
    Host.Outcome State Fault Refusal :=
  s.issue (fun x => x.compare s g ty p m [argA ty a] 1 (fun _ v => (bitOf mask (fclassOf ((v 0).setWidth 32)), 0)))
/-- Long-latency (R227). -/
def execFdiv (g : Guard) (ty : Ty) (d : BitVec 8) (a : Sel) (b : Opnd) (r : BitVec 2) (s : State) :
    Host.Outcome State Fault Refusal :=
  s.issue (fun x => x.calcLong s g ty d.toNat [argA ty a, argFB ty b] (wordsB b)
    (onW32 (fun v => fdivVal r (v 0) (v 1))))
/-- The L literal of a packed instruction gives both elements (R228). -/
def execH2add (g : Guard) (ty : Ty) (d : Dst) (a : Sel) (b : Opnd) (bf : Bool) (r : BitVec 2) (s : State) :
    Host.Outcome State Fault Refusal := s.issue (fun x => x.float2 s g ty d a b (h2addVal bf r))
def execH2mul (g : Guard) (ty : Ty) (d : Dst) (a : Sel) (b : Opnd) (bf : Bool) (r : BitVec 2) (s : State) :
    Host.Outcome State Fault Refusal := s.issue (fun x => x.float2 s g ty d a b (h2mulVal bf r))
def execH2fma (g : Guard) (ty : Ty) (d : Dst) (a : Sel) (b : Opnd) (c : Sel) (bf : Bool) (r : BitVec 2) (s : State) :
    Host.Outcome State Fault Refusal :=
  s.issue (fun x => x.calc s g ty d [argA ty a, argFB ty b, argA ty c] (wordsB b)
    (onW32 (fun v => h2fmaVal bf r (v 0) (v 1) (v 2))))
def execFdot2 (g : Guard) (ty : Ty) (d : Dst) (a : Sel) (b : Opnd) (c : Sel) (bf : Bool) (r : BitVec 2) (s : State) :
    Host.Outcome State Fault Refusal :=
  s.issue (fun x => x.calc s g ty d [argA ty a, argFB ty b, argA ty c] (wordsB b)
    (onW32 (fun v => fdot2Val bf r (v 0) (v 1) (v 2))))

/-! ## Special functions (R229) -/

/-- Grade .F is fixed-latency, grade .A lands later. -/
def Iss.special (x : Iss) (s : State) (f : Sfu) (g : Guard) (ty : Ty) (d : Dst) (a : Sel) (acc : Bool) :
    Except Halt State :=
  let c : Calc := onW32 (fun v => f.eval acc (v 0))
  if acc then x.calcLong s g ty d.idx.toNat [argA ty a] 1 c else x.calc s g ty d [argA ty a] 1 c

def execRcp (g : Guard) (ty : Ty) (d : Dst) (a : Sel) (acc : Bool) (s : State) : Host.Outcome State Fault Refusal :=
  s.issue (fun x => x.special s .rcp g ty d a acc)
def execRsq (g : Guard) (ty : Ty) (d : Dst) (a : Sel) (acc : Bool) (s : State) : Host.Outcome State Fault Refusal :=
  s.issue (fun x => x.special s .rsq g ty d a acc)
def execSqrt (g : Guard) (ty : Ty) (d : Dst) (a : Sel) (acc : Bool) (s : State) : Host.Outcome State Fault Refusal :=
  s.issue (fun x => x.special s .sqrt g ty d a acc)
def execExp2 (g : Guard) (ty : Ty) (d : Dst) (a : Sel) (acc : Bool) (s : State) : Host.Outcome State Fault Refusal :=
  s.issue (fun x => x.special s .exp2 g ty d a acc)
def execLog2 (g : Guard) (ty : Ty) (d : Dst) (a : Sel) (acc : Bool) (s : State) : Host.Outcome State Fault Refusal :=
  s.issue (fun x => x.special s .log2 g ty d a acc)
def execSin (g : Guard) (ty : Ty) (d : Dst) (a : Sel) (acc : Bool) (s : State) : Host.Outcome State Fault Refusal :=
  s.issue (fun x => x.special s .sin g ty d a acc)
def execCos (g : Guard) (ty : Ty) (d : Dst) (a : Sel) (acc : Bool) (s : State) : Host.Outcome State Fault Refusal :=
  s.issue (fun x => x.special s .cos g ty d a acc)
def execTanh (g : Guard) (ty : Ty) (d : Dst) (a : Sel) (acc : Bool) (s : State) : Host.Outcome State Fault Refusal :=
  s.issue (fun x => x.special s .tanh g ty d a acc)
def execSigm (g : Guard) (ty : Ty) (d : Dst) (a : Sel) (acc : Bool) (s : State) : Host.Outcome State Fault Refusal :=
  s.issue (fun x => x.special s .sigm g ty d a acc)

/-! ## Conversions -/

/-- The draws of an instruction (R57): SEED of the context, the team's counter, its key. -/
def Iss.draws (x : Iss) (s : State) : Draws :=
  { seed := (s.ctxAt x.c).seed, ctr := x.t.draw, key := x.b.idx * 32 + x.t.idx }
/-- R59: every issue advances the counter. -/
def Team.drew (t : Team) : Team := { t with draw := t.draw + 1 }

/-- R231. -/
def execCvt (g : Guard) (ty : Ty) (d : Dst) (a : Sel) (dst src : CvtFmt) (cm : CMode) (r : BitVec 2) (s : State) :
    Host.Outcome State Fault Refusal :=
  s.issue (fun x => x.calc s g ty d [argA ty a] 1 (fun w v => cvtVal dst src cm (rndOf r) 0 w (v 0)))
/-- R233: rounds by SR with draw (l, 0). -/
def execCvts (g : Guard) (d : Dst) (a : Sel) (dst : CvtFmt) (cm : CMode) (s : State) :
    Host.Outcome State Fault Refusal :=
  s.issue (fun x => do
    let act := x.act g
    let t ← x.enter s act [src .v a] (dstUses .v d) false
    let v ← x.vec act a
    let y := fun l => cvtVal dst .f32 cm .sr ((x.draws s).at l 0) 32 (laneOf v.data l)
    .ok (s.setTeam x.u (t.finish x.off [src .v a]
      [.vec d.idx.toNat d.ws act (lineOf (fun l => (y l).1)) none []] (raisedIn act (fun l => (y l).2)) 1).drew))

end Sys2Proof.Machine
end

