-- ==== Sys2Proof/Machine/Params.lean ====
section
/-! DEFINITION. The fields of the parameter blocks of CPY, MMA and COLL (10_ref_engines.md Tables 10.3, 10.5, 10.6), the
ranges that an engine instruction names, and the leases they hold (R293 to R295). -/

namespace Sys2Proof.Machine

def ceilDiv (a b : Nat) : Nat := if b = 0 then 0 else (a + b - 1) / b
/-- Blocks per line of a format code (Table 02.5). -/
def fmtBlocks (c : Nat) : Nat := match elemOf c with | some f => f.blocks | none => 1

/-! ## Ranges in rows -/

def span1 (off len : Nat) : Span := { off := off, pitch := 0, rows := 1, len := len }
/-- The range lies within n bytes. -/
def Span.fits (x : Span) (n : Nat) : Bool := x.rows = 0 || x.len = 0 || x.off + x.pitch * (x.rows - 1) + x.len ≤ n
/-- Some row shares a 128-byte line with n bytes at o. -/
def Span.hits (x : Span) (o n : Nat) : Bool :=
  n ≠ 0 && x.len ≠ 0 && (upTo x.rows).any (fun r =>
    let a := x.off + x.pitch * r
    a / 128 ≤ (o + n - 1) / 128 && o / 128 ≤ (a + x.len - 1) / 128)
/-- Two ranges share a line. -/
def Span.meets (x y : Span) : Bool := (upTo x.rows).any (fun r => y.hits (x.off + x.pitch * r) x.len)

/-! ## CPY (Table 10.3) -/

def cpyLen (p : PBlock) : Nat := bits p.w2 32 32
def cpyRows (p : PBlock) : Nat := bits p.w2 16 16
def cpyBar (p : PBlock) : Nat := 16 * bits p.w2 0 16
def cpySstr (p : PBlock) : Nat := bits p.w3 48 16
def cpyDstr (p : PBlock) : Nat := bits p.w3 32 16
def cpyScale (p : PBlock) : Nat := bits p.w3 20 12
def cpyDir (p : PBlock) : Nat := bits p.w3 18 2
def cpyXform (p : PBlock) : Nat := bits p.w3 15 3
def cpyScopeCode (p : PBlock) : Nat := bits p.w3 12 3
def cpyRnd (p : PBlock) : Nat := bits p.w3 9 3
def cpyCmode (p : PBlock) : Bool := bitOf p.w3 8
def cpyFmt (p : PBlock) : Nat := bits p.w3 5 3
def cpyLay (p : PBlock) : Nat := bits p.w3 4 1
def cpyGiven (p : PBlock) : Bool := bitOf p.w3 3
def cpyE8m0 (p : PBlock) : Bool := bitOf p.w3 2
def cpyBatch (p : PBlock) : Bool := bitOf p.w3 1
def cpyCens (p : PBlock) : Bool := bitOf p.w3 0
def cpyScope (p : PBlock) : Scope :=
  match cpyScopeCode p with
  | 2 => .blk
  | 3 => .die
  | _ => .dev

/-- The source is the scratchpad, the destination is. -/
def cpySpadSrc (p : PBlock) : Bool := cpyDir p ≠ 0
def cpySpadDst (p : PBlock) : Bool := cpyDir p ≠ 1
def cpySrcRow (p : PBlock) (r : Nat) : Nat := p.w0.toNat + 128 * cpySstr p * r
def cpyDstRow (p : PBlock) (r : Nat) : Nat := p.w1.toNat + 128 * cpyDstr p * r
/-- Lines of a source row. -/
def cpyLines (p : PBlock) : Nat := cpyLen p / 128
/-- Elements per line of a format code: 32 of a raw line. -/
def fmtElems (f : Nat) : Nat := if f = 0 then 32 else 32 * fmtBlocks f
def sumNat (l : List Nat) : Nat := l.foldl (· + ·) 0
/-- Elements of a source row whose line i has format code fm i. -/
def rowElems (p : PBlock) (fm : Nat → Nat) : Nat := sumNat ((upTo (cpyLines p)).map (fun i => fmtElems (fm i)))
/-- Blocks of a source row. -/
def rowBlocks (p : PBlock) (fm : Nat → Nat) : Nat := sumNat ((upTo (cpyLines p)).map (fun i => fmtBlocks (fm i)))
/-- Destination rows of a copy whose source line i of row r has format code fm r i (Table 10.4). -/
def cpyDstRows (p : PBlock) (fm : Nat → Nat → Nat) : Nat :=
  match cpyXform p with
  | 4 => cpyLines p * fmtBlocks (fm 0 0)
  | 5 => rowElems p (fm 0)
  | _ => cpyRows p
/-- Bytes of destination row r. -/
def cpyDstLen (p : PBlock) (fm : Nat → Nat → Nat) (r : Nat) : Nat :=
  match cpyXform p with
  | 0 => cpyLen p
  | 1 => 128 * ceilDiv (cpyLines p) (fmtBlocks (cpyFmt p))
  | 2 => 128 * rowBlocks p (fm r)
  | 3 => 128 * ceilDiv (cpyLines p * fmtBlocks (fm 0 0)) (fmtBlocks (cpyFmt p))
  | 4 => 128 * ceilDiv (cpyRows p) (fmtBlocks (fm 0 0))
  | _ => if cpyFmt p = 0 then 4 * cpyRows p else 128 * ceilDiv (cpyRows p / 32) (fmtBlocks (cpyFmt p))
/-- The source and destination ranges. -/
def cpySrcSpan (p : PBlock) : Span :=
  { off := p.w0.toNat, pitch := 128 * cpySstr p, rows := cpyRows p, len := cpyLen p }
def cpyDstSpans (p : PBlock) (fm : Nat → Nat → Nat) : List Span :=
  if cpyXform p = 2 then (upTo (cpyRows p)).map (fun r => span1 (cpyDstRow p r) (cpyDstLen p fm r))
  else [{ off := p.w1.toNat, pitch := 128 * cpyDstr p, rows := cpyDstRows p fm, len := cpyDstLen p fm 0 }]
/-- The side-band of a line of memory as a team's own loads find it (R125): that of its latest store on its way that brings one, else what
the home holds. -/
def State.sideFor (s : State) (u line : Nat) : SideBand :=
  let of_ := fun (w : WBody) => w.sides.filterMap (fun y => if y.1 = line then some y.2 else none)
  let sent := (s.net.writes.filter (fun w => w.team = some u)).flatMap (fun w => of_ w.body)
  let held := match s.teamAt u with
    | some t => t.queue.flatMap (fun e => match e.send with | .write w => of_ w | _ => [])
    | none => []
  ((sent ++ held).getLast?).getD (s.mem.sb line)
/-- The format of each source line as the issuing team would load it, which gives the copy's destination its shape. A line that does not
translate counts as four blocks, or as a raw line under transform 5, until the copy reads it (log 14). -/
def State.cpyFormat (s : State) (die c blk u : Nat) (p : PBlock) (r i : Nat) : Nat :=
  let a := cpySrcRow p r + 128 * i
  if cpySpadSrc p then sbFormat ((s.block blk).sb (a / 128))
  else match s.walk die c a with
    | .ok (e, lvl, _) => sbFormat (s.sideFor u ((4096 * bits e 12 40 + a % 2 ^ levelShift lvl) / 128))
    | .error _ => if cpyXform p = 5 then 0 else 1
def cpyLeases (p : PBlock) (fm : Nat → Nat → Nat) : List Span :=
  (if cpySpadSrc p then [cpySrcSpan p] else []) ++
  (if cpySpadDst p then cpyDstSpans p fm else []) ++
  (if cpyCens p then [span1 (cpyBar p + 16) 8] else [])

/-! ## MMA (Table 10.5) -/

def mmaOff (w : W64) : Nat := bits w 32 32
def mmaPitch (w : W64) : Nat := bits w 16 16
def mmaLay (w : W64) : Nat := bits w 12 1
def mmaFmt (w : W64) : Nat := bits w 8 4
def mmaOoff (p : PBlock) : Nat := 128 * bits p.w2 48 16
def mmaBiasoff (p : PBlock) : Nat := 16 * bits p.w2 32 16
def mmaCensoff (p : PBlock) : Nat := 8 * bits p.w2 16 16
def mmaOpitch (p : PBlock) : Nat := bits p.w2 0 16
def mmaScale (p : PBlock) : Nat := bits p.w3 52 12
/-- Wait mask: slots 15 to 0. -/
def mmaWait (p : PBlock) : Nat := bits p.w3 36 16
def mmaToff (p : PBlock) : Nat := 16384 * bits p.w3 24 7
def mmaK (p : PBlock) : Nat := 32 * (bits p.w3 17 7 + 1)
def mmaM (p : PBlock) : Nat := if bitOf p.w3 16 then 128 else 64
def mmaN (p : PBlock) : Nat := if bitOf p.w3 15 then 128 else 64
def mmaEbias (p : PBlock) : Bool := bitOf p.w3 14
def mmaEact (p : PBlock) : Bool := bitOf p.w3 13
def mmaEqnt (p : PBlock) : Bool := bitOf p.w3 12
def mmaEout (p : PBlock) : Bool := bitOf p.w3 11
def mmaCens (p : PBlock) : Bool := bitOf p.w3 10
def mmaOfmt (p : PBlock) : Nat := bits p.w3 7 3
def mmaOlay (p : PBlock) : Nat := bits p.w3 6 1
def mmaGiven (p : PBlock) : Bool := bitOf p.w3 5
def mmaCmode (p : PBlock) : Bool := bitOf p.w3 4
def mmaRnd (p : PBlock) : Nat := bits p.w3 1 3
/-- Elements per operand line: 64 BF16, or B blocks of 32. -/
def mmaElems (fmt : Nat) : Nat := if fmt = 0 then 64 else 32 * fmtBlocks fmt
def mmaRowLines (p : PBlock) (w : W64) : Nat := ceilDiv (mmaK p) (mmaElems (mmaFmt w))
def mmaOutLines (p : PBlock) : Nat := if mmaEqnt p then 1 else 4 * mmaN p / 128
def mmaA (p : PBlock) : Span :=
  { off := mmaOff p.w0, pitch := 128 * mmaPitch p.w0, rows := mmaM p, len := 128 * mmaRowLines p p.w0 }
def mmaB (p : PBlock) : Span :=
  { off := mmaOff p.w1, pitch := 128 * mmaPitch p.w1, rows := mmaN p, len := 128 * mmaRowLines p p.w1 }
def mmaBias (p : PBlock) : Span := span1 (mmaBiasoff p) (if mmaEbias p then 4 * mmaN p else 0)
def mmaCensus (p : PBlock) : Span := span1 (mmaCensoff p) (if mmaCens p then 8 else 0)
def mmaOut (p : PBlock) : Span :=
  { off := mmaOoff p, pitch := 128 * mmaOpitch p, rows := if mmaEout p then mmaM p else 0, len := 128 * mmaOutLines p }
def mmaLeases (p : PBlock) : List Span := [mmaA p, mmaB p, mmaBias p, mmaCensus p, mmaOut p]

/-! ## COLL (Table 10.6) -/

def collSoff (p : PBlock) : Nat := bits p.w0 32 32
def collDoff (p : PBlock) : Nat := bits p.w0 0 32
def collLen (p : PBlock) : Nat := bits p.w1 32 32
def collTag (p : PBlock) : Nat := bits p.w1 0 32
def collGroup (p : PBlock) : W64 := p.w2
def collBar (p : PBlock) : Nat := 16 * bits p.w3 48 16
def collRank (p : PBlock) : Nat := bits p.w3 32 16
def collOp (p : PBlock) : Nat := bits p.w3 28 4
def collRop (p : PBlock) : Nat := bits p.w3 26 2
def collWire (p : PBlock) : Nat := bits p.w3 24 2
def collNfmt (p : PBlock) : Nat := bits p.w3 21 3
def collSsp (p : PBlock) : Bool := bitOf p.w3 20
def collDsp (p : PBlock) : Bool := bitOf p.w3 19
def collInsw (p : PBlock) : Bool := bitOf p.w3 18
def collRoot (p : PBlock) : Nat := bits p.w3 8 10
def collYard (p : PBlock) : Bool := bitOf p.w3 7
def collYk (p : PBlock) : Nat := bits p.w3 5 2
/-- Bytes that n elements take in a space: the wire representation in scratchpad, FP32 in the tile store; m and s stand
before v under MERGE (R319). -/
def collBytes (p : PBlock) (tile : Bool) (n : Nat) : Nat :=
  if collOp p = 4 then 8 + 4 * n
  else if tile then 4 * n
  else match collWire p with
    | 0 => 4 * n
    | 1 => 2 * n
    | _ => 128 * ceilDiv (ceilDiv n 32) (fmtBlocks (collNfmt p))
/-- The elements of the result at a rank (R319): the first one and how many. -/
def collResult (p : PBlock) (lens : List Nat) (r : Nat) : Nat × Nat :=
  let lmax := lens.foldl Nat.max 0
  match collOp p with
  | 1 =>
    let lo := r * lmax / lens.length
    (lo, (r + 1) * lmax / lens.length - lo)
  | 2 => (0, lens.foldl (· + ·) 0)
  | 3 => (0, nth lens (collRoot p) 0)
  | _ => (0, lmax)
/-- Leased from formation on; until the declaration every participant's LEN counts as its own (log 14). -/
def Coll.leases (c : Coll) : List Span :=
  if !c.formed || c.status ≠ 0 then []
  else
    (if collSsp c.pb then [] else [span1 (collSoff c.pb) (collBytes c.pb false (collLen c.pb))]) ++
    (if collDsp c.pb then [] else
      let lens := match c.decl with | some d => d.lens | none => List.replicate (Nat.max 1 (c.parts.length + c.yardBlocks.length)) (collLen c.pb)
      [span1 (collDoff c.pb) (collBytes c.pb false (collResult c.pb lens c.rank).2)])

/-! ## Leases (R293, R294) -/

/-- A joint instruction acts, and leases, by the block issued last (R29). -/
def MOp.leases : MOp → List Span
  | .mma parts => (match parts.getLast? with | some p => if p.zero then [] else mmaLeases p.pb | none => [])
  | .mstoreS _ dst len => [span1 dst len]
  | .actld src => [span1 src (17 * 128)]
  | .mzero _ _ | .mload _ _ _ _ | .mstoreV _ _ _ => []
def Xfer.leases (f : Xfer) : List Span :=
  if !f.spad then []
  else if f.gets then [span1 f.dst f.len]
  else if f.read then [] else [span1 f.src f.len]
/-- Every scratchpad range of a block that an engine instruction in progress leases. -/
def State.leases (s : State) (blk : Nat) : List Span :=
  s.cores.flatMap (fun (_, c) =>
    (c.copies.filter (·.block = blk)).flatMap (·.leases)
    ++ (c.mq.filter (·.block = blk)).flatMap (fun x => x.op.leases)
    ++ c.images.flatMap (fun i => (i.mq.filter (·.block = blk)).flatMap (fun x => x.op.leases)))
  ++ (s.net.colls.filter (·.block = blk)).flatMap Coll.leases
  ++ (s.net.xfers.filter (·.block = blk)).flatMap Xfer.leases
def State.leased (s : State) (blk o n : Nat) : Bool := (s.leases blk).any (fun x => x.hits o n)

end Sys2Proof.Machine
end

