-- ==== Sys2Proof/Machine/Access.lean ====
section
/-! DEFINITION. The course of a memory access: addresses and their checks, the team's own queued and buffered bytes, the
sets of a try region, releases and acquires, and what a core's and a die's caches keep (03_memory_hierarchy.md R74 to
R98, 04_ordering_and_visibility.md R104 to R118, 09_ref_memory_sync_try.md R252 to R255, R281, R282). -/

namespace Sys2Proof.Machine

/-! ## Addresses and their checks (R75 to R77, R162, R255) -/

/-- One lane's access: its virtual address, or offset, and its physical address, or scratchpad offset. -/
structure Acc where
  lane : Nat
  va : Nat
  pa : Nat
  deriving DecidableEq, Repr

/-- ACCESS codes of Table 16.3. -/
def accLoad : Nat := 2
def accStore : Nat := 3
def accAtomic : Nat := 4

/-- The halt of a failed check on some lanes, the lowest first. A once-performed form fails for all lanes: under TRY.L it aborts every lane
of the region, those of another path too (R287; a choice of the model, log 71). -/
def Iss.accFault (x : Iss) (acc : Nat) (once replay : Bool) (code detail : Nat) (ls : List (Nat × Nat)) : Halt :=
  let a := match ls with | (_, a) :: _ => a | [] => 0
  dataHalt x.t (acc ≠ accLoad) replay
    (accessFault code acc (if once then allLanes else laneMask (ls.map (·.1))) a detail)
def Iss.failOn (x : Iss) (acc : Nat) (once : Bool) (code : Nat) (bad : List (Nat × Nat)) : Except Halt Unit :=
  if bad = [] then .ok () else .error (x.accFault acc once false code 0 bad)

/-- The translations of some lanes: those that succeed, and those that fault with code and level. A granule that has faulted faults again
without a walk; a walk that has to wait, for its budget or its home, is left out where a fault has been found, which ends the
instruction. -/
def State.transLanes (s : State) (die core c : Nat) (p : Perm) :
    List (Nat × Nat) → List (Nat × Nat × Nat × Nat) → Except Halt (State × List Acc × List (Nat × Nat × Nat × Nat))
  | [], bad => .ok (s, [], bad)
  | (l, va) :: r, bad =>
    match first (fun (b : Nat × Nat × Nat × Nat) => b.2.1 / 65536 = va / 65536) bad with
    | some b => s.transLanes die core c p r (bad ++ [(l, va, b.2.2)])
    | none =>
      match s.translate die core c va p with
      | .wait => if bad = [] then .error (.stall false) else .ok (s, [], bad)
      | .ok pa s =>
        (match s.transLanes die core c p r bad with
        | .ok (s, oks, bad) => .ok (s, { lane := l, va := va, pa := pa } :: oks, bad)
        | .error h => .error (.after [va] h))
      | .fault code lvl => (s.walkAt die core c va).transLanes die core c p r (bad ++ [(l, va, code, lvl)])

/-- Global addresses of the active lanes: format, physical range, alignment, translation (Table 05.10). -/
def Iss.globalAccs (x : Iss) (s : State) (acc : Nat) (once : Bool) (p : Perm) (size : Nat) (ls : List (Nat × Nat)) :
    Except Halt (State × List Acc) := do
  x.failOn acc once 0x0201 (ls.filter (fun a => 2 ^ 57 ≤ a.2))
  let (s, oks, bad) ← s.transLanes x.b.die x.b.core x.c p ls []
  let made := granules (ls.map (·.2))
  walkedBy made (x.failOn acc once 0x0202 ((oks.filter (fun a => !s.paOk a.pa)).map (fun a => (a.lane, a.va))))
  walkedBy made (x.failOn acc once 0x0203 (ls.filter (fun a => a.2 % size ≠ 0)))
  match bad with
  | [] => .ok (s, oks)
  | (_, _, code, lvl) :: _ =>
    .error (.after made (x.accFault acc once true code lvl ((bad.filter (fun b => b.2.2.1 = code)).map (fun b => (b.1, b.2.1)))))
/-- Offsets in a space of n bytes: alignment, then the space's range fault. -/
def Iss.checkOffs (x : Iss) (acc : Nat) (once : Bool) (size n code : Nat) (ls : List (Nat × Nat)) : Except Halt Unit := do
  x.failOn acc once 0x0203 (ls.filter (fun a => a.2 % size ≠ 0))
  x.failOn acc once code (ls.filter (fun a => n < a.2 + size))
/-- Team-private offsets (R80). -/
def Iss.privAccs (x : Iss) (s : State) (acc : Nat) (once : Bool) (p : Perm) (size : Nat) (ls : List (Nat × Nat)) :
    Except Halt (State × List Acc) := do
  x.checkOffs acc once size x.l.privBytes 0x0206 ls
  x.globalAccs s acc once p size (ls.map (fun a => (a.1, s.privVa x.t a.2)))
/-- Scratchpad offsets (R77). -/
def Iss.spadAccs (x : Iss) (acc : Nat) (once : Bool) (size : Nat) (ls : List (Nat × Nat)) : Except Halt (List Acc) := do
  x.checkOffs acc once size x.l.spadBytes 0x0204 ls
  .ok (ls.map (fun a => { lane := a.1, va := a.2, pa := a.2 }))

/-- Is an address in the fabric window? -/
def isFabric (pa : Nat) : Bool :=
  match regionOf pa with
  | .fabric _ _ => true
  | _ => false
def isExpander (pa : Nat) : Bool :=
  match regionOf pa with
  | .expander => true
  | _ => false
/-- R281: a fabric-window access inside a region aborts it. -/
def asyncHalt (x : Iss) : Halt := .abort 5 none x.p.pc 0
def Iss.noFabricInTry (x : Iss) (as : List Acc) : Except Halt Unit :=
  need (x.t.region.isNone || as.all (fun a => !isFabric a.pa)) (asyncHalt x)
/-- R281: instructions that abort an open region with ASYNC when they are performed. -/
def Iss.notInTry (x : Iss) : Except Halt Unit := need x.t.region.isNone (asyncHalt x)

/-- The scope of an access when none is named (R104). -/
def defaultScope (prv : Bool) (as : List Acc) : Scope :=
  if prv then .team else if as.any (fun a => isFabric a.pa) then .fab else .dev

/-! ## The team's own bytes (R86) -/

/-- A piece holds a byte. -/
def Piece.byte (p : Piece) (a : Nat) : Option Byte :=
  if p.addr ≤ a && a < p.addr + 32 && p.mask.getLsbD (a - p.addr) then some (byteOf p.data (a - p.addr)) else none
def pieceByte (ps : List Piece) (a : Nat) : Option Byte :=
  ps.foldl (fun acc p => match p.byte a with | some b => some b | none => acc) none
def QEntry.byte (e : QEntry) (a : Nat) : Option Byte :=
  match e.view.byte a, e.send with
  | some b, _ => some b
  | none, .write w => pieceByte w.pieces a
  | none, _ => none
/-- The latest queued byte of the team at an address. -/
def Team.queueByte (t : Team) (a : Nat) : Option Byte :=
  t.queue.foldl (fun acc e => match e.byte a with | some b => some b | none => acc) none
/-- The latest queued side-band of a line. -/
def Team.queueSb (t : Team) (l : Nat) : Option SideBand :=
  t.queue.foldl (fun acc e => match e.send with
    | .write w => (match look l w.sides with | some v => some v | none => acc)
    | _ => acc) none
/-- The latest STM byte of the team for its own block's scratchpad that has not landed yet. -/
def State.mirrorByte (s : State) (u : Nat) (t : Team) (o : Nat) : Option Byte :=
  let b := s.block t.block
  let flying := s.net.mirrors.foldl (fun acc m =>
    if m.src = u && m.launch = b.launch && m.blockIdx = b.idx && m.off ≤ o && o < m.off + 32
        && m.mask.getLsbD (o - m.off) then some (byteOf m.data (o - m.off)) else acc) none
  t.queue.foldl (fun acc e => match e.send with
    | .mirror _ off mask data =>
      if off ≤ o && o < off + 32 && mask.getLsbD (o - off) then some (byteOf data (o - off)) else acc
    | _ => acc) flying

/-! ### The try buffer (R282) -/

def secAt (k : SecKind) (key : Nat) (l : List BufSec) : Option BufSec := first (fun b => b.kind = k && b.key = key) l
/-- The byte the team sees: that of the highest lane that wrote it. -/
def bufByte (l : List BufSec) (k : SecKind) (key i : Nat) : Option Byte :=
  match secAt k key l with
  | none => none
  | some b => (b.bytes.foldl (fun (acc : Option (Nat × Byte)) x =>
      if x.1 = i then match acc with
        | some y => if x.2.1 < y.1 then acc else some x.2
        | none => some x.2
      else acc) none).map (·.2)
/-- A write of one byte by a lane: it replaces the lane's earlier one; under TRY.T every write is lane 0's. -/
def BufSec.put (b : BufSec) (lane i : Nat) (v : Byte) : BufSec :=
  { b with bytes := b.bytes.filter (fun x => !(x.1 = i && x.2.1 = lane)) ++ [(i, lane, v)] }
def putBuf (l : List BufSec) (k : SecKind) (key lane i : Nat) (v : Byte) : List BufSec :=
  match secAt k key l with
  | some _ => l.map (fun b => if b.kind = k && b.key = key then b.put lane i v else b)
  | none => l ++ [({ kind := k, key := key, bytes := [] } : BufSec).put lane i v]
/-- Bytes a region writes: kind, sector, byte, lane, value; a full buffer aborts. -/
def Try.write (r : Try) (ws : List (SecKind × Nat × Nat × Nat × Byte)) : Option Try :=
  let buf := ws.foldl (fun l (k, key, i, lane, v) => putBuf l k key (if r.lane then lane else 0) i v) r.buf
  if Config.tryEntries < buf.length then none else some { r with buf := buf }
/-- Sectors a region reads: kind, sector, an address to name it by; a full read set aborts. -/
def Try.read (r : Try) (registered : Bool) (ws : List (SecKind × Nat × Nat)) : Option Try :=
  let rs := ws.foldl (fun l (k, key, va) =>
    if l.any (fun (x : ReadSec) => x.kind = k && x.key = key) then l
    else l ++ [{ kind := k, key := key, va := va, registered := registered }]) r.reads
  if Config.tryEntries < rs.length then none else some { r with reads := rs }
def bufFull (x : Iss) : Halt := .abort 2 none x.p.pc 0
def readFull (x : Iss) : Halt := .abort 3 none x.p.pc 0
def orAbort {α : Type} (o : Option α) (h : Halt) : Except Halt α :=
  match o with
  | some a => .ok a
  | none => .error h
/-- A byte of memory as the region's team sees it, none where neither buffer nor queue holds it. -/
def Team.viewByte (t : Team) (a : Nat) : Option Byte :=
  match t.region with
  | some r => (match bufByte r.buf .mem (a / 32) (a % 32) with | some b => some b | none => t.queueByte a)
  | none => t.queueByte a
/-- A byte of the block's scratchpad as the team sees it. -/
def State.spadView (s : State) (u : Nat) (t : Team) (o : Nat) : Byte :=
  let base := (s.mirrorByte u t o).getD ((s.block t.block).byte o)
  match t.region with
  | some r => (bufByte r.buf .spad (o / 32) (o % 32)).getD base
  | none => base
/-- The lanes a once-performed write counts for (log 13). -/
def onceLanes (act : Lanes) : List Nat := lanesOf act

/-! ## What is still on its way -/

/-- A prefetch: it fills caches and nothing waits for it. -/
def MemOp.isPref (o : MemOp) : Bool :=
  match o.kind with
  | .load _ _ _ _ _ [] => o.dst = .none
  | _ => false
/-- The read of a launch record from another package: LNCH itself takes it up (R205). -/
def MemOp.isRecord (o : MemOp) : Bool := o.reason = some .launch
/-- A load or an atomic that has not returned to its team. -/
def MemOp.isAccess (o : MemOp) : Bool :=
  match o.kind with
  | .load .. | .line .. | .atomic .. => !o.isPref && !o.isRecord
  | _ => false
def State.accessPending (s : State) (u : Nat) : Bool := s.net.ops.any (fun o => o.team = u && o.isAccess)
/-- An acquire whose value has not returned: it holds every later access (R116). -/
def State.acquirePending (s : State) (u : Nat) : Bool := s.net.ops.any (fun o => o.team = u && o.acq.isSome)
/-- No later access starts before an acquire has returned. -/
def Iss.mayAccess (x : Iss) (s : State) : Except Halt Unit := need (!s.acquirePending x.u) (.stall false)
/-- A fabric-window write of the team that has not completed at its destination (R115), data of a PUTS that have not left yet among them
(R323). -/
def State.fabricWrites (s : State) (u : Nat) : Bool :=
  s.net.xfers.any (fun f => !f.gets && f.team = u && !f.read)
    || s.net.out.any (fun o => o.team = some u && (match o.kind with | .write _ _ | .puts _ _ _ => true | _ => false))
    || s.net.writes.any (fun w => w.team = some u && w.stream.isSome)
/-- A PUTS of the team before number id still has data to send: what follows it in its stream waits (R121, R329). -/
def State.putsAhead (s : State) (u id : Nat) : Bool := s.net.xfers.any (fun f => !f.gets && f.team = u && f.id < id && !f.read)
/-- Writes of the team that have left and are not applied at their homes. -/
def State.writesPending (s : State) (u : Nat) : Bool := s.net.writes.any (fun w => w.team = some u)

/-! ## Releases and acquires (R115, R116) -/

/-- The oldest entry's charge exceeds what is left of the budget (R94). -/
def Iss.budgetSpent (x : Iss) (s : State) : Bool :=
  match x.t.queue with
  | [] => false
  | e :: _ => (s.budget x.b.die x.c).chute < e.charge
/-- The wait of a release or of a store whose entries cannot leave. -/
def Iss.queueHalt (x : Iss) (s : State) : Halt :=
  if x.budgetSpent s then .wait (.on .storeBudget 0) else .stall true
/-- R115: a release at a scope; what it waits for, and the clock's increment. -/
def Iss.release (x : Iss) (s : State) (scope : Scope) : Except Halt State := do
  need (!s.accessPending x.u) (.stall true)
  if 2 ≤ scope.rank then need (x.t.queue = []) (x.queueHalt s) else .ok ()
  if scope = .fab then need (!s.fabricWrites x.u) (.stall true) else .ok ()
  .ok (s.releaseAt x.b.die scope)

/-! ## Caches (R84, R85, R105) -/

/-- Sector bits of a line that n bytes at a touch. -/
def secMask (a n line : Nat) : BitVec 4 :=
  BitVec.ofNat 4 ((sectorsOf a n).foldl (fun m k => if k / 4 = line && m / 2 ^ (k % 4) % 2 = 0 then m + 2 ^ (k % 4) else m) 0)
def L1Line.without (x : L1Line) (m : BitVec 4) : L1Line := { x with held := x.held &&& ~~~ m }
/-- Sectors leave a core's L1. -/
def Core.dropL1 (c : Core) (line : Nat) (m : BitVec 4) : Core :=
  { c with l1 := (c.l1.map (fun x => if x.line = line then x.without m else x)).filter (fun x => x.held ≠ 0) }
def Core.l1Get (c : Core) (line : Nat) (cst : Bool) (need : BitVec 4) : Option L1Line :=
  first (fun x => x.line = line && x.cst = cst && x.held &&& need = need) c.l1
/-- A line of the remote-data cache that has not expired (R113). -/
def Die.rdcGet (d : Die) (line : Nat) (need : BitVec 4) : Option RdcLine :=
  first (fun x => x.line = line && x.held &&& need = need && d.period < x.filled + Config.rdcPeriods) d.rdc
/-- A line replaced sector by sector. -/
def mergeSectors (m : BitVec 4) (new old : Line) : Line :=
  mergeLanes (laneMask ((upTo 32).filter (fun l => m.getLsbD (l / 8)))) new old
/-- Bytes of a piece put into a line. -/
def patchLine (line : Nat) (p : Piece) (x : Line) : Line :=
  if p.addr / 128 ≠ line then x
  else (upTo 32).foldl (fun x i =>
    if p.mask.getLsbD i then setField x (8 * (p.addr % 128 + i)) 8 (byteOf p.data i).toNat else x) x
/-- In-flight reads of a line by a core will not fill its L1, by a die not its remote-data cache. -/
def LinePart.bar (p : LinePart) (line : Nat) (l1 rdc : Bool) : LinePart :=
  if p.line = line then { p with noL1 := p.noL1 || l1, noRdc := p.noRdc || rdc } else p
def MemOp.bar (o : MemOp) (line : Nat) (l1 rdc : Bool) : MemOp :=
  match o.kind with
  | .load n e c t ps ls => { o with kind := .load n e c t (ps.map (fun p => p.bar line l1 rdc)) ls }
  | .line t f sb p => { o with kind := .line t f sb (p.bar line l1 rdc) }
  | _ => o
/-- R85: a store that enters a core's queue, or a write by the core, takes its sectors out of the core's L1. -/
def State.storeL1 (s : State) (die core line : Nat) (m : BitVec 4) : State :=
  let s := s.modCore die core (fun c => c.dropL1 line m)
  { s with net := { s.net with ops := s.net.ops.map (fun o =>
      if o.die = die && o.core = core then o.bar line true false else o) } }
/-- The stamps of a piece's bytes once it is written (R108). -/
def notePiece (l : List StampRec) (p : Piece) (stamp : Clock) : List StampRec :=
  if p.mask = BitVec.allOnes 32 then noteStamp l p.addr 32 stamp
  else (upTo 32).foldl (fun l i => if p.mask.getLsbD i then noteStamp l (p.addr + i) 1 stamp else l) l
/-- A cached line of the die that a write updates in place: the held sectors, their stamps, the writer's tag (R84, R422). -/
def RdcLine.wrote (l : RdcLine) (stamp : Clock) (owner : Nat) (p : Piece) : RdcLine :=
  if l.line = p.addr / 128 && l.held.getLsbD (p.addr / 32 % 4) then
    { l with data := patchLine l.line p l.data, vals := notePiece l.vals p stamp, owner := owner }
  else l
/-- R84: a write of die d that leaves for a line its remote-data cache holds updates the held sectors in place. -/
def State.storeRdc (s : State) (d : Nat) (stamp : Clock) (owner : Nat) (p : Piece) : State :=
  let s := s.modDie d (fun x => { x with rdc := x.rdc.map (fun l => l.wrote stamp owner p) })
  { s with net := { s.net with ops := s.net.ops.map (fun o => if o.die = d then o.bar (p.addr / 128) false true else o) } }
/-- The lines that the die's own cache holds are updated as a write leaves: data, and the side-band of a line written whole. -/
def State.leaveRdc (s : State) (d : Nat) (stamp : Clock) (owner : Nat) (w : WBody) : State :=
  let s := w.pieces.foldl (fun (s : State) (p : Piece) => s.storeRdc d stamp owner p) s
  w.sides.foldl (fun (s : State) (y : Nat × SideBand) =>
    s.modDie d (fun x => { x with rdc := x.rdc.map (fun l => if l.line = y.1 then { l with sb := y.2, owner := owner } else l) })) s
/-- Does a piece touch a line? -/
def bodyTouches (w : WBody) (line : Nat) : Bool :=
  w.pieces.any (fun p => p.addr / 128 = line) || w.sides.any (fun x => x.1 = line)
/-- An atomic of the operation to a line that its home has not applied. -/
def MemOp.atomOnWay (o : MemOp) (line : Nat) : Bool :=
  o.kind.atomParts.any (fun p => p.addr / 128 = line && p.got.isNone && p.pkg.isNone)
/-- A core has a store or an atomic to a line on its way: a read of it now does not fill the L1 (R85, R106). -/
def State.coreStores (s : State) (die core line : Nat) : Bool :=
  s.teams.any (fun (u, t) => t.resident s die core &&
    (t.queue.any (fun e => e.view.addr / 128 = line && e.view.mask ≠ 0 || (match e.send with
      | .write w => bodyTouches w line
      | _ => false))
     || s.net.writes.any (fun w => w.team = some u && bodyTouches w.body line)))
    || s.net.ops.any (fun o => o.die = die && o.core = core && o.atomOnWay line)
/-- A die has a write or an atomic to a line on its way. -/
def State.dieStores (s : State) (die line : Nat) : Bool :=
  s.net.writes.any (fun w => w.src = die && bodyTouches w.body line) || s.net.ops.any (fun o => o.die = die && o.atomOnWay line)

/-! ## Requests for lines (R97, R111) -/

/-- The bit of an address's sector in its line. -/
def secBit (a : Nat) : BitVec 4 := 1#4 <<< (a / 32 % 4)
/-- Where an atomic is applied. -/
def AtomPart.at_ (p : AtomPart) : Nat := p.dest.getD p.addr
/-- An access of the operation to some sectors of a line that has not been served, by the addresses its team used, through the window of
the package itself too (R76). A later atomic to the sectors of a parked one parks behind it (R264): with past, those do not count. -/
def MemOp.unservedOwn (o : MemOp) (line : Nat) (m : BitVec 4) (past : Bool) : Bool :=
  o.kind.lineParts.any (fun p => p.line = line && p.need &&& m ≠ 0 && p.got.isNone)
    || o.kind.atomParts.any (fun p => p.addr / 128 = line && secBit p.addr &&& m ≠ 0 && p.got.isNone && !(past && p.parked))
/-- The same at a home of this package, by the addresses there. -/
def MemOp.unserved (o : MemOp) (line : Nat) (m : BitVec 4) (past : Bool) : Bool :=
  o.kind.lineParts.any (fun p => p.line = line && p.need &&& m ≠ 0 && p.got.isNone && p.pkg.isNone)
    || o.kind.atomParts.any (fun p => p.at_ / 128 = line && secBit p.at_ &&& m ≠ 0 && p.got.isNone && (p.pkg.isNone || p.dest.isSome)
      && !(past && p.parked))
/-- The team has an access to a line on its way: no cache may serve it a later load of the line (R86, R106, Table 04.3). -/
def State.accessOnWay (s : State) (u line : Nat) : Bool :=
  s.net.ops.any (fun o => o.team = u && !o.isPref
    && (o.kind.lineParts.any (fun p => p.line = line) || o.kind.atomParts.any (fun p => p.addr / 128 = line)))


/-- Poison of a line's sectors as one number: the code and 2^16 × the mask of poisoned sectors; 0 when there is none. -/
def Mem.linePoison (m : Mem) (line : Nat) (need : BitVec 4) : Nat :=
  let bad := (upTo 4).filter (fun k => need.getLsbD k && (look (4 * line + k) m.poison).isSome)
  match bad with
  | [] => 0
  | k :: _ => (look (4 * line + k) m.poison).getD 0 + 65536 * bad.foldl (fun a i => a + 2 ^ i) 0

/-- A request for a line at issue: served at once by the L1 or the remote-data cache where they may serve it. -/
def State.linePart (s : State) (die core line : Nat) (need : BitVec 4) (cst useL1 useRdc : Bool) : LinePart :=
  let pa := 128 * line
  let home := s.homeOf pa
  let pkg := match regionOf pa with | .fabric k _ => some k | _ => none
  let d := s.die die
  let c := s.coreAt die core
  let l1 := if useL1 && pkg.isNone then c.l1Get line cst need else none
  let rdc := if useRdc && pkg.isNone && home ≠ die then d.rdcGet line need else none
  let got := match l1, rdc with
    | some x, _ => some (x.data, x.sb, 0, Clock.zero, [])
    | none, some x => some (x.data, x.sb, 0, x.stamp, x.vals)
    | none, none => none
  { line := line, need := need, home := if pkg.isSome then 8 else home, pkg := pkg, clock := d.clock, got := got,
    noRdc := got.isSome || !useRdc || pkg.isSome || home = die || s.dieStores die line
    noL1 := l1.isSome || !useL1 || pkg.isSome || s.coreStores die core line, epoch := c.epoch }

/-- The lines that n bytes at each address touch, ascending, with the sectors needed. -/
def linesOf (n : Nat) (as : List Nat) : List (Nat × BitVec 4) :=
  (sortNat (as.flatMap (fun a => if n = 0 then [] else from_ (a / 128) ((a + n - 1) / 128 - a / 128 + 1)))).map
    (fun l => (l, as.foldl (fun m a => m ||| secMask a n l) 0))
/-- A strong load takes the sectors it reads out of its core's L1 (R105). -/
def State.dropLines (s : State) (die core : Nat) (ls : List (Nat × BitVec 4)) : State :=
  ls.foldl (fun s (l, m) => s.modCore die core (fun c => c.dropL1 l m)) s
/-- The wait reason a result's reader takes (R98). -/
def reasonOf (as : List Nat) : Option Reason :=
  if as.any isFabric then some .remoteLoad else if as.any isExpander then some .expander else none

/-! ## Addresses from registers (Table 09.4) -/

def addrUses (scl prv : Bool) (a : Sel) : List SrcUse :=
  if scl then [src .s a] else if prv then [src .v a] else [srcN .v 2 a]
/-- The second register of a pair. -/
def nextSel (a : Sel) (n : Nat) : Sel :=
  match a with
  | .reg i l => .reg (i + BitVec.ofNat 8 n) l
  | .latch k => .latch k
/-- Addresses or offsets of the active lanes; a scalar form is one access of lane 0. -/
def Iss.addresses (x : Iss) (act : Lanes) (scl prv : Bool) (a : Sel) : Except Halt (List (Nat × Nat)) :=
  if scl then do
    let v ← x.scal (act ≠ 0) a
    .ok (if act = 0 then [] else [(0, v.toNat)])
  else if prv then do
    let v ← x.vec act a
    .ok ((lanesOf act).map (fun l => (l, (laneOf v.data l).toNat)))
  else do
    let lo ← x.vec act a
    let hi ← x.vec act (nextSel a 1)
    .ok ((lanesOf act).map (fun l => (l, (laneOf hi.data l).toNat * 2 ^ 32 + (laneOf lo.data l).toNat)))
/-- Data of each access as n bytes: a vector group of registers, or a scalar. -/
def dataUses (scl : Bool) (n : Nat) (b : Sel) : List SrcUse := if scl then [src .s b] else [srcN .v n b]
def Iss.dataBytes (x : Iss) (act : Lanes) (scl : Bool) (size : Nat) (b : Sel) : Except Halt (List (Nat × List Byte)) :=
  if scl then do
    let v ← x.scal (act ≠ 0) b
    .ok [(0, toBytes size v)]
  else do
    let v0 ← x.vec act b
    let v1 ← if 4 < size then x.vec act (nextSel b 1) else .ok v0
    let v2 ← if 8 < size then x.vec act (nextSel b 2) else .ok v0
    let v3 ← if 8 < size then x.vec act (nextSel b 3) else .ok v0
    .ok ((lanesOf act).map (fun l =>
      (l, ([v0, v1, v2, v3].flatMap (fun v => toBytes 4 (laneOf v.data l))).take size)))

/-- Lines of this die's remote-data cache are evicted, and reads of them in flight will not fill it: the team is about to see a
value at the home, and no later load may return an older one (R106; log 15). -/
def State.dropRdc (s : State) (die line : Nat) : State :=
  let s := s.modDie die (fun d => { d with rdc := d.rdc.filter (fun x => x.line ≠ line) })
  { s with net := { s.net with ops := s.net.ops.map (fun o => if o.die = die then o.bar line false true else o) } }
/-- An access served at its home, a region's load or an atomic: what the caches hold of its lines is evicted (log 15). -/
def State.dropHome (s : State) (die core : Nat) (ls : List (Nat × BitVec 4)) : State :=
  ls.foldl (fun s (l, m) => (s.storeL1 die core l m).dropRdc die l) s
/-- No strong load or atomic of the team to a home on its own die is still unserved (Table 04.3). -/
def MemOp.ownUnserved (o : MemOp) (die : Nat) : Bool :=
  o.strong && (match o.kind with
    | .load _ _ _ _ ps _ => ps.any (fun p => p.home = die && p.got.isNone)
    | .line _ _ _ p => p.home = die && p.got.isNone
    | .atomic _ _ ps => ps.any (fun p => p.home = die && p.got.isNone)
    | _ => false)
/-- The team has one. An atomic that is parked counts: R130 lets later writes to other sectors go while Table 04.3 keeps strong own-die
accesses in order, and the model keeps the order of the table, a choice of the model (log 89). -/
def State.ownStrong (s : State) (u die : Nat) : Bool := s.net.ops.any (fun o => o.team = u && o.ownUnserved die)
/-- A write body holds bytes of n bytes at an address. -/
def bodyHits (w : WBody) (a n : Nat) : Bool := w.pieces.any (fun p => a < p.addr + 32 && p.addr < a + n)
/-- The home has applied what a clock covers, and no earlier write of the die to the bytes is on its way (R106, R111). -/
def State.homeServes (s : State) (die : Nat) (c : Clock) (upto a n : Nat) : Bool :=
  leClk c (s.die (s.homeOf a)).applied
    && !s.net.writes.any (fun w => w.src = die && w.id < upto && bodyHits w.body a n)
/-- R294: a team store into a leased scratchpad range. -/
def Iss.notLeased (x : Iss) (s : State) (acc n : Nat) (once : Bool) (ls : List (Nat × Nat)) : Except Halt Unit :=
  match ls.filter (fun a => s.leased x.t.block a.2 n) with
  | [] => .ok ()
  | bad => .error (.fault (accessFault 0x0303 acc (if once then allLanes else laneMask (bad.map (·.1)))
      ((bad.map (·.2)).headD 0) 0))
/-- R284: a sector that a begun commit of another team holds. -/
def Team.locks (t : Team) (k : SecKind) (key : Nat) : Bool :=
  match t.region with
  | some r => r.begun.isSome
      && (r.reads.any (fun x => x.kind = k && x.key = key) || r.buf.any (fun x => x.kind = k && x.key = key))
  | none => false
def State.memLocked (s : State) (sec : Nat) (by_ : Option Nat) : Bool :=
  s.teams.any (fun (u, t) => some u ≠ by_ && (t.locks .mem sec || t.locks .memSide (sec / 4)))
def State.spadLocked (s : State) (blk o n : Nat) (by_ : Option Nat) : Bool :=
  s.teams.any (fun (u, t) => some u ≠ by_ && t.block = blk
    && (sectorsOf o n).any (fun k => t.locks .spad k || t.locks .spadSide (k / 4)))
/-- A scratchpad write waits while a begun commit holds its sector. -/
def Iss.notLocked (x : Iss) (s : State) (n : Nat) (ls : List (Nat × Nat)) : Except Halt Unit :=
  need (ls.all (fun a => !s.spadLocked x.t.block a.2 n (some x.u))) (.stall false)
/-- R94, Table 03.7: n entries enter the queue together, or the team waits, blocks or takes the exception. -/
def Iss.room (x : Iss) (s : State) (n : Nat) : Except Halt Unit :=
  if x.t.queue.length + n ≤ Config.storeQueue then .ok ()
  else if !x.budgetSpent s then .error (.stall false)
  else if (s.ctxAt x.c).sbmode && x.t.handler.isNone then .error (.handler 0x03 0 x.p.pc)
  else .error (.wait (.on .storeBudget 0))
/-- The bytes of one sector that some lanes write: the highest lane's byte is the last (R258). -/
def sectorPiece (sec : Nat) (ws : List (Nat × List Byte)) : Piece :=
  let at_ := fun i => ws.foldl (fun (acc : Option Byte) (pa, bs) =>
    if pa ≤ 32 * sec + i && 32 * sec + i < pa + bs.length then some (nth bs (32 * sec + i - pa) 0) else acc) none
  { addr := 32 * sec
    mask := BitVec.ofNat 32 ((upTo 32).foldr (fun i acc => 2 * acc + b1 (at_ i).isSome) 0)
    data := BitVec.ofNat 256 (ofBytes ((upTo 32).map (fun i => (at_ i).getD 0))) }
/-- One piece for each distinct sector written. -/
def sectorPieces (ws : List (Nat × List Byte)) : List Piece :=
  (sortNat (ws.flatMap (fun (pa, bs) => sectorsOf pa bs.length))).map (fun sec => sectorPiece sec ws)

/-- Sectors that some accesses of one instruction write whole: they lose their poison (R424). -/
def coveredSectors (ws : List (Nat × List Byte)) : List Nat :=
  ((sectorPieces ws).filter (fun p => p.mask = BitVec.allOnes 32)).map (fun p => p.addr / 32)
def Block.unpoison (b : Block) (secs : List Nat) : Block :=
  { b with spadPoison := b.spadPoison.filter (fun y => !secs.contains y.1) }

/-- Bytes per lane of a width (Table 09.2). -/
def ldBytes : LdW → Nat
  | .u8 | .s8 => 1 | .u16 | .s16 => 2 | .b32 => 4 | .b64 => 8 | .b128 => 16
def ldExt : LdW → LoadExt
  | .s8 | .s16 => .sign
  | _ => .zero
def stBytes : StW → Nat
  | .b8 => 1 | .b16 => 2 | .b32 => 4 | .b64 => 8 | .b128 => 16
/-- Registers of a vector group of n bytes a lane. -/
def groupOf (n : Nat) : Nat := if n = 16 then 4 else if n = 8 then 2 else 1
/-- The value of loaded bytes in w bits. -/
def extend (ext : LoadExt) (bs : List Byte) (w : Nat) : BitVec w :=
  match ext with
  | .zero => BitVec.ofNat w (ofBytes bs)
  | .sign =>
    let n := 8 * bs.length
    let v := ofBytes bs
    BitVec.ofInt w (if 2 ^ (n - 1) ≤ v then (v : Int) - 2 ^ n else v)

end Sys2Proof.Machine
end

