-- ==== Sys2Proof/Machine/Control.lean ====
section
/-! DEFINITION. Control, special registers and traps (07_ref_integer_control_system.md R198 to R204, R207 to R215; yards of
01_teams_blocks_yards.md R22 to R26). LNCH stands in Launch.lean, EXIT in Coll.lean. -/

namespace Sys2Proof.Machine

/-! ## Targets -/

/-- A displacement in words from the branch itself (R198). -/
def Iss.target {n : Nat} (x : Iss) (disp : BitVec n) : W64 := x.p.pc + sext64 disp * 8#64
/-- The instruction-address fault at a branch. -/
def addrFault (a : W64) : Halt := .fault { plainFault 0x0207 0 with addr := a.toNat }
/-- A target reached by displacement. -/
def needAddr (a : W64) : Except Halt Unit := need (addrOk57 a) (addrFault a)
/-- A register target. -/
def needTarget (a : W64) : Except Halt Unit := need (targetOk a) (addrFault a)
/-- The path continues at an address. -/
def Team.jump (t : Team) (off : Bool) (pc : W64) : Team :=
  let sd := t.side off
  t.setSide off { sd with path := sd.path.map (fun p => { p with pc := pc }) }

/-- Table 07.9: is the branch performed? -/
def Iss.branch (x : Iss) (g : Guard) (m : BrMode) : Except Halt Bool :=
  let gl := x.act g
  match m with
  | .any => .ok (gl ≠ 0)
  | .all => .ok (gl = x.p.mask)
  | .uniform =>
    if gl = x.p.mask then .ok true
    else if gl = 0 then .ok false
    else .error (.fault (illegalOperand 0x06 0))

/-! ## Branches -/

def execNop (_g : Guard) (s : State) : Host.Outcome State Fault Refusal :=
  s.issue (fun x => .ok (s.setTeam x.u (x.t.advance x.off 1)))
def execBra (g : Guard) (disp : BitVec 30) (m : BrMode) (s : State) : Host.Outcome State Fault Refusal :=
  s.issue (fun x => do
    let perf ← x.branch g m
    if perf then
      needAddr (x.target disp)
      .ok (s.setTeam x.u (x.t.jump x.off (x.target disp)))
    else .ok (s.setTeam x.u (x.t.advance x.off 1)))

/-- R10: the two new paths of a divergence, with copies of the latches; the other side's path has gone to the loft. -/
def Team.diverge (t : Team) (off : Bool) (pc0 target rpc : W64) (F T : Lanes) : Team :=
  let ls := (t.side off).latches
  let sd := fun (pc : W64) (m : Lanes) =>
    ({ path := some { pc := pc, mask := m, rpc := rpc }, latches := ls, wait := .none, lnch := none } : Side)
  { t with near := sd pc0 F, off := sd target T }
/-- The entries a divergence pushes, in order (R10). -/
def Iss.pushes (x : Iss) (rpc : W64) : List LoftEnt :=
  (match (x.t.side (!x.off)).path with
   | some a => [{ kind := .path, mask := a.mask, rpc := a.rpc, pc := a.pc, ok := true }]
   | none => []) ++ [{ kind := .join, mask := x.p.mask, rpc := x.p.rpc, pc := rpc, ok := true }]
def State.pushAll (s : State) (u : Nat) : List LoftEnt → Except Halt State
  | [] => .ok s
  | e :: r => do
    let s ← s.loftPush u e
    s.pushAll u r
/-- R11: the pushes must fit. -/
def Iss.checkLoft (x : Iss) (n : Nat) : Except Halt Unit :=
  need (x.t.loftDepth + n ≤ 64) (.fault (plainFault 0x0305 x.t.loftDepth))

/-- BRC (R10, R198). The loft's overflow is tested before the target's address: R162 does not order the two, a choice of the model
(log 85). -/
def execBrc (g : Guard) (disp : BitVec 20) (rdisp : BitVec 18) (s : State) : Host.Outcome State Fault Refusal :=
  s.issue (fun x => do
    let T := x.act g
    let F := x.p.mask &&& ~~~ T
    let target := x.target disp
    let rpc := x.target rdisp
    if T = 0 then .ok (s.setTeam x.u (x.t.advance x.off 1))
    else if F = 0 then
      needAddr target
      .ok (s.setTeam x.u (x.t.jump x.off target))
    else
      need x.t.handler.isNone (.fault (illegalOperand 0x0B 0))
      x.checkLoft (x.pushes rpc).length
      needAddr target
      needAddr rpc
      let s ← s.pushAll x.u (x.pushes rpc)
      .ok (s.modTeam x.u (fun t => t.diverge x.off (x.p.pc + 8) target rpc F T)))
/-- A branch to a register target; RET is one too (R201). -/
def Iss.branchReg (x : Iss) (s : State) (g : Guard) (a : Sel) (m : BrMode) : Except Halt State := do
  let perf ← x.branch g m
  let t ← x.enter s 0 [src .s a] [] false
  if perf then
    let v ← x.scal true a
    needTarget v
    .ok (s.setTeam x.u ((t.useSrcs [src .s a]).jump x.off v))
  else .ok (s.setTeam x.u ((t.useSrcs [src .s a]).advance x.off 1))
def execBrx (g : Guard) (a : Sel) (m : BrMode) (s : State) : Host.Outcome State Fault Refusal :=
  s.issue (fun x => x.branchReg s g a m)
def execRet (g : Guard) (a : Sel) (s : State) : Host.Outcome State Fault Refusal :=
  s.issue (fun x => x.branchReg s g a .uniform)

/-- A branch that writes a scalar: the value enters h0, the path goes to the target; not performed, the prior value of the
destination enters (R199). -/
def Iss.branchLink (x : Iss) (s : State) (t : Team) (perf : Bool) (srcs : List SrcUse) (d : BitVec 8) (v target : W64) :
    Except Halt State :=
  let t := t.finish x.off srcs [.scal d.toNat false perf v none] 0 0
  .ok (s.setTeam x.u (t.jump x.off (if perf then target else x.p.pc + 8)))
def linkDst (perf : Bool) (d : BitVec 8) : List DstUse := if perf then [{ k := .s, idx := d.toNat, n := 1 }] else []
def execCall (g : Guard) (d : BitVec 8) (disp : BitVec 30) (s : State) : Host.Outcome State Fault Refusal :=
  s.issue (fun x => do
    let perf ← x.branch g .uniform
    let t ← x.enter s (if perf then x.p.mask else 0) [] (linkDst perf d) false
    if perf then needAddr (x.target disp) else .ok ()
    x.branchLink s t perf [] d (x.p.pc + 8) (x.target disp))
def execCallx (g : Guard) (d : BitVec 8) (a : Sel) (s : State) : Host.Outcome State Fault Refusal :=
  s.issue (fun x => do
    let perf ← x.branch g .uniform
    let t ← x.enter s (if perf then x.p.mask else 0) [src .s a] (linkDst perf d) false
    let v ← x.scal perf a
    if perf then needTarget v else .ok ()
    x.branchLink s t perf [src .s a] d (x.p.pc + 8) v)
/-- R202. -/
def execLoop (g : Guard) (d : BitVec 8) (disp : BitVec 30) (s : State) : Host.Outcome State Fault Refusal :=
  s.issue (fun x => do
    let perf ← x.branch g .uniform
    let srcs := [src .s (.reg d false)]
    let t ← x.enter s (if perf then x.p.mask else 0) srcs (linkDst perf d) false
    let v ← x.scal perf (.reg d false)
    let n := v - 1
    if perf && n ≠ 0 then needAddr (x.target disp) else .ok ()
    x.branchLink s t perf srcs d n (if n = 0 then x.p.pc + 8 else x.target disp))
/-- R12, R203. -/
def execReconv (_g : Guard) (s : State) : Host.Outcome State Fault Refusal :=
  s.issue (fun x =>
    if x.p.rpc = x.p.pc then s.endPath x.u x.off
    else .ok (s.setTeam x.u (x.t.advance x.off 1)))
/-- R204: a switch point; with yield-due set the side waits here. -/
def execYield (_g : Guard) (s : State) : Host.Outcome State Fault Refusal :=
  s.issue (fun x =>
    if x.t.yieldDue then .error (.wait .atYield)
    else .ok (s.setTeam x.u ((x.t.setSide x.off (x.t.side x.off).clear).advance x.off 1)))

/-! ## Yards (Table 01.6, R23, R26) -/

def yardFirst (e : BitVec 128) : Nat := bits e 0 32
def yardNblk (e : BitVec 128) : Nat := bits e 32 32
def yardBarOff (e : BitVec 128) : Nat := 16 * bits e 64 16
def yardStride (e : BitVec 128) : Nat := bits e 80 16
def yardMask (e : BitVec 128) : Lanes := e.extractLsb' 96 32
/-- Is block b a member block? -/
def yardHasBlock (e : BitVec 128) (b : Nat) : Bool :=
  yardNblk e ≠ 0 && yardStride e ≠ 0 && yardFirst e ≤ b && (b - yardFirst e) % yardStride e = 0
    && (b - yardFirst e) / yardStride e < yardNblk e
/-- R23. -/
def yardHas (e : BitVec 128) (b t : Nat) : Bool := yardHasBlock e b && (yardMask e).getLsbD t
def yardSize (e : BitVec 128) : Nat := yardNblk e * popCount (yardMask e)
/-- Position of team t of block b among the members. -/
def yardRank (e : BitVec 128) (b t : Nat) : Nat :=
  (b - yardFirst e) / yardStride e * popCount (yardMask e) + ((upTo t).filter (fun i => (yardMask e).getLsbD i)).length
/-- The yards of a team, ascending. -/
def Launch.yardsOf (l : Launch) (b t : Nat) : List (Nat × BitVec 128) := l.yards.filter (fun (_, e) => yardHas e b t)
/-- The yard of slot k of a team: index and entry. -/
def Iss.yard (x : Iss) (k : Nat) : Option (Nat × BitVec 128) := ((x.l.yardsOf x.b.idx x.t.idx).drop k).head?
def yardWord (b t : Nat) : Option (Nat × BitVec 128) → W64
  | some (i, e) => w64 (yardSize e * 2 ^ 32 + yardRank e b t * 2 ^ 16 + 256 + i)
  | none => 0

/-! ## Special registers (Table 07.11) -/

/-- The mask of a side, zero when it is empty (R14). -/
def Side.mask (sd : Side) : Lanes := match sd.path with | some p => p.mask | none => 0
/-- CYCLE: the die's count in whole budget periods with a free position in the period, never decreasing (R208; log 2). -/
def State.cycleNow (s : State) (die : Nat) : W64 :=
  let v := w64 ((s.die die).period * Config.periodCycles) ||| (Config.cycleLow die s.run.free).setWidth 64
  if v.toNat < (s.die die).cyc.toNat then (s.die die).cyc else v
/-- The value a scalar special register reads. -/
def Iss.special_ (x : Iss) (s : State) (r : SpecReg) : W64 :=
  match r with
  | .laneid => 0
  | .teamid => w64 x.t.idx
  | .blockid => w64 x.b.idx
  | .yard k => yardWord x.b.idx x.t.idx (x.yard k.toNat)
  | .nearmask => x.t.near.mask.setWidth 64
  | .offmask => x.t.off.mask.setWidth 64
  | .flags => x.t.flags.setWidth 64
  | .flagen => x.t.flagen.setWidth 64
  | .seed => (s.ctxAt x.c).seed
  | .trystat => nth x.t.trystat 0 0
  | .stqocc => w64 x.t.queue.length
  | .sbleft => w64 (s.budget x.b.die x.c).chute
  | .sbmode => w64 (b1 (s.ctxAt x.c).sbmode)
  | .cycle => s.cycleNow x.b.die
  | .faultrec k => nth x.t.frec k.toNat 0
/-- A read of CYCLE moves its free position and the count never to be undercut. -/
def State.readCycle (s : State) (r : SpecReg) (die : Nat) : State :=
  match r with
  | .cycle => (s.modDie die (fun d => { d with cyc := s.cycleNow die })).useFree
  | _ => s

def execMfs (g : Guard) (d : Dst) (r : SpecReg) (s : State) : Host.Outcome State Fault Refusal :=
  s.issue (fun x => do
    let act := x.act g
    match r with
    | .laneid =>
      let t ← x.enter s act [] (dstUses .v d) false
      let y := lineOf (fun l => w32 (if x.l.compat16 then l % 16 else l))
      .ok (s.setTeam x.u (t.finish x.off [] [.vec d.idx.toNat d.ws act y none []] 0 1))
    | .faultrec _ =>
      let dst : LDst := if act = 0 then .none else .scal d.idx.toNat
      let t ← x.enter s act [] dst.uses false
      let s' := s.setTeam x.u (t.finishLong x.off [] dst 0 1)
      .ok (if act = 0 then s' else s'.addOp (x.memOp s (.value [] (x.special_ s r)) dst act))
    | _ =>
      let t ← x.enter s act [] (dstUses .s d) false
      let s' := s.setTeam x.u (t.finish x.off [] [.scal d.idx.toNat d.ws (act ≠ 0) (x.special_ s r) none] 0 1)
      .ok (if act = 0 then s' else s'.readCycle r x.b.die))
/-- Only FLAGS and FLAGEN accept an MTS (R207). A poisoned source faults before the register that accepts none does: R162 does not order the
two, a choice of the model (log 85). -/
def execMts (g : Guard) (r : SpecReg) (a : Sel) (s : State) : Host.Outcome State Fault Refusal :=
  s.issue (fun x => do
    let act := x.act g
    let t ← x.enter s act [src .s a] [] false
    if act = 0 then .ok (s.setTeam x.u (t.finish x.off [src .s a] [] 0 1))
    else
      let v ← x.scal true a
      let t := t.finish x.off [src .s a] [] 0 1
      match r with
      | .flags => .ok (s.setTeam x.u { t with flags := v.setWidth 6 })
      | .flagen => .ok (s.setTeam x.u { t with flagen := v.setWidth 6 })
      | _ => .error (.fault (illegalOperand 0x04 0)))

/-! ## Traps (Table 07.15) -/

/-- R209, R215. -/
def execTrap (g : Guard) (code : BitVec 8) (s : State) : Host.Outcome State Fault Refusal :=
  s.issue (fun x => do
    if x.act g = 0 then .ok (s.setTeam x.u (x.t.advance x.off 1))
    else
      need x.t.region.isNone (.fault (illegalOperand 0x0A 0))
      need x.t.handler.isNone (.fault (illegalOperand 0x0B 0))
      .error (.handler 0x01 code.toNat (x.p.pc + 8)))
/-- R212: a switch point whether or not it is performed. -/
def execTfence (g : Guard) (s : State) : Host.Outcome State Fault Refusal :=
  s.issue (fun x =>
    let due := x.t.flags &&& x.t.flagen
    if x.act g ≠ 0 && due ≠ 0 && x.t.handler.isNone && x.t.region.isNone then
      .error (.handler 0x02 due.toNat (x.p.pc + 8))
    else .ok (s.setTeam x.u ((x.t.setSide x.off (x.t.side x.off).clear).advance x.off 1)))
/-- R213. -/
def execBkpt (g : Guard) (s : State) : Host.Outcome State Fault Refusal :=
  s.issue (fun x =>
    let t := x.t.advance x.off 1
    .ok (s.setTeam x.u (if x.act g ≠ 0 && (s.ctxAt x.c).debug then { t with halted := true } else t)))
/-- R214: a result still to land in s57 is waited for, as by every read of it (R148); those for other shadow registers are dropped with them. -/
def execReth (g : Guard) (s : State) : Host.Outcome State Fault Refusal :=
  s.issue (fun x => do
    let t := x.t.setSide x.off (x.t.side x.off).clear
    if x.act g = 0 then .ok (s.setTeam x.u (t.advance x.off 1))
    else
      need x.t.handler.isSome (.fault (illegalOperand 0x0D 0))
      x.landed s (src .s (.reg 57 false))
      let v ← x.scal true (.reg 57 false)
      needTarget v
      let s := s.setTeam x.u (t.leaveHandler x.off)
      .ok { s with net := { s.net with ops := s.net.ops.map (fun o =>
        match o.dst with
        | .scal i => if o.team = x.u && 64 ≤ i then { o with dst := .none } else o
        | _ => o) } })

end Sys2Proof.Machine
end

