-- ==== Sys2Proof/Machine/Memory.lean ====
section
/-! DEFINITION. Loads, stores, line forms, mirrored stores and prefetch (09_ref_memory_sync_try.md R256 to R260; R81, R90). -/

namespace Sys2Proof.Machine

/-! ## Loads -/

/-- The destination of a load that lands later. -/
def loadDst (act : Lanes) (scl : Bool) (d n : Nat) : LDst :=
  if act = 0 then .none else if scl then .scal d else .vec d (groupOf n)
/-- Bytes the team's own queue or buffer holds of n bytes at an address (R86). -/
def forwarded (view : Nat → Option Byte) (a n : Nat) : List (Nat × Byte) :=
  (upTo n).filterMap (fun i => (view (a + i)).map (fun b => (i, b)))
/-- The requests of a load, one for each line (R97). -/
def Iss.parts (x : Iss) (s : State) (cst useL1 useRdc : Bool) (ls : List (Nat × BitVec 4)) : List LinePart :=
  ls.map (fun (l, m) => let own := s.accessOnWay x.u l
                        s.linePart x.b.die x.b.core l m cst (useL1 && !own) (useRdc && !own))
/-- Sectors a region's load reads, named by virtual address (R282). -/
def readSectors (n : Nat) (as : List Acc) : List (SecKind × Nat × Nat) :=
  as.flatMap (fun a => (sectorsOf a.pa n).map (fun k => (.mem, k, a.va / 32 * 32 + 32 * (k - a.pa / 32))))
/-- The sectors enter the open region's read set; outside a region nothing. -/
def Iss.intoReads (x : Iss) (t : Team) (registered : Bool) (rs : List (SecKind × Nat × Nat)) : Except Halt Team :=
  match t.region with
  | none => .ok t
  | some r => do
    let r ← orAbort (r.read registered rs) (readFull x)
    .ok { t with region := some r }

def execLd (g : Guard) (d : BitVec 8) (a : Sel) (w : LdW) (prv scl : Bool) (o : Ord) (s : State) :
    Host.Outcome State Fault Refusal :=
  s.issue (fun x => do
    let act := x.act g
    let n := ldBytes w
    let dst := loadDst act scl d.toNat n
    let us := addrUses scl prv a
    let t ← x.enter s act us dst.uses false
    let ls ← x.addresses act scl prv a
    if act = 0 then .ok (s.setTeam x.u (t.finishLong x.off us dst 0 1))
    else
      x.mayAccess s
      let (s, as) ← if prv then x.privAccs s accLoad scl .rd n ls else x.globalAccs s accLoad scl .rd n ls
      walkedBy (as.map (·.va)) do
        x.noFabricInTry as
        let t ← x.intoReads t false (readSectors n as)
        let strong := o.ann ≠ .plain
        let region := t.region.isSome
        let lines := linesOf n (as.map (·.pa))
        let s := if region then s.dropHome x.b.die x.b.core lines
          else if strong then s.dropLines x.b.die x.b.core lines else s
        let ps := x.parts s false (!strong && !region) (!region) lines
        let las := as.map (fun a => ({ lane := a.lane, addr := a.pa, fwd := forwarded t.viewByte a.pa n } : LaneAddr))
        let op := { x.memOp s (.load n (ldExt w) false region ps las) dst act with
          strong := strong
          acq := if o.ann = .acq then some (o.scope.getD (defaultScope prv as)) else none
          reason := reasonOf (as.map (·.pa)) }
        .ok ((s.setTeam x.u (t.finishLong x.off us dst 0 1)).addOp op))

/-- R79: never strong, outside every read set. -/
def execLdc (g : Guard) (d : BitVec 8) (a : Sel) (w : LdW) (scl : Bool) (s : State) : Host.Outcome State Fault Refusal :=
  s.issue (fun x => do
    let act := x.act g
    let n := ldBytes w
    let dst := loadDst act scl d.toNat n
    let us := addrUses scl true a
    let t ← x.enter s act us dst.uses false
    let ls ← x.addresses act scl true a
    if act = 0 then .ok (s.setTeam x.u (t.finishLong x.off us dst 0 1))
    else
      x.mayAccess s
      x.checkOffs accLoad scl n x.l.constSize 0x0205 ls
      let (s, as) ← x.globalAccs s accLoad scl .rd n (ls.map (fun a => (a.1, x.l.constBase + a.2)))
      walkedBy (as.map (·.va)) do
        x.noFabricInTry as
        let ps := x.parts s true true true (linesOf n (as.map (·.pa)))
        let las := as.map (fun a => ({ lane := a.lane, addr := a.pa, fwd := forwarded t.viewByte a.pa n } : LaneAddr))
        let op := { x.memOp s (.load n (ldExt w) true false ps las) dst act with reason := reasonOf (as.map (·.pa)) }
        .ok ((s.setTeam x.u (t.finishLong x.off us dst 0 1)).addOp op))

/-- Poison of the scratchpad bytes some lanes read (R401, R424). -/
def Block.lanePoison (b : Block) (n : Nat) (as : List Acc) : List Poison :=
  as.filterMap (fun a => (poisonIn b.spadPoison a.pa n).map (fun (sec, code) => ⟨a.lane, code, 32 * sec⟩))
/-- The fixed-latency writes of loaded values: the instruction enters the latches once, with its destination's lowest register (log 16). -/
def loadWrites (d : Dst) (scl : Bool) (act : Lanes) (n : Nat) (ext : LoadExt) (vs : List (Nat × List Byte)) (po : List Poison) :
    List Write :=
  if scl then
    [.scal d.idx.toNat d.ws (act ≠ 0) (extend ext ((vs.map (·.2)).headD []) 64) po.head?]
  else
    (upTo (groupOf n)).map (fun i =>
      let lane := fun l => match look l vs with
        | some bs => if n < 4 then extend ext bs 32 else BitVec.ofNat 32 (ofBytes ((bs.drop (4 * i)).take 4))
        | none => 0
      if i = 0 then .vec d.idx.toNat d.ws act (lineOf lane) none po
      else .more (d.idx.toNat + i) (if d.ws then 0 else act) (lineOf lane) po)

/-- R256; served at the core in the block's single order (Table 04.3). -/
def execLds (g : Guard) (d : Dst) (a : Sel) (w : LdW) (scl : Bool) (o : Ord) (s : State) : Host.Outcome State Fault Refusal :=
  s.issue (fun x => do
    let act := x.act g
    let n := ldBytes w
    let us := addrUses scl true a
    let ds := (dstUses (if scl then .s else .v) d).map (fun y => { y with n := groupOf n })
    let t ← x.enter s act us ds false
    let ls ← x.addresses act scl true a
    if act = 0 then .ok (s.setTeam x.u (t.finish x.off us (loadWrites d scl act n (ldExt w) [] []) 0 1))
    else
      x.mayAccess s
      let as ← x.spadAccs accLoad scl n ls
      let t ← x.intoReads t true (as.flatMap (fun a => (sectorsOf a.pa n).map (fun k => (.spad, k, 32 * k))))
      let vs := as.map (fun a => (a.lane, (from_ a.pa n).map (s.spadView x.u t)))
      let po := x.b.lanePoison n as
      let stamp := as.foldl (fun c a => joinClk c (stampOf x.b.spadStamps a.pa n)) .zero
      let t := if o.ann = .acq then { t with seen := .zero }
        else if o.ann ≠ .plain then { t with seen := joinClk t.seen stamp } else t
      let s := if o.ann = .acq then s.acquireAt x.b.die x.b.core (o.scope.getD .blk) stamp else s
      .ok (s.setTeam x.u (t.finish x.off us (loadWrites d scl act n (ldExt w) vs po) 0 1)))

/-! ### Line loads (R257) -/

/-- The side-band that a region has buffered for a line, unless every lane that wrote it has been aborted. -/
def bufSb (t : Team) (k : SecKind) (line : Nat) : Option SideBand :=
  match t.region with
  | none => none
  | some r => match secAt k line r.buf with
    | some b => if b.bytes = [] then none
      else some (BitVec.ofNat 128 (ofBytes ((upTo 16).map (fun i => (bufByte r.buf k line i).getD 0))))
    | none => none
/-- The whole line of a block's scratchpad as its team sees it. -/
def State.spadLineView (s : State) (u : Nat) (t : Team) (l : Nat) : Line :=
  BitVec.ofNat 1024 (ofBytes ((from_ (128 * l) 128).map (s.spadView u t)))

/-- R257. In a region the line's four data sectors enter the read set; its side-band, which R282 names only for the buffer, does not
(log 72). Poison of any sector poisons all 32 lanes (R401). -/
def execLdb (g : Guard) (d : Dst) (a : Sel) (sp : LineSp) (s : State) : Host.Outcome State Fault Refusal :=
  s.issue (fun x => do
    let act := x.act g
    let us := [src .s a]
    let full : Lanes := if act = 0 then 0 else allLanes
    match sp with
    | .spad =>
      let t ← x.enter s act us (dstUses .v d) false
      let ls ← x.addresses act true true a
      if act = 0 then .ok (s.setTeam x.u (t.finish x.off us [.vec d.idx.toNat d.ws 0 0 none []] 0 1))
      else
        x.mayAccess s
        let as ← x.spadAccs accLoad true 128 ls
        let t ← x.intoReads t true (as.flatMap (fun a => (sectorsOf a.pa 128).map (fun k => (.spad, k, 32 * k))))
        let l := ((as.map (·.pa)).headD 0) / 128
        let sb := (bufSb t .spadSide l).getD (x.b.sb l)
        let po := match poisonIn x.b.spadPoison (128 * l) 128 with
          | some (sec, code) => (upTo 32).map (fun k => (⟨k, code, 32 * sec⟩ : Poison))
          | none => []
        .ok (s.setTeam x.u (t.finish x.off us [.vec d.idx.toNat d.ws full (s.spadLineView x.u t l) (some (sbOut sb)) po] 0 1))
    | _ =>
      let dst : LDst := if act = 0 then .none else .vec d.idx.toNat 1
      let t ← x.enter s act us dst.uses false
      let ls ← x.addresses act true true a
      if act = 0 then .ok (s.setTeam x.u (t.finishLong x.off us dst 0 1))
      else
        x.mayAccess s
        let (s, as) ← if sp = .prv then x.privAccs s accLoad true .rd 128 ls else x.globalAccs s accLoad true .rd 128 ls
        walkedBy (as.map (·.va)) do
          x.noFabricInTry as
          let t ← x.intoReads t false (readSectors 128 as)
          let pa := (as.map (·.pa)).headD 0
          let region := t.region.isSome
          let s := if region then s.dropHome x.b.die x.b.core [(pa / 128, 15)] else s
          let own := s.accessOnWay x.u (pa / 128)
          let p := s.linePart x.b.die x.b.core (pa / 128) 15 false (!region && !own) (!region && !own)
          let sb := match bufSb t .memSide (pa / 128) with | some v => some v | none => t.queueSb (pa / 128)
          let op := { x.memOp s (.line region (forwarded t.viewByte pa 128) sb p) dst full with reason := reasonOf [pa] }
          .ok ((s.setTeam x.u (t.finishLong x.off us dst 0 1)).addOp op))

/-! ## Stores -/

/-- A store instruction retires (R397). -/
def Team.retire (t : Team) : Team := { t with retst := t.retst + 1 }
/-- A store into the open region's buffer: bytes with the lanes that write them; it counts at COMMIT (R282, R397). -/
def Iss.buffer (x : Iss) (t : Team) (r : Try) (ws : List (SecKind × Nat × Nat × Nat × Byte)) : Except Halt Team := do
  let r ← orAbort (r.write ws) (bufFull x)
  .ok { t with region := some { r with stores := r.stores + 1 } }
/-- Bytes of accesses as buffer writes, in each of the lanes they count for. -/
def bufWrites (k : SecKind) (lanes : Nat → List Nat) (ws : List (Nat × Nat × List Byte)) : List (SecKind × Nat × Nat × Nat × Byte) :=
  ws.flatMap (fun (lane, pa, bs) => (lanes lane).flatMap (fun l =>
    (bs.zip (from_ pa bs.length)).map (fun (b, a) => (k, a / 32, a % 32, l, b))))
/-- Side-band bytes as a buffer write. -/
def sideWrites (k : SecKind) (line : Nat) (sb : SideBand) (lanes : List Nat) : List (SecKind × Nat × Nat × Nat × Byte) :=
  lanes.flatMap (fun l => ((toBytes 16 sb).zip (upTo 16)).map (fun (b, i) => (k, line, i, l, b)))
/-- Queue entries of a store: one for each sector (Table 03.6). -/
def storeEntries (ws : List (Nat × List Byte)) : List QEntry :=
  (sectorPieces ws).map (fun p =>
    { view := p, charge := 32, send := .write { pieces := [p], sides := [] }, commit := false, rel := false, stamp := none })
/-- R85: sectors written leave the core's L1 as the store enters the queue. -/
def State.storedL1 (s : State) (die core : Nat) (es : List QEntry) : State :=
  es.foldl (fun (s : State) (e : QEntry) => if e.view.mask = 0#32 then s
    else s.storeL1 die core (e.view.addr / 128) (1#4 <<< (e.view.addr / 32 % 4))) s
/-- Lane numbers a write counts for: its own lane, or every active lane of a write performed once (log 13). -/
def writeLanes (scl : Bool) (act : Lanes) (l : Nat) : List Nat := if scl then onceLanes act else [l]

def execSt (g : Guard) (a b : Sel) (w : StW) (prv scl : Bool) (o : Ord) (s : State) : Host.Outcome State Fault Refusal :=
  s.issue (fun x => do
    let act := x.act g
    let n := stBytes w
    let us := addrUses scl prv a ++ dataUses scl (groupOf n) b
    let t ← x.enter s act us [] true
    let ls ← x.addresses act scl prv a
    let ds ← x.dataBytes act scl n b
    if act = 0 then .ok (s.setTeam x.u (t.finish x.off us [] 0 1))
    else
      x.mayAccess s
      let (s, as) ← if prv then x.privAccs s accStore scl .wr n ls else x.globalAccs s accStore scl .wr n ls
      walkedBy (as.map (·.va)) do
        x.noFabricInTry as
        let ws := (as.zip ds).map (fun (a, d) => (a.lane, a.pa, d.2))
        need (!(o.ann ≠ .plain && s.ownStrong x.u x.b.die && as.any (fun a => s.homeOf a.pa = x.b.die))) (.stall true)
        let s ← if o.ann = .rel then x.release s (o.scope.getD (defaultScope prv as)) else .ok s
        match t.region with
        | some r =>
          let t ← x.buffer t r (bufWrites .mem (writeLanes scl act) ws)
          .ok (s.setTeam x.u (t.finish x.off us [] 0 1))
        | none =>
          let rel := decide (o.ann = .rel && o.scope.getD (defaultScope prv as) = .fab)
          let es := (storeEntries (ws.map (·.2))).map (fun (e : QEntry) => { e with rel := rel })
          x.room s es.length
          let s := s.storedL1 x.b.die x.b.core es
          .ok (s.setTeam x.u (({ t with queue := t.queue ++ es }.retire).finish x.off us [] 0 1)))

/-- Writes of a team to its block's scratchpad, in order (R258). -/
def State.spadWrites (s : State) (u blk : Nat) (stamp : Clock) (ws : List (Nat × List Byte)) : State :=
  (ws.foldl (fun s (o, bs) => s.spadWrite blk o bs stamp (some u)) s).modBlock blk (fun b => b.unpoison (coveredSectors ws))

def execSts (g : Guard) (a b : Sel) (w : StW) (scl : Bool) (o : Ord) (s : State) : Host.Outcome State Fault Refusal :=
  s.issue (fun x => do
    let act := x.act g
    let n := stBytes w
    let us := addrUses scl true a ++ dataUses scl (groupOf n) b
    let t ← x.enter s act us [] (o.ann = .rel)
    let ls ← x.addresses act scl true a
    let ds ← x.dataBytes act scl n b
    if act = 0 then .ok (s.setTeam x.u (t.finish x.off us [] 0 1))
    else
      x.mayAccess s
      x.notLeased s accStore n scl ls
      x.notLocked s n ls
      let as ← x.spadAccs accStore scl n ls
      let ws := (as.zip ds).map (fun (a, d) => (a.lane, a.pa, d.2))
      let s ← if o.ann = .rel then x.release s (o.scope.getD .blk) else .ok s
      match t.region with
      | some r =>
        let t ← x.buffer t r (bufWrites .spad (writeLanes scl act) ws)
        .ok (s.setTeam x.u (t.finish x.off us [] 0 1))
      | none =>
        let s := s.spadWrites x.u x.t.block (s.die x.b.die).clock (ws.map (·.2))
        .ok (s.setTeam x.u (t.retire.finish x.off us [] 0 1)))

/-- The entries of a line store: four that the team's own loads see and one that leaves whole with the side-band, so that
no observer sees one without the other (Table 03.6, R257). -/
def lineEntries (pa : Nat) (v : Line) (sb : SideBand) : List QEntry :=
  let ps := (upTo 4).map (fun k =>
    ({ addr := pa + 32 * k, mask := BitVec.allOnes 32, data := v.extractLsb' (256 * k) 256 } : Piece))
  ps.map (fun p => { view := p, charge := 32, send := .nothing, commit := false, rel := false, stamp := none })
    ++ [{ view := { addr := pa, mask := 0, data := 0 }, charge := 32,
          send := .write { pieces := ps, sides := [(pa / 128, sb)] }, commit := false, rel := false, stamp := none }]

def execStb (g : Guard) (a b : Sel) (sp : LineSp) (s : State) : Host.Outcome State Fault Refusal :=
  s.issue (fun x => do
    let act := x.act g
    let us := [src .s a, src .v b]
    let t ← x.enter s act us [] (sp ≠ .spad)
    let ls ← x.addresses act true true a
    let v ← if act = 0 then .ok { data := 0, sb := 0, poison := [] } else x.vec allLanes b
    let sb := sbOut v.sb
    if act = 0 then .ok (s.setTeam x.u (t.finish x.off us [] 0 1))
    else
      x.mayAccess s
      match sp with
      | .spad =>
        x.notLeased s accStore 128 true ls
        x.notLocked s 128 ls
        let as ← x.spadAccs accStore true 128 ls
        let o := (as.map (·.pa)).headD 0
        match t.region with
        | some r =>
          let t ← x.buffer t r (bufWrites .spad (writeLanes true act) [(0, o, toBytes 128 v.data)]
            ++ sideWrites .spadSide (o / 128) sb (onceLanes act))
          .ok (s.setTeam x.u (t.finish x.off us [] 0 1))
        | none =>
          let s := s.spadWriteLine x.t.block (o / 128) v.data sb (s.die x.b.die).clock (some x.u)
          .ok (s.setTeam x.u (t.retire.finish x.off us [] 0 1))
      | _ =>
        let (s, as) ← if sp = .prv then x.privAccs s accStore true .wr 128 ls else x.globalAccs s accStore true .wr 128 ls
        walkedBy (as.map (·.va)) do
          x.noFabricInTry as
          let pa := (as.map (·.pa)).headD 0
          match t.region with
          | some r =>
            let t ← x.buffer t r (bufWrites .mem (writeLanes true act) [(0, pa, toBytes 128 v.data)]
              ++ sideWrites .memSide (pa / 128) sb (onceLanes act))
            .ok (s.setTeam x.u (t.finish x.off us [] 0 1))
          | none =>
            let es := lineEntries pa v.data sb
            x.room s es.length
            let s := s.storedL1 x.b.die x.b.core es
            .ok (s.setTeam x.u (({ t with queue := t.queue ++ es }.retire).finish x.off us [] 0 1)))

/-! ## Mirrored stores (R81, R259) -/

/-- Dies that hold member blocks of a yard of a launch. -/
def State.yardDies (s : State) (launch : Nat) (e : BitVec 128) : List Nat :=
  sortNat ((s.blocks.filter (fun (_, b) => b.launch = launch && yardHasBlock e b.idx)).map (fun (_, b) => b.die))
/-- The window the block bound for a yard. -/
def Block.window (b : Block) (y : Nat) : Option MWindow := first (fun w => w.yard = y) b.windows

def execStm (g : Guard) (a b : Sel) (w : StW) (k : BitVec 2) (s : State) : Host.Outcome State Fault Refusal :=
  s.issue (fun x => do
    let act := x.act g
    let n := stBytes w
    let us := [src .v a, srcN .v (groupOf n) b]
    let t ← x.enter s act us [] true
    let ls ← x.addresses act false true a
    let ds ← x.dataBytes act false n b
    if act = 0 then .ok (s.setTeam x.u (t.finish x.off us [] 0 1))
    else
      x.notInTry
      x.mayAccess s
      x.failOn accStore false 0x0203 (ls.filter (fun a => a.2 % n ≠ 0))
      let y := x.yard k.toNat
      let win := match y with | some (i, _) => x.b.window i | none => none
      x.failOn accStore false 0x0204 (match win with
        | some m => ls.filter (fun a => a.2 < m.base || m.base + m.size < a.2 + n)
        | none => ls)
      let ps := sectorPieces ((ls.zip ds).map (fun (a, d) => (a.2, d.2)))
      let dies := match y with | some (_, e) => (s.yardDies x.b.launch e).length | none => 0
      let yi := (y.map (·.1)).getD 0
      let es := ps.map (fun p =>
        ({ view := { addr := 0, mask := 0, data := 0 }, charge := 32 * dies, send := .mirror yi p.addr p.mask p.data,
           commit := false, rel := false, stamp := none } : QEntry))
      x.room s es.length
      .ok (s.setTeam x.u (({ t with queue := t.queue ++ es }.retire).finish x.off us [] 0 1)))

/-! ## Prefetch (R260) -/

/-- Addresses of a prefetch that pass every check; the others are dropped. -/
def State.prefAddrs (s : State) (die core c : Nat) : List Nat → Except Halt (State × List Nat)
  | [] => .ok (s, [])
  | va :: r =>
    if 2 ^ 57 ≤ va then s.prefAddrs die core c r
    else match s.translate die core c va .rd with
      | .wait => .error (.stall false)
      | .fault _ _ => walkedBy [va] ((s.walkAt die core c va).prefAddrs die core c r)
      | .ok pa s => do
        let (s, as) ← walkedBy [va] (s.prefAddrs die core c r)
        .ok (s, if s.paOk pa && !isFabric pa then pa :: as else as)

def execPref (g : Guard) (a : Sel) (scl l1 : Bool) (s : State) : Host.Outcome State Fault Refusal :=
  s.issue (fun x => do
    let act := x.act g
    let us := addrUses scl false a
    let t ← x.enter s act us [] false
    let ls ← x.addresses act scl false a
    let (s, as) ← s.prefAddrs x.b.die x.b.core x.c (ls.map (·.2))
    let ps := (linesOf 1 as).map (fun (l, m) =>
      s.linePart x.b.die x.b.core l m false l1 (l1 || isExpander (128 * l)))
    let s := s.setTeam x.u (t.finish x.off us [] 0 1)
    .ok (if as = [] then s else s.addOp (x.memOp s (.load 1 .zero false false ps []) .none act)))

end Sys2Proof.Machine
end

