-- ==== Sys2Proof/Machine/Atomics.lean ====
section
/-! DEFINITION. Atomics on global memory and on scratchpad (09_ref_memory_sync_try.md R261 to R264; the partial-sum slots of
15_launch_and_scheduling.md R389). -/

namespace Sys2Proof.Machine

/-! ## The operations (Table 09.5) -/

def atomInt (op : AtomOp) (w : Nat) (v b : BitVec w) : BitVec w :=
  match op with
  | .add => v + b
  | .min => if b.toInt < v.toInt then b else v
  | .max => if v.toInt < b.toInt then b else v
  | .umin => if b.toNat < v.toNat then b else v
  | .umax => if v.toNat < b.toNat then b else v
  | .and => v &&& b
  | .or => v ||| b
  | .xor => v ^^^ b
  | .exch => b
  | .fadd | .fmin | .fmax => v
/-- f(v, b) at 4 or 8 bytes; the floating-point operations exist at 4 only. -/
def atomVal (op : AtomOp) (size : Nat) (v b : W64) : W64 :=
  let v32 : W32 := v.setWidth 32
  let b32 : W32 := b.setWidth 32
  match op with
  | .fadd => (addRne v32 b32).setWidth 64
  | .fmin => (fminmaxVal false v32 b32).1.setWidth 64
  | .fmax => (fminmaxVal true v32 b32).1.setWidth 64
  | _ => if size = 8 then atomInt op 64 v b else (atomInt op 32 v32 b32).setWidth 64
/-- One lane's operation: an operation of the table, or compare-and-swap. -/
def atomStep (f : Option AtomOp) (size : Nat) (v b c : W64) : W64 :=
  match f with
  | some op => atomVal op size v b
  | none => if v = b then c else v
/-- R262: the lanes of one address in ascending order: the old value of each lane and its new one. -/
def atomRun (f : Option AtomOp) (size : Nat) (v : W64) : List (Nat × W64 × W64) → List (Nat × W64 × W64)
  | [] => []
  | (l, b, c) :: r =>
    let n := atomStep f size v b c
    (l, v, n) :: atomRun f size n r
/-- The value the location ends with. -/
def atomLast (v : W64) (r : List (Nat × W64 × W64)) : W64 := r.foldl (fun _ x => x.2.2) v

/-! ## The shared course -/

/-- An access with its lane operands. -/
def atomOperands (as : List Acc) (bs cs : List (Nat × List Byte)) : List (Nat × Nat × W64 × W64) :=
  as.map (fun a => (a.pa, a.lane, w64 (ofBytes ((look a.lane bs).getD [])), w64 (ofBytes ((look a.lane cs).getD []))))
/-- One group for each distinct address, in the order of its lowest lane (R262). -/
def atomGroups (l : List (Nat × Nat × W64 × W64)) : List (Nat × List (Nat × W64 × W64)) :=
  l.foldl (fun acc (pa, x) =>
    if acc.any (fun g => g.1 = pa) then acc.map (fun g => if g.1 = pa then (pa, g.2 ++ [x]) else g) else acc ++ [(pa, [x])]) []
def isRel : Ann → Bool
  | .rel | .ar => true
  | _ => false
def isAcq : Ann → Bool
  | .acq | .ar => true
  | _ => false
/-- Sources of an atomic: address, operand, and the D group of a compare-and-swap. -/
def atomUses (d : BitVec 8) (f : Option AtomOp) (sp : Bool) (a b : Sel) (b64 scl : Bool) : List SrcUse :=
  let n := if b64 then 2 else 1
  addrUses scl sp a ++ dataUses scl n b ++ (if f.isNone then dataUses scl n (.reg d false) else [])
/-- A queued store of the team stands before an atomic: to the same sector, or to the atomic's home when that is the
team's own die (R263, Table 04.3). -/
def Iss.storesBefore (x : Iss) (s : State) (as : List Acc) : Bool :=
  let own := as.any (fun a => s.homeOf a.pa = x.b.die && !isFabric a.pa)
  x.t.queue.any (fun e => match e.send with
    | .write w => as.any (fun a => bodyHits w (a.pa / 32 * 32) 32)
        || (own && w.pieces.any (fun p => s.homeOf p.addr = x.b.die))
    | _ => false)

/-- Memory as the team sees it inside a region. -/
def State.memView (s : State) (t : Team) (a n : Nat) : W64 :=
  w64 (ofBytes ((from_ a n).map (fun i => (t.viewByte i).getD (s.mem.byte i))))
/-- R281: an atomic inside a region, on the team's view: results, buffered bytes and read sectors. Each lane buffers the
value it leaves, so that a lane's abort takes its own write away. -/
def regionAtoms (k : SecKind) (f : Option AtomOp) (size : Nat) (once : Bool) (act : Lanes) (view : Nat → W64) (gs : List (Nat × List (Nat × W64 × W64))) :
    List (Nat × List (Nat × W64)) × List (SecKind × Nat × Nat × Nat × Byte) :=
  (gs.map (fun (pa, ls) => (pa, (atomRun f size (view pa) ls).map (fun y => (y.1, y.2.1)))),
   gs.flatMap (fun (pa, ls) => bufWrites k (writeLanes once act)
     ((atomRun f size (view pa) ls).map (fun y => (y.1, pa, toBytes size y.2.2)))))

/-- R389: the adds of a fixed-order atomic into the team's slots; an add performed once belongs to no lane (log 13). -/
def slotAdds (once : Bool) (sl : List (Nat × W32)) :
    List (Nat × List (Nat × W64 × W64)) → List (Nat × W32) × List (Nat × W32) × List SlotAdd
  | [] => (sl, [], [])
  | (pa, ls) :: r =>
    let v0 := (look pa sl).getD 0x80000000#32
    let run := atomRun (some .fadd) 4 (v0.setWidth 64) ls
    let sl := place pa ((atomLast (v0.setWidth 64) run).setWidth 32) sl
    let (sl, olds, adds) := slotAdds once sl r
    (sl, run.map (fun y => (y.1, y.2.1.setWidth 32)) ++ olds,
      ls.map (fun (l, b, _) => ({ addr := pa, lane := if once then 32 else l, val := b.setWidth 32 } : SlotAdd)) ++ adds)

/-- A request of a global atomic: an answer when a region's view has given it already. -/
def State.atomReq (s : State) (pa : Nat) (l : List (Nat × W64 × W64)) (c : Clock) (rel : Bool) (got : Option (List (Nat × W64) × Nat × Clock)) :
    AtomPart :=
  { addr := pa, home := if isFabric pa then 8 else s.homeOf pa
    pkg := match regionOf pa with | .fabric k _ => some k | _ => none
    lanes := l, stamp := c, rel := rel, sent := got.isSome, parked := false, refused := false, dest := none, got := got }
/-- A request of a scratchpad atomic, answered at the core. -/
def spadReq (die pa : Nat) (l : List (Nat × W64 × W64)) (c : Clock) (old : List (Nat × W64)) (code : Nat) (st : Clock) : AtomPart :=
  { addr := pa, home := die, pkg := none, lanes := l, stamp := c, rel := false, sent := true, parked := false, refused := false, dest := none
    got := some (old, code, st) }
/-- The operation of an atomic. -/
def Iss.atomOp (x : Iss) (s : State) (f : Option AtomOp) (n : Nat) (scl : Bool) (ps : List AtomPart) (dst : LDst) (act : Lanes)
    (acq : Option Scope) (reason : Option Reason) : MemOp :=
  { x.memOp s (.atomic f n ps) dst act with strong := true, scalar := scl, acq := acq, reason := reason }

/-- R389: adds into the team's slots, for the addresses of this package; the requests to another package leave as ordinary ones. -/
def Iss.fixedAdd (x : Iss) (s : State) (t : Team) (n : Nat) (scl : Bool) (act : Lanes) (us : List SrcUse) (dst : LDst)
    (acq : Option Scope) (rel : Bool) (as : List Acc) (gs : List (Nat × List (Nat × W64 × W64))) : Except Halt State := do
  let y := slotAdds scl t.slots (gs.filter (fun q => !isFabric q.1))
  let olds := y.2.1
  need (y.1.length ≤ 64) (.fault (illegalOperand 0x18 0))
  let t := { t with slots := y.1, region := t.region.map (fun (r : Try) => { r with adds := r.adds ++ y.2.2 }) }
  let s := s.setTeam x.u (t.finishLong x.off us dst 0 1)
  if gs.any (fun q => isFabric q.1) then
    let c := (s.die x.b.die).clock
    let own := fun (l : List (Nat × W64 × W64)) => l.map (fun z => (z.1, ((look z.1 olds).getD 0#32).setWidth 64))
    let ps := gs.map (fun (pa, l) => s.atomReq pa l c rel (if isFabric pa then none else some (own l, 0, .zero)))
    .ok (s.addOp (x.atomOp s (some .fadd) n scl ps dst act acq (reasonOf (as.map (·.pa)))))
  else match dst, acq with
  | .none, none => .ok s
  | _, _ => .ok (s.addOp { x.memOp s (.value olds (((olds.head?.map Prod.snd).getD 0#32).setWidth 64)) dst act with acq := acq })
/-- The slots that a fixed-order add would need, as far as its addresses translate: a 65th is an illegal operand, which precedes a
lease fault and every fault of the access (R162, R389). -/
def Iss.slotsFit (x : Iss) (s : State) (act : Lanes) (scl : Bool) (f : Option AtomOp) (a : Sel) : Except Halt Unit := do
  if !(x.l.fixed && f = some .fadd) || act = 0 then .ok ()
  else
    let ls ← x.addresses act scl false a
    match s.transLanes x.b.die x.b.core x.c .rdwr (ls.filter (fun y => y.2 < 2 ^ 57)) [] with
    | .error _ => .ok ()
    | .ok (_, as, _) =>
      let keys := sortNat ((as.filter (fun y => !isFabric y.pa)).map (·.pa) ++ x.t.slots.map Prod.fst)
      walkedBy (ls.map (·.2)) (need (keys.length ≤ 64) (.fault (illegalOperand 0x18 0)))

/-- A global atomic: ATOM and RED with an operation, CAS without one; RED has no destination. -/
def Iss.atomGlobal (x : Iss) (s : State) (g : Guard) (d : BitVec 8) (ret : Bool) (f : Option AtomOp) (a b : Sel)
    (b64 scl : Bool) (o : Ord) : Except Halt State := do
  let act := x.act g
  let n := if b64 then 8 else 4
  let dst := if ret then loadDst act scl d.toNat n else .none
  let us := atomUses d f false a b b64 scl
  let t ← x.enterC s act us dst.uses (isRel o.ann) (x.slotsFit s act scl f a)
  let ls ← x.addresses act scl false a
  let bs ← x.dataBytes act scl n b
  let cs ← if f.isNone then x.dataBytes act scl n (.reg d false) else .ok []
  if act = 0 then .ok (s.setTeam x.u (t.finishLong x.off us .none 0 1))
  else
    x.mayAccess s
    let (s, as) ← x.globalAccs s accAtomic scl .rdwr n ls
    walkedBy (as.map (·.va)) do
      x.noFabricInTry as
      let gs := atomGroups (atomOperands as bs cs)
      let scope := o.scope.getD (defaultScope false as)
      let rel := isRel o.ann && decide (scope = .fab)
      let acq := if isAcq o.ann then some scope else none
      if x.l.fixed && f = some .fadd && as.any (fun a => !isFabric a.pa) then
        let s ← if isRel o.ann then x.release s scope else .ok s
        x.fixedAdd s t n scl act us dst acq rel as gs
      else
        need (!x.storesBefore s as) (.stall false)
        let s ← if isRel o.ann then x.release s scope else .ok s
        let lines := linesOf n (as.map (·.pa))
        let s := s.dropHome x.b.die x.b.core lines
        let c := (s.die x.b.die).clock
        let fin := fun (t : Team) (ps : List AtomPart) =>
          (s.addOp (x.atomOp s f n scl ps dst act acq (reasonOf (as.map (·.pa))))).setTeam x.u (t.finishLong x.off us dst 0 1)
        match t.region with
        | none => .ok (fin t (gs.map (fun (pa, l) => s.atomReq pa l c rel none)))
        | some _ =>
          need (gs.all (fun (pa, _) => s.homeServes x.b.die c s.uid pa n)) (.stall false)
          let bad := as.filter (fun a => (look (a.pa / 32) s.mem.poison).isSome)
          match bad with
          | a :: _ =>
            let ad := a.pa / 32 * 32
            .error (dataHalt t true false { accessFault 0x0401 accAtomic (laneMask (bad.map (·.lane))) ad 0 with paddr := ad })
          | [] =>
            let t ← x.intoReads t true (readSectors n as)
            let (res, ws) := regionAtoms .mem f n scl act (fun pa => s.memView t pa n) gs
            match t.region with
            | none => .ok s
            | some r =>
              let r ← orAbort (r.write ws) (bufFull x)
              .ok (fin { t with region := some r } (gs.map (fun (pa, l) =>
                s.atomReq pa l c rel (some ((look pa res).getD [], 0, stampOf s.mem.stamps pa n)))))

/-- The word of a scratchpad at an offset. -/
def Block.atomWord (b : Block) (n pa : Nat) : W64 := w64 (ofBytes (b.bytes pa n))
/-- The words that a scratchpad atomic leaves; a poisoned one stays. -/
def State.spadAtoms (s : State) (u blk : Nat) (b : Block) (f : Option AtomOp) (n : Nat) (c : Clock)
    (gs : List (Nat × List (Nat × W64 × W64))) : State :=
  gs.foldl (fun (s : State) (g : Nat × List (Nat × W64 × W64)) =>
    if (poisonIn b.spadPoison g.1 n).isSome then s
    else s.spadWrite blk g.1 (toBytes n (atomLast (b.atomWord n g.1) (atomRun f n (b.atomWord n g.1) g.2))) c (some u)) s
/-- What a request of it answers: the old values, or zeros with the code of its poison. -/
def Block.spadAnswer (b : Block) (die : Nat) (f : Option AtomOp) (n : Nat) (c : Clock) (pa : Nat) (l : List (Nat × W64 × W64)) :
    AtomPart :=
  if (poisonIn b.spadPoison pa n).isSome then spadReq die pa l c (l.map (fun y => (y.1, 0))) 0x0401 .zero
  else spadReq die pa l c ((atomRun f n (b.atomWord n pa) l).map (fun y => (y.1, y.2.1))) 0 (stampOf b.spadStamps pa n)
/-- An atomic on the block's scratchpad, applied at the core; it never parks (R263). -/
def Iss.atomSpad (x : Iss) (s : State) (g : Guard) (d : BitVec 8) (f : Option AtomOp) (a b : Sel) (b64 scl : Bool)
    (o : Ord) : Except Halt State := do
  let act := x.act g
  let n := if b64 then 8 else 4
  let dst := loadDst act scl d.toNat n
  let us := atomUses d f true a b b64 scl
  let t ← x.enter s act us dst.uses (isRel o.ann)
  let ls ← x.addresses act scl true a
  let bs ← x.dataBytes act scl n b
  let cs ← if f.isNone then x.dataBytes act scl n (.reg d false) else .ok []
  if act = 0 then .ok (s.setTeam x.u (t.finishLong x.off us .none 0 1))
  else
    x.mayAccess s
    x.notLeased s accAtomic n scl ls
    x.notLocked s n ls
    let as ← x.spadAccs accAtomic scl n ls
    let gs := atomGroups (atomOperands as bs cs)
    let scope := o.scope.getD .blk
    let s ← if isRel o.ann then x.release s scope else .ok s
    let c := (s.die x.b.die).clock
    let fin := fun (s : State) (t : Team) (ps : List AtomPart) =>
      (s.addOp (x.atomOp s f n scl ps dst act (if isAcq o.ann then some scope else none) none)).setTeam x.u
        (t.finishLong x.off us dst 0 1)
    match t.region with
    | none => .ok (fin (s.spadAtoms x.u x.t.block x.b f n c gs) t (gs.map (fun (pa, l) => x.b.spadAnswer x.b.die f n c pa l)))
    | some _ =>
      let bad := as.filter (fun a => (poisonIn x.b.spadPoison a.pa n).isSome)
      match bad with
      | a :: _ =>
        let ad := a.pa / 32 * 32
        .error (dataHalt t true false { accessFault 0x0401 accAtomic (laneMask (bad.map (·.lane))) ad 0 with paddr := ad })
      | [] =>
        let t ← x.intoReads t true (as.flatMap (fun a => (sectorsOf a.pa n).map (fun k => (.spad, k, 32 * k))))
        let (res, ws) := regionAtoms .spad f n scl act
          (fun pa => w64 (ofBytes ((from_ pa n).map (s.spadView x.u t)))) gs
        match t.region with
        | none => .ok s
        | some r =>
          let r ← orAbort (r.write ws) (bufFull x)
          .ok (fin s { t with region := some r } (gs.map (fun (pa, l) =>
            spadReq x.b.die pa l c ((look pa res).getD []) 0 (stampOf x.b.spadStamps pa n))))

/-! ## The instructions -/

def execAtom (g : Guard) (d : BitVec 8) (a b : Sel) (op : AtomOp) (b64 scl : Bool) (o : Ord) (s : State) :
    Host.Outcome State Fault Refusal :=
  s.issue (fun x => x.atomGlobal s g d true (some op) a b b64 scl o)
def execCas (g : Guard) (d : BitVec 8) (a b : Sel) (b64 scl : Bool) (o : Ord) (s : State) :
    Host.Outcome State Fault Refusal :=
  s.issue (fun x => x.atomGlobal s g d true none a b b64 scl o)
def execRed (g : Guard) (a b : Sel) (op : AtomOp) (b64 scl : Bool) (o : Ord) (s : State) :
    Host.Outcome State Fault Refusal :=
  s.issue (fun x => x.atomGlobal s g 0 false (some op) a b b64 scl o)
def execAtoms (g : Guard) (d : BitVec 8) (a b : Sel) (op : AtomOp) (b64 scl : Bool) (o : Ord) (s : State) :
    Host.Outcome State Fault Refusal :=
  s.issue (fun x => x.atomSpad s g d (some op) a b b64 scl o)
def execCass (g : Guard) (d : BitVec 8) (a b : Sel) (b64 scl : Bool) (o : Ord) (s : State) :
    Host.Outcome State Fault Refusal :=
  s.issue (fun x => x.atomSpad s g d none a b b64 scl o)

end Sys2Proof.Machine
end

