-- ==== Sys2Proof/Machine/Barrier.lean ====
section
/-! DEFINITION. Barrier objects (09_ref_memory_sync_try.md R266 to R268), what they have counted (04_ordering_and_visibility.md
R123), and the flush of fixed-order sums at a yard phase (15_launch_and_scheduling.md R390). -/

namespace Sys2Proof.Machine

/-- The fields of an object (Table 09.7); low is bits [31:0]. -/
structure Bar where
  landed : Nat
  expb : Nat
  pend : Nat
  arr : Nat
  phase : Nat
  low : Nat
  deriving DecidableEq, Repr

def Bar.ofBytes (bs : List Byte) : Bar :=
  let v := Machine.ofBytes bs
  { landed := fieldN v 96 32, expb := fieldN v 64 32, pend := fieldN v 48 16, arr := fieldN v 32 16,
    phase := fieldN v 16 16, low := fieldN v 0 16 }
def Bar.bytes (b : Bar) : List Byte :=
  toBytes 16 (BitVec.ofNat 128 (b.landed * 2 ^ 96 + b.expb * 2 ^ 64 + b.pend * 2 ^ 48 + b.arr * 2 ^ 32
    + b.phase % 2 ^ 16 * 2 ^ 16 + b.low))
def Bar.kind (b : Bar) : Nat := fieldN b.low 4 4
def Bar.over (b : Bar) : Bar := { b with low := b.low + (if fieldN b.low 8 1 = 0 then 256 else 0) }
/-- Reserved fields are zero. -/
def Bar.clean (b : Bar) : Bool := fieldN b.low 0 4 = 0 && fieldN b.low 9 7 = 0
/-- An object that arrivals and landings may count at. -/
def Bar.counts (b : Bar) : Bool := b.clean && (b.kind = 1 || b.kind = 2)
/-- A new object of a kind with n arrivals a phase (R270, R27, R275). -/
def Bar.new (kind n : Nat) : Bar := { landed := 0, expb := 0, pend := n, arr := n, phase := 0, low := 16 * kind }
/-- Saturating sums of LANDED and EXPB. -/
def sat32 (n : Nat) : Nat := if 2 ^ 32 ≤ n then 2 ^ 32 - 1 else n
def Bar.land (n : Nat) (b : Bar) : Bar := { b with landed := sat32 (b.landed + n) }
def Bar.expect (n : Nat) (b : Bar) : Bar := { b with expb := sat32 (b.expb + n) }
def Bar.arrive (n : Nat) (b : Bar) : Bar := { b with pend := b.pend - n }
/-- R267: the phase is over. -/
def Bar.done (b : Bar) : Bool := b.pend = 0 && b.expb ≤ b.landed
def Bar.complete (b : Bar) : Bar :=
  { b with phase := (b.phase + 1) % 2 ^ 16, landed := b.landed - b.expb, expb := 0, pend := b.arr }
/-- Phase n is complete at a phase count. -/
def phaseDone (phase n : Nat) : Bool :=
  let d := (phase + 2 ^ 16 - n % 2 ^ 16) % 2 ^ 16
  1 ≤ d && d ≤ 32767

def State.barAt (s : State) (blk off : Nat) : Bar := .ofBytes ((s.block blk).bytes off 16)

/-! ## The canonical tree (R318) -/

/-- One level: pairs combined, left operand first, an odd last element carried up. -/
def treeLevel {α : Type} (f : α → α → α) : List (Option α) → List (Option α)
  | x :: y :: r =>
    (match x, y with
     | some a, some b => some (f a b)
     | some a, none => some a
     | none, y => y) :: treeLevel f r
  | l => l
def treeGo {α : Type} (f : α → α → α) : Nat → List (Option α) → Option α
  | _, [] => none
  | _, [x] => x
  | 0, _ => none
  | n + 1, l => treeGo f n (treeLevel f l)
/-- tree(x[0 .. P − 1]). -/
def tree {α : Type} (f : α → α → α) (l : List (Option α)) : Option α := treeGo f l.length l

/-! ## Fixed-order flushes (R390) -/

/-- Memory becomes round_rne(memory + sum, FP32) at the home. -/
def State.flushAdd (s : State) (die ctx addr : Nat) (v : W32) : State :=
  let m : W32 := BitVec.ofNat 32 (ofBytes (s.mem.bytes addr 4))
  s.applyBody { pieces := piecesOf addr (toBytes 4 (addRne m v)), sides := [] } (s.die die).clock (s.tagOf ctx) none
/-- The sums of contributions by address: each the tree over the given teams, in order. -/
def flushSums (who : List (Nat × Nat)) (cs : List (Nat × Nat × Nat × W32)) : List (Nat × W32) :=
  (sortNat (cs.map (fun c => c.2.2.1))).filterMap (fun a =>
    (tree addRne (who.map (fun (b, t) =>
      (first (fun (c : Nat × Nat × Nat × W32) => c.1 = b && c.2.1 = t && c.2.2.1 = a) cs).map (fun c => c.2.2.2)))).map
      (fun v => (a, v)))
/-- Member teams of a yard, by block and then team. -/
def yardTeams (e : BitVec 128) : List (Nat × Nat) :=
  (upTo (yardNblk e)).flatMap (fun k => (lanesOf (yardMask e)).map (fun t => (yardFirst e + k * yardStride e, t)))
/-- The flush of a phase of yard y of a launch. -/
def State.flushYard (s : State) (launch y phase die : Nat) : State :=
  let l := s.launch launch
  let e := (look y l.yards).getD 0
  let mine := fun (c : Contrib) => c.yard = y && c.phase.toNat = phase
  let cs := (l.contribs.filter mine).map (fun c => (c.block, c.team, c.addr, c.val))
  let s := (flushSums (yardTeams e) cs).foldl (fun s (a, v) => s.flushAdd die l.ctx a v) s
  s.modLaunch launch (fun l => { l with contribs := l.contribs.filter (fun c => !mine c) })

/-! ## Writing objects -/

/-- The yard whose barrier stands at an offset of a block. -/
def Launch.yardAt (l : Launch) (blk off : Nat) : Option Nat :=
  (first (fun (y : Nat × BitVec 128) => yardFirst y.2 = blk && yardBarOff y.2 = off) l.yards).map Prod.fst
/-- The object written with an agent's clock. -/
def State.barPut (s : State) (blk off : Nat) (b : Bar) (by_ : Option Nat) : State :=
  s.spadWrite blk off b.bytes (s.die (s.block blk).die).clock by_
/-- A change of an object, then the completion check of R267; a yard phase under FIXEDORDER is flushed first. -/
def State.barChange (s : State) (blk off : Nat) (by_ : Option Nat) (f : Bar → Bar) : State :=
  let b := f (s.barAt blk off)
  if b.done then
    let bk := s.block blk
    let l := s.launch bk.launch
    let s := match b.kind = 2 && l.fixed, l.yardAt bk.idx off with
      | true, some y => s.flushYard bk.launch y b.phase bk.die
      | _, _ => s
    s.barPut blk off b.complete by_
  else s.barPut blk off b by_

/-! ## What an object has counted (R123) -/

def Block.meta (b : Block) (off : Nat) : BarMeta :=
  (first (fun (m : BarMeta) => m.off = off) b.bars).getD { off := off, stamp := .zero, scope := .blk }
/-- An arrival or a landing counted with its stamp and scope. -/
def State.barNote (s : State) (blk off : Nat) (stamp : Clock) (scope : Scope) : State :=
  s.modBlock blk (fun b =>
    let m := b.meta off
    { b with bars := { m with stamp := joinClk m.stamp stamp, scope := m.scope.max scope } :: b.bars.filter (·.off ≠ off) })
def State.barForget (s : State) (blk off : Nat) : State :=
  s.modBlock blk (fun b => { b with bars := b.bars.filter (·.off ≠ off) })
/-- A landing of bytes on an object (R300): counted with its stamp and scope, or nothing when it is no counting barrier. -/
def State.barLand (s : State) (blk off n : Nat) (stamp : Clock) (scope : Scope) : Option State :=
  if (s.barAt blk off).counts then some ((s.barNote blk off stamp scope).barChange blk off none (Bar.land n)) else none

end Sys2Proof.Machine
end

