-- ==== Sys2Proof/Machine/Sync.lean ====
section
/-! DEFINITION. Fences, barriers, watches and the store-lane queries (09_ref_memory_sync_try.md R265 to R278;
04_ordering_and_visibility.md R115 to R118, R123, R124). -/

namespace Sys2Proof.Machine

/-! ## Fences (R117, R118, R265) -/

def execFence (g : Guard) (sc : Scope) (k : FenceKind) (s : State) : Host.Outcome State Fault Refusal :=
  s.issue (fun x => do
    let act := x.act g
    let t ← x.enter s act [] [] (k ≠ .r)
    if act = 0 then .ok (s.setTeam x.u (t.finish x.off [] [] 0 1))
    else
      x.mayAccess s
      need (!s.accessPending x.u) (.stall (k ≠ .r))
      let s ← if k = .r then .ok s else x.release s sc
      let t := if k = .w then t else { t with seen := .zero }
      let s := if k = .w then s else s.acquireAt x.b.die x.b.core sc x.t.seen
      .ok (s.setTeam x.u (t.finish x.off [] [] 0 1)))

/-- The fence another path of the team stands at is still there. -/
def Team.fenceLive (t : Team) (f : ScFence) : Bool :=
  match (t.side f.off).path with
  | some p => p.pc = f.pc
  | none => false
/-- R118: step 1 here, step 2 and 3 at the sequencer (SC_FENCE_SEQUENCE), step 4 here. -/
def execFenceDevSc (g : Guard) (s : State) : Host.Outcome State Fault Refusal :=
  s.issue (fun x => do
    let act := x.act g
    let t ← x.enter s act [] [] true
    if act = 0 then .ok (s.setTeam x.u (t.finish x.off [] [] 0 1))
    else
      let mine : ScFence := { off := x.off, pc := x.p.pc, passed := false }
      let begin_ : Except Halt State := do
        need (!s.accessPending x.u && t.queue = [] && !s.writesPending x.u && !s.fabricWrites x.u
        && !s.net.mirrors.any (fun m => m.src = x.u)) (.stall true)
        let s := s.setTeam x.u { t with scFence := some mine }
        .ok { s with net := { s.net with scq := s.net.scq ++ [x.u] } }
      match t.scFence with
      | none => begin_
      | some f =>
        if f.off = x.off && f.pc = x.p.pc then
          if f.passed then
            .ok ((s.discardL1 x.b.die x.b.core).setTeam x.u ({ t with scFence := none, seen := .zero }.finish x.off [] [] 0 1))
          else .error (.stall true)
        else if f.passed && !t.fenceLive f then begin_
        else .error (.stall true))

/-! ## Barrier objects named by an instruction (R268, R269) -/

def barUses : BarRef → List SrcUse
  | .local a => [src .s a]
  | .yard _ => []
/-- The block of a launch with an index. -/
def State.blockOf (s : State) (launch idx : Nat) : Option Nat :=
  (first (fun (y : Nat × Block) => y.2.launch = launch && y.2.idx = idx) s.blocks).map Prod.fst
/-- An object: its block, its offset, and the wait object that names it (Table 15.8; a yard's in the upper half). -/
structure BarLoc where
  blk : Nat
  off : Nat
  obj : Nat
/-- An object of the team's own block. Its faults are taken inside a region too: WAIT and TESTP act there as outside it (Table 09.11). -/
def Iss.localBar (x : Iss) (s : State) (acc : Nat) (a : Sel) : Except Halt BarLoc := do
  let v ← x.scal true a
  ({ x with t := { x.t with region := none } } : Iss).checkOffs acc true 16 x.l.spadBytes 0x0204 [(0, v.toNat)]
  if acc = accStore then x.notLocked s 16 [(0, v.toNat)] else .ok ()
  .ok { blk := x.t.block, off := v.toNat, obj := v.toNat }
def Iss.yardBar (x : Iss) (s : State) (k : Nat) : Except Halt BarLoc :=
  match x.yard k with
  | none => .error (.fault (illegalOperand 0x13 0))
  | some (i, e) =>
    match s.blockOf x.b.launch (yardFirst e) with
    | some blk => .ok { blk := blk, off := yardBarOff e, obj := 2 ^ 32 * (i + 1) + yardBarOff e }
    | none => .error (.stall false)
def Iss.barLoc (x : Iss) (s : State) (acc : Nat) : BarRef → Except Halt BarLoc
  | .local a => x.localBar s acc a
  | .yard k => x.yardBar s k.toNat
/-- The barrier fault (R268). -/
def barFault (off kind : Nat) : Halt := .fault { plainFault 0x0308 kind with addr := off }
/-- KIND 0, a reserved KIND or a reserved field that is not zero; a watch object where it is a misuse. -/
def barOk (b : Bar) (watch : Bool) (off : Nat) : Except Halt Unit :=
  need (b.clean && b.kind ≠ 0 && b.kind < 4 && (watch || b.kind ≠ 3)) (barFault off b.kind)

/-- R270. -/
def execBinit (g : Guard) (a : Sel) (n : BCount) (s : State) : Host.Outcome State Fault Refusal :=
  s.issue (fun x => do
    let act := x.act g
    let us := [src .s a] ++ (match n with | .sel c => [src .s c] | .imm _ => [])
    let t ← x.enter s act us [] false
    if act = 0 then .ok (s.setTeam x.u (t.finish x.off us [] 0 1))
    else
      x.notInTry
      x.mayAccess s
      let c ← match n with
        | .sel c => x.scal true c
        | .imm i => .ok (i.setWidth 64)
      need (1 ≤ c.toNat && c.toNat ≤ 65535) (.fault (illegalOperand 0x11 (match n with | .sel c => (encSel c).toNat | .imm _ => 0)))
      let p ← x.localBar s accStore a
      need ((s.barAt p.blk p.off).kind < 2) (barFault p.off (s.barAt p.blk p.off).kind)
      let s := (s.barForget p.blk p.off).barPut p.blk p.off (.new 1 c.toNat) (some x.u)
      .ok (s.setTeam x.u (t.finish x.off us [] 0 1)))

/-- A count operand: bits [15:0] of its scalar, 1 without one. -/
def cntUses : Option Sel → List SrcUse
  | some c => [src .s c]
  | none => []
def Iss.count (x : Iss) : Option Sel → Except Halt Nat
  | some c => do
    let v ← x.scal true c
    .ok (bits v 0 16)
  | none => .ok 1

/-- R271, a local arrival. -/
def execArrive (g : Guard) (a : Sel) (cnt : Option Sel) (sc : Option Scope) (s : State) :
    Host.Outcome State Fault Refusal :=
  s.issue (fun x => do
    let act := x.act g
    let us := src .s a :: cntUses cnt
    let t ← x.enter s act us [] true
    if act = 0 then .ok (s.setTeam x.u (t.finish x.off us [] 0 1))
    else
      x.notInTry
      x.mayAccess s
      let n ← x.count cnt
      let p ← x.localBar s accStore a
      let scope := sc.getD .blk
      let s ← x.release s scope
      let b := s.barAt p.blk p.off
      barOk b false p.off
      need (n ≤ b.pend) (barFault p.off b.kind)
      let s := if n = 0 then s
        else (s.barNote p.blk p.off (s.die x.b.die).clock scope).barChange p.blk p.off (some x.u) (Bar.arrive n)
      .ok (s.setTeam x.u (t.finish x.off us [] 0 1)))

/-- Slots moved into a contribution: an address already there adds to it (R390). -/
def contribute (cs : List Contrib) (y blk team : Nat) (ph : W16) : List (Nat × W32) → List Contrib
  | [] => cs
  | (a, v) :: r =>
    let hit := fun (c : Contrib) => c.yard = y && c.phase = ph && c.block = blk && c.team = team && c.addr = a
    let cs := if cs.any hit then cs.map (fun c => if hit c then { c with val := addRne c.val v } else c)
      else cs ++ [{ yard := y, phase := ph, block := blk, team := team, addr := a, val := v }]
    contribute cs y blk team ph r

/-- R271, an arrival sent to a yard barrier. -/
def execArriveYard (g : Guard) (k : BitVec 2) (cnt : Option Sel) (_dev : Bool) (s : State) :
    Host.Outcome State Fault Refusal :=
  s.issue (fun x => do
    let act := x.act g
    let us := cntUses cnt
    let t ← x.enter s act us [] true
    if act = 0 then .ok (s.setTeam x.u (t.finish x.off us [] 0 1))
    else
      x.notInTry
      x.mayAccess s
      let n ← x.count cnt
      match x.yard k.toNat with
      | none => .error (.fault (illegalOperand 0x13 0))
      | some (y, e) =>
        let s ← x.release s .dev
        if n = 0 then .ok (s.setTeam x.u (t.finish x.off us [] 0 1))
        else
          let ph := match s.blockOf x.b.launch (yardFirst e) with
            | some blk => BitVec.ofNat 16 (s.barAt blk (yardBarOff e)).phase
            | none => 0
          let s := if x.l.fixed then
              s.modLaunch x.b.launch (fun l => { l with contribs := contribute l.contribs y x.b.idx x.t.idx ph t.slots })
            else s
          let t := if x.l.fixed then { t with slots := [] } else t
          let m : Arrival := { launch := x.b.launch, yard := y, count := n, team := x.u, blockIdx := x.b.idx,
                               teamIdx := x.t.idx, pc := x.p.pc, off := x.off, die := x.b.die, stamp := (s.die x.b.die).clock, ctx := x.c }
          .ok ((s.setNet (fun n => { n with arrivals := n.arrivals ++ [m] })).setTeam x.u (t.finish x.off us [] 0 1)))

/-- R272. -/
def execExpect (g : Guard) (r : BarRef) (b : Sel) (s : State) : Host.Outcome State Fault Refusal :=
  s.issue (fun x => do
    let act := x.act g
    let us := barUses r ++ [src .s b]
    let t ← x.enter s act us [] false
    if act = 0 then .ok (s.setTeam x.u (t.finish x.off us [] 0 1))
    else
      x.notInTry
      x.mayAccess s
      let v ← x.scal true b
      let p ← x.barLoc s accStore r
      need (!s.spadLocked p.blk p.off 16 (some x.u)) (.stall false)
      barOk (s.barAt p.blk p.off) false p.off
      .ok ((s.barChange p.blk p.off (some x.u) (Bar.expect (bits v 0 32))).setTeam x.u (t.finish x.off us [] 0 1)))

/-! ## Waiting (R273, R274) -/

/-- The acquire of a completed phase (R123). -/
def State.barAcquire (s : State) (x : Iss) (p : BarLoc) : State :=
  let m := (s.block p.blk).meta p.off
  s.acquireAt x.b.die x.b.core m.scope m.stamp

def execWait (g : Guard) (r : BarRef) (b : Sel) (s : State) : Host.Outcome State Fault Refusal :=
  s.issue (fun x => do
    let act := x.act g
    let us := barUses r ++ [src .s b]
    let t ← x.enter s act us [] true
    if act = 0 then .ok (s.setTeam x.u (t.finish x.off us [] 0 1))
    else
      x.mayAccess s
      let v ← x.scal true b
      let p ← x.barLoc s accLoad r
      let o := s.barAt p.blk p.off
      barOk o true p.off
      need (phaseDone o.phase (bits v 0 16)) (.wait (.on (if o.kind = 3 then .watch else .barrier) p.obj))
      let s := if o.kind = 3 then s else s.barAcquire x p
      let t := if o.kind = 3 then t else { t with seen := .zero }
      .ok (s.setTeam x.u (t.finish x.off us [] 0 1)))

/-- R274: a phase that no CBATCH has closed yet. -/
def Team.batchClosed (t : Team) (n : Nat) : Bool := 32768 ≤ (n + 2 ^ 16 - t.batch.closed.toNat) % 2 ^ 16
/-- The wait object of a batch wait. -/
def batchObj : Nat := 2 ^ 62
def State.batchAcquire (s : State) (x : Iss) : State :=
  s.acquireAt x.b.die x.b.core x.t.batch.scope x.t.batch.stamp
def execWaitBatch (g : Guard) (b : Sel) (s : State) : Host.Outcome State Fault Refusal :=
  s.issue (fun x => do
    let act := x.act g
    let us := [src .s b]
    let t ← x.enter s act us [] true
    if act = 0 then .ok (s.setTeam x.u (t.finish x.off us [] 0 1))
    else
      x.mayAccess s
      let v ← x.scal true b
      need (t.batchClosed (bits v 0 16)) (.fault (illegalOperand 0x12 0))
      need (phaseDone t.batch.phase.toNat (bits v 0 16)) (.wait (.on .barrier batchObj))
      .ok ((s.batchAcquire x).setTeam x.u ({ t with seen := .zero }.finish x.off us [] 0 1)))

/-- R273: the completion test into a predicate; it acquires only when the phase is complete. -/
def execTestp (g : Guard) (p : BitVec 4) (r : TestRef) (b : Sel) (s : State) : Host.Outcome State Fault Refusal :=
  s.issue (fun x => do
    let act := x.act g
    let us := (match r with | .bar r => barUses r | .batch => []) ++ [src .s b]
    let t ← x.enter s act us [] false
    let fin := fun (s : State) (d acq : Bool) =>
      s.setTeam x.u ((if acq then { t with seen := .zero } else t).finish x.off us [.pred p.toNat act (if d then allLanes else 0)] 0 1)
    if act = 0 then .ok (fin s false false)
    else
      x.mayAccess s
      let v ← x.scal true b
      let n := bits v 0 16
      match r with
      | .batch =>
        need (t.batchClosed n) (.fault (illegalOperand 0x12 0))
        let d := phaseDone t.batch.phase.toNat n
        .ok (fin (if d then s.batchAcquire x else s) d d)
      | .bar r =>
        let q ← x.barLoc s accLoad r
        let o := s.barAt q.blk q.off
        barOk o true q.off
        let d := phaseDone o.phase n
        let acq := d && o.kind ≠ 3
        .ok (fin (if acq then s.barAcquire x q else s) d acq))

/-! ## Watches (R275 to R277) -/

/-- The monitor bound to an object. -/
def Monitor.at_ (m : Monitor) (blk off : Nat) : Bool := m.block = blk && m.off = off
def execWatch (g : Guard) (d : Dst) (a b : Sel) (s : State) : Host.Outcome State Fault Refusal :=
  s.issue (fun x => do
    let act := x.act g
    let us := [src .s a, src .s b]
    let t ← x.enter s act us (dstUses .s d) false
    let fin := fun (s : State) (v : W64) =>
      s.setTeam x.u (t.finish x.off us [.scal d.idx.toNat d.ws (act ≠ 0) v none] 0 1)
    if act = 0 then .ok (fin s 0)
    else
      x.notInTry
      x.mayAccess s
      let va ← x.scal true b
      let p ← x.localBar s accStore a
      let k := (s.barAt p.blk p.off).kind
      need (k = 0 || k = 3) (barFault p.off k)
      let (s, as) ← x.globalAccs s accLoad true .rd 1 [(0, va.toNat)]
      walkedBy (as.map (·.va)) do
        let pa := (as.map (·.pa)).headD 0
        let ms := (s.coreAt x.b.die x.b.core).monitors.filter (fun m => !m.at_ p.blk p.off)
        if isFabric pa then .ok (fin s 2)
        else if Config.monitors ≤ ms.length || 4 ≤ (ms.filter (fun m => m.team = x.u)).length then .ok (fin s 1)
        else
          let m : Monitor := { id := s.uid, block := p.blk, off := p.off, sector := pa / 32, team := x.u }
          let s := s.bump.modCore x.b.die x.b.core (fun c => { c with monitors := ms ++ [m] })
          .ok (fin ((s.barForget p.blk p.off).barPut p.blk p.off (.new 3 0) (some x.u)) 0))

def execUnwatch (g : Guard) (a : Sel) (s : State) : Host.Outcome State Fault Refusal :=
  s.issue (fun x => do
    let act := x.act g
    let us := [src .s a]
    let t ← x.enter s act us [] false
    if act = 0 then .ok (s.setTeam x.u (t.finish x.off us [] 0 1))
    else
      x.notInTry
      x.mayAccess s
      let p ← x.localBar s accStore a
      let o := s.barAt p.blk p.off
      barOk o true p.off
      need (o.kind = 3) (barFault p.off o.kind)
      let s := s.modCore x.b.die x.b.core (fun c => { c with monitors := c.monitors.filter (fun m => !m.at_ p.blk p.off) })
      let s := s.barPut p.blk p.off { o with low := fieldN o.low 8 1 * 256 } (some x.u)
      .ok (s.setTeam x.u (t.finish x.off us [] 0 1)))

/-! ## Queries (R278, R288) -/

/-- A scalar that is a snapshot of the team's own state. -/
def Iss.snapshot (x : Iss) (s : State) (g : Guard) (d : Dst) (v : W64) : Except Halt State := do
  let act := x.act g
  let t ← x.enter s act [] (dstUses .s d) false
  .ok (s.setTeam x.u (t.finish x.off [] [.scal d.idx.toNat d.ws (act ≠ 0) v none] 0 1))
def execSqocc (g : Guard) (d : Dst) (s : State) : Host.Outcome State Fault Refusal :=
  s.issue (fun x => x.snapshot s g d (w64 x.t.queue.length))
def execSbget (g : Guard) (d : Dst) (s : State) : Host.Outcome State Fault Refusal :=
  s.issue (fun x => x.snapshot s g d (w64 (s.budget x.b.die x.c).chute))
def execTstat (g : Guard) (d : Dst) (k : BitVec 2) (s : State) : Host.Outcome State Fault Refusal :=
  s.issue (fun x => x.snapshot s g d (nth x.t.trystat k.toNat 0))

end Sys2Proof.Machine
end

