-- ==== Sys2Proof/Machine/Engines.lean ====
section
/-! DEFINITION. The issue of engine instructions: parameter blocks and their markers, CPY and batches, harnesses and joint
instructions, the tile store and activation tables, transfers, mirrored windows and signal ports (10_ref_engines.md R291 to
R328; 01_teams_blocks_yards.md R28 to R30). COLL stands in Coll.lean. -/

namespace Sys2Proof.Machine

/-! ## What engine instructions share (R292) -/

/-- An instruction that may block before it ends: its meaning, or the machine in which its side now waits. -/
def State.issueOr (s : State) (f : Iss → Except Halt (State × Option Wait)) : Host.Outcome State Fault Refusal :=
  match s.issuing with
  | none => .refused .noIssuingPath
  | some x =>
    match f x with
    | .ok (s', none) => .next (s'.issued x.u x.off)
    | .ok (s', some w) =>
      let s' := s'.modTeam x.u (fun t => { t.setSide x.off { (t.side x.off).clear with wait := w } with turn := !x.off })
      .next { s' with run := { s'.run with cur := none } }
    | .error h => .next (s.stop x h)

/-- The illegal-operand fault "engine parameter". -/
def engineParam : Halt := .fault (illegalOperand 0x14 0)
def needParam (c : Bool) : Except Halt Unit := need c engineParam
/-- ACCESS code of an engine (Table 16.3). -/
def accEngine : Nat := 5
/-- The barrier object an engine instruction names. -/
def Iss.engBar (x : Iss) (s : State) (off : Nat) : Except Halt Unit := do
  x.checkOffs accEngine true 16 x.l.spadBytes 0x0204 [(0, off)]
  let b := s.barAt x.t.block off
  need b.counts (barFault off b.kind)
/-- BLOCKID × 32 + TEAMID (R57). -/
def Iss.key (x : Iss) : Nat := 32 * x.b.idx + x.t.idx
/-- The issuing core's matrix engine and copy unit. -/
def Iss.core (x : Iss) (s : State) : Core := s.coreAt x.b.die x.b.core

/-! ## Substitution (R154, R155) -/

/-- A field that may hold a marker: word, position, width. -/
structure MField where
  w : Nat
  lo : Nat
  wd : Nat
def cpyFields : List MField := [⟨0, 0, 64⟩, ⟨1, 0, 64⟩, ⟨2, 32, 32⟩, ⟨2, 16, 16⟩, ⟨2, 0, 16⟩, ⟨3, 48, 16⟩, ⟨3, 32, 16⟩]
def mmaFields : List MField :=
  [⟨0, 32, 32⟩, ⟨0, 16, 16⟩, ⟨1, 32, 32⟩, ⟨1, 16, 16⟩, ⟨2, 48, 16⟩, ⟨2, 32, 16⟩, ⟨2, 16, 16⟩, ⟨2, 0, 16⟩]
def collFields : List MField := [⟨0, 32, 32⟩, ⟨0, 0, 32⟩, ⟨1, 32, 32⟩, ⟨1, 0, 32⟩, ⟨2, 0, 64⟩, ⟨3, 48, 16⟩, ⟨3, 32, 16⟩]
def blockWord (p : PBlock) : Nat → W64
  | 0 => p.w0 | 1 => p.w1 | 2 => p.w2 | _ => p.w3
def setBlockWord (p : PBlock) (i : Nat) (v : W64) : PBlock :=
  match i with
  | 0 => { p with w0 := v } | 1 => { p with w1 := v } | 2 => { p with w2 := v } | _ => { p with w3 := v }
def MField.get (f : MField) (p : PBlock) : Nat := bits (blockWord p f.w) f.lo f.wd
def MField.put (f : MField) (p : PBlock) (v : Nat) : PBlock :=
  let w := (blockWord p f.w).toNat
  setBlockWord p f.w (w64 (w - fieldN w f.lo f.wd * 2 ^ f.lo + v % 2 ^ f.wd * 2 ^ f.lo))
/-- The scalar that a field's marker names. -/
def MField.marker (f : MField) (p : PBlock) : Option Nat :=
  let v := f.get p
  if v / 256 = 2 ^ (f.wd - 8) - 1 then some (v % 256) else none
def markSel (i : Nat) : Sel := .reg (BitVec.ofNat 8 i) false
def markUses (fs : List MField) (p : PBlock) : List SrcUse :=
  fs.filterMap (fun f => (f.marker p).map (fun i => src .s (markSel i)))
/-- The block with every marker replaced by its scalar's value at issue. -/
def Iss.substitute (x : Iss) (p : PBlock) : List MField → Except Halt PBlock
  | [] => .ok p
  | f :: r =>
    match f.marker p with
    | none => x.substitute p r
    | some i => do
      let v ← x.scal true (markSel i)
      let q ← x.substitute p r
      .ok (f.put q v.toNat)
/-- A block as R29 and R316 compare it: fields alike but for the registers its markers name. -/
def sameBlock (fs : List MField) (p q : PBlock) : Bool :=
  let blank := fun (b : PBlock) => fs.foldl (fun (y : PBlock) f => match f.marker b with
    | some _ => f.put y (2 ^ f.wd - 256)
    | none => y) b
  blank p = blank q

/-! ## CPY and CBATCH (R296 to R302) -/

/-- The checks of R299 but for the barrier object's; fm gives the source lines' formats. -/
def cpyOk (p : PBlock) (l : Launch) (fm : Nat → Nat → Nat) : Bool :=
  let xf := cpyXform p
  let rows := cpyRows p
  let fmtOk := if xf = 1 || xf = 3 then 1 ≤ cpyFmt p && cpyFmt p ≤ 6
    else if xf = 5 then cpyFmt p ≤ 6 else cpyFmt p = 0
  1 ≤ rows && rows ≤ 65279 && cpyDir p < 3 && xf ≤ 5 && fmtOk
    && 2 ≤ cpyScopeCode p && cpyScopeCode p ≤ 4 && cpyRnd p ≤ 4
    && (xf = 0 || (p.w0.toNat % 128 = 0 && p.w1.toNat % 128 = 0 && cpyLen p ≠ 0 && cpyLen p % 128 = 0
          && cpySstr p ≠ 0 && cpyDstr p ≠ 0))
    && (xf ≠ 0 || rows ≤ 1 || cpyDstr p ≠ 0)
    && (xf < 4 || (rows ≤ 4096 && cpyLines p ≤ 128 && rowElems p (fm 0) ≤ 4096))
    && (xf ≠ 5 || cpyFmt p = 0 || rows % 32 = 0)
    && (cpySrcSpan p).fits (if cpyDir p = 0 then 2 ^ 57 else l.spadBytes)
    && (cpyDstSpans p fm).all (fun y => y.fits (if cpyDir p = 1 then 2 ^ 57 else l.spadBytes))
    && (!cpyBatch p || cpyBar p = 0)
    && (!cpyCens p || (!cpyBatch p && cpyBar p + 24 ≤ l.spadBytes))

/-- The open batch owes one copy more. -/
def Batch.owe (b : Batch) : Batch := { b with owed := modAt (b.owed.length - 1) (· + 1) b.owed }
/-- Batches pass in order, each once all its copies have landed (R274). -/
def settleGo : Nat → Batch → Batch
  | 0, b => b
  | n + 1, b =>
    match b.owed with
    | 0 :: r => if r = [] then b else settleGo n { b with phase := b.phase + 1, owed := r }
    | _ => b
def Batch.settle (b : Batch) : Batch := settleGo b.owed.length b

def execCpy (g : Guard) (pb : PBlock) (s : State) : Host.Outcome State Fault Refusal :=
  s.issue (fun x => do
    let act := x.act g
    let us := markUses cpyFields pb
    let t ← x.enter s act us [] true
    if act = 0 then .ok (s.setTeam x.u ({ t with draw := if cpyRnd pb = 4 then t.draw + 1 else t.draw }.finish x.off us [] 0 5))
    else
      x.notInTry
      x.mayAccess s
      let p ← x.substitute pb cpyFields
      let fm := s.cpyFormat x.b.die x.c x.t.block x.u p
      needParam (cpyOk p x.l fm)
      if cpyBatch p then .ok () else x.engBar s (cpyBar p)
      need ((x.core s).copies.length < Config.copySlots) (.stall true)
      let s ← x.release s (cpyScope p)
      let c : Copy := { id := s.uid, block := x.t.block, team := x.u, off := x.off, paid := 0, pc := x.p.pc, pb := p, ctx := x.c, key := x.key,
                        draw := t.draw, batch := if cpyBatch p then some t.batch.closed else none, landed := [],
                        paused := none, stamp := (s.die x.b.die).clock, leases := cpyLeases p fm }
      let some_ := cpyLen p ≠ 0
      let t := if some_ && cpyBatch p then { t with batch := t.batch.owe } else t
      let t := if cpyRnd p = 4 then { t with draw := t.draw + 1 } else t
      let s := (s.modCore x.b.die x.b.core (fun k => if some_ then { k with copies := k.copies ++ [c] } else k)).bump
      .ok (s.setTeam x.u (t.finish x.off us [] 0 5)))

/-- R302: the closed count goes to the destination, and a new batch opens. -/
def execCbatch (g : Guard) (d : Dst) (s : State) : Host.Outcome State Fault Refusal :=
  s.issue (fun x => do
    let act := x.act g
    let t ← x.enter s act [] (dstUses .s d) false
    let c := t.batch.closed
    if act = 0 then .ok (s.setTeam x.u (t.finish x.off [] [.scal d.idx.toNat d.ws false 0 none] 0 1))
    else
      x.notInTry
      let b := { t.batch with closed := c + 1, owed := t.batch.owed ++ [0] }
      .ok (s.setTeam x.u ({ t with batch := b.settle }.finish x.off [] [.scal d.idx.toNat d.ws true (c.setWidth 64) none] 0 1)))

/-! ## Harnesses (R28, R303) -/

/-- A HARN that its harness's convening completes: that of the side that waits. A path that waited at HARN and has been pushed to the loft by
the other side's BRC issues its HARN again when it is popped, and takes the misuse fault then, a choice of the model (log 70). -/
def Team.convene (t : Team) (h : Nat) : Team :=
  let go := fun (t : Team) (off : Bool) => match (t.side off).wait with
    | .on .harness obj =>
      if obj = h then
        let t := t.advance off 1
        { t.setSide off { t.side off with wait := .none } with waited := 0 }
      else t
    | _ => t
  go (go t false) true
/-- The harness forms: the failed marks of its slots clear, the members that wait go on. -/
def State.convene (s : State) (blk h : Nat) (ms : List Nat) : State :=
  let s := s.modBlock blk (fun b => b.modHarness h (fun y =>
    { y with convened := true, left := [], joints := [], done := 0,
             slots := y.slots.map (fun z => { z with failed := false }) }))
  ms.foldl (fun s u => s.modTeam u (fun t => t.convene h)) s

/-- HARN (R28). For a harness that has convened with another number of members both a misuse row and the row that blocks of Table 01.7 hold,
and the spec does not order them: the model lets it block, a choice of the model (log 84). -/
def execHarn (g : Guard) (n : BitVec 4) (h : BitVec 3) (s : State) : Host.Outcome State Fault Refusal :=
  s.issueOr (fun x => do
    let act := x.act g
    let t ← x.enter s act [] [] true
    if act = 0 then .ok (s.setTeam x.u (t.finish x.off [] [] 0 1), none)
    else
      x.notInTry
      let n := n.toNat
      let h := h.toNat
      need (1 ≤ n && n ≤ 8 && h ≤ 3) (.fault (illegalOperand 0x05 0))
      let y := x.b.harness h
      let w : Wait := .on .harness h
      match t.harness with
      | some (k, _) =>
        need (k = h && !y.convened && (t.side x.off).wait = w) (.fault (illegalOperand 0x05 0))
        .error (.wait w)
      | none =>
        if y.convened then .error (.wait w)
        else
          need (y.members = [] || y.size = n) (.fault (harnessFault h false))
          let ms := y.members ++ [x.u]
          let s := s.modBlock x.t.block (fun b => b.modHarness h (fun y => { y with size := n, members := ms }))
          let t := { t with harness := some (h, 0) }
          if ms.length < n then .ok (s.setTeam x.u t, some w)
          else .ok ((s.convene x.t.block h y.members).setTeam x.u (t.finish x.off [] [] 0 1), none))

/-- A member leaves; the last one to leave releases the harness. -/
def Harness.leave (y : Harness) (u : Nat) : Harness :=
  if y.convened then
    let y := { y with left := y.left ++ [u] }
    if y.members.all y.left.contains then y.dissolve else y
  else { y with members := y.members.filter (· ≠ u) }
/-- UNHARN. -/
def execUnharn (g : Guard) (s : State) : Host.Outcome State Fault Refusal :=
  s.issue (fun x => do
    let act := x.act g
    let t ← x.enter s act [] [] false
    if act = 0 then .ok (s.setTeam x.u (t.finish x.off [] [] 0 1))
    else
      x.notInTry
      match t.harness with
      | none => .error (.fault (illegalOperand 0x15 0))
      | some (h, _) =>
        .ok ((s.modBlock x.t.block (fun b => b.modHarness h (fun y => y.leave x.u))).setTeam x.u
          ({ t with harness := none }.finish x.off [] [] 0 1)))

/-! ## The matrix engine's queue (R304, R305) -/

/-- An entry joins the queue; its slot counts it. -/
def State.enqueue (s : State) (die core : Nat) (e : MqEntry) : State :=
  let s := s.modCore die core (fun c => { c with mq := c.mq ++ [e] })
  match e.slot with
  | none => s
  | some (h, k) => s.modBlock e.block (fun b => b.modHarness h (fun y =>
      { y with slots := modAt k (fun z => { z with pend := z.pend ++ [e.id] }) y.slots }))
/-- A full queue holds the team at its instruction. -/
def Iss.mqRoom (x : Iss) (s : State) : Except Halt Unit :=
  need ((x.core s).mq.length < Config.matrixQueue) (.stall false)
/-- The slots a mask names. -/
def maskSlots (m : Nat) : List Nat := (upTo 16).filter (fun k => m / 2 ^ k % 2 = 1)
def Harness.slot (y : Harness) (k : Nat) : DepSlot := nth y.slots k { pend := [], failed := false }
def Harness.pending (y : Harness) (m : Nat) : List Nat := (maskSlots m).flatMap (fun k => (y.slot k).pend)
def Harness.bad (y : Harness) (m : Nat) : Bool := (maskSlots m).any (fun k => (y.slot k).failed)
/-- An entry of one team. -/
def Iss.entry (x : Iss) (s : State) (op : MOp) (slot : Option SlotRef) : MqEntry :=
  { id := s.uid, block := x.t.block, team := x.u, h := 0, op := op, slot := slot.map (fun y => (y.h.toNat, y.k.toNat)),
    waits := [], doomed := false, older := .none_ }
/-- n bytes at a tile offset lie in the block's allocation, on whole rows. -/
def tileOk (l : Launch) (o n : Nat) : Bool := o % 128 = 0 && n % 128 = 0 && o + n ≤ l.tileBytes
def spadOk (l : Launch) (o n : Nat) : Bool := o % 128 = 0 && n % 128 = 0 && o + n ≤ l.spadBytes

/-! ## Joint instructions (R29, R303, R304, R306) -/

/-- A harness fault a team still owes, for its next matrix instruction or for a slot wait on a harness. -/
def Team.owed (t : Team) (h : Option Nat) : Option (Nat × Bool) :=
  match h with
  | none => t.owedFaults.head?
  | some h => first (fun y => y.1 = h) t.owedFaults
/-- The joint instruction is complete: its entry, and SLOTWs that wait for it name it from now on. -/
def State.complete (s : State) (x : Iss) (h : Nat) (y : Harness) (j : Joint) : State :=
  let p := j.parts.reverse.headD { team := 0, off := false, pc := 0, raw := ⟨0, 0, 0, 0⟩, pb := ⟨0, 0, 0, 0⟩, draw := 0, key := 0, zero := true }
  let op : MOp := if p.zero then .mzero p.pb.w0.toNat p.pb.w1.toNat else .mma j.parts
  let m := if p.zero then 0 else mmaWait p.pb
  let e : MqEntry := { id := s.uid, block := x.t.block, team := x.u, h := h, op := op,
                       slot := if p.zero then none else p.pb.mmaSlot.map (fun k => (h, k)),
                       waits := y.pending m, doomed := y.bad m, older := j.older }
  let s := (s.enqueue x.b.die x.b.core e).bump
  let s := s.modBlock x.t.block (fun b => b.modHarness h (fun y =>
    { y with joints := y.joints.filter (fun i => i.k ≠ j.k), done := y.done + 1 }))
  j.parts.foldl (fun (s : State) (q : JointPart) => s.modTeam q.team (fun t => { t with slotw := t.slotw.map (fun w =>
    if w.joints.contains j.k then { w with joints := w.joints.filter (· ≠ j.k), ids := w.ids ++ [e.id] } else w) })) s

/-- R29: the joint instruction is discarded and its slot marked failed; no SLOTW waits for it any more. Nothing is left to do where the kill of a
member has dissolved the harness with it. -/
def Harness.discard (y : Harness) (j : Joint) : Harness :=
  if y.joints.any (fun i => i.k = j.k) then
    let z := match j.slot with | some k => y.failSlot k | none => y
    { z with joints := z.joints.filter (fun i => i.k ≠ j.k), done := z.done + 1 }
  else y
def State.discard (s : State) (blk h : Nat) (j : Joint) : State :=
  let s := s.modBlock blk (fun b => b.modHarness h (fun y => y.discard j))
  j.parts.foldl (fun (s : State) q => s.modTeam q.team (fun t => { t with slotw := t.slotw.map (fun w =>
    { w with joints := w.joints.filter (· ≠ j.k) }) })) s
/-- R303: a departed member leaves the joint without its part; the instruction's slot is marked failed. -/
def Harness.orphan (y : Harness) (j : Joint) : Bool := y.left.any (fun u => !j.parts.any (fun p => p.team = u))
/-- A matrix instruction is a member's: in no harness, the fault still owed or the cause "no harness" (R30, R304). The check
comes before those of the operands (R308). -/
def noHarness (t : Team) : Halt :=
  .fault (match t.owed none with
    | some (h, ops) => harnessFault h ops
    | none => illegalOperand 0x15 0)
/-- The part of one member enters its joint instruction. -/
def Iss.joint (x : Iss) (s : State) (t : Team) (us : List SrcUse) (words : Nat) (p : JointPart) : Except Halt State :=
  match t.harness with
  | none => .error (noHarness t)
  | some (h, k) =>
    match t.owed (some h) with
    | some (_, ops) => .error (.fault (harnessFault h ops))
    | none => do
      let y := x.b.harness h
      need (k < y.done + 8) (.fault (harnessFault h false))
      let j : Joint := (first (fun (i : Joint) => i.k = k) y.joints).getD { k := k, parts := [], older := .none_ }
      let j := { j with parts := j.parts ++ [p] }
      let put := fun (s : State) => s.modBlock x.t.block (fun b => b.modHarness h (fun y =>
        { y with joints := y.joints.filter (fun i => i.k ≠ k) ++ [j] }))
      if y.orphan j then .ok ((put s).kill x.u x.off x.p.pc 0 (harnessFault h false))
      else
        let t := { t with harness := some (h, k + 1), draw := if !p.zero && mmaRnd p.pb = 4 then t.draw + 1 else t.draw }
        let go := fun (s : State) => s.setTeam x.u (t.finish x.off us [] 0 words)
        if j.parts.length < y.size then .ok (put (go s))
        else
          let bad := j.parts.filter (fun q => !(q.zero = p.zero
            && (if p.zero then q.raw = p.raw else sameBlock mmaFields q.raw p.raw)))
          match bad with
          | [] => do
            x.mqRoom s
            .ok ((go s).complete x h y j)
          | _ => .ok ((bad.foldl (fun s q => s.kill q.team q.off q.pc 0 (harnessFault h false)) (put (go s))).discard x.t.block h j)

/-- R308. -/
def mmaOk (p : PBlock) (l : Launch) : Bool :=
  let out := mmaOut p
  let desc := fun (w : W64) => bits w 13 3 = 0 && bits w 0 8 = 0 && mmaFmt w ≤ 6 && mmaOff w % 128 = 0
    && mmaRowLines p w ≤ mmaPitch w
  desc p.w0 && desc p.w1 && !bitOf p.w3 0 && mmaRnd p ≤ 4
    && (mmaEout p || !(mmaEbias p || mmaEact p || mmaEqnt p || mmaCens p))
    && (if mmaEqnt p then 1 ≤ mmaOfmt p && mmaOfmt p ≤ 6 else mmaOfmt p = 0)
    && (bitOf p.w3 31 || bits p.w3 32 4 = 0)
    && mmaToff p + 4 * mmaM p * mmaN p ≤ l.tileBytes
    && (mmaLeases p).all (fun y => y.fits l.spadBytes)
    && (!mmaEout p || (mmaOutLines p ≤ mmaOpitch p
          && !(out.meets (mmaA p) || out.meets (mmaB p) || out.meets (mmaBias p) || out.meets (mmaCensus p))))

def execMma (g : Guard) (pb : PBlock) (s : State) : Host.Outcome State Fault Refusal :=
  s.issue (fun x => do
    let act := x.act g
    let us := markUses mmaFields pb
    let t ← x.enter s act us [] false
    if act = 0 then .ok (s.setTeam x.u ({ t with draw := if mmaRnd pb = 4 then t.draw + 1 else t.draw }.finish x.off us [] 0 5))
    else
      x.notInTry
      x.mayAccess s
      need t.harness.isSome (noHarness t)
      let p ← x.substitute pb mmaFields
      needParam (mmaOk p x.l)
      x.joint s t us 5 { team := x.u, off := x.off, pc := x.p.pc, raw := pb, pb := p, draw := t.draw, key := x.key, zero := false })

def execMzero (g : Guard) (a b : Sel) (s : State) : Host.Outcome State Fault Refusal :=
  s.issue (fun x => do
    let act := x.act g
    let us := [src .s a, src .s b]
    let t ← x.enter s act us [] false
    if act = 0 then .ok (s.setTeam x.u (t.finish x.off us [] 0 1))
    else
      x.notInTry
      x.mayAccess s
      need t.harness.isSome (noHarness t)
      let o ← x.scal true a
      let n ← x.scal true b
      needParam (tileOk x.l o.toNat n.toNat)
      let p : PBlock := { w0 := o, w1 := n, w2 := 0, w3 := 0 }
      x.joint s t us 1 { team := x.u, off := x.off, pc := x.p.pc, raw := p, pb := p, draw := t.draw, key := x.key, zero := true })

/-- R306. -/
def execSlotw (g : Guard) (h : BitVec 2) (mask : BitVec 16) (s : State) : Host.Outcome State Fault Refusal :=
  s.issueOr (fun x => do
    let act := x.act g
    let t ← x.enter s act [] [] true
    if act = 0 then .ok (s.setTeam x.u (t.finish x.off [] [] 0 1), none)
    else
      x.notInTry
      x.mayAccess s
      let h := h.toNat
      let m := mask.toNat
      match t.owed (some h) with
      | some (_, ops) => .error (.fault (harnessFault h ops))
      | none =>
        let y := x.b.harness h
        need (!y.bad m) (.fault (harnessFault h false))
        let mine := fun (j : Joint) => j.parts.any (fun p => p.team = x.u
          && (match p.pb.mmaSlot with | some k => !p.zero && m / 2 ^ k % 2 = 1 | none => false))
        let now : SlotWait := { off := x.off, pc := x.p.pc, ids := y.pending m, joints := (y.joints.filter mine).map (·.k) }
        let w := (first (fun (w : SlotWait) => w.off = x.off && w.pc = x.p.pc) t.slotw).getD now
        let left := w.ids.filter (fun i => (y.slots.any (fun z => z.pend.contains i)))
        let others := t.slotw.filter (fun w => w.off ≠ x.off)
        if left = [] && w.joints = [] then
          .ok ((s.acquireAt x.b.die x.b.core .blk .zero).setTeam x.u ({ t with slotw := others }.finish x.off [] [] 0 1), none)
        else
          let wt : Wait := .on .slot (m + 2 ^ 16 * h)
          if t.slotw.contains w then .error (.wait wt)
          else .ok (s.setTeam x.u { t with slotw := others ++ [w] }, some wt))

/-! ## The tile store and activation tables (R312, R315) -/

def mlRegs : MlN → Nat
  | .x1 => 1 | .x2 => 2 | .x4 => 4
def execMload (g : Guard) (d : BitVec 8) (a : Sel) (n : MlN) (s : State) : Host.Outcome State Fault Refusal :=
  s.issue (fun x => do
    let act := x.act g
    let n := mlRegs n
    let us := [src .s a]
    let dst : LDst := if act = 0 then .none else .vec d.toNat n
    let place : Except Halt Nat := do
      x.notInTry
      let o ← x.scal true a
      needParam (tileOk x.l o.toNat (128 * n))
      .ok o.toNat
    let t ← x.enterC s act us dst.uses false (if act = 0 then .ok 0 else place)
    if act = 0 then .ok (s.setTeam x.u (t.finishLong x.off us dst 0 1))
    else
      x.mayAccess s
      let o ← place
      x.mqRoom s
      let op := x.memOp s (.mload n none) dst act
      let s := s.addOp op
      .ok ((s.enqueue x.b.die x.b.core (x.entry s (.mload x.u o n op.id) none)).bump.setTeam x.u
        (t.finishLong x.off us dst 0 1)))

def execMstoreV (g : Guard) (a b : Sel) (s : State) : Host.Outcome State Fault Refusal :=
  s.issue (fun x => do
    let act := x.act g
    let us := [src .s a, src .v b]
    let t ← x.enter s act us [] false
    if act = 0 then .ok (s.setTeam x.u (t.finish x.off us [] 0 1))
    else
      x.notInTry
      x.mayAccess s
      let o ← x.scal true a
      let v ← x.vec act b
      needParam (tileOk x.l o.toNat 128)
      x.mqRoom s
      .ok ((s.enqueue x.b.die x.b.core (x.entry s (.mstoreV o.toNat act v.data) none)).bump.setTeam x.u
        (t.finish x.off us [] 0 1)))

def execMstoreS (g : Guard) (slot : Option SlotRef) (a b c : Sel) (s : State) : Host.Outcome State Fault Refusal :=
  s.issue (fun x => do
    let act := x.act g
    let us := [src .s a, src .s b, src .s c]
    let t ← x.enter s act us [] false
    if act = 0 then .ok (s.setTeam x.u (t.finish x.off us [] 0 1))
    else
      x.notInTry
      x.mayAccess s
      let o ← x.scal true a
      let d ← x.scal true b
      let n ← x.scal true c
      needParam (tileOk x.l o.toNat n.toNat && spadOk x.l d.toNat n.toNat)
      x.mqRoom s
      .ok ((s.enqueue x.b.die x.b.core (x.entry s (.mstoreS o.toNat d.toNat n.toNat) slot)).bump.setTeam x.u
        (t.finish x.off us [] 0 1)))

def execActld (g : Guard) (slot : Option SlotRef) (a : Sel) (s : State) : Host.Outcome State Fault Refusal :=
  s.issue (fun x => do
    let act := x.act g
    let us := [src .s a]
    let t ← x.enter s act us [] false
    if act = 0 then .ok (s.setTeam x.u (t.finish x.off us [] 0 1))
    else
      x.notInTry
      x.mayAccess s
      let o ← x.scal true a
      needParam (spadOk x.l o.toNat (17 * 128))
      x.mqRoom s
      .ok ((s.enqueue x.b.die x.b.core (x.entry s (.actld o.toNat) slot)).bump.setTeam x.u (t.finish x.off us [] 0 1)))

end Sys2Proof.Machine
end

