-- ==== Sys2Proof/Machine/Matrix.lean ====
section
/-! DEFINITION. The matrix engine at work: the tile store, joint matrix instructions, tile moves and activation tables
(02_block_formats.md R64 to R67; 10_ref_engines.md R304 to R315; R403, R424). -/

namespace Sys2Proof.Machine

/-! ## The tile store -/

/-- Accumulator w of a block's allocation: +0.0 where none is listed (R18). -/
def Block.acc (b : Block) (w : Nat) : W32 := (look w b.tile).getD 0
def Block.setAcc (b : Block) (w : Nat) (v : W32) : Block :=
  { b with tile := if v = 0 then drop w b.tile else place w v b.tile
           tilePoison := if b.tilePoison.contains w then b.tilePoison.filter (· ≠ w) else b.tilePoison }
def Block.setAccs (b : Block) : Nat → List W32 → Block
  | _, [] => b
  | w, v :: r => (b.setAcc w v).setAccs (w + 1) r
def Block.accPoison (b : Block) (w n : Nat) : Bool := b.tilePoison.any (fun i => w ≤ i && i < w + n)

/-- A raw line's side-band: no slot, LAYOUT and FORMAT zero (R49). -/
def rawSb : SideBand := mkSb [] 0 0

/-! ## Census words (Table 02.9) -/

def satAdd32 (a b : Nat) : Nat := if 2 ^ 32 ≤ a + b then 2 ^ 32 - 1 else a + b
def censusAdd (w : W64) (sat under : Nat) : W64 :=
  w64 (satAdd32 (bits w 32 32) sat * 2 ^ 32 + satAdd32 (bits w 0 32) under)
def State.addCensus (s : State) (blk off sat under : Nat) : State :=
  let v := censusAdd ((s.block blk).word off) sat under
  s.spadWrite blk off (toBytes 8 v) (s.die (s.block blk).die).clock none

/-! ## Accumulation (R66, R67) -/

/-- One block of 32 operand elements with its scale. -/
structure OpBlock where
  scale : Nat
  elems : List FV
/-- Block kb of a row whose lines begin at a line number. -/
def Block.operand (b : Block) (fmt lay line kb : Nat) : OpBlock :=
  match elemOf fmt with
  | none =>
    let x := b.line (line + kb / 2)
    { scale := 0x7F0, elems := (upTo 32).map (fun i => Fmt.bf16.read (bits x (16 * (32 * (kb % 2) + i)) 16)) }
  | some f =>
    let l := line + kb / f.blocks
    let j := kb % f.blocks
    { scale := sbSlot (b.sb l) j, elems := (blockCodes f lay (b.line l) j).map (elemValue f) }
/-- Exact sum of the finite products. -/
def sumEx (ps : List FV) : Ex :=
  ps.foldl (fun (a : Ex) p => match p with | .fin x => a.add x | _ => a) (.zero false)
/-- block_term, and the flag of a NaN that no input was. -/
def blockTerm (a b : OpBlock) : FV × Fl :=
  let ps := (a.elems.zip b.elems).map (fun (x, y) => (mulFV x y).1)
  let nanIn := s12Nan a.scale || s12Nan b.scale || a.elems.any FV.isNan || b.elems.any FV.isNan
  if s12Nan a.scale || s12Nan b.scale then (.nan false, 0)
  else if ps.any FV.isNan || (ps.contains (.inf false) && ps.contains (.inf true)) then (.nan false, flIf (!nanIn) flIV)
  else if ps.contains (.inf false) then (.inf false, 0)
  else if ps.contains (.inf true) then (.inf true, 0)
  else
    let x := ((sumEx ps).mul (s12Value a.scale)).mul (s12Value b.scale)
    (.fin (if x.n = 0 then .zero false else x), 0)
/-- One step of mma_element. -/
def mmaStep (acc : W32) (t : FV × Fl) : W32 × Fl :=
  match Fmt.f32.read acc.toNat with
  | .nan _ => (0x7FC00000#32, t.2)
  | x =>
    let r := addFV .rn x t.1
    let v := Fmt.f32.result r.1 .rn
    (w32 v.1, t.2 ||| (r.2 &&& flIV) ||| (v.2 &&& flOF))
/-- mma_element over two rows of blocks. -/
def mmaElement (acc : W32) (a b : List OpBlock) : W32 × Fl :=
  (a.zip b).foldl (fun (y : W32 × Fl) (p, q) =>
    let z := mmaStep y.1 (blockTerm p q)
    (z.1, y.2 ||| z.2)) (acc, 0)

/-! ## Activation (R313, R314) -/

def ActBank.seg (k : ActBank) (g : Nat) : W32 × W32 := (look g k.segs).getD (0x3F800000#32, 0#32)
def actSeg (u : W32) : Nat :=
  match Fmt.f32.read u.toNat with
  | .nan _ => 0
  | .inf neg => if neg then 0 else 255
  | .fin x => if x.neg then 0 else Nat.min 255 (x.n * pow2 x.e / (x.d * pow2 (-x.e)))
def actVal (k : ActBank) (y : W32) : W32 :=
  match Fmt.f32.read y.toNat with
  | .nan _ => 0x7FC00000#32
  | _ =>
    let u := Fmt.f32.mul .rn (Fmt.f32.sub .rn y.toNat k.lo.toNat).1 k.inv.toNat
    let s := k.seg (actSeg (w32 u.1))
    w32 (Fmt.f32.fma .rn false false s.1.toNat y.toNat s.2.toNat).1
def Core.bank (c : Core) : ActBank := if c.active then c.banks.2 else c.banks.1

/-! ## What an entry leaves -/

/-- The head leaves the queue; its slot counts it no longer, and is marked failed with those that wait for it when it
failed (R305, R306). -/
def State.mqDone (s : State) (die core : Nat) (e : MqEntry) (failed : Bool) : State :=
  let s := s.modCore die core (fun c => { c with mq := (c.mq.filter (fun y => y.id ≠ e.id)).map (fun y =>
    if failed && y.waits.contains e.id then { y with doomed := true } else y) })
  match e.slot with
  | none => s
  | some (h, k) => s.modBlock e.block (fun b => b.modHarness h (fun y =>
      { y with slots := modAt k (fun z => { pend := z.pend.filter (· ≠ e.id), failed := z.failed || failed }) y.slots }))
/-- The head of a core's queue, while its block's context is on the core. -/
def State.mqHead (s : State) (die core : Nat) : Option MqEntry := (s.coreAt die core).mq.head?
/-- Each member owes a harness fault. -/
def State.oweAll (s : State) (us : List Nat) (h : Nat) (operands : Bool) : State :=
  us.foldl (fun s u => s.modTeam u (fun t =>
    if t.killed then t else { t with owedFaults := t.owedFaults ++ [(h, operands)] })) s

/-! ## Joint MMA (R309 to R311, R403) -/

/-- Do the lines of an operand pass R51, FORMAT and LAYOUT, unpoisoned? -/
def Block.linesOk (b : Block) (x : Span) (fmt lay : Nat) : Bool :=
  (upTo x.rows).all (fun r => (upTo (x.len / 128)).all (fun q =>
    let l := (x.off + x.pitch * r) / 128 + q
    let sb := b.sb l
    sbOk sb && sbFormat sb = fmt && (fmt = 0 || sbLayout sb = lay)))
def Block.spanPoison (b : Block) (x : Span) : Bool :=
  (upTo x.rows).any (fun r => (poisonIn b.spadPoison (x.off + x.pitch * r) x.len).isSome)
def Block.rowBlocks (b : Block) (p : PBlock) (w : W64) (x : Span) (r : Nat) : List OpBlock :=
  (upTo (mmaK p / 32)).map (fun kb => b.operand (mmaFmt w) (mmaLay w) ((x.off + x.pitch * r) / 128) kb)
/-- The accumulators after the products, row by row, and the flags. -/
def Block.products (b : Block) (p : PBlock) : List (List W32) × Fl :=
  let cols := (upTo (mmaN p)).map (fun j => b.rowBlocks p p.w1 (mmaB p) j)
  let rows := (upTo (mmaM p)).map (fun i =>
    let a := b.rowBlocks p p.w0 (mmaA p) i
    (cols.zip (upTo (mmaN p))).map (fun (c, j) => mmaElement (b.acc (mmaToff p / 4 + mmaN p * i + j)) a c))
  (rows.map (fun r => r.map (·.1)), rows.foldl (fun f r => r.foldl (fun f y => f ||| y.2) f) 0)
/-- The rounding code of a parameter block (Table 02.6). -/
def rndCode (c : Nat) : Rnd :=
  match c with
  | 0 => .rn | 1 => .rz | 2 => .ru | 3 => .rd | _ => .sr
def cmodeOf (special : Bool) : CMode := if special then .special else .sat
/-- A row after bias and activation. -/
def Block.epilogue (b : Block) (p : PBlock) (k : ActBank) (y : List W32) : List W32 :=
  let y := if mmaEbias p then
      (y.zip (upTo y.length)).map (fun (v, j) => addRne v (BitVec.ofNat 32 (ofBytes (b.bytes (mmaBiasoff p + 4 * j) 4))))
    else y
  if mmaEact p then y.map (actVal k) else y
/-- The lines of an output row with their side-band, and its census. -/
def outRow (p : PBlock) (d : Draws) (i : Nat) (y : List W32) : List (Line × SideBand) × Nat × Nat :=
  match mmaEqnt p, elemOf (mmaOfmt p) with
  | true, some f =>
    let bs := (upTo (mmaN p / 32)).map (fun k =>
      quantBlock (((y.drop (32 * k)).take 32).map (fun v => Fmt.f32.read v.toNat)) f
        (if mmaGiven p then some (mmaScale p) else none) (rndCode (mmaRnd p)) (cmodeOf (mmaCmode p))
        (fun e => d.at (i % 32) (mmaN p * i + 32 * k + e)))
    ([(packLine f (mmaOlay p) (bs.map (fun q => q.2.1)), mkSb (bs.map (·.1)) (mmaOfmt p) (mmaOlay p))],
      bs.foldl (fun n q => n + q.2.2.1) 0, bs.foldl (fun n q => n + q.2.2.2.1) 0)
  | _, _ => ((upTo (mmaN p / 32)).map (fun q => (lineOf (fun l => nth y (32 * q + l) 0), rawSb)), 0, 0)
/-- The member with the lowest TEAMID. -/
def drawPart (ps : List JointPart) : Option JointPart := leastBy (fun (q : JointPart) => q.key) ps

/-- A begun commit holds lines that an entry would write. -/
def State.mqHeld (s : State) (e : MqEntry) : Bool :=
  let hit := fun (x : Span) => (upTo x.rows).any (fun r => s.spadLocked e.block (x.off + x.pitch * r) x.len none)
  match e.op with
  | .mma ps => (match ps.reverse.head? with | some q => hit (mmaOut q.pb) || hit (mmaCensus q.pb) | none => false)
  | .mstoreS _ dst len => hit (span1 dst len)
  | _ => false

/-- A failed MMA (R310; R403 for poisoned operands): it writes nothing, and its harness dissolves. -/
def State.mmaFail (s : State) (die core : Nat) (e : MqEntry) (us : List Nat) : State :=
  let s := s.mqDone die core e true
  let y := (s.block e.block).harness e.h
  if y.convened && y.members.length = us.length && y.members.all us.contains then s.dissolve e.block e.h s.uid true else s.oweAll us e.h true
/-- The scratchpad as a matrix instruction may read it: of each byte and side-band that a landing has replaced since it was issued, the value
that stood there or the landed one, by the free values from number k on (R295, R330). -/
def Block.mixed (b : Block) (k : Nat) (o : Older) : Block :=
  let pick := fun (i : Nat) => (Config.freeWord (k + i)).getLsbD 0
  let b := ((upTo o.bytes.length).zip o.bytes).foldl (fun (b : Block) y => if pick y.1 then b.setByte y.2.1 y.2.2 else b) b
  ((upTo o.sides.length).zip o.sides).foldl (fun (b : Block) y => if pick (o.bytes.length + y.1) then b.setSb y.2.1 y.2.2 else b) b
/-- The epilogue's rows written, one after another; b is the block as the instruction reads it. -/
def State.mmaOutput (s : State) (blk : Nat) (b : Block) (p : PBlock) (d : Draws) (k : ActBank) (rows : List (List W32)) :
    State × Nat × Nat :=
  let c := (s.die b.die).clock
  (rows.zip (upTo rows.length)).foldl (fun (y : State × Nat × Nat) (r, i) =>
    let o := outRow p d i (b.epilogue p k r)
    let l0 := (mmaOut p).off / 128 + mmaOpitch p * i
    let s := (o.1.zip (upTo o.1.length)).foldl (fun s (v, q) => s.spadWriteLine blk (l0 + q) v.1 v.2 c none) y.1
    (s, y.2.1 + o.2.1, y.2.2 + o.2.2)) (s, 0, 0)
def State.mmaRun (s : State) (die core : Nat) (e : MqEntry) (ps : List JointPart) (q : JointPart) : State :=
  let b := (s.block e.block).mixed s.run.free e.older
  let s := s.useFrees (e.older.bytes.length + e.older.sides.length)
  let p := q.pb
  let us := ps.map (·.team)
  let ops := [mmaA p, mmaB p, mmaBias p]
  let w0 := mmaToff p / 4
  if e.doomed then (s.mqDone die core e true).oweAll us e.h false
  else if !(b.linesOk (mmaA p) (mmaFmt p.w0) (mmaLay p.w0) && b.linesOk (mmaB p) (mmaFmt p.w1) (mmaLay p.w1))
      || ops.any b.spanPoison || b.accPoison w0 (mmaM p * mmaN p) then s.mmaFail die core e us
  else
    let (rows, fl) := b.products p
    let d : Draws := match drawPart ps with
      | some m => { seed := (s.ctxAt (s.ctxOf e.block)).seed, ctr := m.draw, key := m.key }
      | none => { seed := 0, ctr := 0, key := 0 }
    let bank := (s.coreAt die core).bank
    let s := s.modBlock e.block (fun b => b.setAccs w0 rows.flatten)
    let (s, sat, under) := if mmaEout p then s.mmaOutput e.block b p d bank rows else (s, 0, 0)
    let s := if mmaCens p then s.addCensus e.block (mmaCensoff p) sat under else s
    let s := us.foldl (fun s u => s.modTeam u (fun t => if t.killed then t else t.raise fl)) s
    s.mqDone die core e false
/-- MMA_EXECUTE: the head of a core's queue is a joint MMA whose wait mask is satisfied. -/
def State.mmaExecute (s : State) (die core : Nat) : State :=
  match s.mqHead die core with
  | none => s
  | some e =>
    match e.op with
    | .mma ps =>
      match ps.reverse.head? with
      | none => s
      | some q => if s.mqHeld e then s else s.mmaRun die core e ps q
    | _ => s
def execMmaExecute (die core : Nat) (s : State) : Host.Outcome State Fault Refusal := .next (s.mmaExecute die core)

/-! ## MZERO, MLOAD, MSTORE (R312) -/

/-- The value an MLOAD brings, by register of its group and lane. -/
def Block.rows (b : Block) (w n : Nat) : List (Nat × Nat × W32) :=
  (upTo n).flatMap (fun i => (upTo 32).map (fun l => (i, l, b.acc (w + 32 * i + l))))
def Block.rowsPoison (b : Block) (w n : Nat) : List (Nat × Nat) :=
  (upTo n).flatMap (fun i => (upTo 32).filterMap (fun l => if b.tilePoison.contains (w + 32 * i + l) then some (i, l) else none))
def State.tileOp (s : State) (e : MqEntry) : State :=
  let b := s.block e.block
  match e.op with
  | .mzero o n => s.modBlock e.block (fun b => b.setAccs (o / 4) (List.replicate (n / 4) 0))
  | .mload _ o n op =>
    let got := some (b.rows (o / 4) n, b.rowsPoison (o / 4) n)
    { s with net := { s.net with ops := s.net.ops.map (fun y => if y.id = op then { y with kind := .mload n got } else y) } }
  | .mstoreV o lanes v =>
    s.modBlock e.block (fun b => (lanesOf lanes).foldl (fun b l => b.setAcc (o / 4 + l) (laneOf v l)) b)
  | .mstoreS o d n =>
    let c := (s.die b.die).clock
    (upTo (n / 128)).foldl (fun (s : State) q =>
      let w := o / 4 + 32 * q
      let s := s.spadWriteLine e.block (d / 128 + q) (lineOf (fun l => b.acc (w + l))) rawSb c none
      s.modBlock e.block (fun y => { y with spadPoison := (upTo 4).foldl (fun l k =>
        if b.accPoison (w + 8 * k) 8 then place (d / 32 + 4 * q + k) 0x0401 l else l) y.spadPoison })) s
  | _ => s
/-- TILE_OP_EXECUTE: the head is a tile-store instruction. -/
def State.tileOpExecute (s : State) (die core : Nat) : State :=
  match s.mqHead die core with
  | none => s
  | some e =>
    match e.op with
    | .mma _ | .actld _ => s
    | _ => if s.mqHeld e then s else (s.tileOp e).mqDone die core e false
def execTileOpExecute (die core : Nat) (s : State) : Host.Outcome State Fault Refusal := .next (s.tileOpExecute die core)

/-! ## ACTLD (R315) -/

/-- A bank from the 17 lines of an image. -/
def Block.table (b : Block) (o : Nat) : ActBank :=
  let w := fun a => BitVec.ofNat 32 (ofBytes (b.bytes a 4))
  let segs := (upTo 256).map (fun g => (g, w (o + 128 + 8 * g), w (o + 132 + 8 * g)))
  { lo := w o, inv := w (o + 4), segs := segs.filter (fun y => y.2 ≠ (0x3F800000#32, 0#32)) }
/-- ACTLD_BANK_LOAD: the head is an ACTLD; a format error or a poisoned image leaves the banks (log 20). -/
def State.actldExecute (s : State) (die core : Nat) : State :=
  match s.mqHead die core with
  | none => s
  | some e =>
    match e.op with
    | .actld o =>
      let b := s.block e.block
      let bad := (b.bytes (o + 8) 120).any (· ≠ 0) || (poisonIn b.spadPoison o (17 * 128)).isSome
      if bad then s.mqDone die core e true
      else
        let k := b.table o
        (s.modCore die core (fun c =>
          { c with banks := if c.active then (k, c.banks.2) else (c.banks.1, k), active := !c.active })).mqDone die core e false
    | _ => s
def execActldBankLoad (die core : Nat) (s : State) : Host.Outcome State Fault Refusal := .next (s.actldExecute die core)

end Sys2Proof.Machine
end

