-- ==== Sys2Proof/Machine/Images.lean ====
section
/-! DEFINITION. Core images of a context that has left its cores: their bytes in the save area or the emergency area, and landings in
them (16_traps_preemption_contexts.md R408 to R412, Tables 16.7, 16.8). -/

namespace Sys2Proof.Machine

/-! ## Blocks that are away from their cores -/

def State.onCore (s : State) (blk : Nat) : Bool := (s.block blk).res = .core
/-- A landing of n bytes in the image of a block that is not on its core. -/
def State.countLate (s : State) (blk n : Nat) : State :=
  let b := s.block blk
  if b.res = .core then s
  else s.modCore b.die b.core (fun c => { c with images := c.images.map (fun i =>
    if i.ctx = s.ctxOf blk then { i with late := i.late + n, nlate := i.nlate + 1 } else i) })
/-- The image of a context on a core. -/
def State.imageOf (s : State) (die core c : Nat) : Option Image := first (fun (i : Image) => i.ctx = c) (s.coreAt die core).images
/-- Blocks of a context on a core, and their teams. -/
def State.imageBlocks (s : State) (die core c : Nat) : List (Nat × Block) :=
  s.blocks.filter (fun y => y.2.die = die && y.2.core = core && s.ctxOf y.1 = c)
def Team.among (t : Team) (bs : List (Nat × Block)) : Bool := bs.any (fun b => b.1 = t.block)

/-! ## Places (R409, R410) -/

/-- Where slot i of a context's save area begins. -/
def Ctx.slotVa (x : Ctx) (i : Nat) : Nat := x.save.toNat / 65536 * 65536 + 3 * 2 ^ 20 * i
/-- The logical number of a core in its partition. -/
def Part.logical (p : Part) (die core : Nat) : Nat := 512 * (p.dieList.takeWhile (fun d => d ≠ die)).length + core
def imagePages : List Nat := upTo 48
/-- The physical page of a save-area page: code, level and address where its translation faults. -/
def State.savePage (s : State) (die c va : Nat) (p : Perm) : Except (Nat × Nat × Nat) Nat :=
  match s.walk die c va with
  | .error (some (code, lvl)) => .error (code, lvl, va)
  | .error none => .error (0x0101, 1, va)
  | .ok (e, lvl, _) =>
    if p.allows e then .ok (4096 * bits e 12 40 + va % 2 ^ levelShift lvl) else .error (0x0102, lvl, va)
/-- The virtual address of a page of an image's slot. -/
def State.slotAt (s : State) (die core c k : Nat) : Nat := (s.ctxAt c).slotVa ((s.partAt (partOf c)).logical die core) + 65536 * k
/-- Walks of pages of a slot have been made: each is charged and reads its tables at their homes (R83, R387, R417; log 30). -/
def State.slotWalked (s : State) (die core c : Nat) (ks : List Nat) : State :=
  ks.foldl (fun (s : State) k => s.walkDone die c (s.slotAt die core c k)) s
/-- The pages of a slot were looked up, the first first, until one faulted with e; code 0 is no fault. -/
def State.slotFailed (s : State) (die core c : Nat) (e : Nat × Nat × Nat) : State :=
  if e.1 = 0 then s else s.slotWalked die core c (upTo ((e.2.2 - s.slotAt die core c 0) / 65536 + 1))
/-- The physical pages of an image's slot. -/
def State.slotPages (s : State) (die core c : Nat) (p : Perm) : Except (Nat × Nat × Nat) (List Nat) :=
  imagePages.mapM (fun k => s.savePage die c (s.slotAt die core c k) p)
/-- Stands for the address of an image page that no translation reaches: no memory lies there. -/
def holePa : Nat := 2 ^ 50
/-- Those of a core's emergency area. -/
def State.emergPages (s : State) (die core : Nat) : List Nat :=
  imagePages.map (fun k => 2 ^ 21 * (s.die die).emergBase.toNat + 3 * 2 ^ 20 * core + 65536 * k)
def State.imagePas (s : State) (die core : Nat) (i : Image) (p : Perm) : Except (Nat × Nat × Nat) (List Nat) :=
  if i.res = .emergency then .ok (s.emergPages die core) else s.slotPages die core i.ctx p
/-- The pages of an image, each by itself. -/
def State.imagePlaces (s : State) (die core : Nat) (i : Image) (p : Perm) : List (Except (Nat × Nat × Nat) Nat) :=
  if i.res = .emergency then (s.emergPages die core).map .ok
  else imagePages.map (fun k => s.savePage die i.ctx (s.slotAt die core i.ctx k) p)
/-- The physical address of an image offset. -/
def imgPa (pas : List Nat) (o : Nat) : Nat := nth pas (o / 65536) 0 + o % 65536
/-- A range of an image page by page: physical address, image offset, length. -/
def imgRuns (pas : List Nat) (o n : Nat) : List (Nat × Nat × Nat) :=
  if n = 0 then []
  else (from_ (o / 65536) ((o + n - 1) / 65536 - o / 65536 + 1)).map (fun k =>
    let lo := Nat.max o (65536 * k)
    (imgPa pas lo, lo, Nat.min (o + n) (65536 * k + 65536) - lo))
/-- Memory that an image can lie in; the expander's only while its window works (R435). -/
def State.imgMem (s : State) (pa : Nat) : Bool := pa < 2 ^ 40 || (isExpander pa && !s.xFailed pa)

/-! ## Writing an image -/

/-- A range of an image and the non-zero bytes in it, by image offset. -/
structure ImgPart where
  off : Nat
  len : Nat
  bytes : List (Nat × Byte)
def bytesAt (o : Nat) (bs : List Byte) : List (Nat × Byte) := ((from_ o bs.length).zip bs).filter (fun y => y.2 ≠ 0)
/-- Table 16.8. -/
def Image.header (i : Image) (s : State) (die core : Nat) : List W64 :=
  [w64 (s.tagOf i.ctx * 2 ^ 56 + die % 16 * 2 ^ 52 + core % 512 * 2 ^ 43 + 256 + 1), w64 i.seq,
    w64 (satAdd32 0 i.nlate * 2 ^ 32 + satAdd32 0 i.late), 0, 0, 0, 0, 0]
def vregAt (n : Nat) : Nat := 0x49000 + 144 * n
def sregAt (n : Nat) : Nat := 0x91000 + 8 * n
/-- Image offsets of a byte of a block's scratchpad, of the side-band of one of its lines, and of a byte of its tile store
(Table 16.7). -/
def Block.spadAt (b : Block) (o : Nat) : Nat := 0x93000 + 1024 * nth b.spadMap (o / 1024) 0 + o % 1024
def Block.sbAt (b : Block) (l : Nat) : Nat := 0xD3000 + 16 * (8 * nth b.spadMap (l / 8) 0 + l % 8)
def Block.tileAt (b : Block) (o : Nat) : Nat := 0x100000 + 65536 * nth b.tileMap (o / 65536) 0 + o % 65536
/-- A range of a block's scratchpad as image ranges, KiB by KiB. -/
def Block.spadRuns (b : Block) (o n : Nat) : List (Nat × Nat) :=
  if n = 0 then []
  else (from_ (o / 1024) ((o + n - 1) / 1024 - o / 1024 + 1)).map (fun k =>
    let lo := Nat.max o (1024 * k)
    (b.spadAt lo, Nat.min (o + n) (1024 * k + 1024) - lo))
/-- Units that lie side by side: number of the first in the block, its place, how many. -/
def unitRuns : Nat → List Nat → List (Nat × Nat × Nat)
  | _, [] => []
  | k, g :: r => match unitRuns (k + 1) r with
    | (i, h, n) :: l => if h = g + 1 then (k, g, n + 1) :: l else (k, g, 1) :: (i, h, n) :: l
    | [] => [(k, g, 1)]
def Block.imgParts (b : Block) : List ImgPart :=
  (unitRuns 0 b.spadMap).flatMap (fun (_, g, n) =>
      [ { off := 0x93000 + 1024 * g, len := 1024 * n, bytes := [] }, { off := 0xD3000 + 128 * g, len := 128 * n, bytes := [] } ])
    ++ (unitRuns 0 b.tileMap).map (fun (_, g, n) => { off := 0x100000 + 65536 * g, len := 65536 * n, bytes := [] })
    ++ [ { off := 0, len := 0, bytes := b.spad.map (fun c => (b.spadAt c.1, c.2))
             ++ b.spadSb.flatMap (fun c => bytesAt (b.sbAt c.1) (toBytes 16 (sbOut c.2)))
             ++ b.tile.flatMap (fun c => bytesAt (b.tileAt (4 * c.1)) (toBytes 4 c.2)) } ]
/-- Header and blocks of an image. -/
def State.blockParts (s : State) (die core : Nat) (i : Image) : List ImgPart :=
  { off := 0, len := 64, bytes := bytesAt 0 (wordsBytes (i.header s die core)) }
    :: (s.imageBlocks die core i.ctx).flatMap (fun y => y.2.imgParts)
/-- Where the device state of an image lies and how long it is, and the range that Table 16.7 reserves. -/
def deviceState : Nat × Nat := (0x40, 0x48FC0)
def reservedRange : Nat × Nat := (0xDB000, 0x25000)
/-- The whole image: header, registers, scratchpads, side-bands and tile store, all else zero but for the device state, whose bytes are
free values; physical registers are numbered by team and index (log 30). -/
def State.wholeImage (s : State) (die core : Nat) (i : Image) : List ImgPart :=
  let teams := s.teams.filter (fun y => y.2.among (s.imageBlocks die core i.ctx))
  let vs := teams.flatMap (fun y => y.2.vregs.map Prod.snd)
  let ss := teams.flatMap (fun y => y.2.sregs.map Prod.snd)
  { off := 0, len := 3 * 2 ^ 20
    bytes := ((upTo vs.length).zip vs).flatMap (fun (n, r) => bytesAt (vregAt n) (toBytes 128 r.data ++ toBytes 16 (sbOut r.sb)))
      ++ ((upTo ss.length).zip ss).flatMap (fun (n, r) => bytesAt (sregAt n) (toBytes 8 r.val)) }
    :: s.blockParts die core i
/-- What is left of a range when n addresses from a on are taken out of it. -/
def cutRange (a n : Nat) (r : Nat × Nat × Nat) : List (Nat × Nat × Nat) :=
  (if r.1 < a then [(r.1, Nat.min r.2.1 (a - r.1), r.2.2)] else [])
    ++ (if a + n < r.1 + r.2.1 then [(Nat.max r.1 (a + n), r.1 + r.2.1 - Nat.max r.1 (a + n), r.2.2)] else [])
/-- A range of memory of which nothing is listed, with other free values or none. -/
def Mem.clearRange (m : Mem) (a n : Nat) (new : List (Nat × Nat × Nat)) : Mem :=
  { m with cells := m.cells.filter (fun c => !(a ≤ c.1 && c.1 < a + n)), loose := new ++ m.loose.flatMap (cutRange a n) }
/-- A range of memory set to zero. -/
def Mem.zeroRange (m : Mem) (a n : Nat) : Mem :=
  let m := m.clearRange a n []
  match m.rehomed with
  | none => m
  | some _ => m.setBytes a (List.replicate n 0)
/-- A part of an image written where there is memory. -/
def Mem.putPart (m : Mem) (ok : Nat → Bool) (pas : List Nat) (p : ImgPart) : Mem :=
  p.bytes.foldl (fun m y => if ok (imgPa pas y.1) then m.setByte (imgPa pas y.1) y.2 else m)
    ((imgRuns pas p.off p.len).foldl (fun m r => if ok r.1 then m.zeroRange r.1 r.2.2 else m) m)
def Mem.putParts (m : Mem) (ok : Nat → Bool) (pas : List Nat) (ps : List ImgPart) : Mem := ps.foldl (fun m p => m.putPart ok pas p) m
/-- The device state of an image as free values of number c. -/
def Mem.putDevice (m : Mem) (ok : Nat → Bool) (pas : List Nat) (c : Nat) : Mem :=
  (imgRuns pas deviceState.1 deviceState.2).foldl (fun m r => if ok r.1 then m.clearRange r.1 r.2.2 [(r.1, r.2.2, c)] else m) m
/-- Accesses to a range of an image at its homes (R83, R88). -/
def State.touchImage (s : State) (pas : List Nat) (o n owner : Nat) (write : Bool) : State :=
  (imgRuns pas o n).foldl (fun (s : State) r => s.touchRange r.1 r.2.2 owner write) s
/-- A whole image written at its pages, whose sectors lose their poison (R424). -/
def State.putImage (s : State) (die core : Nat) (i : Image) (pas : List Nat) : State :=
  let m := (s.mem.putParts s.imgMem pas (s.wholeImage die core i)).putDevice s.imgMem pas i.fill
  let s := { s with mem := { m with poison := m.poison.filter (fun y => !pas.any (fun pa => pa ≤ 32 * y.1 && 32 * y.1 < pa + 65536)) } }
  s.touchImage pas 0 (3 * 2 ^ 20) (s.tagOf i.ctx) true
/-- Stands for a fault where an image's walks wait: the context's walk budget on the die is spent (R387, R417). -/
def imgWait : Nat × Nat × Nat := (0, 0, 0)
def State.walkSpent (s : State) (die c : Nat) : Bool := (s.budget die c).walk = 0
/-- The image of a core written to its slot, or the first translation fault. -/
def State.writeImage (s : State) (die core : Nat) (i : Image) : Except (Nat × Nat × Nat) State :=
  if s.walkSpent die i.ctx then .error imgWait
  else do
    let pas ← s.slotPages die core i.ctx .wr
    .ok ((s.slotWalked die core i.ctx imagePages).putImage die core i pas)

/-- One page of an image moved: its bytes with their poison, its free values as such. -/
def Mem.movePage (m : Mem) (a b : Nat) : Mem :=
  let here := fun (x : Nat) => decide (a ≤ x ∧ x < a + 65536)
  let new := (m.loose.filter (fun r => here r.1)).map (fun r => (b + (r.1 - a), r.2.1, r.2.2))
  let cells : List Host.Cell := match m.rehomed with
    | none => m.cells.filter (fun c => here c.1)
    | some _ => ((from_ a 65536).filter (fun x => !m.loose.any (inRange x))).map (fun x => (x, m.byte x))
  let bad := (m.poison.filter (fun (y : Nat × Nat) => here (32 * y.1))).map (fun (y : Nat × Nat) => (b / 32 + (y.1 - a / 32), y.2))
  let m := { m with poison := bad.foldl (fun l (y : Nat × Nat) => place y.1 y.2 l) (m.poison.filter (fun (y : Nat × Nat) => !(b ≤ 32 * y.1 && 32 * y.1 < b + 65536))) }
  cells.foldl (fun m c => m.setByte (b + (c.1 - a)) c.2) (m.clearRange b 65536 new)
/-- An emergency image moved to its slot, or the first translation fault (R410). -/
def State.moveImage (s : State) (die core : Nat) (i : Image) : Except (Nat × Nat × Nat) State :=
  if s.walkSpent die i.ctx then .error imgWait
  else do
    let pas ← s.slotPages die core i.ctx .wr
    let old := s.emergPages die core
    let m := (old.zip pas).foldl (fun (m : Mem) y => if s.imgMem y.2 then m.movePage y.1 y.2 else m) s.mem
    let s := ({ s with mem := m } : State).slotWalked die core i.ctx imagePages
    .ok ((s.touchImage old 0 (3 * 2 ^ 20) (s.tagOf i.ctx) false).touchImage pas 0 (3 * 2 ^ 20) (s.tagOf i.ctx) true)

/-! ## Reading an image back (R411) -/

/-- The non-zero bytes of n bytes at an image offset, by place in the range. -/
def Mem.imgBytes (m : Mem) (pas : List Nat) (o n : Nat) : List (Nat × Byte) :=
  match m.rehomed, m.loose.any (fun x => (imgRuns pas o n).any (fun r => r.1 < x.1 + x.2.1 && x.1 < r.1 + r.2.2)) with
  | none, false => (imgRuns pas o n).flatMap (fun r =>
      (m.cells.filter (fun c => r.1 ≤ c.1 && c.1 < r.1 + r.2.2)).map (fun c => (r.2.1 + (c.1 - r.1) - o, c.2)))
  | _, _ => ((upTo n).map (fun i => (i, m.byte (imgPa pas (o + i))))).filter (fun y => y.2 ≠ 0)
/-- The number that n bytes at an image offset hold. -/
def Mem.imgNum (m : Mem) (pas : List Nat) (o n : Nat) : Nat := ofBytes ((from_ o n).map (fun i => m.byte (imgPa pas i)))
/-- The non-zero bytes of a store held in units of u bytes, the first of them at base, by offset in the block. -/
def Mem.unitBytes (m : Mem) (pas : List Nat) (base u : Nat) (units : List Nat) : List (Nat × Byte) :=
  (unitRuns 0 units).flatMap (fun (k, g, n) => (m.imgBytes pas (base + u * g) (u * n)).map (fun y => (u * k + y.1, y.2)))
def Block.fromImage (b : Block) (m : Mem) (pas : List Nat) : Block :=
  { b with
    spad := m.unitBytes pas 0x93000 1024 b.spadMap
    spadSb := (sortNat ((m.unitBytes pas 0xD3000 128 b.spadMap).map (fun y => y.1 / 16))).filterMap (fun k =>
      let v := sbOut (BitVec.ofNat 128 (m.imgNum pas (b.sbAt k) 16))
      if v = 0 then none else some (k, v))
    tile := (sortNat ((m.unitBytes pas 0x100000 65536 b.tileMap).map (fun y => y.1 / 4))).map (fun k =>
      (k, w32 (m.imgNum pas (b.tileAt (4 * k)) 4))) }
/-- Blocks of an image as its memory holds them. -/
def State.readBlocks (s : State) (die core c : Nat) (pas : List Nat) : State :=
  { s with blocks := s.blocks.map (fun (y : Nat × Block) =>
      if y.2.die = die && y.2.core = core && s.ctxOf y.1 = c then (y.1, y.2.fromImage s.mem pas) else y) }
/-- An image offset lies in a poisoned sector: the code. -/
def Mem.imgBad (m : Mem) (pas : List Nat) (o : Nat) : Option Nat := look (imgPa pas o / 32) m.poison
/-- Poison of a lane of a register (R402). -/
def VReg.poisonWith (code : Nat) (r : VReg) (lane : Nat) : VReg :=
  { r with poison := r.poison.filter (fun p => p.lane < lane) ++ [⟨lane, code, 0⟩] ++ r.poison.filter (fun p => lane < p.lane) }
def VReg.poisonLane (r : VReg) (lane : Nat) : VReg := r.poisonWith 0x0405 lane
/-- Vector register n of an image: its lanes in unreadable sectors are poisoned, all of them with the side-band. -/
def VReg.fromImage (r : VReg) (m : Mem) (pas : List Nat) (n : Nat) : VReg :=
  let bad := fun o => (m.imgBad pas o).isSome
  let lanes := if bad (vregAt n + 128) then upTo 32 else (upTo 32).filter (fun l => bad (vregAt n + 4 * l))
  lanes.foldl VReg.poisonLane
    { r with data := BitVec.ofNat 1024 (m.imgNum pas (vregAt n) 128), sb := sbOut (BitVec.ofNat 128 (m.imgNum pas (vregAt n + 128) 16)) }
def SReg.fromImage (r : SReg) (m : Mem) (pas : List Nat) (n : Nat) : SReg :=
  { r with val := w64 (m.imgNum pas (sregAt n) 8), poison := if (m.imgBad pas (sregAt n)).isSome then some ⟨0, 0x0405, 0⟩ else r.poison }
/-- Registers numbered from n on. -/
def mapFrom {α : Type} (f : Nat → α → α) : Nat → List (Nat × α) → List (Nat × α)
  | _, [] => []
  | n, (i, r) :: l => (i, f n r) :: mapFrom f (n + 1) l
def teamsFrom (mine : Team → Bool) (m : Mem) (pas : List Nat) : Nat → Nat → List (Nat × Team) → List (Nat × Team)
  | _, _, [] => []
  | v, n, (u, t) :: l =>
    if mine t then
      (u, { t with vregs := mapFrom (fun k (r : VReg) => r.fromImage m pas k) v t.vregs
                   sregs := mapFrom (fun k (r : SReg) => r.fromImage m pas k) n t.sregs })
        :: teamsFrom mine m pas (v + t.vregs.length) (n + t.sregs.length) l
    else (u, t) :: teamsFrom mine m pas v n l
/-- Registers of an image as its memory holds them. -/
def State.readRegs (s : State) (die core c : Nat) (pas : List Nat) : State :=
  let bs := s.imageBlocks die core c
  { s with teams := teamsFrom (fun t => t.among bs) s.mem pas 0 0 s.teams }
/-- Poisoned sectors of a block's part of an image keep their poison in scratchpad and tile store (R424). -/
def Block.poisonFrom (b : Block) (l : Launch) (m : Mem) (pas : List Nat) : Block :=
  if m.poison = [] then b
  else { b with
    spadPoison := (upTo (l.spadBytes / 32)).foldl (fun p k => match m.imgBad pas (b.spadAt (32 * k)) with
      | some c => place k c p
      | none => p) b.spadPoison
    tilePoison := b.tilePoison ++ (upTo (l.tileBytes / 4)).filter (fun w =>
      (m.imgBad pas (b.tileAt (4 * w))).isSome && !b.tilePoison.contains w) }
def State.poisonBlocks (s : State) (die core c : Nat) (pas : List Nat) : State :=
  { s with blocks := s.blocks.map (fun (y : Nat × Block) =>
      if y.2.die = die && y.2.core = core && s.ctxOf y.1 = c then (y.1, y.2.poisonFrom (s.launchOf y.1) s.mem pas) else y) }
/-- An image passes what a restore must be able to read: no page outside memory, no poison in header or device state, and none at
all on an expander (R409, Table 17.14's cases). -/
def State.imageReads (s : State) (pas : List Nat) : Bool :=
  pas.all s.imgMem && !s.mem.poison.any (fun y => ((upTo pas.length).zip pas).any (fun (k, pa) =>
    pa ≤ 32 * y.1 && 32 * y.1 < pa + 65536 && (isExpander pa || 65536 * k + (32 * y.1 - pa) < 0x49000)))

/-! ## Landings in an image (R412) -/

/-- Sectors of a block's scratchpad that have lost their poison lose it in the image's memory too (R424). -/
def State.heal (s : State) (blk : Nat) (pas : List Nat) : State :=
  if s.mem.poison = [] then s
  else
    let b := s.block blk
    let well := (upTo ((s.launchOf blk).spadBytes / 32)).filterMap (fun k =>
      if (look k b.spadPoison).isNone then some (imgPa pas (b.spadAt (32 * k)) / 32) else none)
    { s with mem := { s.mem with poison := s.mem.poison.filter (fun y => !well.contains y.1) } }
/-- Keys at which two sorted lists differ. -/
def diffKeys {α : Type} [DecidableEq α] : List (Nat × α) → List (Nat × α) → List Nat
  | [], l => l.map Prod.fst
  | (k, v) :: r, l =>
    let new := (l.takeWhile (fun y => y.1 < k)).map Prod.fst
    match l.dropWhile (fun y => y.1 < k) with
    | [] => new ++ k :: diffKeys r []
    | (k', v') :: l' =>
      if k' = k then (if v' = v then new ++ diffKeys r l' else new ++ k :: diffKeys r l')
      else new ++ k :: diffKeys r ((k', v') :: l')
/-- Image ranges that a block's landing has written: b as its image held it, x as the landing leaves it. -/
def Block.written (b x : Block) : List (Nat × Nat) :=
  let stamps := (x.spadStamps.filter (fun r => !b.spadStamps.contains r)).flatMap (fun r =>
    if r.len = 0 then [] else from_ (r.addr / 128) ((r.addr + r.len - 1) / 128 - r.addr / 128 + 1))
  (sortNat ((diffKeys b.spad x.spad).map (· / 128) ++ stamps)).map (fun l => (b.spadAt (128 * l), 128))
    ++ (sortNat (diffKeys b.spadSb x.spadSb)).map (fun l => (b.sbAt l, 16))
    ++ (sortNat ((diffKeys b.tile x.tile).map (· / 32))).map (fun l => (b.tileAt (128 * l), 128))
/-- Image pages that ranges lie in. -/
def pagesIn (rs : List (Nat × Nat)) : List Nat := sortNat (rs.flatMap (fun r => (imgRuns [] r.1 r.2).map (fun y => y.2.1 / 65536)))
/-- What f does to a block that is away happens in its image, wherever that lies: of an image in memory the pages that f reads (`reads`,
ranges of the block's scratchpad) or writes are translated, the block is read, changed and written back. The answer is the translation
fault of the first page touched that cannot be reached, with the pages looked up until then. -/
def State.inImage (s : State) (blk : Nat) (reads : List (Nat × Nat)) (f : State → State) : Except ((Nat × Nat × Nat) × List Nat) State :=
  let b := s.block blk
  let c := s.ctxOf blk
  if b.res = .core || b.res = .shadow then .ok (f s)
  else match s.imageOf b.die b.core c with
    | none => .ok (f s)
    | some i =>
      if i.res = .saved && s.walkSpent b.die c then .error (imgWait, [])
      else
        let places := s.imagePlaces b.die b.core i .wr
        let pas := ((upTo places.length).zip places).map (fun (k, y) => match y with | .ok pa => pa | .error _ => holePa + 65536 * k)
        let s0 := (s.readBlocks b.die b.core c pas).poisonBlocks b.die b.core c pas
        let s1 := (f s0).heal blk pas
        match s1.imageOf b.die b.core c with
        | none => .ok s1
        | some i =>
          let rd := reads.flatMap (fun r => b.spadRuns r.1 r.2)
          let wr := (0, 64) :: (s0.block blk).written (s1.block blk)
          let used := pagesIn (rd ++ wr)
          match used.filterMap (fun k => match nth places k (.ok 0) with | .ok _ => none | .error e => some (k, e)) with
          | (k, e) :: _ => .error (e, used.takeWhile (fun j => j ≠ k) ++ [k])
          | [] =>
            let s1 := if i.res = .saved then s1.slotWalked b.die b.core c used else s1
            let s1 := { s1 with mem := s1.mem.putParts s1.imgMem pas (s1.blockParts b.die b.core i) }
            let touch := fun (w : Bool) (rs : List (Nat × Nat)) (s : State) =>
              rs.foldl (fun (s : State) r => s.touchImage pas r.1 r.2 (s.tagOf c) w) s
            .ok (touch true wr (touch false rd s1))
/-- A landing that faults on translation waits for the answer to its entry (R301, R412). -/
def State.imgPause (s : State) (blk : Nat) (x : (Nat × Nat × Nat) × List Nat) : State :=
  let b := s.block blk
  let e := x.1
  let s := s.slotWalked b.die b.core (s.ctxOf blk) x.2
  if e.1 = 0 || (s.die b.die).fqEnts.any (fun y => y.who.contains (.landing blk)) then s
  else s.fqEnter b.die (s.tagOf (s.ctxOf blk)) e.1 e.2.2 4 3 e.2.1 0 0 b.core 0 (.landing blk)
/-- A begun commit holds some of the scratchpad ranges that a landing touches (R284, step 4). -/
def State.landLocked (s : State) (blk : Nat) (rs : List (Nat × Nat)) : Bool := rs.any (fun r => s.spadLocked blk r.1 r.2 none)
/-- What ends work happens in the image too; where the image cannot be reached, or a begun commit holds what it writes, it waits as a
landing of its own (R284, R301, R412, R418). -/
def State.awayDo (s : State) (blk : Nat) (k : LandKind) (reads : List (Nat × Nat)) (f : State → State) : State :=
  if s.landLocked blk reads then s.setNet (fun n => { n with lands := n.lands ++ [{ block := blk, kind := k, paused := none }] })
  else match s.inImage blk reads f with
  | .ok s => s
  | .error e =>
    let l : ImgLand := { block := blk, kind := k, paused := if e.1.1 = 0 then none else some e.1.1 }
    (s.imgPause blk e).setNet (fun n => { n with lands := n.lands ++ [l] })
/-- Bytes that a failed GETS adds to LANDED (R325). -/
def State.landBytes (s : State) (blk bar n : Nat) (stamp : Clock) : State :=
  ((s.countLate blk n).barLand blk bar n stamp .dev).getD s
/-- The completion record of a collective (R320). -/
def State.landRecord (s : State) (blk bar : Nat) (lo census : W64) : State :=
  s.spadWrite blk (bar + 16) (toBytes 8 lo ++ toBytes 8 census) (s.die (s.block blk).die).clock none
/-- The record and the missing bytes of a failed collective (R320). -/
def State.landCollEnd (s : State) (blk bar n : Nat) (lo census : W64) (stamp : Clock) : State :=
  let s := s.spadWrite blk (bar + 16) (toBytes 8 lo ++ toBytes 8 census) stamp none
  ((s.countLate blk n).barLand blk bar n stamp .blk).getD s

end Sys2Proof.Machine
end

