-- ==== Sys2Proof/Machine/Coll.lean ====
section
/-! DEFINITION. Collectives: COLL and the formation of a block collective, the canonical tree, chunks, and the traffic between
collective engines (10_ref_engines.md R316 to R321; 17_translation_errors_links.md R433, R439; 18_fleet_operation.md R450). EXIT
stands here too: it forms or fails collectives of its block. -/

namespace Sys2Proof.Machine

/-! ## The extension block (Tables 17.16, 17.17) -/

def extOf (type d0 d1 d2 d3 : Nat) : ExtBlock := { d0 := w64 (type * 2 ^ 60 + 2 ^ 56 + d0), d1 := w64 d1, d2 := w64 d2, d3 := w64 d3 }
def extType (e : ExtBlock) : Nat := bits e.d0 60 4
def extTag (e : ExtBlock) : Nat := bits e.d0 24 32
def extChunk (e : ExtBlock) : Nat := bits e.d0 0 24
def extLo (e : ExtBlock) : Nat := bits e.d1 48 10
def extHi (e : ExtBlock) : Nat := bits e.d1 32 10
/-- The chunk number of a slot request and its answer. -/
def noChunk : Nat := 2 ^ 24 - 1
/-- The bits each type leaves zero. -/
def extReserved (e : ExtBlock) : Bool :=
  let z := fun (w : W64) (lo n : Nat) => bits w lo n = 0
  let tail := fun (_ : Unit) => e.d2 = 0 && e.d3 = 0
  match extType e with
  | 1 => z e.d0 0 56 && bits e.d2 40 8 = 0 && e.d3 = 0
  | 2 => z e.d0 0 30 && z e.d0 43 13 && z e.d1 32 32 && tail ()
  | 3 => z e.d0 5 51 && e.d1 = 0 && tail ()
  | 4 => z e.d1 58 6 && z e.d1 42 6 && z e.d1 26 6 && z e.d1 0 5 && z e.d2 11 53 && z e.d3 16 48
  | 5 => z e.d1 32 32 && z e.d1 1 15 && tail ()
  | 6 | 7 => z e.d1 58 6 && z e.d1 42 6 && z e.d1 0 32 && tail ()
  | 8 => z e.d0 0 56 && z e.d1 16 48 && z e.d1 1 7 && tail ()
  | _ => false
/-- A block that is not discarded (R439). -/
def extOk (e : ExtBlock) : Bool := bits e.d0 56 4 = 1 && extReserved e

/-! ## Elements, blocks and values (R318, R319) -/

/-- Elements of a chunk of n elements in all. -/
def chunkLen (n chunk : Nat) : Nat := Nat.min 1024 (n - 1024 * chunk)
def collFmt (p : PBlock) : ElemFmt := (elemOf (collNfmt p)).getD .mxint8
def isMerge (p : PBlock) : Bool := collOp p = 4
def isNarrow (p : PBlock) : Bool := collWire p = 2
def isBf16 (p : PBlock) : Bool := collWire p = 1
/-- Operations whose values the tree combines. -/
def combines (p : PBlock) : Bool := collOp p ≠ 2 && collOp p ≠ 3

def f32of (b : Block) (o : Nat) : W32 := BitVec.ofNat 32 (ofBytes (b.bytes o 4))
def bf16Of (v : W32) : Nat := (Fmt.bf16.result (Fmt.f32.read v.toNat) .rn).1
/-- The FP32 word at element place o of a source space. -/
def Block.srcWord (b : Block) (tile : Bool) (o : Nat) : W32 := if tile then b.acc (o / 4) else f32of b o
/-- A participant's element under WIDE. -/
def Block.srcWide (b : Block) (p : PBlock) (e : Nat) : W32 :=
  if collSsp p then
    (let v := b.acc (collSoff p / 4 + e)
     if isBf16 p then w32 (bf16Of v) else v)
  else if isBf16 p then BitVec.ofNat 32 (ofBytes (b.bytes (collSoff p + 2 * e) 2))
  else f32of b (collSoff p + 4 * e)
/-- A participant's block under NARROW, converted from a tile-store source. -/
def Block.srcQuant (b : Block) (p : PBlock) (k : Nat) : Nat × List Nat × Nat × Nat × Fl :=
  let xs := (upTo 32).map (fun i =>
    if 32 * k + i < collLen p then Fmt.f32.read (b.acc (collSoff p / 4 + 32 * k + i)).toNat else .fin (.zero false))
  quantBlock xs (collFmt p) none .rn .sat (fun _ => 0)
/-- SAT and UNDER counts of the conversion of a tile-store source under NARROW (R64, R65). -/
def Block.leafCensus (b : Block) (p : PBlock) : Nat × Nat :=
  if isNarrow p && collSsp p && (collOp p ≠ 3 || collRank p = collRoot p) then
    (upTo (ceilDiv (collLen p) 32)).foldl (fun n k => let q := b.srcQuant p k; (n.1 + q.2.2.1, n.2 + q.2.2.2.1)) (0, 0)
  else (0, 0)
def Block.srcBlock (b : Block) (p : PBlock) (k : Nat) : BitVec 12 × List (BitVec 8) :=
  let f := collFmt p
  if collSsp p then
    let q := b.srcQuant p k
    (BitVec.ofNat 12 q.1, q.2.1.map (BitVec.ofNat 8))
  else
    let l := collSoff p / 128 + k / f.blocks
    let j := k % f.blocks
    (BitVec.ofNat 12 (sbSlot (b.sb l) j), (blockCodes f (sbLayout (b.sb l)) (b.line l) j).map (BitVec.ofNat 8))
/-- A participant's own value for a chunk; n is how many elements the chunk has. -/
def Block.leaf (b : Block) (p : PBlock) (chunk n : Nat) : NodeVal :=
  let len := collLen p
  let es := (upTo n).map (fun i => 1024 * chunk + i)
  if isMerge p then
    if len = 0 then .empty
    else
      let w := fun i => b.srcWord (collSsp p) (collSoff p + 4 * i)
      .merge (w 0) (w 1) (es.map (fun e => if e < len then w (2 + e) else 0))
  else if isNarrow p then
    .narrow ((upTo ((n + 31) / 32)).map (fun k =>
      if 1024 * chunk + 32 * k < len then some (b.srcBlock p (32 * chunk + k)) else none))
  else .wide (es.map (fun e => if e < len then some (b.srcWide p e) else none))

/-! ## Combining (R319) -/

/-- Exact products, one rounding. -/
def dot2 (a x b y : W32) : W32 :=
  let r := fun (v : W32) => Fmt.f32.read v.toNat
  w32 (Fmt.f32.result (addFV .rn (mulFV (r a) (r x)).1 (mulFV (r b) (r y)).1).1 .rn).1
def minusInf : W32 := 0xFF800000#32
def mergeVals (m1 s1 : W32) (v1 : List W32) (m2 s2 : W32) (v2 : List W32) : NodeVal :=
  if m1 = minusInf && m2 = minusInf then .merge minusInf 0 (v1.map (fun _ => 0))
  else
    let m := (fminmaxVal true m1 m2).1
    let c := fun (x : W32) => (Sfu.eval .exp2 true (w32 (Fmt.f32.sub .rn x.toNat m.toNat).1)).1
    let c1 := c m1
    let c2 := c m2
    .merge m (dot2 s1 c1 s2 c2) ((v1.zip v2).map (fun (a, b) => dot2 a c1 b c2))
/-- The combine of two FP32 or BF16 values. -/
def combineWide (p : PBlock) (a b : W32) : W32 :=
  match collRop p, isBf16 p with
  | 0, false => addRne a b
  | 0, true => w32 (Fmt.bf16.add .rn a.toNat b.toNat).1
  | r, false => (fminmaxVal (r = 1) a b).1
  | r, true => (fminmaxVal (r = 1) (a <<< 16) (b <<< 16)).1 >>> 16
def optCombine {α : Type} (f : α → α → α) : Option α → Option α → Option α
  | some a, some b => some (f a b)
  | some a, none => some a
  | none, y => y
/-- Two blocks combined and requantised, with the census; la and lb say how many of the block's elements are there on
either side; an element on neither side counts as +0 (log 21). -/
def combineNarrow (p : PBlock) (la lb : Nat) (a b : BitVec 12 × List (BitVec 8)) : (BitVec 12 × List (BitVec 8)) × Nat × Nat :=
  let f := collFmt p
  let val := fun (x : BitVec 12 × List (BitVec 8)) i => (dequant (nth x.2 i 0).toNat x.1.toNat f).1
  let xs := (upTo 32).map (fun i =>
    let v := match decide (i < la), decide (i < lb) with
      | true, true => combineWide { p with w3 := p.w3 &&& ~~~ (3#64 <<< 24) } (val a i) (val b i)
      | true, false => val a i
      | false, true => val b i
      | false, false => 0
    Fmt.f32.read v.toNat)
  let q := quantBlock xs f none .rn .sat (fun _ => 0)
  ((BitVec.ofNat 12 q.1, q.2.1.map (BitVec.ofNat 8)), q.2.2.1, q.2.2.2.1)
/-- Longest LEN of ranks lo to hi. -/
def longest (lens : List Nat) (lo hi : Nat) : Nat := ((lens.drop lo).take (hi + 1 - lo)).foldl Nat.max 0
/-- combine of the two children of a node, left child first, with the census of its requantisations. -/
def combineNodes (p : PBlock) (lens : List Nat) (chunk lo mid hi : Nat) (a b : NodeVal) : NodeVal × Nat × Nat :=
  match a, b with
  | .wide x, .wide y => (.wide ((x.zip y).map (fun (u, v) => optCombine (combineWide p) u v)), 0, 0)
  | .narrow x, .narrow y =>
    let there := fun (l h k : Nat) => longest lens l h - (1024 * chunk + 32 * k)
    let r := ((x.zip y).zip (upTo x.length)).map (fun ((u, v), k) =>
      match u, v with
      | some u, some v =>
        let q := combineNarrow p (there lo (mid - 1) k) (there mid hi k) u v
        (some q.1, q.2)
      | some u, none => (some u, 0, 0)
      | none, v => (v, 0, 0))
    (.narrow (r.map (·.1)), r.foldl (fun n y => n + y.2.1) 0, r.foldl (fun n y => n + y.2.2) 0)
  | .merge m1 s1 v1, .merge m2 s2 v2 => (mergeVals m1 s1 v1 m2 s2 v2, 0, 0)
  | .empty, y => (y, 0, 0)
  | x, _ => (x, 0, 0)

/-! ## One participant's nodes -/

def Coll.count (c : Coll) : Nat := c.parts.length + c.yardBlocks.length
def Coll.lens (c : Coll) : List Nat := match c.decl with | some d => d.lens | none => []
def Coll.lmax (c : Coll) : Nat := c.lens.foldl Nat.max 0
/-- Combining chunks, or the chunks of the participant's own LEN where nothing is combined. -/
def Coll.chunks (c : Coll) : Nat :=
  let n := if combines c.pb then c.lmax else collLen c.pb
  if isMerge c.pb then Nat.max 1 ((n + 1023) / 1024) else (n + 1023) / 1024
def Coll.node (c : Coll) (chunk lo hi : Nat) : Option NodeVal :=
  (first (fun (y : NodeHeld) => y.chunk = chunk && y.lo = lo && y.hi = hi) c.nodes).map (·.val)
def Coll.hold (c : Coll) (chunk lo hi : Nat) (v : NodeVal) : Coll :=
  if (c.node chunk lo hi).isSome then c else { c with nodes := c.nodes ++ [{ chunk := chunk, lo := lo, hi := hi, val := v }] }
/-- The canonical node of level k that begins at lo. -/
def nodeHi (k lo P : Nat) : Nat := Nat.min (lo + 2 ^ k) P - 1
/-- Where a participant stands with a chunk: the highest node it has, and the rank that combines it next, none at the root. -/
structure Climb where
  c : Coll
  lo : Nat
  hi : Nat
  dest : Option Nat
/-- From level k upward: combine while this rank is the lowest of the parent and the sibling's value is there. -/
def Coll.climb (c : Coll) (chunk : Nat) : Nat → Nat → Option Climb
  | 0, _ => none
  | fuel + 1, k =>
    let P := c.count
    let lo := c.rank
    let hi := nodeHi k lo P
    if lo = 0 && P ≤ 2 ^ k then some { c := c, lo := lo, hi := hi, dest := none }
    else if lo % 2 ^ (k + 1) ≠ 0 then some { c := c, lo := lo, hi := hi, dest := some (lo - 2 ^ k) }
    else
      let mid := lo + 2 ^ k
      if P ≤ mid then c.climb chunk fuel (k + 1)
      else
        let top := nodeHi (k + 1) lo P
        match c.node chunk lo top with
        | some _ => c.climb chunk fuel (k + 1)
        | none =>
          match c.node chunk lo hi, c.node chunk mid top with
          | some a, some b =>
            let q := combineNodes c.pb c.lens chunk lo mid top a b
            ({ c.hold chunk lo top q.1 with census := censusAdd c.census q.2.1 q.2.2 }).climb chunk fuel (k + 1)
          | _, _ => none

/-! ## Peers -/

def State.collAt (s : State) (id : Nat) : Option Coll := first (fun (c : Coll) => c.id = id) s.net.colls
def State.modColl (s : State) (id : Nat) (f : Coll → Coll) : State :=
  { s with net := { s.net with colls := s.net.colls.map (fun c => if c.id = id then f c else c) } }
/-- Package and die of a rank. -/
def State.collPlace (s : State) (c : Coll) (r : Nat) : Nat × Nat :=
  if c.yardBlocks = [] then nth c.parts r (0, 0)
  else (s.io.fabid.toNat, match s.blockOf (s.block c.block).launch (nth c.yardBlocks r 0) with
    | some b => (s.block b).die
    | none => 15)
/-- How many collectives of one TAG and group its block has formed before it: blocks take part in them in one order. -/
def State.collTurn (s : State) (c : Coll) : Nat :=
  (s.net.colls.filter (fun y => y.block = c.block && y.k < c.k && y.formed && collTag y.pb = collTag c.pb && y.parts.head? = c.parts.head?
    && y.yardBlocks = c.yardBlocks)).length
/-- Participants of one collective on this package: the same TAG, the same yard or rank 0's place, and the same turn. -/
def State.collWith (s : State) (c x : Coll) : Bool :=
  x.formed && s.collTurn x = s.collTurn c && collTag x.pb = collTag c.pb && x.parts.head? = c.parts.head? && x.yardBlocks = c.yardBlocks
    && (c.yardBlocks = [] || (s.block x.block).launch = (s.block c.block).launch)
def State.collPeers (s : State) (c : Coll) : List Coll := s.net.colls.filter (fun x => s.collWith c x && x.status = 0)
/-- The collective of this package that a message names: the newest of its TAG and rank on the die. -/
def State.collFor (s : State) (m : CollMsg) : Option Coll :=
  (s.net.colls.filter (fun c => c.formed && collTag c.pb = extTag m.ext && c.die = m.die && c.rank = m.rank)).reverse.head?

/-! ## Results (R318 to R320) -/

/-- The element range of the result at the participant. -/
def Coll.result (c : Coll) : Nat × Nat := collResult c.pb c.lens c.rank
def Coll.resultChunks (c : Coll) : Nat :=
  let n := (c.result.2 + 1023) / 1024
  if isMerge c.pb then Nat.max 1 n else n
/-- The rank whose element stands at place e of the concatenation, and its place there. -/
def ownerOf : List Nat → Nat → Nat → Nat × Nat
  | [], r, e => (r, e)
  | n :: l, r, e => if e < n then (r, e) else ownerOf l (r + 1) (e - n)
/-- The node that holds result element e: chunk, lo, hi, and the element's place in the chunk. -/
def Coll.source (c : Coll) (e : Nat) : Nat × Nat × Nat × Nat :=
  match collOp c.pb with
  | 2 =>
    let (r, i) := ownerOf c.lens 0 e
    (i / 1024, r, r, i % 1024)
  | 3 => (e / 1024, collRoot c.pb, collRoot c.pb, e % 1024)
  | _ =>
    let g := c.result.1 + e
    (g / 1024, 0, c.count - 1, g % 1024)
/-- What an EMPTY element is written as. -/
def identityOf (p : PBlock) : W32 :=
  let v : W32 := match collRop p with | 0 => 0x80000000 | 1 => 0xFF800000 | _ => 0x7F800000
  if isBf16 p then v >>> 16 else v
def Coll.wideAt (c : Coll) (e : Nat) : Option W32 :=
  let y := c.source e
  match c.node y.1 y.2.1 y.2.2.1 with
  | some (.wide l) => some ((nth l y.2.2.2 none).getD (identityOf c.pb))
  | some _ => some (identityOf c.pb)
  | none => none
/-- Every node that elements lo to lo + n − 1 of the result come from is held. -/
def Coll.ready (c : Coll) (chunk : Nat) : Bool :=
  if isMerge c.pb then (c.node chunk 0 (c.count - 1)).isSome
  else (from_ (1024 * chunk) (chunkLen c.result.2 chunk)).all (fun e =>
    let y := c.source e
    (c.node y.1 y.2.1 y.2.2.1).isSome)
/-- Result block k of a NARROW result: a source block where the two grids agree; where a block would join elements of
several source blocks the spec states no result, and its value is free (log 21). -/
def Coll.narrowAt (c : Coll) (free k : Nat) : BitVec 12 × List (BitVec 8) :=
  let y := c.source (32 * k)
  let last := c.source (Nat.min (32 * k + 31) (c.result.2 - 1))
  let aligned := y.2.2.2 % 32 = 0 && y.1 = last.1 && y.2.1 = last.2.1 && y.2.2.2 / 32 = last.2.2.2 / 32
  let w := elemWidth (collFmt c.pb)
  let live := fun (l : List (BitVec 8)) => (l.zip (upTo 32)).map (fun (v, i) => if 32 * k + i < c.result.2 then v else 0)
  if aligned then
    match c.node y.1 y.2.1 y.2.2.1 with
    | some (.narrow l) => (match nth l (y.2.2.2 / 32) none with
        | some b => (b.1, live b.2)
        | none => (0, live (List.replicate 32 0)))
    | _ => (0, live (List.replicate 32 0))
  else ((Config.freeWord (free + 33 * k)).setWidth 12,
    live ((upTo 32).map (fun i => BitVec.ofNat 8 ((Config.freeWord (free + 33 * k + 1 + i)).toNat % 2 ^ w))))
/-- Element e of a NARROW result, read by dequant from the block that holds it (R319). -/
def Coll.narrowElem (c : Coll) (e : Nat) : W32 :=
  let y := c.source e
  match c.node y.1 y.2.1 y.2.2.1 with
  | some (.narrow l) =>
    match nth l (y.2.2.2 / 32) none with
    | some b => (dequant (nth b.2 (y.2.2.2 % 32) 0).toNat b.1.toNat (collFmt c.pb)).1
    | none => identityOf c.pb
  | _ => identityOf c.pb
/-- Bytes of result chunk i as LANDED counts them. Under NARROW in scratchpad a line counts with the chunk of its last
block (log 21). -/
def Coll.chunkBytes (c : Coll) (i : Nat) : Nat :=
  let p := c.pb
  let n := chunkLen c.result.2 i
  if isMerge p then 4 * n + (if i = 0 then 8 else 0)
  else if collDsp p then 4 * n
  else match collWire p with
    | 0 => 4 * n
    | 1 => 2 * n
    | _ =>
      let B := fmtBlocks (collNfmt p)
      let upto := fun (m : Nat) => if c.result.2 ≤ m then (c.result.2 + 32 * B - 1) / (32 * B) else m / (32 * B)
      128 * (upto (1024 * i + n) - upto (1024 * i))
/-- Lines of n bytes at o that are covered whole become raw lines (R49, R52). -/
def Block.rawLines (b : Block) (o n : Nat) : Block :=
  (upTo (n / 128 + 1)).foldl (fun (b : Block) q =>
    let l := (o + 127) / 128 + q
    if 128 * l + 128 ≤ o + n then b.setSb l rawSb else b) b
/-- The NARROW lines of result chunk i: each line's blocks that have landed or land now, the others as they are. -/
def State.narrowLines (s : State) (c : Coll) (free i : Nat) : State :=
  let f := collFmt c.pb
  let B := f.blocks
  let n := chunkLen c.result.2 i
  let k0 := 32 * i
  let kn := (n + 31) / 32
  let all := (c.result.2 + 31) / 32
  (from_ (k0 / B) ((k0 + kn + B - 1) / B - k0 / B)).foldl (fun (s : State) q =>
    let b := s.block c.block
    let l := collDoff c.pb / 128 + q
    let mine := fun k => k < all && (k / 32 = i || c.landed.contains (k / 32))
    let bs := (upTo B).map (fun j =>
      let k := B * q + j
      if mine k then (let y := c.narrowAt free k
                      (y.1.toNat, y.2.map (fun (v : BitVec 8) => v.toNat)))
      else if k < all then (sbSlot (b.sb l) j, blockCodes f 0 (b.line l) j)
      else (0, List.replicate 32 0))
    (s.overtake c.block (128 * l) 128).spadWriteLine c.block l (packLine f 0 (bs.map (·.2))) (mkSb (bs.map (·.1)) (collNfmt c.pb) 0) (s.die c.die).clock none) s
/-- Result chunk i written at its destination. -/
def State.collWrite (s : State) (c : Coll) (free i : Nat) : State :=
  let p := c.pb
  let n := chunkLen c.result.2 i
  let es := from_ (1024 * i) n
  let st := (s.die c.die).clock
  let words : List W32 :=
    if isMerge p then
      match c.node i 0 (c.count - 1) with
      | some (.merge m q v) => (if i = 0 then [m, q] else []) ++ v
      | _ => (if i = 0 then [minusInf, 0] else []) ++ es.map (fun _ => 0)
    else if isNarrow p then
      (if collDsp p then es.map c.narrowElem else [])
    else es.map (fun e => (c.wideAt e).getD 0)
  let head := if isMerge p && 0 < i then 2 else 0
  if collDsp p then
    let words := if isBf16 p && !isMerge p then words.map (fun (v : W32) => v <<< 16) else words
    s.modBlock c.block (fun b => b.setAccs (collDoff p / 4 + head + 1024 * i) words)
  else if isNarrow p && !isMerge p then s.narrowLines c free i
  else
    let sz := if isBf16 p && !isMerge p then 2 else 4
    let bs := words.flatMap (toBytes sz)
    let o := collDoff p + sz * (head + 1024 * i)
    ((s.overtake c.block o bs.length).spadWrite c.block o bs st none).modBlock c.block (fun b => b.rawLines o bs.length)

/-! ## The completion record, and the end (R320, R450) -/

def Coll.recordLo (c : Coll) : W64 := w64 (c.status * 2 ^ 48 + c.landed.length)
def State.collRecord (s : State) (c : Coll) : State := s.landRecord c.block (collBar c.pb) c.recordLo c.census
/-- The record of the collective's formation still waits for its image (R412). -/
def ImgLand.formsAt (l : ImgLand) (c : Coll) : Bool :=
  l.block = c.block && (match l.kind with | .collRecord bar _ _ => bar = collBar c.pb | _ => false)
/-- An event of R450, while Solnal is on: one for each participant package, with the first of its participants that ends so. -/
def State.collEvent (s : State) (c : Coll) (lost : Nat) : State :=
  if !s.solnal.on || s.net.colls.any (fun x => x.id ≠ c.id && 2 ≤ x.status && s.collWith c x) then s
  else
    let e : Event := { time := s.solnal.clock, kind := 450, fabid := s.io.fabid, die := c.die, tag := s.tagOf c.ctx,
                       coll := collTag c.pb, status := c.status,
                       chunks := if c.status = 2 then c.reruns.length else c.landed.length, lostPkg := lost }
    { s with solnal := { s.solnal with events := s.solnal.events ++ [e] } }
/-- Bytes the participant has not landed: of its own LEN while the list of every LEN is unknown (log 22). -/
def Coll.unlanded (c : Coll) : Nat :=
  let c := if c.lens.length = c.count && c.count ≠ 0 then c
    else { c with decl := some { ok := false, lens := [collLen c.pb], inSwitch := false }, rank := 0, parts := [(0, 0)], yardBlocks := [] }
  collBytes c.pb (collDsp c.pb) c.result.2 - (c.landed.map c.chunkBytes).foldl (· + ·) 0
/-- A collective ends failed: STATUS, the bytes it did not land added, the report, and COLLFAIL once for the participants of one
collective on the die (R443). -/
def State.collFail (s : State) (id st lost : Nat) : State :=
  match s.collAt id with
  | none => s
  | some c =>
    if c.status ≠ 0 then s
    else
      let n := c.unlanded
      let c := { c with status := st, formed := true }
      let clock := (s.die c.die).clock
      let lo := c.recordLo
      let s := s.setNet (fun n => { n with lands := n.lands.filter (fun l => !l.formsAt c) })
      let s := (s.modColl id (fun _ => c)).awayDo c.block (.collEnd (collBar c.pb) n lo c.census clock) [(collBar c.pb, 32)]
        (fun s => s.landCollEnd c.block (collBar c.pb) n lo c.census clock)
      let counted := s.net.colls.any (fun x => x.id ≠ c.id && x.die = c.die && 2 < x.status && s.collWith c x)
      let s := if counted then s else s.modDie c.die (fun d => { d with ctr := { d.ctr with collfail := satInc d.ctr.collfail } })
      let r := c.raws.reverse.head?
      let b := s.block c.block
      let key := 32 * b.idx + (match r with | some r => r.idx | none => 0)
      (s.engineReport ((r.map CollRaw.team).getD 0) key ((r.map CollRaw.off).getD false) c.die b.core c.ctx c.pc 0x0504 0 st).collEvent c lost
/-- The collective fails at every participant of this package. -/
def State.collFailAll (s : State) (id st lost : Nat) : State :=
  match s.collAt id with
  | none => s
  | some c => (s.collPeers c).foldl (fun s x => s.collFail x.id st lost) (s.collFail id st lost)
/-- Result chunks that can land now: none while a begun commit holds what they write (R284, step 4). -/
def State.collTodo (s : State) (c : Coll) : List Nat :=
  if s.spadLocked c.block (collBar c.pb) 32 none then []
  else if !collDsp c.pb && s.spadLocked c.block (collDoff c.pb) (collBytes c.pb false c.result.2) none then []
  else (upTo c.resultChunks).filter (fun i => !c.landed.contains i && c.ready i)
/-- They land, counted one by one; the last one ends the collective. -/
def State.collLandNow (s : State) (id : Nat) : State :=
  match s.collAt id with
  | none => s
  | some c =>
      let todo := s.collTodo c
      let s := todo.foldl (fun (s : State) i =>
        match s.collAt id with
        | none => s
        | some c =>
          let s := s.releaseAt c.die .fab
          let s := s.collWrite c s.run.free i
          let s := s.modColl id (fun c => { c with landed := c.landed ++ [i], waited := 0 })
          let s := match s.collAt id with | some c => s.collRecord c | none => s
          ((s.countLate c.block (c.chunkBytes i)).barLand c.block (collBar c.pb) (c.chunkBytes i) (s.die c.die).clock .fab).getD s) s
      let s := if todo ≠ [] && isNarrow c.pb then { s with run := { s.run with free := s.run.free + 33 * (c.result.2 / 32 + 1) } } else s
      match s.collAt id with
      | none => s
      | some c =>
        if c.landed.length < c.resultChunks then s
        else
          let c := { c with status := if c.reruns = [] then 1 else 2 }
          let s := (s.modColl id (fun _ => c)).collRecord c
          if c.status = 2 then s.collEvent c 0x7FF else s
/-- Result chunks land, in the image of a block that is away (R412). -/
def State.collLand (s : State) (id : Nat) : State :=
  match s.collAt id with
  | none => s
  | some c =>
    if c.status ≠ 0 || c.decl.isNone || s.net.lands.any (fun l => l.formsAt c) || s.spadLocked c.block (collBar c.pb) 32 none
        || (s.collTodo c = [] && c.landed.length < c.resultChunks) then s
    else match s.inImage c.block [(collBar c.pb, 32)] (fun s => s.collLandNow id) with
      | .ok s => s
      | .error e => s.imgPause c.block e

/-- FABFAIL counts a failed fabric request (R432, Table 18.5). -/
def State.countFab (s : State) : State := s.modDie 8 (fun d => { d with ctr := { d.ctr with fabfail := satInc d.ctr.fabfail } })

/-! ## Traffic (R321, R439) -/

/-- Bytes a value takes on the wire. -/
def valBytes (p : PBlock) : NodeVal → Nat
  | .wide l => (if isBf16 p then 2 else 4) * l.length
  | .narrow b => 128 * ((b.length + fmtBlocks (collNfmt p) - 1) / fmtBlocks (collNfmt p))
  | .merge _ _ v => 8 + 4 * v.length
  | .empty => 0
def creqExt (s : State) (c : Coll) (chunk lo hi slot : Nat) : ExtBlock :=
  extOf 4 (collTag c.pb * 2 ^ 24 + chunk) (lo * 2 ^ 48 + hi * 2 ^ 32 + s.io.fabid.toNat * 2 ^ 16 + collOp c.pb * 2 ^ 12
    + collRop c.pb * 2 ^ 10 + collWire c.pb * 2 ^ 8 + collNfmt c.pb * 2 ^ 5) c.count slot
def cresultExt (c : Coll) (chunk lo hi : Nat) : ExtBlock := extOf 6 (collTag c.pb * 2 ^ 24 + chunk) (lo * 2 ^ 48 + hi * 2 ^ 32) 0 0
/-- A message to a rank: on this package it waits for the engine, else it leaves, a slot request in class 0, data in class 1
(R321). -/
def State.collSend (s : State) (c : Coll) (pkg : Nat) (m : CollMsg) (local_ : Bool) : State :=
  if local_ then { s with net := { s.net with collIn := s.net.collIn ++ [m] } }
  else
    let o : OutReq := { id := s.uid, pkg := pkg, cls := if extChunk m.ext = noChunk then 0 else 1, team := none, ctx := c.ctx, die := c.die, pc := c.pc, kind := .coll m, waited := 0 }
    (s.setNet (fun n => { n with out := n.out ++ [o] })).bump
/-- A value goes to a rank once; it is charged as it moves, over several periods where the context's collective budget is smaller (R321). -/
def State.collGive (s : State) (id chunk lo hi dest : Nat) (up sw : Bool) : State :=
  match s.collAt id with
  | none => s
  | some c =>
    match c.node chunk lo hi with
    | none => s
    | some v =>
      let k := valBytes c.pb v
      let left := (s.budget c.die c.ctx).coll
      if c.sent.contains (chunk, lo, dest) then s
      else if left + c.paid < k then if left = 0 then s else
        (s.setBudget c.die c.ctx (fun b => { b with coll := 0 })).modColl id (fun c => { c with paid := c.paid + left })
      else
        let (pkg, die) := s.collPlace c dest
        let e := if up then creqExt s c chunk lo hi (if sw then c.grants.headD 0 else 0) else cresultExt c chunk lo hi
        let s := s.setBudget c.die c.ctx (fun b => { b with coll := b.coll - (k - c.paid) })
        let s := s.modColl id (fun c => { c with sent := c.sent ++ [(chunk, lo, dest)], paid := 0 })
        s.collSend c pkg { ext := e, die := die, rank := dest, val := v } (pkg = s.io.fabid.toNat && !sw)
/-- One chunk of a participant moves on: its value to its switch, or up the tree, or to every rank. -/
def State.collChunk (s : State) (id chunk : Nat) : State :=
  match s.collAt id with
  | none => s
  | some c =>
    let all := fun (s : State) (lo hi : Nat) => (upTo c.count).foldl (fun s r =>
      if r = c.rank then s else s.collGive id chunk lo hi r false false) s
    if !combines c.pb then
      (if collOp c.pb = 3 && c.rank ≠ collRoot c.pb then s else all s c.rank c.rank)
    else if (match c.decl with | some d => d.inSwitch | none => false) && !c.reruns.contains chunk then
      s.collGive id chunk c.rank c.rank 0 true true
    else
      match c.climb chunk 12 0 with
      | none => s
      | some y =>
        let s := s.modColl id (fun _ => y.c)
        match y.dest with
        | some r => s.collGive id chunk y.lo y.hi r true false
        | none => all s y.lo y.hi
/-- A participant that has landed its result still owes values to other ranks (R32, R321). -/
def State.collOwes (s : State) (c : Coll) : Bool :=
  let all := fun (i lo : Nat) => (upTo c.count).any (fun r => r ≠ c.rank && !c.sent.contains (i, lo, r))
  (c.status = 1 || c.status = 2) && (upTo c.chunks).any (fun i =>
    if !combines c.pb then (collOp c.pb ≠ 3 || c.rank = collRoot c.pb) && all i c.rank
    else if (match c.decl with | some d => d.inSwitch | none => false) && !c.reruns.contains i then !c.sent.contains (i, c.rank, 0)
    else match c.climb i 12 0 with
      | none => false
      | some y => (match y.dest with
        | some r => !c.sent.contains (i, y.lo, r)
        | none => all i y.lo))
/-- Everything a participant can do now. -/
def State.collPump (s : State) (id : Nat) : State :=
  match s.collAt id with
  | none => s
  | some c =>
    match c.decl with
    | some d =>
      if !d.ok || 2 < c.status then s
      else ((upTo c.chunks).foldl (fun s i => s.collChunk id i) s).collLand id
    | none => s

/-! ## Formation (R316, R317) -/

/-- Teams of a block that have not exited. -/
def State.liveTeams (s : State) (blk : Nat) : List Nat :=
  (s.teams.filter (fun (_, t) => t.block = blk && t.exited ≠ allLanes)).map Prod.fst
/-- One doubleword of a group table. -/
inductive GroupRead
  | ok (v : W64)
  /-- a translation fault at an address -/
  | fault (code level va : Nat)
  | wait
  | bad
  /-- its memory is uncorrectable (R403) -/
  | poison
/-- A doubleword read, and the machine after the lookup, whose walk is charged whatever comes of it (R387, R417). -/
def State.groupWord (s : State) (c : Coll) (va : Nat) : GroupRead × State :=
  if 2 ^ 57 ≤ va || va % 8 ≠ 0 then (.bad, s)
  else
    let core := (s.block c.block).core
    match s.translate c.die core c.ctx va .rd with
    | .wait => (.wait, s)
    | .fault code lvl => (.fault code lvl va, s.walkAt c.die core c.ctx va)
    | .ok pa s =>
      if !s.paOk pa || isFabric pa then (.bad, s)
      else if s.xFailed pa || (poisonIn s.mem.poison pa 8).isSome then (.poison, s)
      else if s.homeServes c.die (s.die c.die).clock s.uid pa 8 then
        (.ok (s.mem.word pa), s.touchL2 pa (s.tagOf c.ctx) false)
      else (.wait, s)
/-- The entries of a table, and whether a reserved bit is set; what stopped the reading otherwise. -/
def State.groupEntries (s : State) (c : Coll) : Nat → Nat → List (Nat × Nat) → Bool → Except GroupRead (List (Nat × Nat) × Bool) × State
  | 0, _, acc, bad => (.ok (acc.reverse, bad), s)
  | n + 1, va, acc, bad =>
    match s.groupWord c va with
    | (.ok v, s) => s.groupEntries c n (va + 8) ((bits v 22 10, bits v 19 3) :: acc) (bad || v &&& ~~~ 0xFFF80000#64 ≠ 0)
    | (r, s) => (.error r, s)
def State.groupTable (s : State) (c : Coll) : Except GroupRead (List (Nat × Nat) × Bool) × State :=
  let va := (collGroup c.pb).toNat
  match s.groupWord c va with
  | (.ok v, s) =>
    let n := bits v 0 11
    let defect := bits v 11 53 ≠ 0 || n = 0 || 1024 < n
    s.groupEntries c (if defect && (n = 0 || 1024 < n) then 1 else n) (va + 8) [] defect
  | (r, s) => (.error r, s)
/-- The source lines pass their checks (R319). -/
def Block.sourceOk (b : Block) (p : PBlock) : Bool :=
  collSsp p || (upTo (ceilDiv (collBytes p false (collLen p)) 128)).all (fun q =>
    let sb := b.sb (collSoff p / 128 + q)
    sbOk sb && sbFormat sb = (if isNarrow p && !isMerge p then collNfmt p else 0))
def Block.sourcePoison (b : Block) (p : PBlock) : Bool :=
  let n := collBytes p (collSsp p) (collLen p)
  if collSsp p then b.accPoison (collSoff p / 4) (n / 4) else (poisonIn b.spadPoison (collSoff p) n).isSome
def State.linkAt (s : State) (n : Nat) : Port :=
  nth s.io.ports n { up := false, retrains := 0, combine := false, slots := 0, trained := false }
/-- The word of a slot request (R439 step 2): to the switches on the way to rank 0. -/
def State.slotRequest (s : State) (c : Coll) : State :=
  let asks := collInsw c.pb && (match look (4 * (s.collPlace c 0).1 + 1) s.io.routes with
    | some r => r.valid && (s.linkAt r.port.toNat).combine
    | none => false)
  if asks then
    s.collSend c (s.collPlace c 0).1 { ext := creqExt s c noChunk 0 (c.count - 1) 0, die := 0, rank := 0, val := .empty } false
  else s.modColl c.id (fun c => { c with refusedGrant := true })
/-- The collective forms with its participants known. -/
def State.collFormed (s : State) (c : Coll) (bad : Bool) : State :=
  let twin := s.net.colls.any (fun x => x.id ≠ c.id && x.formed && x.status = 0 && x.die = c.die && x.rank = c.rank
    && collTag x.pb = collTag c.pb)
  let b := s.block c.block
  let c := { c with formed := true, badTable := bad, badSource := !b.sourceOk c.pb, paused := none }
  let s := (s.modColl c.id (fun _ => c)).awayDo c.block (.collRecord (collBar c.pb) c.recordLo c.census) [(collBar c.pb, 32)]
    (fun s => s.collRecord c)
  let lost := s.net.colls.any (fun x => x.id ≠ c.id && x.status = 3 && s.collWith c x)
  if twin then s.collFail c.id 4 0x7FF
  else if b.sourcePoison c.pb then s.collFailAll c.id 3 0x7FF
  else if lost then s.collFail c.id 3 0x7FF
  else s.slotRequest c
/-- R316: every team of the block that has not exited has issued it; a block without such a team fails it with STATUS 5. -/
def State.collForm (s : State) (id : Nat) : State :=
  match s.collAt id with
  | none => s
  | some c =>
    let live := s.liveTeams c.block
    if c.formed || c.paused.isSome then s
    else if live = [] then s.collFail id 5 0x7FF
    else if !live.all (fun u => c.raws.any (fun r => r.team = u)) then s
    else
      match c.raws.reverse.head? with
      | none => s
      | some lst =>
        let odd := fun (s : State) => (c.raws.filter (fun r => live.contains r.team && !sameBlock collFields r.pb lst.pb)).foldl
          (fun s r => s.kill r.team r.off r.pc r.word (illegalOperand 0x14 0)) s
        if c.yardBlocks ≠ [] then (odd s).collFormed c false
        else
          match s.groupTable c with
          | (.ok (es, bad), s) => (odd s).collFormed { c with parts := es, rank := collRank c.pb } bad
          | (.error .wait, s) | (.error (.ok _), s) => s
          | (.error .bad, s) => (odd s).collFail id 4 0x7FF
          | (.error .poison, s) => (odd s).collFail id 3 0x7FF
          | (.error (.fault code lvl va), s) =>
            let b := s.block c.block
            let s := s.modColl id (fun c => { c with paused := some code })
            s.fqEnter c.die (s.tagOf c.ctx) code va 5 5 lvl 0 0 b.core 0 (.group id)
/-- Teams of a block are gone: what waits for them forms or fails. -/
def State.collSettle (s : State) (blk : Nat) : State :=
  (s.net.colls.filter (fun c => c.block = blk && !c.formed)).foldl (fun s c => s.collForm c.id) s

/-! ## COLL (R316) -/

/-- The checks of R316. A barrier object beyond the scratchpad takes the scratchpad-range fault instead (R292); a record beyond it is
checked here (log 22). -/
def collOk (p : PBlock) (l : Launch) : Bool :=
  let lim := fun (tile : Bool) => if tile then l.tileBytes else l.spadBytes
  collOp p ≤ 4 && collRop p ≤ 2 && collWire p ≤ 2 && bits p.w3 0 5 = 0
    && (!isMerge p || collWire p = 0)
    && (!isNarrow p || (1 ≤ collNfmt p && collNfmt p ≤ 6))
    && collSoff p % 128 = 0 && collDoff p % 128 = 0
    && collSoff p + collBytes p (collSsp p) (collLen p) ≤ lim (collSsp p)
    && collDoff p ≤ lim (collDsp p)
    && (l.spadBytes < collBar p + 16 || collBar p + 32 ≤ l.spadBytes)
    && collRank p ≤ 1023
    && (!collYard p || (collGroup p = 0 && collRank p = 0))
/-- Member blocks of a yard in rank order. -/
def yardBlocksOf (e : BitVec 128) : List Nat := (upTo (yardNblk e)).map (fun k => yardFirst e + k * yardStride e)

/-- COLL (R316). The barrier fault is tested before the TAG in use: R162 does not order the two, a choice of the model (log 85). -/
def execColl (g : Guard) (pb : PBlock) (s : State) : Host.Outcome State Fault Refusal :=
  s.issue (fun x => do
    let act := x.act g
    let us := markUses collFields pb
    let t ← x.enter s act us [] true
    if act = 0 then .ok (s.setTeam x.u (t.finish x.off us [] 0 5))
    else
      x.notInTry
      x.mayAccess s
      let p ← x.substitute pb collFields
      needParam (collOk p x.l)
      let y ← if collYard p then (match x.yard (collYk p) with
          | some (_, e) => .ok (yardBlocksOf e)
          | none => .error (.fault (illegalOperand 0x13 0)))
        else .ok []
      x.engBar s (collBar p)
      let k := t.colls
      need (!s.net.colls.any (fun c => c.block = x.t.block && c.k ≠ k && c.status = 0 && collTag c.pb = collTag p))
        (.fault (illegalOperand 0x17 0))
      let s ← x.release s .blk
      let rank := (first (fun (r : Nat × Nat) => r.1 = x.b.idx) (y.zip (upTo y.length))).map Prod.snd
      let fresh : Coll := { id := s.uid, block := x.t.block, k := k, ctx := x.c, die := x.b.die, pc := x.p.pc, pb := p, raws := [],
                            formed := false, parts := [], yardBlocks := [], rank := 0, badTable := false, badSource := false,
                            decl := none, grants := [], refusedGrant := false, nodes := [], sent := [], paid := 0, landed := [],
                            reruns := [], waited := 0, lost := 0, status := 0, census := 0, paused := none }
      let old := first (fun (c : Coll) => c.block = x.t.block && c.k = k) s.net.colls
      let c := old.getD fresh
      let c := { c with pc := x.p.pc, pb := p, raws := c.raws ++ [{ team := x.u, idx := x.t.idx, pc := x.p.pc, word := x.fetched, off := x.off, pb := pb }],
                         yardBlocks := y, rank := rank.getD 0 }
      let s := s.setTeam x.u ({ t with colls := k + 1 }.finish x.off us [] 0 5)
      let s := match old with
        | some o => s.modColl o.id (fun _ => c)
        | none => (s.setNet (fun n => { n with colls := n.colls ++ [c] })).bump
      .ok (s.collForm c.id))

/-! ## EXIT (R13) -/

/-- Lanes that leave the team leave the other side's path too, where a loft entry that the team stored over had given them to both
(R16); a path without lanes ends. -/
def Team.trimSide (t : Team) (off : Bool) (gone : Lanes) : Team :=
  match (t.side off).path with
  | none => t
  | some p =>
    if p.mask &&& gone = 0 then t
    else if p.mask &&& ~~~ gone = 0 then t.setSide off .empty
    else t.setSide off { t.side off with path := some { p with mask := p.mask &&& ~~~ gone } }

/-- R13: the last lane's exit dissolves a harness the team is in (R30), and forms or fails what its block's other teams wait
for (R316, R320). -/
def execExit (g : Guard) (s : State) : Host.Outcome State Fault Refusal :=
  s.issue (fun x => do
    let gl := x.act g
    if gl = 0 then .ok (s.setTeam x.u (x.t.advance x.off 1))
    else
      need x.t.region.isNone (.fault (illegalOperand 0x09 0))
      need x.t.handler.isNone (.fault (illegalOperand 0x0B 0))
      let m := x.p.mask &&& ~~~ gl
      let t := { x.t with exited := x.t.exited ||| gl }.trimSide (!x.off) gl
      if m ≠ 0 then
        let s := s.setTeam x.u ((t.setSide x.off { t.side x.off with path := some { x.p with mask := m } }).advance x.off 1)
        if (t.side (!x.off)).path.isSome = (x.t.side (!x.off)).path.isSome then .ok s else s.refill x.u
      else
        let s ← (s.setTeam x.u t).endPath x.u x.off
        if ((s.teamAt x.u).map (·.exited)) ≠ some allLanes then .ok s
        else
          let s := match x.t.harness with
            | some (h, _) => (s.modTeam x.u (fun t => { t with harness := none })).dissolve x.t.block h x.u false
            | none => s
          .ok (s.collSettle x.t.block))

/-! ## COLL_DECLARATION (R317) -/

/-- Fields of word 3 that must agree: OPN, ROP, WIRE, NFMT, INSW, ROOT. -/
def collSig (p : PBlock) : Nat := bits p.w3 21 11 * 2 ^ 11 + bits p.w3 8 11
/-- What a participant of this package reports. -/
def Coll.report (c : Coll) : CollReport :=
  { rank := c.rank, len := collLen c.pb, sig := collSig c.pb, count := c.count, badTable := c.badTable, breach := c.badSource,
    granted := c.grants ≠ [] && !c.refusedGrant }
/-- The destination range of a participant for a list of every LEN. -/
def State.destBreach (s : State) (c : Coll) (lens : List Nat) : Bool :=
  let l := s.launchOf c.block
  (if collDsp c.pb then l.tileBytes else l.spadBytes)
    < collDoff c.pb + collBytes c.pb (collDsp c.pb) (collResult c.pb lens c.rank).2
/-- Rank 0's judgement: none while reports are missing. A defect is declared once as many reports are in as the smallest COUNT among
them, so that the list of every LEN goes out with it. A rank without a report stands in that list with rank 0's own LEN (log 22). -/
def State.collJudge (s : State) (c : Coll) (away : List CollReport) : Option CollDecl :=
  let peers := s.collPeers c
  let rs := peers.map Coll.report ++ away
  let P := c.count
  let dup := rs.any (fun r => 1 < (rs.filter (fun q => q.rank = r.rank)).length)
  let odd := rs.any (fun r => r.badTable || r.breach || P ≤ r.rank || r.sig ≠ collSig c.pb || r.count ≠ P)
  let lens := (upTo P).map (fun k => ((first (fun (r : CollReport) => r.rank = k) rs).map (·.len)).getD (collLen c.pb))
  if dup || odd then
    (if rs.length < (rs.map (·.count)).foldl Nat.min P then none else some { ok := false, lens := lens, inSwitch := false })
  else if !(upTo P).all (fun k => rs.any (fun r => r.rank = k)) then none
  else if peers.any (fun x => collInsw x.pb && x.grants = [] && !x.refusedGrant) then none
  else if peers.any (fun x => s.destBreach x lens)
      || (collOp c.pb = 3 && (P ≤ collRoot c.pb || lens.any (fun n => n ≠ nth lens (collRoot c.pb) 0))) then
    some { ok := false, lens := lens, inSwitch := false }
  else some { ok := true, lens := lens, inSwitch := collInsw c.pb && rs.all (·.granted) }
/-- The declaration reaches a participant: it fails, or starts from its inputs. -/
def State.collStart (s : State) (id : Nat) (d : CollDecl) : State :=
  let s := s.modColl id (fun c => { c with decl := some d, waited := 0 })
  if !d.ok then s.collFail id 4 0x7FF
  else if (match s.collAt id with | some c => (s.block c.block).sourcePoison c.pb | none => false) then s.collFailAll id 3 0x7FF
  else
    let s := s.modColl id (fun c =>
      let b := s.block c.block
      let n := if combines c.pb then c.lmax else collLen c.pb
      let q := b.leafCensus c.pb
      let c := { c with census := censusAdd c.census q.1 q.2 }
      (upTo c.chunks).foldl (fun c i => c.hold i c.rank c.rank (b.leaf c.pb i (chunkLen n i))) c)
    s.collPump id
/-- COLL_DECLARATION: of rank 0 here, or of another package. A collective whose formation waited forms first. -/
def State.collDeclare (s : State) (id : Nat) (away : List CollReport) (decl : Option CollDecl) : State :=
  let s := s.collForm id
  match s.collAt id with
  | none => s
  | some c =>
    if !c.formed || c.status ≠ 0 || c.decl.isSome then s
    else
      let home := (s.collPlace c 0).1 = s.io.fabid.toNat
      let d := if !home then decl
        else if c.rank = 0 then s.collJudge c (away.filter (fun r => c.count ≤ r.rank || (s.collPlace c r.rank).1 ≠ s.io.fabid.toNat))
        else (first (fun (x : Coll) => s.collWith c x && x.rank = 0 && x.decl.isSome) s.net.colls).bind (·.decl)
      match d with
      | some d => s.collStart id d
      | none => s
def execCollDeclaration (coll : Nat) (reports : List CollReport) (decl : Option CollDecl) (s : State) :
    Host.Outcome State Fault Refusal := .next (s.collDeclare coll reports decl)

/-! ## Messages (R439) -/

/-- A message of this package leaves its queue; any other has come over the fabric. -/
def dropMsg (m : CollMsg) : List CollMsg → List CollMsg
  | [] => []
  | x :: r => if x = m then r else x :: dropMsg m r
def State.collTake (s : State) (m : CollMsg) : State := { s with net := { s.net with collIn := dropMsg m s.net.collIn } }
/-- A node value arrives at an engine: CREQ and CRESULT. -/
def State.collReceive (s : State) (m : CollMsg) (type : Nat) : State :=
  if extType m.ext ≠ type || !extOk m.ext || extChunk m.ext = noChunk then s.collTake m
  else
    match s.collFor m with
    | none => s.collTake m
    | some c =>
      match c.decl with
      | none => if c.status ≠ 0 then s.collTake m else s
      | some _ =>
        let s := s.collTake m
        if 2 < c.status then s
        else (s.modColl c.id (fun c => c.hold (extChunk m.ext) (extLo m.ext) (extHi m.ext) m.val)).collPump c.id
def execCollCreqReceive (m : CollMsg) (s : State) : Host.Outcome State Fault Refusal := .next (s.collReceive m 4)
def execCollCresultReceive (m : CollMsg) (s : State) : Host.Outcome State Fault Refusal := .next (s.collReceive m 6)
/-- COLL_GRANT_RECEIVE. -/
def execCollGrantReceive (m : CollMsg) (s : State) : Host.Outcome State Fault Refusal :=
  .next (if extType m.ext ≠ 5 || !extOk m.ext then s
    else match s.collFor m with
      | none => s
      | some c =>
        if c.decl.isSome then s
        else s.modColl c.id (fun c => if bitOf m.ext.d1 0 then { c with grants := c.grants ++ [bits m.ext.d1 16 16] }
          else { c with refusedGrant := true }))
/-- A chunk is rerun by the endpoints, once: every value of it is sent again. -/
def State.collRerun (s : State) (c : Coll) (chunk : Nat) : State :=
  if c.reruns.contains chunk then s
  else
    let again := fun (c : Coll) =>
      { c with reruns := c.reruns ++ [chunk], waited := 0, sent := c.sent.filter (fun y => y.1 ≠ chunk) }
    let s := s.modColl c.id again
    let s := s.modDie c.die (fun d => { d with ctr := { d.ctr with collrerun := satInc d.ctr.collrerun } })
    s.collPump c.id
/-- COLL_CLOSS_RECEIVE: a switch lost a chunk's state. -/
def execCollClossReceive (m : CollMsg) (s : State) : Host.Outcome State Fault Refusal :=
  .next (if extType m.ext ≠ 7 || !extOk m.ext then s
    else match s.collFor m with
      | none => s
      | some c =>
        let n := extChunk m.ext
        if c.status ≠ 0 || c.decl.isNone || c.chunks ≤ n || (c.node n 0 (c.count - 1)).isSome || c.rank < extLo m.ext || extHi m.ext < c.rank then s
        else s.collRerun c n)
/-- A destination package cannot be reached: its route is not VALID or the port is down (R432). The package itself is reached through the
I/O die alone (R76). -/
def State.unreachable (s : State) (pkg cls : Nat) : Bool :=
  if pkg = s.io.fabid.toNat then false else match look (4 * pkg + cls) s.io.routes with
  | some r => !(r.valid && (s.linkAt r.port.toNat).up)
  | none => true
/-- A participant's package that cannot be reached: in class 0 until rank 0 has declared, then in class 1 (R321). -/
def State.collLost (s : State) (c : Coll) : Option Nat :=
  (first (fun (q : Nat × Nat) => q.1 ≠ s.io.fabid.toNat && s.unreachable q.1 (if c.decl.isNone then 0 else 1)) c.parts).map Prod.fst
/-- COLL_CHUNK_TIMEOUT: a participant's package has been unreachable for FABTO, or FABTO has passed since a chunk landed last (R433). -/
def execCollChunkTimeout (coll chunk : Nat) (s : State) : Host.Outcome State Fault Refusal :=
  .next (match s.collAt coll with
    | none => s
    | some c =>
      if c.status ≠ 0 || !c.formed then s
      else
        match if c.lost < s.io.fabto.toNat then none else s.collLost c with
        | some q =>
          let owed := s.net.out.any (fun o => o.pkg = q && o.ctx = c.ctx && (match o.kind with | .coll _ => true | _ => false))
          (if owed then s else s.countFab).collFailAll coll 3 q
        | none =>
          if c.decl.isNone || c.waited < s.io.fabto.toNat || c.chunks ≤ chunk || (c.node chunk 0 (c.count - 1)).isSome then s
          else s.collRerun c chunk)

end Sys2Proof.Machine
end

