-- ==== Sys2Proof/Machine/Launch.lean ====
section
/-! DEFINITION. LNCH and the launch queues it appends to (07_ref_integer_control_system.md R205, R206;
15_launch_and_scheduling.md R378, R379). -/

namespace Sys2Proof.Machine

/-! ## Queues -/

def Queue.held (q : Queue) : Nat := (q.tail - q.head).toNat
def Queue.full (q : Queue) : Bool := 2 ^ q.size ≤ q.held
/-- The physical address of record k of a ring. -/
def Queue.slot (q : Queue) (k : Nat) : Nat := 4096 * q.base.toNat + 64 * (k % 2 ^ q.size)
/-- R379: device appends from a context are refused. -/
def State.refusesAppend (s : State) (q c : Nat) : Bool :=
  let x := s.queueAt q
  !x.en || !x.devapp || x.part ≠ partOf c
/-- A record appended: its bytes in the ring, TAIL, and its age with the stamp it brings (R382, R206). -/
def State.append (s : State) (q : Nat) (rec : List W64) (stamp : Clock) : State :=
  let x := s.queueAt q
  let s := s.devWrite 8 (x.slot x.tail.toNat) (wordsBytes rec)
  let s := s.modQueue q (fun x => { x with tail := x.tail + 1, ages := x.ages ++ [(s.sched.appended, stamp)] })
  { s with sched := { s.sched with appended := s.sched.appended + 1 } }

/-! ## LNCH -/

/-- How an LNCH goes on: it has ended, or its side waits for room. -/
inductive LnchEnd
  | done
  | waits

def lnchUses (a b : Sel) : List SrcUse := [src .s a, src .s b]
/-- The status enters h0 as the LNCH completes. -/
def Team.lnchFinish (t : Team) (off : Bool) (d : Dst) (a b : Sel) (perf : Bool) (v : W64) : Team :=
  t.finish off (lnchUses a b) [.scal d.idx.toNat d.ws perf v none] 0 1

/-- The eight words at a place of a line. -/
def lineWords (v : Line) (o : Nat) : List W64 := (upTo 8).map (fun i => v.extractLsb' (8 * o + 64 * i) 64)
/-- The read of a record from another package that this LNCH has sent, and its answer. -/
def Iss.recordOp (x : Iss) (s : State) : Option MemOp :=
  first (fun o => o.team = x.u && o.off = x.off && o.isRecord && o.pc = x.p.pc) s.net.ops
def recordFault (code pa : Nat) : Halt := .fault { accessFault code accLoad allLanes pa 0 with paddr := pa }
/-- The record of R205: the eight words with the machine after its read, or the machine that has sent the read of a record
in another package. A record of this package is read at once at its home, as far as the die's clock and the die's own
writes allow. While the record of another package is on its way the side carries no wait reason and stands at no blocking point: Table
05.5 gives LNCH the reason LAUNCH only, R98 names REMOTE_LOAD for loads, and the model takes neither (log 82). -/
def Iss.readRecord (x : Iss) (s : State) (va : Nat) : Except Halt (State × Option (List W64)) := do
  let (s, as) ← x.globalAccs s accLoad true .rd 64 [(0, va)]
  walkedBy (as.map (·.va)) do
    let pa := (as.map (·.pa)).headD 0
    if isFabric pa then
      match x.recordOp s with
      | none =>
        let s ← x.release s .dev
        let p := s.linePart x.b.die x.b.core (pa / 128) 15 false false false
        .ok (s.addOp { x.memOp s (.line false [] none p) .none allLanes with reason := some .launch }, none)
      | some o =>
        match o.kind with
        | .line _ _ _ p =>
          match p.got with
          | none => .error (.stall true)
          | some (v, _, code, _, _) =>
            need (code % 65536 = 0) (recordFault (code % 65536) pa)
            .ok ({ s with net := { s.net with ops := s.net.ops.filter (fun y => y.id ≠ o.id) } }, some (lineWords v (pa % 128)))
        | _ => .error (.stall true)
    else
      need (s.homeServes x.b.die (s.die x.b.die).clock s.uid pa 64) (.stall true)
      let s ← x.release s .dev
      need (!s.xFailed pa) (recordFault 0x0402 pa)
      match (sectorsOf pa 64).filter (fun k => (look k s.mem.poison).isSome) with
      | k :: _ => .error (recordFault ((look k s.mem.poison).getD 0x0401) (32 * k))
      | [] => .ok (s.touchL2 pa (s.tagOf x.c) false, some ((upTo 8).map (fun i => s.mem.word (pa + 8 * i))))

def Iss.lnch (x : Iss) (s : State) (g : Guard) (d : Dst) (a b : Sel) (nb : Bool) : Except Halt (State × LnchEnd) := do
  let act := x.act g
  let t ← x.enter s act (lnchUses a b) (dstUses .s d) true
  let fin := fun (s : State) (perf : Bool) (v : W64) => s.setTeam x.u (t.lnchFinish x.off d a b perf v)
  if act = 0 then .ok (fin s false 0, .done)
  else
    x.notInTry
    x.mayAccess s
    let q ← x.scal true a
    let va ← x.scal true b
    let (s, rec) ← x.readRecord s va.toNat
    match rec with
    | none => .ok (s, .done)
    | some rec =>
      let stamp := (s.die x.b.die).clock
      if Config.queues ≤ q.toNat || s.refusesAppend q.toNat x.c then .ok (fin s true 2, .done)
      else if !(s.queueAt q.toNat).full then .ok ((fin s true 0).append q.toNat rec stamp, .done)
      else if nb then .ok (fin s true 1, .done)
      else
        let w : LnchWait := { queue := q.toNat, record := rec, dst := d, a := a, b := b, stamp := stamp }
        let sd := { (t.side x.off).clear with wait := .on .launch q.toNat, lnch := some w }
        .ok (s.setTeam x.u { t.setSide x.off sd with turn := !x.off }, .waits)

def execLnch (g : Guard) (d : Dst) (a b : Sel) (nb : Bool) (s : State) : Host.Outcome State Fault Refusal :=
  match s.issuing with
  | none => .refused .noIssuingPath
  | some x =>
    match x.lnch s g d a b nb with
    | .ok (s', .done) => .next (s'.issued x.u x.off)
    | .ok (s', .waits) => .next { s'.leavePipe x.u with run := { s'.run with cur := none } }
    | .error h => .next (s.stop x h)

/-- The status of a waiting LNCH on the team's own registers, where the other side stands in the trap handler (R210). -/
def Team.lnchStatus (t : Team) (off : Bool) (w : LnchWait) (v : W64) : Team :=
  if t.handler = some (!off) then
    { ({ t with handler := none }.lnchFinish off w.dst w.a w.b true v) with handler := t.handler }
  else t.lnchFinish off w.dst w.a w.b true v
/-- LNCH_DEFERRED_APPEND: a waiting LNCH appends once its queue has room, and completes. One whose queue has come to refuse device
appends by then ends with status 2, a choice of the model: R205 speaks of the wait for room only (log 82). -/
def State.lnchDeferred (s : State) (u : Nat) (off : Bool) : State :=
  match s.teamAt u with
  | none => s
  | some t =>
    match (t.side off).lnch with
    | none => s
    | some w =>
      let c := s.ctxOf t.block
      let ready := s.refusesAppend w.queue c || !(s.queueAt w.queue).full
      if !ready || t.halted || t.park.fault.isSome || (s.block t.block).res ≠ .core || (s.partAt (partOf c)).stopped then s
      else
        let v : W64 := if s.refusesAppend w.queue c then 2 else 0
        let t' := t.lnchStatus off w v
        let t' := t'.setSide off { t'.side off with wait := .none, lnch := none }
        let s := s.setTeam u { t' with waited := 0 }
        if v = 2 then s else s.append w.queue w.record w.stamp
def execLnchDeferredAppend (team : Nat) (off : Bool) (s : State) : Host.Outcome State Fault Refusal :=
  .next (s.lnchDeferred team off)

end Sys2Proof.Machine
end

