-- ==== Sys2Proof/Machine/TryOps.lean ====
section
/-! DEFINITION. Speculation: TRY, COMMIT, ABORT, ABORTL (09_ref_memory_sync_try.md R279 to R288;
04_ordering_and_visibility.md R129). -/

namespace Sys2Proof.Machine

/-! ## Opening a region (R280) -/

/-- The region state that TRY records. -/
def Iss.region (x : Iss) (s : State) (t : Team) (lane : Bool) (target rpc : W64) : Try :=
  { lane := lane, target := target, rpc := rpc, mask := x.p.mask, prpc := x.p.rpc, loft := t.loftDepth,
    sVregs := t.vregs, sSregs := t.sregs, sPreds := t.preds, sFlags := t.flags, sFlagen := t.flagen, sDraw := t.draw,
    sSlots := t.slots, adds := [], buf := [], reads := [], aborted := 0, stores := 0, since := s.uid, begun := none, scope := .team,
    released := none }
/-- Every register that the snapshot names is marked as the snapshot's too. -/
def Team.snapped (t : Team) : Team :=
  { t with vregs := t.vregs.map (fun (i, v) => (i, { v with snap := true }))
           sregs := t.sregs.map (fun (i, v) => (i, { v with snap := true })) }
/-- TRY. Inside an open region while the team's other side holds a path both conditions of R280 stand: the kill comes first, a choice of
the model (log 69). -/
def Iss.open_ (x : Iss) (s : State) (g : Guard) (lane : Bool) (target rpc : W64) : Except Halt State := do
  let act := x.act g
  let t ← x.enter s act [] [] false
  if act = 0 then .ok (s.setTeam x.u (t.finish x.off [] [] 0 1))
  else
    need (t.side (!x.off)).path.isNone (.fault (illegalOperand 0x07 0))
    need t.handler.isNone (.fault (illegalOperand 0x08 0))
    need t.region.isNone (.abort 8 none x.p.pc 0)
    needAddr target
    if lane then needAddr rpc else .ok ()
    let r := x.region s t lane target rpc
    let t := { t.snapped with region := some r, trystat := [tryWord 0 0 true lane 0, 0, 0] }
    .ok (s.setTeam x.u (t.finish x.off [] [] 0 1))

def execTryT (g : Guard) (disp : BitVec 20) (s : State) : Host.Outcome State Fault Refusal :=
  s.issue (fun x => x.open_ s g false (x.target disp) rpcNone)
def execTryL (g : Guard) (disp : BitVec 20) (rdisp : BitVec 18) (s : State) : Host.Outcome State Fault Refusal :=
  s.issue (fun x => x.open_ s g true (x.target disp) (x.target rdisp))

/-! ## Aborting (R288) -/

def execAbort (g : Guard) (code : BitVec 8) (s : State) : Host.Outcome State Fault Refusal :=
  s.issue (fun x =>
    if x.act g = 0 then .ok (s.setTeam x.u (x.t.advance x.off 1))
    else if x.t.region.isNone then .error (.fault (illegalOperand 0x0C 0))
    else .error (.abort 1 (some code.toNat) 0 0))
def execAbortl (g : Guard) (code : BitVec 8) (s : State) : Host.Outcome State Fault Refusal :=
  s.issue (fun x =>
    if x.act g = 0 then .ok (s.setTeam x.u (x.t.advance x.off 1))
    else match x.t.region with
      | none => .error (.fault (illegalOperand 0x0C 0))
      | some r =>
        if r.lane then
          let s := s.setTeam x.u (x.t.advance x.off 1)
          s.abortLanes x.u x.off (x.act g) 1 (some code.toNat) 0 0
        else .error (.abort 1 (some code.toNat) 0 0))

/-! ## Committing (R284) -/

/-- The bytes of a buffered sector as one piece, each byte that of the highest lane that wrote it. -/
def bufPiece (l : List BufSec) (k : SecKind) (key : Nat) : Piece :=
  { addr := 32 * key
    mask := BitVec.ofNat 32 ((upTo 32).foldr (fun i acc => 2 * acc + b1 (bufByte l k key i).isSome) 0)
    data := BitVec.ofNat 256 (ofBytes ((upTo 32).map (fun i => (bufByte l k key i).getD 0))) }
/-- A buffered side-band that still holds bytes. -/
def bufSide (l : List BufSec) (k : SecKind) (line : Nat) : Option SideBand :=
  match secAt k line l with
  | some b => if b.bytes = [] then none
    else some (BitVec.ofNat 128 (ofBytes ((upTo 16).map (fun i => (bufByte l k line i).getD 0))))
  | none => none
/-- The home of a buffered sector; scratchpad belongs to the block's die. -/
def State.bufHome (s : State) (die : Nat) (b : BufSec) : Nat :=
  match b.kind with
  | .mem => s.homeOf (32 * b.key)
  | .memSide => s.homeOf (128 * b.key)
  | .spad | .spadSide => die
/-- The part of a commit that one home applies in one step. -/
def State.commitBody (s : State) (r : Try) (die home : Nat) : WBody :=
  let mine := r.buf.filter (fun b => s.bufHome die b = home)
  { pieces := ((mine.filter (fun b => b.kind = .mem)).map (fun b => bufPiece r.buf .mem b.key)).filter (fun p => p.mask ≠ 0)
    sides := (mine.filter (fun b => b.kind = .memSide)).filterMap (fun b =>
      (bufSide r.buf .memSide b.key).map (fun v => (b.key, v))) }
/-- The queue entries of one home's part: a charge for each sector, the whole part leaving with the last; they take the commit's stamp once
its release is done. -/
def commitEntries (w : WBody) : List QEntry :=
  let none_ : Piece := { addr := 0, mask := 0, data := 0 }
  let views := w.pieces ++ w.sides.map (fun _ => none_)
  (views.zip (upTo views.length)).map (fun (p, i) =>
    { view := p, charge := 32, commit := true, rel := false, stamp := none, send := if i + 1 = views.length then .write w else .nothing })
/-- The parts of a commit that go to homes of memory. -/
def State.commitBodies (s : State) (r : Try) (die : Nat) : List WBody :=
  ((sortNat (r.buf.map (s.bufHome die))).map (s.commitBody r die)).filter (fun w => w.pieces ≠ [] || w.sides ≠ [])
/-- A part goes to the block's own die: the scratchpad sectors are applied with it. -/
def State.commitOwn (s : State) (r : Try) (die : Nat) : Bool := r.buf.any (fun b => (b.kind = .mem || b.kind = .memSide) && s.bufHome die b = die)
/-- One sector of a block's scratchpad written, whole where the piece is whole. -/
def State.spadPiece (s : State) (blk : Nat) (p : Piece) (c : Clock) (by_ : Option Nat) : State :=
  if p.mask = BitVec.allOnes 32 then s.spadWrite blk p.addr (toBytes 32 p.data) c by_
  else (upTo 32).foldl (fun (s : State) i => if p.mask.getLsbD i then s.spadWrite blk (p.addr + i) [byteOf p.data i] c by_ else s) s
/-- The buffered scratchpad sectors written at the core. -/
def State.commitSpad (s : State) (u blk : Nat) (r : Try) : State :=
  let c := r.released.getD .zero
  let s := (r.buf.filter (fun b => b.kind = .spad)).foldl (fun (s : State) b => s.spadPiece blk (bufPiece r.buf .spad b.key) c (some u)) s
  (r.buf.filter (fun b => b.kind = .spadSide)).foldl (fun s b =>
    match bufSide r.buf .spadSide b.key with
    | some v =>
      let s := s.modBlock blk (fun y => y.setSb b.key v)
      { s with net := { s.net with conflicts := s.net.conflicts ++ s.conflictNotes .spadSide b.key (some blk) (some u) } }
    | none => s) s
/-- Another team's begun commit holds a sector of this region. -/
def State.otherCommit (s : State) (u : Nat) (t : Team) (r : Try) : Bool :=
  let keys := r.reads.map (fun x => (x.kind, x.key)) ++ r.buf.map (fun x => (x.kind, x.key))
  s.teams.any (fun (v, o) => v ≠ u && keys.any (fun (k, key) => o.locks k key
    && (match k with | .mem | .memSide => true | .spad | .spadSide => o.block = t.block)))

/-- R389: slots as the surviving lanes' adds leave them. -/
def Try.slots (r : Try) (cur : List (Nat × W32)) : List (Nat × W32) :=
  if r.aborted = 0 then cur
  else (r.adds.filter (fun a => !(a.lane < 32 && r.aborted.getLsbD a.lane))).foldl (fun sl a =>
    place a.addr (addRne ((look a.addr sl).getD 0x80000000#32) a.val) sl) r.sSlots
/-- Results of the region still to land, computed at their issue, leave out the lanes that have aborted: those keep their snapshot values
(R287). -/
def State.clipOps (s : State) (u : Nat) (r : Try) : State :=
  { s with net := { s.net with ops := s.net.ops.map (fun o =>
      if o.team = u && r.since ≤ o.id then { o with lanes := o.lanes &&& ~~~ r.aborted } else o) } }
/-- Step 7 and the paths after it. -/
def Iss.commitEnd (x : Iss) (s : State) (r : Try) : Except Halt State :=
  match s.teamAt x.u with
  | none => .error .refuse
  | some t =>
    let both := r.lane && r.aborted ≠ 0
    let t := if both then t.restore r r.aborted else t
    let w := nth t.trystat 0 0
    let t := { t.unsnap with region := none, slots := r.slots t.slots, retst := t.retst + BitVec.ofNat 32 r.stores
                             trystat := setAt 0 (w &&& ~~~ 0x8000#64) t.trystat }
    if !both then .ok (s.setTeam x.u (t.finish x.off [] [] 0 1))
    else do
      let s := (s.setTeam x.u t).clipOps x.u r
      let s ← s.loftPush x.u { kind := .join, mask := x.p.mask ||| r.aborted, rpc := r.prpc, pc := r.rpc, ok := true }
      .ok (s.modTeam x.u (fun t => { t with
        near := .entered { pc := x.p.pc + 8, mask := x.p.mask, rpc := r.rpc }
        off := .entered { pc := r.target, mask := r.aborted, rpc := r.rpc } }))
/-- Step 5's release is done with clock c: every part carries that stamp, and scratchpad sectors that go with no part to the own die are
applied. -/
def State.commitStamped (s : State) (u : Nat) (t : Team) (r : Try) : State :=
  let b := s.block t.block
  let r := { r with released := some (s.die b.die).clock
                    begun := r.begun.map (fun es => es.map (fun e => { e with stamp := some (s.die b.die).clock })) }
  let s := s.setTeam u { t with region := some r }
  if s.commitOwn r b.die then s else s.commitSpad u t.block r
/-- A begun commit goes on: its release, then entries enter the queue as it has room, and the region ends once every part is applied. -/
def Iss.commitGo (x : Iss) (s : State) (scope : Scope) (t : Team) (r : Try) (es : List QEntry) : Except Halt State :=
  if r.released.isNone then do
    let s ← x.release s scope
    .ok (s.commitStamped x.u t r)
  else match es with
  | [] =>
    if t.queue.any (·.commit) then .error (x.queueHalt s)
    else if s.net.writes.any (fun w => w.team = some x.u && w.commit) then .error (.stall true)
    else x.commitEnd (s.setTeam x.u t) r
  | _ =>
    let n := Config.storeQueue - t.queue.length
    if n = 0 then .error (x.queueHalt s)
    else
      let s := s.storedL1 x.b.die x.b.core (es.take n)
      .ok (s.setTeam x.u { t with queue := t.queue ++ es.take n, region := some { r with begun := some (es.drop n) } })

def Iss.commit (x : Iss) (s : State) (g : Guard) (scope : Scope) (split : Bool) : Except Halt State := do
  let act := x.act g
  let t ← x.enter s act [] [] true
  if act = 0 then .ok (s.setTeam x.u (t.finish x.off [] [] 0 1))
  else
    match t.region with
    | none => .error (.fault (illegalOperand 0x0C 0))
    | some r =>
      match r.begun with
      | some es => x.commitGo s scope t r es
      | none =>
        need (t.side (!x.off)).path.isNone (.fault (illegalOperand 0x07 0))
        x.mayAccess s
        need (!s.accessPending x.u) (.stall true)
        if r.lane && r.aborted ≠ 0 then x.checkLoft 1 else .ok ()
        let homes := sortNat (r.buf.map (s.bufHome x.b.die))
        need (homes.length ≤ 1 || split) (.abort 9 none 0 0)
        need (!s.otherCommit x.u t r) (.stall true)  -- a lock that meets another COMMIT's lock waits for it (log 88)
        match first (fun (c : ConflictNote) => c.team = x.u) s.net.conflicts with
        | some c => .error (.abort 4 none (w64 c.va) 0)
        | none =>
          let es := (s.commitBodies r x.b.die).flatMap commitEntries
          .ok (s.setTeam x.u { t with region := some { r with begun := some es, scope := scope } })

/-- A begun commit of a killed team goes on (R413): once what stands before it in the queue has left, its release at the scope that it
names; once every part is applied, the locks end, and the slots stand as the surviving lanes' adds leave them (R389). -/
def State.commitDead (s : State) (u : Nat) : State :=
  match s.teamAt u with
  | none => s
  | some t =>
    match t.region with
    | none => s
    | some r =>
      if !t.killed then s
      else if r.released.isNone then
        if t.queue.all (·.commit) && !(r.scope = .fab && s.fabricWrites u) then
          let s := s.releaseAt (s.block t.block).die r.scope
          let c := (s.die (s.block t.block).die).clock
          s.commitStamped u { t with queue := t.queue.map (fun e => { e with stamp := some c }) } r
        else s
      else if t.queue.any (·.commit) || s.net.writes.any (fun w => w.team = some u && w.commit) then s
      else s.setTeam u { t with region := none, slots := r.slots t.slots }

def execCommit (g : Guard) (sc : Scope) (s : State) : Host.Outcome State Fault Refusal :=
  s.issue (fun x => x.commit s g sc false)
def execCommitSplit (g : Guard) (sc : Scope) (s : State) : Host.Outcome State Fault Refusal :=
  s.issue (fun x => x.commit s g sc true)

end Sys2Proof.Machine
end

