-- ==== Sys2Proof/Machine/Service.lean ====
section
/-! DEFINITION. What goes on between the cores and the homes: stores leave and are applied, clock announcements, loads and
atomics are served, results land (03_memory_hierarchy.md R83 to R92, 04_ordering_and_visibility.md R106 to R118 and R130,
09_ref_memory_sync_try.md R262 to R264 and R283, 17_translation_errors_links.md R425 and R435). -/

namespace Sys2Proof.Machine

/-! ## Operations in flight -/

def State.opAt (s : State) (id : Nat) : Option MemOp := first (fun (o : MemOp) => o.id = id) s.net.ops
def State.setOp (s : State) (o : MemOp) : State :=
  s.setNet (fun n => { n with ops := n.ops.map (fun y => if y.id = o.id then o else y) })
def State.removeOp (s : State) (id : Nat) : State :=
  s.setNet (fun n => { n with ops := n.ops.filter (fun y => y.id ≠ id) })
def MemOp.setLine (o : MemOp) (i : Nat) (p : LinePart) : MemOp :=
  match o.kind with
  | .load n e c t ps ls => { o with kind := .load n e c t (setAt i p ps) ls }
  | .line t f sb _ => { o with kind := .line t f sb p }
  | _ => o
def MemOp.setAtom (o : MemOp) (i : Nat) (p : AtomPart) : MemOp :=
  match o.kind with
  | .atomic f n ps => { o with kind := .atomic f n (setAt i p ps) }
  | _ => o
/-- The team's earlier accesses let this one be served: those to the same sectors, and of a strong access to the own die the
strong ones before it to the own die (Table 04.3). -/
def State.inTurn (s : State) (o : MemOp) (line : Nat) (m : BitVec 4) (home : Nat) (past : Bool) : Bool :=
  !s.net.ops.any (fun y => y.team = o.team && y.id < o.id && !y.isPref
    && (y.unserved line m past || (o.strong && home = o.die && y.ownUnserved o.die)))

/-! ## Reports of traffic that has failed -/

/-- A report about an access of a team that kills nobody: a RED on a poisoned sector, stores that were dropped. The
address is physical, and the PC, the side and the lanes of a dropped store are not kept (log 24). -/
def State.asyncReport (s : State) (u : Nat) (off : Bool) (die core c : Nat) (pc : W64) (code access addr : Nat) (lanes : Lanes) : State :=
  let ws := s.engineRecord u (s.whoIs u).key off die core c pc code addr 0 false lanes
  let w0 := w64 (2 ^ 63 + b1 off * 2 ^ 60 + access * 2 ^ 56 + code)
  let ws := setAt 0 w0 ws
  let ws := if code = 0x0401 then setAt 6 (w64 (addr % 2 ^ 52)) ws else ws
  s.report die c ws true
/-- Lanes of an instruction that a part of an atomic performs: all of them for the scalar form. -/
def MemOp.partLanes (o : MemOp) (p : AtomPart) : Lanes :=
  if o.scalar then allLanes else BitVec.ofNat 32 ((p.lanes.map (fun y => 2 ^ y.1)).foldl (· + ·) 0)
/-- A RED whose sector is poisoned (R264, R396): the lanes of the part that meets it. -/
def State.redReport (s : State) (o : MemOp) (p : AtomPart) : State :=
  s.asyncReport o.team o.off o.die o.core o.ctx o.pc 0x0401 accAtomic (p.addr / 32 * 32) (o.partLanes p)
def State.coreOfTeam (s : State) (u : Nat) : Nat := (s.whoIs u).core

/-! ## Loads served at their homes (R111) -/

/-- Records of the stamps of n bytes at an address. -/
def stampsIn (l : List StampRec) (a n : Nat) : List StampRec :=
  l.filterMap (fun r =>
    let lo := Nat.max r.addr a
    let hi := Nat.min (r.addr + r.len) (a + n)
    if lo < hi then some { addr := lo, len := hi - lo, stamp := r.stamp } else none)
/-- The stamps of the values in some sectors of a line (R112). -/
def State.lineStamps (s : State) (line : Nat) (need : BitVec 4) : List StampRec :=
  (upTo 4).flatMap (fun k => if need.getLsbD k then stampsIn s.mem.stamps (128 * line + 32 * k) 32 else [])
/-- R283: the sectors a region's load was served. -/
def State.registerReads (s : State) (o : MemOp) (line : Nat) (need : BitVec 4) : State :=
  s.modTeam o.team (fun t => { t with region := t.region.map (fun r =>
    if r.since ≤ o.id then
      { r with reads := r.reads.map (fun x => if x.kind = .mem && x.key / 4 = line && need.getLsbD (x.key % 4) then
          { x with registered := true } else x) }
    else r) })
def OpKind.tryRead : OpKind → Bool
  | .load _ _ _ t _ _ => t
  | .line t _ _ _ => t
  | _ => false
def State.serveLine (s : State) (o : MemOp) (i : Nat) (p : LinePart) : State :=
  let pa := 128 * p.line
  if s.xFailed pa then (s.setOp (o.setLine i { p with got := some (0, 0, 0x0402 + 65536 * p.need.toNat, .zero, []) })).countX
  else if s.homeServes o.die p.clock o.id pa 128 && s.inTurn o p.line p.need p.home false then
    let h := s.die p.home
    let got := some (s.mem.line p.line, s.mem.sb p.line, s.mem.linePoison p.line p.need, h.applied, s.lineStamps p.line p.need)
    let s := (s.setOp (o.setLine i { p with got := got })).touchL2 pa (s.tagOf o.ctx) false
    if o.kind.tryRead then s.registerReads o p.line p.need else s
  else s
/-- The request to another package that an answer belongs to. -/
def State.takeOut (s : State) (k : OutKind) : Option (OutReq × State) :=
  match first (fun (q : OutReq) => decide (q.kind = k)) s.net.out with
  | none => none
  | some q => if s.unreachable q.pkg q.cls then none
    else some (q, s.setNet (fun n => { n with out := n.out.filter (fun y => y.id ≠ q.id) }))
/-- The address in this package's HBM that a fabric-window address of the package itself names (R76). -/
def ownPa (pa : Nat) : Nat := fieldN pa 0 41
/-- No write of the team to the bytes is on its way to the window of the package itself (R86, R106). -/
def State.ownQuiet (s : State) (u pa n : Nat) : Bool :=
  !s.net.out.any (fun o => o.team = some u && o.pkg = s.io.fabid.toNat && (match o.kind with
    | .write w _ | .puts _ _ w => bodyHits w pa n
    | _ => false))
/-- The team's earlier accesses through that window let this one be served: those to the same sectors (R106, Table 04.3). -/
def State.ownAccessTurn (s : State) (o : MemOp) (line : Nat) (m : BitVec 4) (past : Bool) : Bool :=
  !s.net.ops.any (fun y => y.team = o.team && y.id < o.id && !y.isPref && y.unservedOwn line m past)
/-- A load of the package's own window is served at its home with C_8 and cached nowhere (R76, R120, R122). -/
def State.serveOwn (s : State) (o : MemOp) (i : Nat) (p : LinePart) : State :=
  let pa := ownPa (128 * p.line)
  if s.homeServes 8 (s.die 8).clock s.uid pa 128 && s.ownQuiet o.team (128 * p.line) 128 && s.ownAccessTurn o p.line p.need false then
    let shift := (s.lineStamps (pa / 128) p.need).map (fun r => { r with addr := r.addr + (128 * p.line - pa) })
    match s.takeOut (.load o.id i) with
    | none => s
    | some (_, s) =>
      (s.setOp (o.setLine i { p with got := some (s.mem.line (pa / 128), s.mem.sb (pa / 128), s.mem.linePoison (pa / 128) p.need, .zero,
        shift) })).touchL2 pa (s.tagOf o.ctx) false
  else s
/-- LOAD_SERVICE: a home of this package serves part `part` of operation `op`, or another package answers it (R122). -/
def execLoadService (op part : Nat) (reply : Option Reply) (s : State) : Host.Outcome State Fault Refusal :=
  .next (match s.opAt op with
    | none => s
    | some o =>
      match (o.kind.lineParts.drop part).head? with
      | none => s
      | some p =>
        if p.got.isSome then s
        else match p.pkg, reply with
          | none, _ => s.serveLine o part p
          | some k, r? =>
            if k = s.io.fabid.toNat then s.serveOwn o part p
            else match r? with
            | none => s
            | some r =>
            match s.takeOut (.load op part) with
            | none => s
            | some (_, s) =>
              let code := if r.poison = 0 then 0 else r.poison % 65536 + 65536 * p.need.toNat
              s.setOp (o.setLine part { p with got := some (r.data, r.side, code, .zero, []) }))

/-! ## Fills (R84, R85, R134) -/

def meetClk (a b : Clock) : Clock := (upTo 9).map (fun i => Nat.min (clk a i) (clk b i))
/-- Do two lines agree on some sectors? -/
def sameSectors (m : BitVec 4) (x y : Line) : Bool := mergeSectors m x y = y
/-- A line that has come from its home, at a core: the sectors the L1 lacks are filled; where what it holds differs, the
line is evicted, so that no later load reads an older value (R106). A full L1 gives up the line it filled first (log 68). -/
def Core.fillL1 (c : Core) (p : LinePart) (owner : Nat) (cst : Bool) (v : Line) (sb : SideBand) : Core :=
  match first (fun x => x.line = p.line && x.cst = cst) c.l1 with
  | some x =>
    if sameSectors (x.held &&& p.need) v x.data then
      if p.noL1 || p.epoch ≠ c.epoch then c
      else { c with l1 := c.l1.map (fun y => if y.line = p.line && y.cst = cst then
          { y with held := y.held ||| p.need, data := mergeSectors (p.need &&& ~~~ y.held) v y.data, sb := sb } else y) }
    else { c with l1 := c.l1.filter (fun y => !(y.line = p.line && y.cst = cst)) }
  | none =>
    if p.noL1 || p.epoch ≠ c.epoch then c
    else { c with l1 := ({ line := p.line, owner := owner, cst := cst, held := p.need, data := v, sb := sb } :: c.l1).take Config.l1Lines }
/-- The same at the remote-data cache of a die, whose line keeps the stamp it carried at fill; a reply that no longer covers
the die's clock fills nothing, and a full cache gives up the line it filled first (log 68). -/
def Die.fillRdc (d : Die) (p : LinePart) (owner : Nat) (v : Line) (sb : SideBand) (st : Clock) (vals : List StampRec) : Die :=
  let may := !p.noRdc && leClk d.clock st
  match first (fun x => x.line = p.line) d.rdc with
  | some x =>
    if sameSectors (x.held &&& p.need) v x.data then
      if may then { d with rdc := d.rdc.map (fun y => if y.line = p.line then
          { y with held := y.held ||| p.need, data := mergeSectors (p.need &&& ~~~ y.held) v y.data, sb := sb
                   stamp := meetClk y.stamp st, vals := y.vals ++ vals.filter (fun r => !y.held.getLsbD (r.addr / 32 % 4)) } else y) }
      else d
    else { d with rdc := d.rdc.filter (fun y => y.line ≠ p.line) }
  | none =>
    if may then { d with rdc := ({ line := p.line, held := p.need, data := v, sb := sb, stamp := st, vals := vals,
                                   filled := d.period, owner := owner } :: d.rdc).take Config.rdcLines }
    else d
/-- What the landing of one line request leaves in the caches. A line served at issue by a cache changes none (both marks
are set), and poisoned or fabric-window data, and those of a window that has failed, fill none. -/
def State.fill (s : State) (o : MemOp) (p : LinePart) : State :=
  match p.got with
  | none => s
  | some (v, sb, poison, st, vals) =>
    if o.kind.tryRead then s.dropHome o.die o.core [(p.line, p.need)]
    else if poison ≠ 0 || p.pkg.isSome || s.xFailed (128 * p.line) then s
    else
      let cst := match o.kind with | .load _ _ c _ _ _ => c | _ => false
      let s := s.modCore o.die o.core (fun c => c.fillL1 p (s.tagOf o.ctx) cst v sb)
      let s := if p.home = o.die then s else s.modDie o.die (fun d => d.fillRdc p (s.tagOf o.ctx) v sb st vals)
      s.setNet (fun n => { n with ops := n.ops.map (fun y =>
        if y.id ≠ o.id && y.die = o.die then y.bar p.line (y.core = o.core) true else y) })

/-! ## Results land (R345) -/

/-- Lanes of a register that a result is written to; the register is marked until it is read. A result older than the open
region enters the snapshot too while both name one register (R280). -/
def Team.landV (t : Team) (id i : Nat) (m : Lanes) (data : Line) (sb : Option SideBand) (po : List Poison) : Team :=
  let o := (t.vget i).getD .zero
  let old := o.snap && (match t.region with | some r => decide (id < r.since) | none => false)
  let t := t.putV i m data sb po
  let t := { t with vregs := change i (fun r => { r with fresh := true, snap := old }) t.vregs }
  if old then
    { t with region := t.region.map (fun r => { r with sVregs := place i ((t.vget i).getD .zero) r.sVregs }) }
  else t
/-- A scalar result; places above 63 are the shadow registers (R210). -/
def Team.landS (t : Team) (id i : Nat) (v : W64) (po : Option Poison) : Team :=
  if 64 ≤ i then t.putShadow (i - 64) v po true
  else
    let old := (match look i t.sregs with | some r => r.snap | none => false)
      && (match t.region with | some r => decide (id < r.since) | none => false)
    let y : SReg := { val := v, poison := po, fresh := true, snap := old }
    let t := { t with sregs := place i y t.sregs }
    if old then { t with region := t.region.map (fun r => { r with sSregs := place i y r.sSregs }) } else t
/-- Lanes that still take a result: those aborted since it was asked for keep their snapshot values (R287). -/
def Team.landLanes (t : Team) (o : MemOp) : Lanes :=
  match t.region with
  | some r => if r.since ≤ o.id then o.lanes &&& ~~~ r.aborted else o.lanes
  | none => o.lanes
def LinePart.byte (ps : List LinePart) (a : Nat) : Byte :=
  match first (fun (p : LinePart) => p.line = a / 128) ps with
  | some p => (match p.got with | some (v, _) => byteOf v (a % 128) | none => 0)
  | none => 0
/-- The poison a byte carries: code and sector. -/
def LinePart.bad (ps : List LinePart) (a : Nat) : Option (Nat × Nat) :=
  match first (fun (p : LinePart) => p.line = a / 128) ps with
  | some p => (match p.got with
    | some (_, _, n, _) => if (n / 65536).testBit (a / 32 % 4) then some (n % 65536, a / 32 * 32) else none
    | none => none)
  | none => none
def LaneAddr.bytes (ps : List LinePart) (n : Nat) (a : LaneAddr) : List Byte :=
  (upTo n).map (fun i => (look i a.fwd).getD (LinePart.byte ps (a.addr + i)))
/-- Poison of a lane: the first of its bytes that come from a failed sector (R401). -/
def LaneAddr.poison (ps : List LinePart) (n : Nat) (a : LaneAddr) : Option Poison :=
  match (upTo n).filterMap (fun i => if (look i a.fwd).isSome then none else LinePart.bad ps (a.addr + i)) with
  | [] => none
  | (code, ad) :: _ => some ⟨a.lane, code, ad⟩
/-- Registers of a group that lanes of n bytes fill. -/
def Team.landGroup (t : Team) (id d n : Nat) (m : Lanes) (val : Nat → Nat → W32) (po : List Poison) : Team :=
  (upTo n).foldl (fun t j => t.landV id (d + j) m (lineOf (fun l => val l j)) none po) t
/-- The team after its result has landed. -/
def Team.land (t : Team) (o : MemOp) : Team :=
  let m := t.landLanes o
  match o.kind with
  | .load n ext _ _ ps ls =>
    let vs := ls.map (fun a => (a.lane, a.bytes ps n))
    let po := ls.filterMap (fun a => a.poison ps n)
    (match o.dst with
    | .none => t
    | .scal i => t.landS o.id i (extend ext ((vs.map (·.2)).headD []) 64) po.head?
    | .vec d k => t.landGroup o.id d k m (fun l j => match look l vs with
      | some bs => if n < 4 then extend ext bs 32 else BitVec.ofNat 32 (ofBytes ((bs.drop (4 * j)).take 4))
      | none => 0) po)
  | .line _ fwd fsb p =>
    (match o.dst, p.got with
    | .vec d _, some (v, sb, code, _) =>
      let v := fwd.foldl (fun x (i, b) => setField x (8 * i) 8 b.toNat) v
      let bad := (upTo 4).filter (fun k => (code / 65536).testBit k)
      let po := match bad with
        | [] => []
        | k :: _ => (upTo 32).map (fun l => (⟨l, code % 65536, 128 * p.line + 32 * k⟩ : Poison))
      t.landV o.id d m v (some (sbOut (fsb.getD sb))) po
    | _, _ => t)
  | .atomic _ _ ps =>
    let vs := ps.flatMap (fun p => match p.got with | some (l, _) => l | none => [])
    let po := ps.flatMap (fun p => match p.got with
      | some (_, code, _) => if code = 0 then [] else p.lanes.map (fun y => (⟨y.1, code, p.addr / 32 * 32⟩ : Poison))
      | none => [])
    (match o.dst with
    | .none => t
    | .scal i => t.landS o.id i ((vs.head?.map Prod.snd).getD 0) po.head?
    | .vec d k => t.landGroup o.id d k m (fun l j => ((look l vs).getD 0).extractLsb' (32 * j) 32) po)
  | .value data scal =>
    (match o.dst with
    | .none => t
    | .scal i => t.landS o.id i scal none
    | .vec d k => t.landGroup o.id d k m (fun l _ => (look l data).getD 0) [])
  | .mload n got =>
    (match o.dst, got with
    | .vec d _, some (vs, bad) => (upTo n).foldl (fun t j => t.landV o.id (d + j) m
        (lineOf (fun l => match first (fun (x : Nat × Nat × W32) => x.1 = j && x.2.1 = l) vs with | some x => x.2.2 | none => 0))
        (some 0) ((bad.filter (fun x => x.1 = j)).map (fun x => (⟨x.2, 0x0401, 0⟩ : Poison)))) t
    | _, _ => t)
/-- The stamps of the values a result brings (R112, R116). -/
def MemOp.stamps (o : MemOp) : Clock :=
  let at_ := fun (c : Clock) (a n : Nat) => o.kind.lineParts.foldl (fun c p => match p.got with
    | some (_, _, _, _, v) => joinClk c (stampOf v a n)
    | none => c) c
  let c := match o.kind with
    | .load n _ _ _ _ ls => ls.foldl (fun c a => at_ c a.addr n) Clock.zero
    | .line _ _ _ p => at_ Clock.zero (128 * p.line) 128
    | _ => Clock.zero
  o.kind.atomParts.foldl (fun c p => match p.got with | some (_, _, v) => joinClk c v | none => c) c
/-- Every part has been served. -/
def MemOp.ready (o : MemOp) : Bool :=
  o.kind.lineParts.all (fun p => p.got.isSome) && o.kind.atomParts.all (fun p => p.got.isSome)
    && (match o.kind with | .mload _ got => got.isSome | _ => true)
/-- LONG_LATENCY_RESULT: the caches are filled, what they hold of an atomic's sectors is older and leaves them (R106), the registers are
written, an acquire takes effect (R112). A result of a killed team is discarded. -/
def execLongLatencyResult (op : Nat) (s : State) : Host.Outcome State Fault Refusal :=
  .next (match s.opAt op with
    | none => s
    | some o =>
      if !o.ready || o.isRecord then s
      else
        let s := (o.kind.lineParts.foldl (fun (s : State) (p : LinePart) => s.fill o p) s).removeOp op
        let s := s.dropHome o.die o.core ((o.kind.atomParts.filter (fun p => p.pkg.isNone || p.pkg = some s.io.fabid.toNat)).map (fun p =>
          let a := if p.pkg.isNone then p.at_ else p.dest.getD (ownPa p.addr)
          (a / 128, secBit a)))
        match s.teamAt o.team with
        | none => s
        | some t =>
          if t.killed then s
          else
            let c := o.stamps
            let t := t.land o
            let s := s.setTeam o.team (if o.acq.isSome then { t with seen := .zero } else if o.strong then { t with seen := joinClk t.seen c } else t)
            match o.acq with
            | some sc => s.acquireAt o.die o.core sc c
            | none => s)

/-! ## Stores leave (R93, R108) -/

/-- The writes and mirrored stores that an entry sends. -/
def State.sendEntry (s : State) (u : Nat) (t : Team) (e : QEntry) : State :=
  let b := s.block t.block
  let c := s.ctxOf t.block
  let stamp := e.stamp.getD (s.die b.die).clock
  match e.send with
  | .nothing => s
  | .mirror y off mask data =>
    let l := s.launch b.launch
    let ds := match look y l.yards with
      | some ent => (s.blocks.filter (fun (x : Nat × Block) => x.2.launch = b.launch && yardHasBlock ent x.2.idx)).map (fun (x : Nat × Block) => x.2.idx)
      | none => []
    s.setNet (fun n => { n with mirrors := n.mirrors ++ ds.map (fun i =>
      { launch := b.launch, yard := y, blockIdx := i, src := u, die := b.die, off := off, mask := mask, data := data, stamp := stamp }) })
  | .write w =>
    let at_ := match w.pieces, w.sides with
      | p :: _, _ => p.addr
      | [], (l, _) :: _ => 128 * l
      | [], [] => 0
    match regionOf at_ with
    | .fabric pkg _ =>
      s.addOut { id := 0, pkg := pkg, cls := 1, team := some u, ctx := c, die := b.die, pc := 0, kind := .write w e.rel, waited := 0 }
    | _ =>
      let home := s.homeOf at_
      let s := if e.commit || home = b.die then s else s.leaveRdc b.die stamp (s.tagOf c) w
      (s.setNet (fun n => { n with writes := n.writes ++ [
        { id := s.uid, src := b.die, home := home, team := some u, ctx := c, stamp := stamp, owner := s.tagOf c, body := w,
          commit := e.commit, stream := none }] })).bump
/-- STORE_QUEUE_DRAIN: the oldest entry leaves if the context's remaining chute budget covers its charge; a killed team's begun commit
releases first (R413). -/
def execStoreQueueDrain (team : Nat) (s : State) : Host.Outcome State Fault Refusal :=
  .next (match s.teamAt team with
    | none => s
    | some t =>
      match t.queue with
      | [] => s.commitDead team
      | e :: r =>
        let b := s.block t.block
        let c := s.ctxOf t.block
        if s.putsAhead team s.uid && (match e.send with | .write w => w.pieces.any (fun p => isFabric p.addr) | _ => false) then s
        else if e.commit && e.stamp.isNone then s.commitDead team
        else if b.res ≠ .core || (s.budget b.die c).chute < e.charge then s
        else
          let s := s.setBudget b.die c (fun x => { x with chute := x.chute - e.charge })
          ((s.setTeam team { t with queue := r }).sendEntry team t e).commitDead team)

/-! ## Stores applied (R91, R110, R130) -/

/-- The stamp is covered at the home, but for the source's own entry (R110). -/
def State.covers (s : State) (home src : Nat) (c : Clock) : Bool :=
  (upTo 9).all (fun j => j = src || clk c j ≤ clk (s.die home).applied j)
/-- Two bodies write into one sector or one side-band. -/
def bodiesMeet (v w : WBody) : Bool :=
  v.pieces.any (fun p => w.pieces.any (fun q => p.addr = q.addr)) || v.sides.any (fun x => w.sides.any (fun y => x.1 = y.1))
/-- The write's turn has come: R91 for its team, one order of the die's writes to a sector (R106), the team's earlier
accesses to its lines, and no other team's begun commit on its sectors (R284). -/
def State.mayApply (s : State) (w : NWrite) : Bool :=
  s.covers w.home w.src w.stamp
  && !s.net.writes.any (fun y => y.src = w.src && y.id < w.id
      && ((y.home = w.home && ((y.team = w.team && w.team.isSome) || (y.stream = w.stream && w.stream.isSome)))
        || bodiesMeet y.body w.body))
  && !s.net.ops.any (fun o => some o.team = w.team && o.id < w.id && !o.isPref
      && w.body.pieces.any (fun p => o.unserved (p.addr / 128) (secBit p.addr) false))
  && w.body.pieces.all (fun p => !s.memLocked (p.addr / 32) w.team)
/-- The sectors of an HBM write enter their controllers' write queues (R92). -/
def State.queueWrite (s : State) (w : WBody) : State :=
  w.pieces.foldl (fun (s : State) (p : Piece) => if p.addr < 2 ^ 40 then
    s.modDie (s.homeOf p.addr) (fun d => { d with wq := modAt (hbmStack p.addr) (fun q => wqAdd q [p.addr / 32]) d.wq }) else s) s
/-- A store to the expander that fails is dropped, counted and reported (R435). -/
def State.dropWrite (s : State) (w : NWrite) (code : Nat) : State :=
  let at_ := match w.body.pieces with | p :: _ => p.addr | [] => 0
  let u := w.team.getD 0
  (if w.team.isSome then s.asyncReport u false w.src (s.coreOfTeam u) w.ctx 0 code accStore at_ allLanes else s).countX
/-- The part of a body that lies at addresses a test names. -/
def WBody.part (w : WBody) (hit : Nat → Bool) : WBody :=
  { pieces := w.pieces.filter (fun p => hit p.addr), sides := w.sides.filter (fun y => hit (128 * y.1)) }
def WBody.none? (w : WBody) : Bool := w.pieces = [] && w.sides = []
/-- A store applied at its home; what it writes to an expander window that has failed is dropped, by itself (R435). -/
def State.applyWrite (s : State) (w : NWrite) : State :=
  let u := w.team.getD 0
  let lost := w.body.part s.xFailed
  let live := if lost.none? then w.body else w.body.part (fun a => !s.xFailed a)
  let s := if lost.none? then s else s.dropWrite { w with body := lost } 0x0402
  let s := (s.applyBody live w.stamp w.owner w.team).queueWrite live
  if w.commit then
    let s := if w.home = w.src then s else s.leaveRdc w.src w.stamp w.owner live
    match s.teamAt u with
    | some t => (match t.region with
      | some r => if w.home = w.src then s.awayDo t.block (.commit u r) [] (fun s => s.commitSpad u t.block r) else s
      | none => s)
    | none => s
  else s
/-- STORE_APPLY. -/
def execStoreApply (write : Nat) (s : State) : Host.Outcome State Fault Refusal :=
  .next (match first (fun (w : NWrite) => w.id = write) s.net.writes with
    | none => s
    | some w =>
      if s.mayApply w then
        ((s.setNet (fun n => { n with writes := n.writes.filter (fun y => y.id ≠ w.id) })).applyWrite w).commitDead (w.team.getD 0)
      else s)
/-- CHUTE_RESEND: a packet dropped at a full buffer is sent again from the source's copy; it is applied once and not
charged again, so that nothing but time passes (R90, R93). -/
def execChuteResend (_write : Nat) (s : State) : Host.Outcome State Fault Refusal := .next s
/-- WRITE_WINDOW_OPEN: the oldest queued write has waited 1,024 core cycles and its controller opens a window, which 96 queued sectors open
without it (wqAdd); an open one takes at most 512 sectors to memory. -/
def execWriteWindowOpen (die stack : Nat) (s : State) : Host.Outcome State Fault Refusal :=
  .next (s.modDie die (fun d => { d with wq := modAt stack (fun q =>
    if q.1 = [] then (q.1, false) else if q.2 then (q.1.drop 512, false) else (q.1, true)) d.wq }))

/-! ## Clocks (R110, R113, R118) -/

/-- A commit of a team of the die still holds parts with a stamp entry below v: they leave with the stamp of its beginning (R129). -/
def State.oldParts (s : State) (d v : Nat) : Bool :=
  s.teams.any (fun y => (s.block y.2.block).die = d
    && (y.2.queue ++ y.2.commitOwed).any (fun e => match e.stamp with
      | some c => decide (clk c d < v)
      | none => false))
/-- A mirrored store from die src to a block of die dst carries a stamp entry below v. -/
def State.oldMirrors (s : State) (src dst v : Nat) : Bool :=
  s.net.mirrors.any (fun m => m.die = src && decide (clk m.stamp src < v)
    && (match s.blockOf m.launch m.blockIdx with | some b => (s.block b).die = dst | none => false))
/-- An atomic of another package that waits at its home carries a stamp entry of die 8 below v. -/
def State.oldIngress (s : State) (dst v : Nat) : Bool :=
  s.net.ingress.any (fun g => decide (clk g.clock 8 < v) && (match g.req with
    | .atomic _ _ pa _ _ _ _ _ | .cas _ _ pa _ _ _ _ => s.homeOf pa = dst
    | _ => false))
/-- Everything that die src sent to home dst before an announcement has been applied there. -/
def State.announced (s : State) (a : Announce) : Bool :=
  !s.net.writes.any (fun w => w.src = a.src && w.home = a.dst && w.id < a.id)
  && !s.net.ops.any (fun o => o.die = a.src && o.id < a.id
      && o.kind.atomParts.any (fun p => p.home = a.dst && p.pkg.isNone && p.got.isNone))
  && !s.oldParts a.src a.val && !s.oldMirrors a.src a.dst a.val && !(a.src = 8 && s.oldIngress a.dst a.val)
/-- CLOCK_ANNOUNCEMENT. -/
def execClockAnnouncement (i : Nat) (s : State) : Host.Outcome State Fault Refusal :=
  .next (match (s.net.anns.drop i).head? with
    | none => s
    | some a =>
      if s.announced a then
        let s := s.modDie a.dst (fun d => { d with applied := modAt a.src (Nat.max a.val) d.applied })
        s.setNet (fun n => { n with anns := n.anns.take i ++ n.anns.drop (i + 1) })
      else s)
/-- RDC_LINE_EXPIRY: 65,536 core cycles, sixteen budget periods, after the fill (R113). -/
def execRdcLineExpiry (die line : Nat) (s : State) : Host.Outcome State Fault Refusal :=
  .next (s.modDie die (fun d =>
    { d with rdc := d.rdc.filter (fun x => !(x.line = line && x.filled + Config.rdcPeriods ≤ d.period)) }))
/-- SC_FENCE_SEQUENCE: steps 2 and 3 of R118 for the fence at the head. -/
def execScFenceSequence (s : State) : Host.Outcome State Fault Refusal :=
  .next (match s.net.scq with
    | [] => s
    | u :: r =>
      let s := s.setNet (fun n => { n with scq := r })
      let s := (upTo 9).foldl State.increment s
      let m := s.dies.foldl (fun c d => joinClk c d.clock) Clock.zero
      let s := (upTo 9).foldl (fun (s : State) d => (s.merge d m).discardRdc d) s
      s.modTeam u (fun t => { t with scFence := t.scFence.map (fun f => { f with passed := true }) }))

/-! ## Atomics at their homes (R262 to R264) -/

def MigFence.covers (f : MigFence) (pa : Nat) : Bool :=
  f.en && 65536 * f.old.toNat ≤ pa && pa < 65536 * (f.old.toNat + f.size.toNat + 1)
/-- The conditions that park an atomic: a write-back pending, an armed fence of the home die. -/
def State.poundFence (s : State) (home pa : Nat) : Option Nat :=
  (upTo 8).find? (fun n => (nth (s.die home).mig n .reset).covers pa)
/-- A corrected sector's write-back is pending; none is once its expander window has failed (R437). -/
def State.scrubbing (s : State) (sec : Nat) : Bool := s.mem.corr.contains sec && !s.xFailed (32 * sec)
def State.poundHolds (s : State) (home pa : Nat) : Bool :=
  s.scrubbing (pa / 32) || (s.poundFence home pa).isSome
/-- The release that holds a parked atomic, while it runs. -/
def State.jobAt (s : State) (die id : Nat) : Option MigJob := first (fun (j : MigJob) => j.id = id) (s.die die).jobs
/-- A release that moves the range still holds a parked atomic: it is replayed at the new address (R421). -/
def State.jobHolds (s : State) (die id : Nat) : Bool := match s.jobAt die id with | some j => j.move | none => false
/-- What an armed fence or a migration that copies still holds of an atomic from outside the dies; one that a release without MOVE has
let go is held by no fence at its own address again (log 90). -/
def State.extHeld (s : State) (home pa : Nat) : Option ExtPark → Bool
  | some y => if y.moved then (s.poundFence home pa).isSome
              else if y.fence < 8 then (s.poundFence home pa).isSome else s.jobHolds y.die y.fence
  | none => (s.poundFence home pa).isSome
/-- The mark of an atomic that finds an armed fence at its home. -/
def State.extPark (s : State) (pa : Nat) (k : Option ExtPark) : Option ExtPark :=
  if (match k with | some y => 8 ≤ y.fence && !y.moved | none => false) then k
  else match s.poundFence (s.homeOf pa) pa with
    | some n => some { pa := pa, die := s.homeOf pa, fence := n, moved := false }
    | none => k
def ExtPark.at_ (k : Option ExtPark) (pa : Nat) : Nat := match k with | some y => y.pa | none => pa
def poundSlice (pa : Nat) : Nat := if pa < 2 ^ 40 then hbmSlice pa else 0
def State.pound (s : State) (home slice : Nat) : List Parked := (look slice (s.die home).pounds).getD []
def State.setPound (s : State) (home slice : Nat) (l : List Parked) : State :=
  s.modDie home (fun d => { d with pounds := place slice l d.pounds })
/-- The indivisible step of R262 on a word of memory: the old value of each lane, and the machine after it. -/
def State.atomWord (s : State) (f : Option AtomOp) (size pa : Nat) (lanes : List (Nat × W64 × W64)) (stamp : Clock) (owner : Nat)
    (by_ : Option Nat) : List (Nat × W64) × State :=
  let v := w64 (ofBytes (s.mem.bytes pa size))
  let r := atomRun f size v lanes
  let w : WBody := { pieces := piecesOf pa (toBytes size (atomLast v r)), sides := [] }
  (r.map (fun y => (y.1, y.2.1)), (s.applyBody w stamp owner by_).queueWrite w)
/-- A part applied at its home, at an address and with a stamp: not to a poisoned sector, nor to an expander window that has failed. -/
def State.atomAt (s : State) (o : MemOp) (f : Option AtomOp) (size i : Nat) (p : AtomPart) (pa : Nat) (stamp : Clock) : State :=
  let zeros := p.lanes.map (fun y => (y.1, 0#64))
  let p := { p with parked := false, refused := false }
  if s.xFailed pa then (s.setOp (o.setAtom i { p with got := some (zeros, 0x0402, .zero) })).countX
  else match look (pa / 32) s.mem.poison with
    | some code =>
      let s := s.setOp (o.setAtom i { p with got := some (zeros, code, .zero) })
      if o.dst = .none then s.redReport o p else s
    | none =>
      let st := stampOf s.mem.stamps pa size
      let y := s.atomWord f size pa p.lanes stamp (s.tagOf o.ctx) (some o.team)
      y.2.setOp (o.setAtom i { p with got := some (y.1, 0, st) })
def State.atomPart (s : State) (o : MemOp) (f : Option AtomOp) (size i : Nat) (p : AtomPart) : State :=
  s.atomAt o f size i p p.at_ p.stamp
/-- An atomic's turn at its home. -/
def State.atomTurn (s : State) (o : MemOp) (size : Nat) (p : AtomPart) : Bool :=
  s.homeServes o.die p.stamp o.id p.addr size && s.inTurn o (p.addr / 128) (secBit p.addr) p.home true && !s.memLocked (p.addr / 32) (some o.team)
  && !(p.home = o.die && s.net.writes.any (fun w => w.team = some o.team && w.home = o.die && w.id < o.id))
/-- Something holds an atomic at its home, so that it parks: a fence, a write-back, an earlier parked atomic of its sector. -/
def State.parks (s : State) (home pa : Nat) : Bool :=
  s.poundHolds home pa || (s.pound home (poundSlice pa)).any (fun y => y.sector = pa / 32)
/-- A team no longer stands at a wait for a fabric or expander access; a read that still has one to wait for stands at it again when it
issues next. -/
def State.unwait (s : State) (u : Nat) : State :=
  let go := fun (y : Side) => match y.wait with
    | .on .expander _ | .on .remoteLoad _ => { y with wait := .none }
    | _ => y
  s.modTeam u (fun t => { t with near := go t.near, off := go t.off })
/-- A part parks in the pound of its home, or is refused by a full one (R264). Its team waits at a switch point from then on. -/
def State.parkAtom (s : State) (o : MemOp) (i : Nat) (p : AtomPart) (home pa : Nat) : State :=
  let q := s.pound home (poundSlice pa)
  if q.length < Config.poundEntries then
    ((s.setOp (o.setAtom i { p with parked := true })).setPound home (poundSlice pa)
      (q ++ [{ op := o.id, part := i, sector := pa / 32, fence := s.poundFence home pa }])).unwait o.team
  else s.setOp (o.setAtom i { p with refused := true })
/-- An atomic through the package's own window comes out of it at the I/O die, which a fabric-scope release increments first, with the
clock it carries (R76, R120); one that a migration has sent on is there already. -/
def State.atomArrive (s : State) (o : MemOp) (i : Nat) (p : AtomPart) : Option (State × Clock) :=
  match p.dest with
  | some _ => some (s, p.stamp)
  | none => (s.takeOut (.atomic o.id i)).map (fun y =>
      let t := if p.rel then y.2.increment 8 else y.2
      (t, (t.die 8).clock))
/-- An atomic on the package's own window, through the I/O die: it parks as any other does (R264). -/
def State.atomOwn (s : State) (o : MemOp) (f : Option AtomOp) (size i : Nat) (p : AtomPart) : State :=
  let pa := p.dest.getD (ownPa p.addr)
  let home := s.homeOf pa
  if !s.homeServes 8 (s.die 8).clock s.uid pa size || !s.ownQuiet o.team p.addr size || !s.ownAccessTurn o (p.addr / 128) (secBit p.addr) true
      || s.memLocked (pa / 32) none then s
  else if s.parks home pa && Config.poundEntries ≤ (s.pound home (poundSlice pa)).length then s.parkAtom o i p home pa
  else match s.atomArrive o i p with
    | none => s
    | some (t, c) => if s.parks home pa then t.parkAtom o i { p with dest := some pa, stamp := c } home pa else t.atomAt o f size i p pa c
/-- ATOMIC_APPLY: a home of this package applies a part, parks it or refuses it, or another package answers. -/
def execAtomicApply (op part : Nat) (reply : Option Reply) (s : State) : Host.Outcome State Fault Refusal :=
  .next (match s.opAt op with
    | none => s
    | some o =>
      match o.kind with
      | .atomic f size ps =>
        match (ps.drop part).head? with
        | none => s
        | some p =>
          if p.got.isSome || p.parked || p.refused then s
          else match p.pkg, reply with
            | none, _ =>
              if !s.atomTurn o size p then s
              else if s.parks p.home p.addr then s.parkAtom o part p p.home p.addr
              else s.atomPart o f size part p
            | some k, r? =>
              if k = s.io.fabid.toNat then s.atomOwn o f size part p
              else match r? with
              | none => s
              | some r =>
              match s.takeOut (.atomic op part) with
              | none => s
              | some (_, s) =>
                let s := if r.poison ≠ 0 && o.dst = .none then
                    s.redReport o p else s
                let v := w64 (ofBytes ((from_ (p.addr % 128) size).map (byteOf r.data)))
                let olds := (atomRun f size v p.lanes).map (fun y => (y.1, y.2.1))
                s.setOp (o.setAtom part { p with got := some (if r.poison = 0 then olds else p.lanes.map (fun y => (y.1, 0)), r.poison, .zero) })
      | _ => s)
/-- What keeps a parked atomic: a write-back, an armed fence, a release that moves its range. One that a release has let go is held by no
fence again (log 90). -/
def State.kept (s : State) (home : Nat) (y : Parked) : Bool :=
  s.scrubbing y.sector || (match y.fence with
    | some n => n < 8 || s.jobHolds home n
    | none => (s.poundFence home (32 * y.sector)).isSome)
/-- The first parked request of a pound whose condition is over. -/
def State.replayable (s : State) (home : Nat) : List Nat → List Parked → Option Parked
  | _, [] => none
  | held, y :: r => if held.contains y.sector || s.kept home y then s.replayable home (y.sector :: held) r else some y
/-- POUND_REPLAY: in arrival order for each sector, with no action by the core (R264). -/
def execPoundReplay (die slice : Nat) (s : State) : Host.Outcome State Fault Refusal :=
  .next (match s.replayable die [] (s.pound die slice) with
    | none => s
    | some y =>
      let s' := s.setPound die slice ((s.pound die slice).filter (fun z => !(z.op = y.op && z.part = y.part)))
      match s.opAt y.op with
      | none => s'
      | some o =>
        match o.kind with
        | .atomic f size ps =>
          match (ps.drop y.part).head? with
          | none => s'
          | some p => if s.memLocked y.sector (if p.pkg.isSome then none else some o.team) then s else s'.atomPart o f size y.part p
        | _ => s')
/-- ATOMIC_RESEND: 256 core cycles after a refusal the core sends the request again. -/
def execAtomicResend (op part : Nat) (s : State) : Host.Outcome State Fault Refusal :=
  .next (match s.opAt op with
    | none => s
    | some o =>
      match (o.kind.atomParts.drop part).head? with
      | some p => s.setOp (o.setAtom part { p with refused := false })
      | none => s)

/-! ## Demand scrub (R425) -/

/-- DEMAND_SCRUB_WRITEBACK: at a sector with no write-back pending, a read has found a correctable error and its write-back is on its way;
at one with a write-back pending, it is applied, and of HBM counted in MEMCE (log 23). Lines of the expander are corrected too: the I/O
die's pound holds atomics to them (R264, R437). -/
def execDemandScrubWriteback (sector : Nat) (s : State) : Host.Outcome State Fault Refusal :=
  .next (if s.mem.corr.contains sector then
      let s := { s with mem := { s.mem with corr := s.mem.corr.filter (· ≠ sector) } }
      if 2 ^ 40 ≤ 32 * sector then s else s.modDie (s.homeOf (32 * sector)) (fun d => { d with ctr := { d.ctr with memce := satInc d.ctr.memce } })
    else if 2 ^ 40 ≤ 32 * sector && !isExpander (32 * sector) then s
    else { s with mem := { s.mem with corr := s.mem.corr ++ [sector] } })

end Sys2Proof.Machine
end

