-- ==== Sys2Proof/Machine/Admission.lean ====
section
/-! DEFINITION. Launches and blocks: acceptance, placement, retirement and the end of a launch (01_teams_blocks_yards.md R17 to
R33, 15_launch_and_scheduling.md R375 to R383, R388 and R390, 04_ordering_and_visibility.md R131). -/

namespace Sys2Proof.Machine

/-! ## What a core has left (R17, R346) -/

/-- The partition's running context, unless it stands idle, its cores have halted for a swap (R406, R407), or the context is being ended. -/
def State.running (s : State) (p : Nat) : Option Nat :=
  let x := s.partAt p
  if x.idle || x.switch || (s.ctxAt (16 * p + x.run)).ending || x.stopped then none else some (16 * p + x.run)
/-- Teams on one pipe of a core. -/
def State.pipeUsed (s : State) (die core : Nat) (pipe : Bool) : Nat :=
  s.teams.countP (fun (_, t) => t.pipe = pipe && t.resident s die core)
/-- The pipe with more free slots, pipe 0 on a tie: true for pipe 1. -/
def State.freerPipe (s : State) (die core : Nat) : Bool := s.pipeUsed die core true < s.pipeUsed die core false
def State.coreBlocks (s : State) (die core : Nat) : List Block :=
  (s.blocks.map Prod.snd).filter (fun b => b.die = die && b.core = core && b.res = .core)
/-- The core can admit a block of the launch. -/
def State.fits (s : State) (l : Launch) (die core : Nat) : Bool :=
  let n := l.teams
  let q := s.freerPipe die core
  let used := fun (f : Launch → Nat) => (s.coreBlocks die core).foldl (fun a b => a + f (s.launch b.launch)) 0
  s.pipeUsed die core q + (n + 1) / 2 ≤ 32 && s.pipeUsed die core (!q) + n / 2 ≤ 32
    && n * l.vfloor ≤ s.poolFree die core .v && n * l.sfloor ≤ s.poolFree die core .s
    && used Launch.spadBytes + l.spadBytes ≤ 1024 * Config.coreSpad && used Launch.tileBytes + l.tileBytes ≤ 65536 * Config.coreTile
/-- Blocks of the launch that an empty core holds. -/
def Launch.perCore (l : Launch) : Nat :=
  let n := l.teams
  let div := fun (a b : Nat) => if b = 0 then 64 else a / b
  let slots := ((upTo 65).filter (fun k => n * (k / 2) + (if k % 2 = 0 then 0 else (n + 1) / 2) ≤ 32)).foldl Nat.max 0
  [slots, div Config.physVec (n * l.vfloor), div Config.physScal (n * l.sfloor), div (1024 * Config.coreSpad) l.spadBytes,
    div (65536 * Config.coreTile) l.tileBytes].foldl Nat.min 64

/-! ## Admission (R8, R18, R26, R27, R59, R71, R142, R274, R346, R395) -/

/-- A team as it is admitted. -/
def Team.new (blk idx age : Nat) (pipe yield : Bool) (entry : W64) : Team :=
  { block := blk, idx := idx, pipe := pipe, age := age
    near := { Side.empty with path := some { pc := entry, mask := allLanes, rpc := rpcNone } }, off := .empty, turn := false
    loft := [], loftDepth := 0, exited := 0, preds := List.replicate 16 0, vregs := [], sregs := [], flags := 0, flagen := 0
    draw := 0, handler := none, shadow := List.replicate 8 (.plain 0), frec := List.replicate 8 0, retst := 0, region := none
    trystat := [0, 0, 0], batch := { phase := 0, closed := 0, owed := [0], stamp := .zero, scope := .blk }, queue := []
    slots := [], harness := none, owedFaults := [], yieldDue := yield, halted := false, killed := false
    park := { fault := none, spill := none, due := false }, waited := 0, told := false, seen := .zero, colls := 0, active := true, scFence := none, slotw := [] }
/-- A block as it is admitted: scratchpad and tile store read zero but for the barrier objects of the yards it is first in. -/
def Block.new (launch idx die core : Nat) (l : Launch) : Block :=
  let b : Block := { launch := launch, idx := idx, die := die, core := core, res := .core, spadMap := [], tileMap := [], spad := [], spadSb := [], spadPoison := [],
                     spadStamps := [], tile := [], tilePoison := [], bars := [], harnesses := [], windows := [] }
  (l.yards.filter (fun y => yardFirst y.2 = idx)).foldl (fun (b : Block) (y : Nat × BitVec 128) =>
    b.setBytes (yardBarOff y.2) (Bar.new 2 (yardSize y.2)).bytes) b
/-- The n lowest units of a core's store that no block holds (R17; log 28). -/
def grant (total n : Nat) (used : List Nat) : List Nat := ((upTo total).filter (fun k => !used.contains k)).take n
/-- Block idx of a launch admitted to a core: its teams divided between the pipes, the banks of an empty core set to the
identity (R313), the die's acquire before the launch's first team on it (R131, R206). -/
def State.enterBlock (s : State) (lk idx die core : Nat) : State :=
  let l := s.launch lk
  let s := if (s.coreBlocks die core) = [] then
      s.modCore die core (fun c => { c with banks := (.identity, .identity), active := false }) else s
  let s := if l.acqDies.contains die then s
    else (s.dieAcquire die l.acq).modLaunch lk (fun l => { l with acqDies := l.acqDies ++ [die] })
  let q := s.freerPipe die core
  let b := s.uid
  let used := fun (f : Block → List Nat) => (s.coreBlocks die core).flatMap f
  let blk : Block := { Block.new lk idx die core l with
    spadMap := grant Config.coreSpad (l.spadBytes / 1024) (used (·.spadMap))
    tileMap := grant Config.coreTile (l.tileBytes / 65536) (used (·.tileMap)) }
  let s := { s with blocks := place b blk s.blocks }.bump
  let due := (s.partAt (partOf l.ctx)).graceCount.isSome
  let halt := (s.partAt (partOf l.ctx)).halt
  (upTo l.teams).foldl (fun (s : State) t =>
    let u := s.uid
    let x := { Team.new b t u (q != decide (t % 2 = 1)) due l.entry with halted := halt }
    let room := decide ((s.pipeMates x).countP (fun y => y.2.active) < 8)
    { s with teams := place u { x with active := room } s.teams }.bump) s

/-! ## Placement (R383, R388, R25) -/

/-- The core of a die that takes the next block: the lowest that fits, from the one after the die's previous placement. -/
def State.pickCore (s : State) (p : Part) (l : Launch) (die : Nat) : Option Nat :=
  let from0 := match look die p.prev with | some k => k + 1 | none => 0
  (upTo Config.coresPerDie).find? (fun i => s.fits l die ((from0 + i) % Config.coresPerDie)) |>.map
    (fun i => (from0 + i) % Config.coresPerDie)
/-- The place of the next block: die and core, in rotation. -/
def State.pickPlace (s : State) (p : Nat) (l : Launch) : Option (Nat × Nat × Nat) :=
  let x := s.partAt p
  let ds := x.dieList
  (upTo ds.length).findSome? (fun i =>
    let k := (x.rot + i) % ds.length
    let d := nth ds k 0
    (s.pickCore x l d).map (fun c => (k, d, c)))
/-- One block placed under R383. -/
def State.placeNext (s : State) (p lk : Nat) : Option State :=
  let l := s.launch lk
  match s.pickPlace p l with
  | none => none
  | some (k, d, c) =>
    let s := s.enterBlock lk l.placed d c
    let s := s.modLaunch lk (fun l => { l with placed := l.placed + 1 })
    some (s.modPart p (fun x => { x with rot := (k + 1) % Nat.max 1 x.dieList.length, prev := place d c x.prev }))
/-- The core of a block under R388. -/
def fixedCore (p : Part) (b : Nat) : Nat × Nat :=
  let n := Config.coresPerDie * p.dieList.length
  let k := if n = 0 then 0 else b % n
  (nth p.dieList (k / Config.coresPerDie) 0, k % Config.coresPerDie)
/-- One block placed under R388: the first that fits and follows no unplaced block of its core. -/
def State.placeFixed (s : State) (p lk : Nat) : Option State :=
  let l := s.launch lk
  let x := s.partAt p
  let n := Config.coresPerDie * x.dieList.length
  let ok := fun b => !l.placedSet.contains b && (let c := fixedCore x b; s.fits l c.1 c.2)
    && (n = 0 || (upTo (b / n)).all (fun i => l.placedSet.contains (b % n + n * i)))
  match (upTo l.blockCount).find? ok with
  | none => none
  | some b =>
    let c := fixedCore x b
    some ((s.enterBlock lk b c.1 c.2).modLaunch lk (fun l => { l with placed := l.placed + 1, placedSet := l.placedSet ++ [b] }))
def State.placeOne (s : State) (p lk : Nat) : Option State :=
  if (s.launch lk).fixed then s.placeFixed p lk else s.placeNext p lk
def placeMany (p lk : Nat) : Nat → State → Option State
  | 0, s => some s
  | n + 1, s => match s.placeOne p lk with
    | none => none
    | some s => placeMany p lk n s
/-- The launch whose blocks the partition places now: the oldest of its running context that has some unplaced. -/
def State.placing (s : State) (c : Nat) : Option (Nat × Launch) :=
  leastBy (fun (y : Nat × Launch) => y.2.order)
    (s.launches.filter (fun y => y.2.ctx = c && y.2.status = 0 && y.2.placed < y.2.blockCount))
/-- BLOCK_ADMISSION: the next block of a launch is admitted, or all of a gang together. -/
def execBlockAdmission (launch : Nat) (s : State) : Host.Outcome State Fault Refusal :=
  .next (match s.launchAt launch with
    | none => s
    | some l =>
      let p := partOf l.ctx
      if s.running p ≠ some l.ctx || (s.placing l.ctx).map Prod.fst ≠ some launch then s
      else (placeMany p launch (if l.gang then l.blockCount - l.placed else 1) s).getD s)

/-! ## Acceptance (R376, R380, R382) -/

/-- The words of a queue's head record. -/
def State.headRecord (s : State) (x : Queue) : List W64 :=
  (upTo 8).map (fun i => s.mem.word (x.slot x.head.toNat + 8 * i))
def State.inFlight (s : State) (q : Nat) : List (Nat × Launch) := s.launches.filter (fun y => y.2.queue = q)
/-- R380. -/
def State.eligible (s : State) (q : Nat) : Bool :=
  let x := s.queueAt q
  let w6 := nth (s.headRecord x) 6 0
  let w5 := nth (s.headRecord x) 5 0
  x.en && x.held ≠ 0 && s.running x.part = some (16 * x.part + x.ctx)
    && (if x.serial then s.inFlight q = [] else (s.inFlight q).all (fun y => y.2.status ≠ 0 || y.2.blockCount ≤ y.2.placed))
    && (!bitOf w6 31 || phaseDone (s.gateAt (bits w6 16 12)).phase.toNat (bits w5 48 16))
/-- The queue whose head is accepted next (R382): the sixteenth acceptance may take an older record of a lower class. -/
def State.nextQueue (s : State) (p : Nat) : Option Nat :=
  let x := s.partAt p
  let es := (s.sched.queues.filter (fun y => y.2.part = p && s.eligible y.1))
  match leastBy (fun (y : Nat × Queue) => y.2.cls) es with
  | none => none
  | some top =>
    let c := top.2.cls
    let low := es.filter (fun y => c < y.2.cls)
    let guard := if (x.accepts + 1) % 16 = 0 then
        leastBy (fun (y : Nat × Queue) => match y.2.ages with | a :: _ => a.1 | [] => 0) low else none
    match guard with
    | some y => some y.1
    | none =>
      let last := nth x.lastQ c 0
      (leastBy (fun (y : Nat × Queue) => if last < y.1 then y.1 else y.1 + Config.queues) (es.filter (fun y => y.2.cls = c))).map
        Prod.fst
/-- Reserved fields, alignments and CONSTSIZE of Table 15.1 (STATUS 3). -/
def recordOk (r : List W64) : Bool :=
  let w := fun i => nth r i 0
  bits (w 1) 57 6 = 0 && bits (w 1) 0 3 = 0 && bits (w 2) 57 7 = 0 && bits (w 2) 0 4 = 0 && bits (w 3) 57 7 = 0 && bits (w 3) 0 7 = 0
    && bits (w 4) 57 7 = 0 && bits (w 4) 0 12 = 0 && bits (w 5) 17 7 = 0 && bits (w 5) 0 17 ≤ 65536 && bits (w 6) 28 3 = 0
    && bits (w 6) 12 3 = 0 && bits (w 7) 57 7 = 0 && bits (w 7) 0 3 = 0
/-- The header word (R20, Table 01.4). -/
def headerOk (l : Launch) : Bool :=
  let h := l.header
  bits h 58 5 = 0 && bits h 8 6 = 0 && bits h 0 8 = 1 && l.vfloor ≤ 256 && l.sfloor ≤ 64 && bits h 28 9 ≤ 256 && bits h 22 6 ≤ 32
    && 1 ≤ bits h 14 8 && l.teams * l.vfloor ≤ Config.physVec && l.teams * l.sfloor ≤ Config.physScal
/-- The yard table of a launch read through its context, none where the read faults (STATUS 5; log 25). -/
def State.readYards (s : State) (c : Nat) (va : Nat) : Option (List (BitVec 128)) :=
  (upTo 256).mapM (fun i =>
    let a := (va + 16 * i) % 2 ^ 64
    if 2 ^ 57 ≤ a then none
    else match s.walk 8 c a with
      | .error _ => none
      | .ok (e, lvl, _) =>
        let pa := 4096 * bits e 12 40 + a % 2 ^ levelShift lvl
        if Perm.rd.allows e && s.paOk pa && !isFabric pa && (look (pa / 32) s.mem.poison).isNone then
          some (BitVec.ofNat 128 (ofBytes (s.mem.bytes pa 16)))
        else none)
/-- What reading the yard table of a launch leaves at the homes: a walk of the context's for each 64 KiB granule, charged to its WALKB on
die 8 (R387, R417), up to the first that faults, and the accesses to the table itself (R83, R88). -/
def State.yardsRead (s : State) (c va : Nat) : List Nat → State
  | [] => s
  | a :: r =>
    if 2 ^ 57 ≤ a then s
    else
      let w := s.walkDone 8 c a
      match s.walk 8 c a with
      | .ok (e, lvl, _) =>
        let pa := 4096 * bits e 12 40 + a % 2 ^ levelShift lvl
        if Perm.rd.allows e && s.paOk pa && !isFabric pa then
          (w.touchRange pa (Nat.min (va + 4096) (65536 * (a / 65536 + 1)) - a) (s.tagOf c) false).yardsRead c va r
        else w
      | .error _ => w
/-- R71: a new SEED takes effect at a launch only while none of the context's teams is resident. -/
def State.launchSeed (s : State) (c : Nat) : State :=
  if s.teams.any (fun y => s.ctxOf y.2.block = c) then s
  else (s.touchRange (64 * (s.ctxAt c).desc.toNat) 64 (s.tagOf c) false).modCtx c (fun x =>
    { x with seed := s.mem.word (64 * x.desc.toNat + 8) })
/-- R24 for the entries in use. -/
def yardsOk (l : Launch) (ys : List (Nat × BitVec 128)) : Bool :=
  let one := fun (y : Nat × BitVec 128) =>
    let e := y.2
    yardStride e ≠ 0 && yardMask e ≠ 0 && (yardMask e).toNat < 2 ^ l.teams
      && yardFirst e + yardStride e * (yardNblk e - 1) < l.blockCount && yardSize e ≤ 65535
      && yardBarOff e + 16 ≤ l.spadBytes
      && ys.all (fun z => z.1 = y.1 || yardFirst z.2 ≠ yardFirst e || yardBarOff z.2 ≠ yardBarOff e)
  ys.all one && (ys.length ≤ 4 || (upTo l.blockCount).all (fun b => (upTo l.teams).all (fun t =>
    ys.countP (fun y => yardHas y.2 b t) ≤ 4)))
/-- The launch of a record with the status of its first failing check, 0 when it is accepted (Table 15.2). -/
def State.checkLaunch (s : State) (p c q : Nat) (rec : List W64) (acq : Clock) : Launch :=
  let l : Launch := { Launch.none_ with ctx := c, queue := q, record := rec, order := s.sched.accepted, acq := acq
                                        fixed := (s.partAt p).forcefo || bitOf (nth rec 1 0) 63 }
  if !recordOk rec then { l with status := 3 }
  else if !headerOk l then { l with status := 4 }
  else match s.readYards c l.yardTab with
    | none => { l with status := 5 }
    | some es =>
      let ys := ((upTo es.length).zip es).filter (fun y => yardNblk y.2 ≠ 0)
      if !yardsOk l ys then { l with status := 6 }
      else
        let gang := ys.any (fun y => yardNblk y.2 ≠ 1)
        let room := Config.coresPerDie * (s.partAt p).dieList.length * l.perCore
        if gang && room < l.blockCount then { l with status := 7 } else { l with yards := ys, gang := gang }
/-- LAUNCH_ACCEPT: the partition takes the head of the queue whose turn it is. -/
def execLaunchAccept (part : Nat) (s : State) : Host.Outcome State Fault Refusal :=
  .next (match s.nextQueue part with
    | none => s
    | some q =>
      let x := s.queueAt q
      let c := 16 * part + x.ctx
      let rec_ := s.headRecord x
      let va := bits (nth rec_ 2 0) 0 57
      if !s.covered 8 || (s.budget 8 c).walk = 0 then s else
      let w6 := nth rec_ 6 0
      let acq := joinClk (match x.ages with | a :: _ => a.2 | [] => .zero)
        (joinClk (if x.serial then x.stamp else .zero) (if bitOf w6 31 then (s.gateAt (bits w6 16 12)).stamp else .zero))
      let l := s.checkLaunch part c q rec_ acq
      let s := s.touchRange (x.slot x.head.toNat) 64 (s.tagOf c) false
      let s := (if l.status = 3 || l.status = 4 then s else s.yardsRead c va (granules ((upTo 256).map (fun i => va + 16 * i)))).launchSeed c
      let s := s.modQueue q (fun x => { x with head := x.head + 1, ages := x.ages.drop 1 })
      let s := s.modPart part (fun y => { y with accepts := y.accepts + 1, lastQ := setAt x.cls q y.lastQ })
      { s with launches := place s.uid l s.launches, sched := { s.sched with accepted := s.sched.accepted + 1 } }.bump)

/-! ## Retirement (R31, R32) -/

/-- The team's lanes have all exited, or it was killed. -/
def Team.finished (t : Team) : Bool :=
  t.killed || (t.exited = allLanes && t.near.path.isNone && t.off.path.isNone && t.loftDepth = 0)
def State.mayRetire (s : State) (u : Nat) (t : Team) : Bool :=
  t.finished && t.queue = [] && t.region.isNone && !s.net.ops.any (fun o => o.team = u && o.kind.isMload)
/-- Partial sums that a leaving team still holds stay for the launch's end (R390). -/
def State.keepSlots (s : State) (t : Team) : State :=
  let b := s.block t.block
  s.modLaunch b.launch (fun l => if l.fixed then
    { l with finalSlots := l.finalSlots ++ t.slots.map (fun (a, v) => (b.idx, t.idx, a, v)) } else l)
/-- TEAM_RETIREMENT: a harness it is still in dissolves (R30), the slot and registers return, its monitors are released, its partial sums stay for the launch's end. -/
def execTeamRetirement (team : Nat) (s : State) : Host.Outcome State Fault Refusal :=
  .next (match s.teamAt team with
    | none => s
    | some t =>
      let b := s.block t.block
      if !s.mayRetire team t || b.res ≠ .core then s
      else
        let s := match t.harness with
          | some (h, _) => s.dissolve t.block h team false
          | none => s
        let s := s.modCore b.die b.core (fun c => { c with monitors := c.monitors.filter (·.team ≠ team) })
        let s := s.keepSlots t
        let s := s.leaves team
        let s := s.setNet (fun n => { n with ops := n.ops.filter (fun o => !(o.team = team && o.isRecord))
                                             scq := n.scq.filter (· ≠ team), conflicts := n.conflicts.filter (·.team ≠ team) })
        s.collSettle t.block)
/-- Work of a block's engines that is not over (R32). -/
def State.engineWork (s : State) (blk : Nat) : Bool :=
  s.cores.any (fun (_, c) => c.copies.any (·.block = blk) || c.mq.any (·.block = blk))
    || s.net.colls.any (fun c => c.block = blk && (c.status = 0 || s.collOwes c)) || s.net.xfers.any (·.block = blk)
    || s.net.lands.any (·.block = blk)
/-- A block leaves: its collectives, ports and images of landings go with it (R327). -/
def State.dropBlock (s : State) (blk : Nat) : State :=
  let s := { s with blocks := drop blk s.blocks, dies := s.dies.map (fun (d : Die) => { d with ports := d.ports.filter (·.block ≠ blk) }) }
  let s := { s with cores := s.cores.map (fun (y : Nat × Core) => (y.1, { y.2 with monitors := y.2.monitors.filter (·.block ≠ blk) })) }
  s.setNet (fun n => { n with colls := n.colls.filter (·.block ≠ blk), lands := n.lands.filter (·.block ≠ blk) })
/-- BLOCK_RETIREMENT. -/
def execBlockRetirement (block : Nat) (s : State) : Host.Outcome State Fault Refusal :=
  .next (match s.blockAt block with
    | none => s
    | some b =>
      if s.teams.any (fun (_, t) => t.block = block) || s.engineWork block || b.res ≠ .core then s
      else (s.dropBlock block).modLaunch b.launch (fun l => { l with retired := l.retired + 1 }))

/-! ## The end of a launch (R377, R381, R390, R131) -/

/-- An arrival at a gate, with the stamp of the completion report that makes it. -/
def Gate.arrive (g : Gate) (stamp : Clock) : Gate :=
  if g.arr = 0 then g
  else
    let g := { g with pend := g.pend - 1, stamp := joinClk g.stamp stamp }
    if g.pend = 0 then { g with phase := g.phase + 1, pend := g.arr } else g
/-- Every write of the context's teams and engines has been applied at its home (R131). -/
def State.ctxQuiet (s : State) (c : Nat) : Bool :=
  !s.net.writes.any (fun w => w.ctx = c)
    && !s.net.out.any (fun o => o.ctx = c && (match o.kind with | .write _ _ | .puts _ _ _ | .signal _ => true | _ => false))
    && !s.net.ops.any (fun o => o.ctx = c && o.kind.atomParts.any (fun p => p.got.isNone))
/-- The flush of every slot still held, in one tree over the launch's teams. -/
def State.flushLaunch (s : State) (l : Launch) : State :=
  if l.finalSlots = [] then s
  else
    let who := (upTo l.blockCount).flatMap (fun b => (upTo l.teams).map (fun t => (b, t)))
    (flushSums who l.finalSlots).foldl (fun (s : State) (a, v) => s.flushAdd 8 l.ctx a v) s
/-- The completion report is a fabric-scope release that covers the writes of every die the launch ran on: they release, and
die 8, which reports for them, takes their clocks (log 26). -/
def State.reportRelease (s : State) (l : Launch) : State :=
  let s := l.acqDies.foldl State.increment s
  let m := l.acqDies.foldl (fun c d => joinClk c (s.die d).clock) Clock.zero
  (s.merge 8 m).increment 8
/-- The completion word, where DONEADDR translates; otherwise the context's sticky error. -/
def State.doneWord (s : State) (l : Launch) (status : Nat) : State :=
  let va := l.doneAddr
  if va = 0 then s
  else
    let w := w64 (bits (l.dw 6) 32 32 * 2 ^ 32 + status)
    let s := s.walkDone 8 l.ctx va
    let bad := s.modCtx l.ctx (fun x => { x with sticky := true })
    match s.walk 8 l.ctx va with
    | .error _ => bad
    | .ok (e, lvl, _) =>
      let pa := 4096 * bits e 12 40 + va % 2 ^ levelShift lvl
      if !Perm.wr.allows e || !s.paOk pa then bad
      else match regionOf pa with
        | .fabric pkg _ => s.addOut { id := 0, pkg := pkg, cls := 1, team := none, ctx := l.ctx, die := 8, pc := 0, waited := 0
                                      kind := .write { pieces := piecesOf pa (toBytes 8 w), sides := [] } true }
        | _ => s.devWrite 8 pa (toBytes 8 w)
/-- A launch ends with a status: the four steps of R377. -/
def State.endLaunch (s : State) (lk status : Nat) : State :=
  let l := s.launch lk
  let s := (s.reportRelease l).doneWord l status
  let c := (s.die 8).clock
  let x := s.queueAt l.queue
  let s := s.modQueue l.queue (fun q => { q with done := q.done + 1, stamp := joinClk q.stamp c })
  let s := if status ≤ 2 && bitOf (l.dw 6) 15 then
      let g := bits (l.dw 6) 0 12
      s.setGate g ((s.gateAt g).arrive c)
    else s
  let s := if x.irq then { s with sched := { s.sched with irqs := s.sched.irqs ++ [l.queue] } } else s
  { s with launches := drop lk s.launches }
/-- The completion word of a launch can be written: its walk is covered by the context's WALKB on die 8 (R387). -/
def State.mayEnd (s : State) (l : Launch) : Bool := l.doneAddr = 0 || (s.budget 8 l.ctx).walk ≠ 0
/-- LAUNCH_END: a rejected launch, or one whose last block has retired and whose writes are all applied. -/
def execLaunchEnd (launch : Nat) (s : State) : Host.Outcome State Fault Refusal :=
  .next (match s.launchAt launch with
    | none => s
    | some l =>
      if (s.ctxAt l.ctx).ending || !s.covered 8 || !s.mayEnd l then s
      else if l.status ≠ 0 then s.endLaunch launch l.status
      else if l.retired < l.blockCount || !s.ctxQuiet l.ctx then s
      else (s.flushLaunch l).endLaunch launch (if l.sticky then 2 else 1))

end Sys2Proof.Machine
end

