-- ==== Sys2Proof/Machine/Transfers.lean ====
section
/-! DEFINITION. PUTS, GETS and the course of their data, mirrored windows and signal ports (10_ref_engines.md R322 to R327). -/

namespace Sys2Proof.Machine

/-! ## Units of a transfer: one for each line of the remote side -/

/-- The address whose lines cut a transfer: the destination of a PUTS, the source of a GETS. -/
def Xfer.cut (f : Xfer) : Nat := if f.gets then f.src else f.dst
def Xfer.units (f : Xfer) : Nat := if f.len = 0 then 0 else (f.cut % 128 + f.len + 127) / 128
/-- First byte of unit n, and its length. -/
def Xfer.unitAt (f : Xfer) (n : Nat) : Nat := if n = 0 then 0 else 128 * n - f.cut % 128
def Xfer.unitLen (f : Xfer) (n : Nat) : Nat := Nat.min f.len (128 * (n + 1) - f.cut % 128) - f.unitAt n
/-- A unit that carries side-band: a whole line on both sides (R323, R324). -/
def Xfer.whole (f : Xfer) (n : Nat) : Bool := f.unitLen n = 128 && f.src % 128 = f.dst % 128
/-- The physical address of a byte of a translated range. -/
def mapPa (m : List (Nat × Nat)) (va : Nat) : Nat := (look (va / 65536) m).getD 0 + va % 65536

/-! ## PUTS (R322, R323) -/

def ctlLen (c : W64) : Nat := bits c 0 32
/-- What a range of a transfer must translate into. -/
inductive Window
  | fabric | here | any
  deriving DecidableEq, Repr
def Window.takes (w : Window) (pa : Nat) : Bool :=
  match w with
  | .fabric => isFabric pa
  | .here => !isFabric pa
  | .any => true
/-- A range of global addresses that a transfer names: what it needs of its pages, and what they must translate into. -/
structure XRange where
  perm : Perm
  win : Window
  at_ : Nat
  len : Nat
/-- How the page of an address was found. -/
inductive PageAt
  | ok (pa : Nat)
  | fault (va code level : Nat)
  | wait
  deriving DecidableEq
/-- The addresses at which the pages of a range are looked up, at least the range's own; those of a valid format. -/
def XRange.vas (r : XRange) : List Nat :=
  ((from_ (r.at_ / 65536) ((r.at_ + Nat.max r.len 1 - 1) / 65536 - r.at_ / 65536 + 1)).map (fun pg => Nat.max r.at_ (65536 * pg))).filter
    (fun va => va < 2 ^ 57)
/-- Every page of a range is looked up. -/
def State.lookPages (s : State) (die core c : Nat) (p : Perm) : List Nat → State × List (Nat × PageAt)
  | [] => (s, [])
  | va :: r =>
    match s.translate die core c va p with
    | .ok pa s => let y := s.lookPages die core c p r
                  (y.1, (va, .ok pa) :: y.2)
    | .fault code lvl => let y := (s.walkAt die core c va).lookPages die core c p r
                         (y.1, (va, .fault va code lvl) :: y.2)
    | .wait => let y := s.lookPages die core c p r
               (y.1, (va, .wait) :: y.2)
/-- The same for every range of a transfer. -/
def Iss.lookRanges (x : Iss) (s : State) : List XRange → State × List (XRange × List (Nat × PageAt))
  | [] => (s, [])
  | r :: rs =>
    let y := s.lookPages x.b.die x.b.core x.c r.perm r.vas
    let z := x.lookRanges y.1 rs
    (z.1, (r, y.2) :: z.2)
/-- Where the pages of a range lie: the physical address of each. -/
def pageMap (l : List (Nat × PageAt)) : List (Nat × Nat) :=
  l.filterMap (fun y => match y.2 with | .ok pa => some (y.1 / 65536, pa - y.1 % 65536) | _ => none)
/-- The addresses of a range whose page was found at a physical address of which f holds. -/
def pagesWhere (f : Nat → Bool) (l : List (Nat × PageAt)) : List Nat :=
  l.filterMap (fun y => match y.2 with | .ok pa => if f pa then some y.1 else none | _ => none)
def accessHalt (code va : Nat) : Halt := .fault (accessFault code accEngine allLanes va 0)
/-- The ranges of a transfer, in the order of Table 05.10: a page that translates outside its window is an engine-parameter fault and
precedes every fault of order 5 on any page, those of a barrier object among them (`more`), and these precede a translation fault, which
parks the team. A walk that waits holds the team; of PUTS, a switch point, `clear` says that the latches are lost (Table 05.5). -/
def Iss.ranges (x : Iss) (s : State) (clear : Bool) (rs : List XRange) (more : Except Halt Unit) : Except Halt (State × List (List (Nat × Nat))) :=
  let y := x.lookRanges s rs
  walkedBy (rs.flatMap XRange.vas) (do
    needParam (y.2.all (fun r => (pagesWhere (fun pa => !r.1.win.takes pa) r.2) = []))
    need (y.2.all (fun r => r.2.all (fun q => q.2 ≠ .wait))) (.stall clear)
    (match rs.filter (fun r => 2 ^ 57 < r.at_ + Nat.max r.len 1) with
    | [] => .ok ()
    | r :: _ => .error (accessHalt 0x0201 r.at_))
    (match y.2.flatMap (fun r => pagesWhere (fun pa => !y.1.paOk pa) r.2) with
    | [] => .ok ()
    | va :: _ => .error (accessHalt 0x0202 va))
    more
    (match (y.2.flatMap (fun r => r.2)).filterMap (fun q => match q.2 with | .fault va code lvl => some (va, code, lvl) | _ => none) with
    | [] => .ok ()
    | (va, code, lvl) :: _ => .error (.park (accessFault code accEngine allLanes va lvl)))
    .ok (y.1, y.2.map (fun r => pageMap r.2)))
/-- The checks of R322 that PUTS and GETS share. -/
def Iss.xferOk (x : Iss) (d r : Nat) (n : Nat) (spad : Option Nat) : Except Halt Unit := do
  needParam (n % 32 = 0 && n ≤ 2 ^ 24 && d % 32 = 0 && r % 32 = 0)
  needParam (match spad with | some o => o + n ≤ x.l.spadBytes | none => true)
/-- The package of a fabric-window address. -/
def pkgOf (pa : Nat) : Nat :=
  match regionOf pa with
  | .fabric k _ => k
  | _ => 0

/-- A byte of a global source: another package's once its line has come. -/
def Xfer.srcByte (f : Xfer) (s : State) (i : Nat) : Byte :=
  let pa := mapPa f.srcMap i
  if isFabric pa then (match look (i / 128) f.got with | some y => byteOf y.1 (i % 128) | none => 0) else s.mem.byte pa
/-- The side-band of a global source line. -/
def Xfer.srcSb (f : Xfer) (s : State) (i : Nat) : SideBand :=
  let pa := mapPa f.srcMap i
  if isFabric pa then (match look (i / 128) f.got with | some y => y.2 | none => 0) else s.mem.sb (pa / 128)
/-- The source bytes of unit n, once their homes serve them: the data, the side-band of a whole line, and whether a sector
is poisoned. -/
def State.putsRead (s : State) (f : Xfer) (n : Nat) : Option (List Byte × SideBand × Bool) :=
  let a := f.src + f.unitAt n
  let k := f.unitLen n
  if f.spad then
    let b := s.block f.block
    some (b.bytes a k, b.sb (a / 128), (poisonIn b.spadPoison a k).isSome)
  else
    let as := (sectorsOf a k).map (fun sec => (sec / 4, mapPa f.srcMap (32 * sec)))
    if as.all (fun y => if isFabric y.2 then (look y.1 f.got).isSome else s.homeServes f.die f.stamp f.id y.2 32) then
      some ((from_ a k).map (f.srcByte s), f.srcSb s a,
        as.any (fun y => !isFabric y.2 && ((look (y.2 / 32) s.mem.poison).isSome || s.xFailed y.2)))
    else none
/-- Unit n's source lies in an expander window that has failed (R435). -/
def Xfer.srcLost (f : Xfer) (s : State) (n : Nat) : Bool :=
  !f.spad && (sectorsOf (f.src + f.unitAt n) (f.unitLen n)).any (fun sec => s.xFailed (mapPa f.srcMap (32 * sec)))
/-- The source lines of unit n are accessed at their homes here (R83). -/
def State.touchSource (s : State) (f : Xfer) (n : Nat) : State :=
  if f.spad then s
  else (sectorsOf (f.src + f.unitAt n) (f.unitLen n)).foldl (fun (s : State) sec => s.touchL2 (mapPa f.srcMap (32 * sec)) (s.tagOf f.ctx) false) s
def State.modXfer (s : State) (id : Nat) (g : Xfer → Xfer) : State :=
  { s with net := { s.net with xfers := s.net.xfers.map (fun f => if f.id = id then g f else f) } }
def State.xferAt (s : State) (id : Nat) : Option Xfer := first (fun (f : Xfer) => f.id = id) s.net.xfers
/-- A request of a transfer leaves. -/
def State.xferOut (s : State) (f : Xfer) (pkg cls : Nat) (k : OutKind) : State :=
  let o : OutReq := { id := s.uid, pkg := pkg, cls := cls, team := if f.gets then none else some f.team, ctx := f.ctx,
                      die := f.die, pc := f.pc, kind := k, waited := 0 }
  (s.setNet (fun n => { n with out := n.out ++ [o] })).bump

/-- R325: nothing further lands or leaves, and the failure is reported; a GETS adds the bytes that did not land. -/
def State.xferFail (s : State) (f : Xfer) (detail : Nat) : State :=
  let mine := fun (o : OutReq) => (match o.kind with
    | .puts i _ _ | .gets i _ | .signal i => decide (i = f.id)
    | _ => false)
  let s := { s with net := { s.net with xfers := s.net.xfers.filter (fun y => y.id ≠ f.id)
                                        out := s.net.out.filter (fun o => !mine o) } }
  let s := s.engineReport f.team f.key f.off f.die f.core f.ctx f.pc 0x0503 f.cut detail
  if f.gets then
    let left := f.len - f.moved.foldl (fun n u => n + f.unitLen u) 0
    let st := (s.die f.die).clock
    s.awayDo f.block (.bytes f.bar left st) [(f.bar, 16)] (fun s => s.landBytes f.block f.bar left st)
  else s

/-- Units of a PUTS leave in order, each charged as it moves to the context's collective budget, over several periods where that is
smaller, and as the source's homes allow; the last one carries the signal (R323, R431). -/
def putsLoop (id : Nat) : Nat → State → State
  | 0, s => s
  | fuel + 1, s =>
    match s.xferAt id with
    | none => s
    | some f =>
      let n := f.units - (fuel + 1)
      let sent := f.moved.contains n || s.net.out.any (fun o => match o.kind with | .puts i u _ => i = id && u = n | _ => false)
      if sent then putsLoop id fuel s
      else
        let k := f.unitLen n
        let left := (s.budget f.die f.ctx).coll
        if left + f.paid < k then if left = 0 then s else (s.setBudget f.die f.ctx (fun b => { b with coll := 0 })).modXfer id (fun f => { f with paid := f.paid + left })
        else match s.putsRead f n with
          | none => s
          | some (_, _, true) => if f.srcLost s n then (s.xferFail f 2).countX else s.xferFail f 2
          | some (bs, sb, false) =>
            let pa := mapPa f.dstMap (f.dst + f.unitAt n)
            let body : WBody := { pieces := piecesOf pa bs, sides := if f.whole n then [(pa / 128, sb)] else [] }
            let s := (s.touchSource f n).setBudget f.die f.ctx (fun b => { b with coll := b.coll - (k - f.paid) })
            let s := s.modXfer id (fun f => { f with paid := 0 })
            let s := s.xferOut f (pkgOf pa) 1 (.puts id n body)
            putsLoop id fuel (if n + 1 = f.units then s.modXfer id (fun f => { f with read := true }) else s)
def State.pumpPuts (s : State) (id : Nat) : State :=
  match s.xferAt id with
  | some f => if f.gets || s.putsAhead f.team f.id then s else putsLoop id f.units s
  | none => s
/-- The lines of a PUTS's source that lie in the fabric window are asked for. -/
def State.askSource (s : State) (f : Xfer) : State :=
  if f.spad || f.len = 0 then s
  else (from_ (f.src / 128) ((f.src + f.len - 1) / 128 - f.src / 128 + 1)).foldl (fun (s : State) l =>
    let pa := mapPa f.srcMap (128 * l)
    if isFabric pa then s.xferOut f (pkgOf pa) 1 (.gets f.id l) else s) s

/-- A PUTS begins: its units, or a signal without data; without either nothing is left to do. -/
def State.startPuts (s : State) (f : Xfer) : State :=
  let s := s.bump
  if f.len = 0 then
    if f.sig then (s.setNet (fun n => { n with xfers := n.xfers ++ [f] })).xferOut f f.pkg 0 (.signal f.id) else s
  else ((s.setNet (fun n => { n with xfers := n.xfers ++ [f] })).askSource f).pumpPuts f.id

def execPuts (g : Guard) (a b c : Sel) (spad : Bool) (s : State) : Host.Outcome State Fault Refusal :=
  s.issue (fun x => do
    let act := x.act g
    let us := [src .s a, src .s b, src .s c]
    let t ← x.enter s act us [] true
    if act = 0 then .ok (s.setTeam x.u (t.finish x.off us [] 0 1))
    else
      x.notInTry
      x.mayAccess s
      let d ← x.scal true a
      let r ← x.scal true b
      let c ← x.scal true c
      let n := ctlLen c
      needParam (bits c 59 4 = 0 && bits c 50 6 = 0 && bits c 32 8 = 0)
      x.xferOk d.toNat r.toNat n (if spad then some r.toNat else none)
      let rs : List XRange := [{ perm := .wr, win := .fabric, at_ := d.toNat, len := n }]
        ++ if spad then [] else [{ perm := .rd, win := .any, at_ := r.toNat, len := n }]
      let (s, ms) ← x.ranges s true rs (.ok ())
      let dm := nth ms 0 []
      let sm := nth ms 1 []
      let s ← walkedBy (rs.flatMap XRange.vas) (x.release s .fab)
      let f : Xfer := { id := s.uid, gets := false, team := x.u, key := x.key, off := x.off, block := x.t.block, pc := x.p.pc, ctx := x.c, die := x.b.die,
                        core := x.b.core, spad := spad, dst := d.toNat, src := r.toNat, dstMap := dm, srcMap := sm, got := [],
                        pkg := pkgOf (mapPa dm d.toNat), len := n, bar := 0, sig := bitOf c 63, sigDie := bits c 56 3,
                        sigPort := bits c 40 10, moved := [], paid := 0, read := n = 0, stamp := (s.die x.b.die).clock }
      .ok ((s.startPuts f).setTeam x.u (t.finish x.off us [] 0 1)))

/-! ## GETS (R324) -/

/-- A GETS begins: a request for each unit. -/
def State.startGets (s : State) (f : Xfer) : State :=
  let s := s.bump
  if f.len = 0 then s
  else (upTo f.units).foldl (fun (s : State) i => s.xferOut f (pkgOf (mapPa f.srcMap (f.src + f.unitAt i))) 1 (.gets f.id i))
    (s.setNet (fun n => { n with xfers := n.xfers ++ [f] }))

def execGets (g : Guard) (a b c : Sel) (spad : Bool) (s : State) : Host.Outcome State Fault Refusal :=
  s.issue (fun x => do
    let act := x.act g
    let us := [src .s a, src .s b, src .s c]
    let t ← x.enter s act us [] false
    if act = 0 then .ok (s.setTeam x.u (t.finish x.off us [] 0 1))
    else
      x.notInTry
      x.mayAccess s
      let d ← x.scal true a
      let r ← x.scal true b
      let c ← x.scal true c
      let n := ctlLen c
      let bar := 16 * bits c 32 14
      needParam (bits c 46 18 = 0)
      x.xferOk d.toNat r.toNat n (if spad then some d.toNat else none)
      let rs : List XRange := [{ perm := .rd, win := .fabric, at_ := r.toNat, len := n }]
        ++ if spad then [] else [{ perm := .wr, win := .here, at_ := d.toNat, len := n }]
      let (s, ms) ← x.ranges s false rs (x.engBar s bar)
      let sm := nth ms 0 []
      let dm := nth ms 1 []
      let f : Xfer := { id := s.uid, gets := true, team := x.u, key := x.key, off := x.off, block := x.t.block, pc := x.p.pc, ctx := x.c, die := x.b.die,
                        core := x.b.core, spad := spad, dst := d.toNat, src := r.toNat, dstMap := dm, srcMap := sm, got := [],
                        pkg := pkgOf (mapPa sm r.toNat), len := n, bar := bar, sig := false, sigDie := 0, sigPort := 0,
                        moved := [], paid := 0, read := true, stamp := (s.die x.b.die).clock }
      .ok ((s.startGets f).setTeam x.u (t.finish x.off us [] 0 1)))

/-! ## MIRW (R326, R327) -/

def execMirwWin (g : Guard) (a b : Sel) (k : BitVec 2) (s : State) : Host.Outcome State Fault Refusal :=
  s.issue (fun x => do
    let act := x.act g
    let us := [src .s a, src .s b]
    let t ← x.enter s act us [] false
    if act = 0 then .ok (s.setTeam x.u (t.finish x.off us [] 0 1))
    else
      x.notInTry
      x.mayAccess s
      let base ← x.scal true a
      let c ← x.scal true b
      let size := bits c 0 32
      let cnt := bitOf c 63
      let bar := 16 * bits c 48 14
      match x.yard k.toNat with
      | none => .error (.fault (illegalOperand 0x13 0))
      | some (y, _) =>
        needParam (bits c 62 1 = 0 && bits c 32 16 = 0 && spadOk x.l base.toNat size)
        let rest := x.b.windows.filter (fun w => w.yard ≠ y)
        need (size = 0 || rest.length < 8) (.fault (illegalOperand 0x16 0))
        if cnt then x.engBar s bar else .ok ()
        if size = 0 then
          .ok ((s.modBlock x.t.block (fun b => { b with windows := rest })).setTeam x.u (t.finish x.off us [] 0 1))
        else
          .ok ((s.modBlock x.t.block (fun b =>
            { b with windows := rest ++ [{ yard := y, base := base.toNat, size := size, cnt := cnt, bar := bar }] })).setTeam x.u
              (t.finish x.off us [] 0 1)))

/-- A port's binding on a die. -/
def State.portAt (s : State) (die port : Nat) : Option PortBind := first (fun (y : PortBind) => y.port = port) (s.die die).ports
def execMirwPort (g : Guard) (d : Dst) (a b : Sel) (s : State) : Host.Outcome State Fault Refusal :=
  s.issue (fun x => do
    let act := x.act g
    let us := [src .s a, src .s b]
    let t ← x.enter s act us (dstUses .s d) false
    let fin := fun (s : State) (perf : Bool) (v : W64) =>
      s.setTeam x.u (t.finish x.off us [.scal d.idx.toNat d.ws perf v none] 0 1)
    if act = 0 then .ok (fin s false 0)
    else
      x.notInTry
      x.mayAccess s
      let p ← x.scal true a
      let o ← x.scal true b
      needParam (p.toNat < 1024)
      let other := match s.portAt x.b.die p.toNat with
        | some y => y.block ≠ x.t.block
        | none => false
      let rest := (s.die x.b.die).ports.filter (fun y => y.port ≠ p.toNat)
      if bitOf o 63 then
        if other || (s.portAt x.b.die p.toNat).isNone then .ok (fin s true 2)
        else .ok (fin (s.modDie x.b.die (fun d => { d with ports := rest })) true 0)
      else
        x.engBar s o.toNat
        if other then .ok (fin s true 1)
        else .ok (fin (s.modDie x.b.die (fun d =>
          { d with ports := rest ++ [{ port := p.toNat, block := x.t.block, off := o.toNat }] })) true 0))

end Sys2Proof.Machine
end

