-- ==== Sys2Proof/Machine/Arrive.lean ====
section
/-! DEFINITION. What reaches a core or this package from elsewhere: remote arrivals, mirrored stores, PUTS signals, GETS data,
watch events, CONFLICT notices, and requests at fabric ingress (09_ref_memory_sync_try.md R271, R276, R283; 10_ref_engines.md
R323 to R326; 04_ordering_and_visibility.md R120 to R123, R128; 16_traps_preemption_contexts.md R412). -/

namespace Sys2Proof.Machine

/-! ## Landings in a saved block (R412) -/

def State.later (s : State) (blk : Nat) (k : LandKind) : State :=
  s.setNet (fun n => { n with lands := n.lands ++ [{ block := blk, kind := k, paused := none }] })

/-! ## Remote arrivals (R271) -/

/-- An arrival at the object: counted, discarded with OVER, or not counted on an object that is no barrier. -/
def State.arriveAt (s : State) (blk off : Nat) (a : Arrival) : State :=
  let b := s.barAt blk off
  if !b.counts then
    s.engineReport a.team (32 * a.blockIdx + a.teamIdx) a.off a.die (s.coreOfTeam a.team) a.ctx a.pc 0x0502 off b.kind
  else if b.pend < a.count then
    let x := s.block blk
    (s.barPut blk off b.over none).wdReport x.die off a.ctx a.blockIdx a.teamIdx x.core 1 0
  else ((s.countLate blk 0).barNote blk off a.stamp .dev).barChange blk off none (Bar.arrive a.count)
/-- The first member block of the arrival's yard and its object. -/
def State.arrivalAt (s : State) (a : Arrival) : Option (Nat × Nat) :=
  match look a.yard (s.launch a.launch).yards with
  | none => none
  | some e => (s.blockOf a.launch (yardFirst e)).map (fun blk => (blk, yardBarOff e))
/-- REMOTE_ARRIVAL: arrivals of one team keep their order; one whose block has gone is dropped. -/
def execRemoteArrival (i : Nat) (s : State) : Host.Outcome State Fault Refusal :=
  .next (match (s.net.arrivals.drop i).head? with
    | none => s
    | some a =>
      let rest := s.setNet (fun n => { n with arrivals := n.arrivals.take i ++ n.arrivals.drop (i + 1) })
      if (s.net.arrivals.take i).any (fun y => y.team = a.team && y.yard = a.yard) then s
      else match s.arrivalAt a with
        | none => rest
        | some (blk, off) =>
          if !s.onCore blk then rest.later blk (.arrival a)
          else if s.spadLocked blk off 16 none then s
          else rest.arriveAt blk off a)

/-! ## Mirrored stores (R81, R326) -/

/-- The bytes written in a destination block; what lies beyond its scratchpad is dropped. -/
def State.mirrorLand (s : State) (blk : Nat) (m : Mirror) : State :=
  let size := (s.launchOf blk).spadBytes
  let is := (upTo 32).filter (fun i => m.mask.getLsbD i && m.off + i < size)
  let s := if is.length = 32 then (s.overtake blk m.off 32).spadWrite blk m.off (toBytes 32 m.data) m.stamp (some m.src)
    else is.foldl (fun (s : State) i => (s.overtake blk (m.off + i) 1).spadWrite blk (m.off + i) [byteOf m.data i] m.stamp (some m.src)) s
  let s := s.countLate blk is.length
  match (s.block blk).window m.yard with
  | some w =>
    if w.cnt then
      let s := s.releaseAt m.die .dev
      (s.barLand blk w.bar is.length (s.die m.die).clock .dev).getD s
    else s
  | none => s
/-- MIRRORED_STORE_ARRIVAL: those of one team arrive at a block in program order, each once the block's die has applied what its stamp
covers (R110). -/
def execMirroredStoreArrival (i : Nat) (s : State) : Host.Outcome State Fault Refusal :=
  .next (match (s.net.mirrors.drop i).head? with
    | none => s
    | some m =>
      let rest := s.setNet (fun n => { n with mirrors := n.mirrors.take i ++ n.mirrors.drop (i + 1) })
      if (s.net.mirrors.take i).any (fun y => y.src = m.src && y.launch = m.launch && y.blockIdx = m.blockIdx) then s
      else match s.blockOf m.launch m.blockIdx with
        | none => rest
        | some blk =>
          if !s.covers (s.block blk).die m.die m.stamp then s
          else if !s.onCore blk then rest.later blk (.mirror m)
          else if s.spadLocked blk m.off 32 none || (match (s.block blk).window m.yard with
              | some w => w.cnt && s.spadLocked blk w.bar 16 none
              | none => false) then s
          else rest.mirrorLand blk m)

/-! ## PUTS signals (R323, R128) -/

/-- A signal that no barrier takes. -/
def State.dropSignal (s : State) (die : Nat) : State :=
  s.modDie die (fun d => { d with ctr := { d.ctr with sigdrop := satInc d.ctr.sigdrop } })
def State.signalAt (s : State) (blk off : Nat) (g : Signal) : State :=
  let b := s.barAt blk off
  if !b.counts then s.dropSignal g.die
  else
    let s := (s.countLate blk g.len).barNote blk off g.stamp .fab
    if b.pend = 0 then
      let x := s.block blk
      (s.barChange blk off none (fun b => (b.land g.len).over)).wdReport x.die off (s.ctxOf blk) x.idx 0 x.core 1 0
    else s.barChange blk off none (fun b => (b.land g.len).arrive 1)
/-- PUTS_SIGNAL_ARRIVAL: once every byte of the PUTS is applied at its home. -/
def execPutsSignalArrival (i : Nat) (s : State) : Host.Outcome State Fault Refusal :=
  .next (match (s.net.signals.drop i).head? with
    | none => s
    | some g =>
      let rest := s.setNet (fun n => { n with signals := n.signals.take i ++ n.signals.drop (i + 1) })
      if s.net.writes.any (fun w => g.after.contains w.id) then s
      else match s.portAt g.die g.port with
        | none => rest.dropSignal g.die
        | some p =>
          if !s.onCore p.block then rest.later p.block (.signal g)
          else if s.spadLocked p.block p.off 16 none then s
          else rest.signalAt p.block p.off g)

/-! ## Fabric ingress (R120, R121, R431, R439) -/

/-- The side-band a whole-line write carries. -/
def extSide (e : Option ExtBlock) : Option SideBand :=
  match e with
  | some x => if extType x = 1 then some (sbOut (BitVec.ofNat 128 (x.d1.toNat + 2 ^ 64 * x.d2.toNat))) else none
  | none => none
/-- A request whose extension block is malformed, or whose address does not exist here, is discarded. -/
def ingressOk (line : Nat) (e : Option ExtBlock) : Bool :=
  128 * line < 2 ^ 40 && (match e with | some x => extOk x | none => true)
def floatAtom : AtomOp → Bool
  | .fadd | .fmin | .fmax => true
  | _ => false
/-- A floating-point atomic travels with a FATOMIC block that names it (Table 17.17). -/
def fatomOk (op : AtomOp) (e : Option ExtBlock) : Bool :=
  match op, e with
  | .fadd, some x => extType x = 3 && bits x.d0 0 4 = 0x9
  | .fmin, some x => extType x = 3 && bits x.d0 0 4 = 0xA
  | .fmax, some x => extType x = 3 && bits x.d0 0 4 = 0xB
  | .fadd, none | .fmin, none | .fmax, none => false
  | _, _ => true
/-- A load or atomic of another package that has arrived and waits for its home. -/
def State.ingressAt (s : State) (r : FabReq) : Option Ingress := first (fun (y : Ingress) => decide (y.req = r)) s.net.ingress
/-- R120: it arrives, a release after C_8[8] has been incremented, and carries C_8. -/
def State.ingressNew (s : State) (r : FabReq) (rel : Bool) : State :=
  let s := if rel then s.increment 8 else s
  (s.setNet (fun n => { n with ingress := n.ingress ++ [{ req := r, uid := s.uid, clock := (s.die 8).clock, park := none }] })).bump
def State.ingressDone (s : State) (r : FabReq) : State :=
  s.setNet (fun n => { n with ingress := n.ingress.filter (fun y => y.req ≠ r) })
/-- An atomic of another package at its home here: an answer, or none while it has to wait. -/
def State.ingressAtomic (s : State) (g : Ingress) (f : Option AtomOp) (pa size : Nat) (v c : W64) : Option (Reply × State) :=
  let home := s.homeOf pa
  if !s.homeServes 8 g.clock g.uid pa size || s.memLocked (pa / 32) none || s.scrubbing (pa / 32) || s.extHeld home pa g.park
      || (s.pound home (poundSlice pa)).any (fun y => y.sector = pa / 32) then none
  else
    let line := s.mem.line (pa / 128)
    match look (pa / 32) s.mem.poison with
    | some code => some ({ data := line, side := 0, poison := code }, s)
    | none =>
      let y := s.atomWord f size pa [(0, v, c)] g.clock 0 none
      some ({ data := line, side := 0, poison := 0 }, y.2)
def State.reply (s : State) (src id : Nat) (r : Reply) : State :=
  s.addOut { id := 0, pkg := src, cls := 1, team := none, ctx := 128, die := 8, pc := 0, kind := .reply id r, waited := 0 }
/-- An atomic of another package: it arrives, and is answered once its home applies it; one that finds an armed migration fence there
goes with the fence (R421). -/
def State.ingressStep (s : State) (r : FabReq) (f : Option AtomOp) (src id pa size : Nat) (v c : W64) (rel : Bool) : State :=
  match s.ingressAt r with
  | none => s.ingressNew r rel
  | some g =>
    let pa := ExtPark.at_ g.park pa
    match s.ingressAtomic g f pa size v c with
    | none => s.setNet (fun n => { n with ingress := n.ingress.map (fun y => if y.req = r then { y with park := s.extPark pa y.park } else y) })
    | some (y, t) => (t.ingressDone r).reply src id y
/-- A write arrives: stamped with C_8, a release after its count, and sent to its home; a signal that it carries is a release of its own,
which covers the data and waits for them (R120, R128, R323). team and ctx are those of a write of this package to its own window. -/
def State.ingressWrite (s : State) (team : Option Nat) (ctx src cls line : Nat) (mask : BitVec 128) (data : Line) (rel : Bool)
    (ext : Option ExtBlock) : State :=
  let sig : Bool := match ext with | some e => extType e = 2 | none => false
  let s := if rel then s.increment 8 else s
  let pieces := ((upTo 4).map (fun k => ({ addr := 128 * line + 32 * k, mask := mask.extractLsb' (32 * k) 32
                                           data := data.extractLsb' (256 * k) 256 } : Piece))).filter (fun p => p.mask ≠ 0#32)
  let sides := match extSide ext with
    | some v => if mask = BitVec.allOnes 128 then [(line, v)] else []
    | none => []
  let w : NWrite := { id := s.uid, src := 8, home := s.homeOf (128 * line), team := team, ctx := ctx, stamp := (s.die 8).clock,
                      owner := if team.isSome then s.tagOf ctx else 0,
                      body := { pieces := pieces, sides := sides }, commit := false, stream := some (4 * src + cls) }
  let s := if pieces = [] then s else (s.setNet (fun n => { n with writes := n.writes ++ [w] })).bump
  match ext with
  | some e =>
    if sig then
      let s := s.increment 8
      let after := (s.net.writes.filter (fun w => match w.stream with | some k => k / 4 = src | none => false)).map (·.id)
      s.setNet (fun n => { n with signals := n.signals ++ [
        { die := bits e.d0 40 3, port := bits e.d0 30 10, len := bits e.d1 0 32, stamp := (s.die 8).clock, after := after }] })
    else s
  | none => s
/-- FABRIC_INGRESS_WRITE: a write is stamped with C_8 and sent to its home; a load or an
atomic arrives with C_8 and is answered, in a later event of its name, once its home serves it with that clock (an atomic that a pound
would hold waits at ingress; log 29). -/
def execFabricIngressWrite (r : FabReq) (s : State) : Host.Outcome State Fault Refusal :=
  .next (match r with
    | .write src cls _ line mask data rel ext =>
      if !ingressOk line ext then s else s.ingressWrite none 128 src cls line mask data rel ext
    | .read src id line need =>
      if !ingressOk line none then s
      else match s.ingressAt r with
        | none => s.ingressNew r false
        | some g =>
          if !s.homeServes 8 g.clock g.uid (128 * line) 128 then s
          else
            let p := s.mem.linePoison line need
            ((s.touchL2 (128 * line) 0 false).ingressDone r).reply src id { data := s.mem.line line, side := sbOut (s.mem.sb line), poison := p % 65536 }
    | .atomic src id pa size op v rel ext =>
      if !ingressOk (pa / 128) ext || pa % size ≠ 0 || !fatomOk op ext then s
      else s.ingressStep r (some op) src id pa size v 0 rel
    | .cas src id pa size cmp v rel =>
      if !ingressOk (pa / 128) none || pa % size ≠ 0 then s
      else s.ingressStep r none src id pa size cmp v rel)

/-! ## Requests of this package (R431, R439) -/

/-- The bytes a body writes in a line: mask and data. -/
def lineWrite (w : WBody) (line : Nat) : BitVec 128 × Line :=
  w.pieces.foldl (fun y p => if p.addr / 128 = line then (y.1 ||| BitVec.ofNat 128 (p.mask.toNat * 2 ^ (p.addr % 128)), patchLine line p y.2) else y)
    (0, 0)
/-- The lines a body writes. -/
def WBody.lines (w : WBody) : List Nat := sortNat (w.pieces.map (fun p => p.addr / 128) ++ w.sides.map Prod.fst)
/-- The SIDEBAND block of a whole-line write. -/
def sideExt (v : SideBand) : ExtBlock := extOf 1 0 (fieldN v.toNat 0 64) (fieldN (sbOut v).toNat 64 64) 0
/-- The SIGNAL block of a PUTS. -/
def sigExt (f : Xfer) : ExtBlock := extOf 2 (f.sigDie * 2 ^ 40 + f.sigPort * 2 ^ 30) f.len 0 0
/-- The FATOMIC block of a floating-point atomic. -/
def fatomExt (f : Option AtomOp) (ret : Bool) : Option ExtBlock :=
  let code := match f with | some .fadd => 0x9 | some .fmin => 0xA | some .fmax => 0xB | _ => 0
  if code = 0 then none else some (extOf 3 (16 * b1 ret + code) 0 0 0)
/-- A body as write requests, one for each line, a whole line with its side-band. -/
def State.writeReqs (s : State) (o : OutReq) (w : WBody) (rel : Bool) : List FabReq :=
  w.lines.map (fun l => let y := lineWrite w l
                        .write s.io.fabid.toNat o.cls o.id (fieldN (128 * l) 0 41 / 128) y.1 y.2 rel ((look l w.sides).map sideExt))
/-- The SIGNAL on the last write of a PUTS. A last line that also carries its side-band has no room for a second block: the signal then
follows as a write of no byte (log 73). -/
def withSignal (e : ExtBlock) : List FabReq → List FabReq
  | [] => []
  | [.write src cls id line m v rel none] => [.write src cls id line m v rel (some e)]
  | [.write src cls id line m v rel (some x)] => [.write src cls id line m v rel (some x), .write src cls id line 0 0 false (some e)]
  | r :: l => r :: withSignal e l
/-- The requests that an outbound entry is on the fabric. -/
def State.requests (s : State) (o : OutReq) : List FabReq :=
  let me := s.io.fabid.toNat
  match o.kind with
  | .write w rel => s.writeReqs o w rel
  | .puts x u w =>
    let rs := s.writeReqs o w false
    (match s.xferAt x with
    | some f => if f.sig && u + 1 = f.units then withSignal (sigExt f) rs else rs
    | none => rs)
  | .signal x => (match s.xferAt x with
    | some f => [.write me o.cls o.id (fieldN (mapPa f.dstMap f.dst) 0 41 / 128) 0 0 false (some (sigExt f))]
    | none => [])
  | .load op i => (match s.opAt op with
    | some y => ((y.kind.lineParts.drop i).head?.map (fun p => FabReq.read me o.id (fieldN (128 * p.line) 0 41 / 128) p.need)).toList
    | none => [])
  | .gets x u => (match s.xferAt x with
    | some f =>
      let va := if f.gets then f.src + f.unitAt u else 128 * u
      let n := if f.gets then f.unitLen u else 128
      let pa := fieldN (mapPa f.srcMap va) 0 41
      [.read me o.id (pa / 128) (secMask pa n (pa / 128))]
    | none => [])
  | .atomic op i => (match s.opAt op with
    | some y => (match y.kind with
      | .atomic f size ps => (match (ps.drop i).head? with
        | some p => p.lanes.map (fun l => match f with
          | some g => .atomic me o.id (fieldN p.addr 0 41) size g l.2.1 p.rel (fatomExt f (y.dst ≠ .none))
          | none => .cas me o.id (fieldN p.addr 0 41) size l.2.1 l.2.2 p.rel)
        | none => [])
      | _ => [])
    | none => [])
  | .host f pa size v c rel =>
    (match f with
    | some g => [.atomic me o.id (fieldN pa 0 41) size g v rel (fatomExt f true)]
    | none => [.cas me o.id (fieldN pa 0 41) size v c rel])
  | .reply _ _ | .coll _ => []

/-! ## Transfers of this package (R322 to R325) -/

/-- A write request of this package to its own window reaches its own ingress (R76, R120). -/
def State.ownWrite (s : State) (o : OutReq) : FabReq → State
  | .write src cls _ line mask data rel ext => s.ingressWrite o.team o.ctx src cls line mask data rel ext
  | _ => s
/-- Traffic to the package itself stays in program order within its stream (R121). -/
def State.ownTurn (s : State) (o : OutReq) : Bool :=
  match first (fun (y : OutReq) => y.pkg = o.pkg && y.cls = o.cls && decide (y.team = o.team) && (match y.kind with
    | .write _ _ | .puts _ _ _ | .signal _ => true
    | _ => false)) s.net.out with
  | some y => y.id = o.id
  | none => true
/-- FABRIC_WRITE_COMPLETION: the destination package, or the ingress of this one, has taken a request: a write, a unit or signal of a
PUTS, an answer, a collective message. A PUTS is over with its last unit. -/
def execFabricWriteCompletion (id : Nat) (s : State) : Host.Outcome State Fault Refusal :=
  .next (match first (fun (o : OutReq) => o.id = id) s.net.out with
    | none => s
    | some o =>
      let own := decide (o.pkg = s.io.fabid.toNat)
      if s.unreachable o.pkg o.cls || own && !s.ownTurn o then s
      else
        let s' := s.setNet (fun n => { n with out := n.out.filter (fun y => y.id ≠ id) })
        let s' := if own then (s.requests o).foldl (fun (s : State) r => s.ownWrite o r) s' else s'
        let done := fun (s : State) (x : Nat) => s.setNet (fun n => { n with xfers := n.xfers.filter (fun f => f.id ≠ x) })
        match o.kind with
        | .write _ _ | .reply _ _ | .coll _ | .host _ _ _ _ _ _ => s'
        | .signal x => done s' x
        | .puts x u _ =>
          let s' := s'.modXfer x (fun f => { f with moved := f.moved ++ [u] })
          (match s'.xferAt x with
          | some f => if f.units ≤ f.moved.length then done s' x else s'
          | none => s')
        | .load _ _ | .atomic _ _ | .gets _ _ => s)
/-- The bytes of a GETS performed at device scope. -/
def State.getsWrite (s : State) (f : Xfer) (n : Nat) (bs : List Byte) (sb : SideBand) : Option State :=
  let a := f.dst + f.unitAt n
  let stamp := (s.die f.die).clock
  if s.spadLocked f.block f.bar 16 none then none
  else if f.spad then
    if s.spadLocked f.block a bs.length none then none
    else
      let s := (s.overtake f.block a bs.length).spadWrite f.block a bs stamp none
      let s := if f.whole n then s.modBlock f.block (fun b => b.setSb (a / 128) (sbOut sb)) else s
      some s
  else
    let runs := (sectorsOf a bs.length).map (fun sec =>
      let lo := Nat.max a (32 * sec)
      let hi := Nat.min (a + bs.length) (32 * sec + 32)
      (mapPa f.dstMap lo, (bs.drop (lo - a)).take (hi - lo)))
    let pieces := runs.flatMap (fun (y : Nat × List Byte) => piecesOf y.1 y.2)
    let w : WBody := { pieces := pieces, sides := if f.whole n then [(mapPa f.dstMap a / 128, sbOut sb)] else [] }
    let ok := pieces.all (fun p => s.covers (s.homeOf p.addr) f.die stamp && !s.memLocked (p.addr / 32) none)
      && !s.net.writes.any (fun y => y.src = f.die && bodiesMeet y.body w)
    if ok then
      let s := s.leaveRdc f.die stamp (s.tagOf f.ctx) w
      some ((s.applyBody w stamp (s.tagOf f.ctx) none).queueWrite w)
    else none
/-- A landing of n bytes counted at an object, or reported when it is no barrier (R300). -/
def State.landAt (s : State) (blk bar n : Nat) (stamp : Clock) (scope : Scope) (u key : Nat) (off : Bool) (die core c : Nat) (pc : W64) : State :=
  match (s.countLate blk n).barLand blk bar n stamp scope with
  | some s => s
  | none => s.engineReport u key off die core c pc 0x0502 bar (s.barAt blk bar).kind
/-- Unit n of a GETS lands: performed, counted, and the last one ends the transfer. -/
def State.getsLand (s : State) (f : Xfer) (n : Nat) (bs : List Byte) (sb : SideBand) : State :=
  match s.getsWrite f n bs sb with
  | none => s
  | some s =>
    let s := s.releaseAt f.die .dev
    let s := s.landAt f.block f.bar bs.length (s.die f.die).clock .dev f.team f.key f.off f.die f.core f.ctx f.pc
    let s := s.modXfer f.id (fun f => { f with moved := f.moved ++ [n] })
    if f.units ≤ f.moved.length + 1 then s.setNet (fun n => { n with xfers := n.xfers.filter (fun y => y.id ≠ f.id) }) else s
/-- A line of this package's HBM, read by it through its own window, once its home serves it with C_8 (R76, R120). -/
def State.ownReply (s : State) (u line : Nat) (need : BitVec 4) : Option Reply :=
  if s.homeServes 8 (s.die 8).clock s.uid (128 * line) 128 && s.ownQuiet u (2 ^ 51 + 2 ^ 41 * s.io.fabid.toNat + 128 * line) 128 then
    some { data := s.mem.line line, side := sbOut (s.mem.sb line), poison := s.mem.linePoison line need % 65536 }
  else none
/-- The answer to a transfer's read: another package's, or this package's own, read at its home. -/
def State.xferReply (s : State) (f : Xfer) (k : OutKind) (reply : Option Reply) : Option (Reply × State) :=
  match first (fun (q : OutReq) => decide (q.kind = k)) s.net.out with
  | none => reply.map (fun r => (r, s))
  | some q =>
    if q.pkg = s.io.fabid.toNat then (match s.requests q with
      | .read _ _ line need :: _ => (s.ownReply f.team line need).map (fun r => (r, s.touchL2 (128 * line) (s.tagOf f.ctx) false))
      | _ => none)
    else reply.map (fun r => (r, s))
/-- A source line of a PUTS has come. -/
def Xfer.took (f : Xfer) (n : Nat) (r : Reply) : Xfer := { f with got := (n, r.data, sbOut r.side) :: f.got }
/-- GETS_LANDING: data of unit n from the remote package; for a PUTS, line n of a source in the fabric window. -/
def execGetsLanding (xfer n : Nat) (reply : Option Reply) (s : State) : Host.Outcome State Fault Refusal :=
  .next (match s.xferAt xfer with
    | none => s
    | some f => match s.xferReply f (.gets xfer n) reply with
      | none => s
      | some (r, s1) =>
      if f.moved.contains n && f.gets then s
      else match s1.takeOut (.gets xfer n) with
        | none => s
        | some (_, s') =>
          if r.poison ≠ 0 then s'.xferFail f 2
          else if !f.gets then (s'.modXfer xfer (fun f => f.took n r)).pumpPuts xfer
          else
            let at_ := (f.src + f.unitAt n) % 128
            let bs := (from_ at_ (f.unitLen n)).map (byteOf r.data)
            if (s'.getsWrite f n bs r.side).isNone then s
            else match s'.inImage f.block [(f.bar, 16)] (fun s => s.getsLand f n bs r.side) with
              | .ok s => s
              | .error e => s.imgPause f.block e)
/-- TRANSFER_FAILURE: 1, the remote package has been unreachable for FABTO, and its requests that have waited so long are counted
(Table 18.5); 2, the remote data are poisoned. -/
def execTransferFailure (xfer code : Nat) (s : State) : Host.Outcome State Fault Refusal :=
  .next (match s.xferAt xfer with
    | none => s
    | some f =>
      let late := s.net.out.filter (fun o => (match o.kind with | .puts i _ _ | .gets i _ | .signal i => decide (i = xfer) | _ => false)
        && s.io.fabto.toNat ≤ o.waited && s.unreachable o.pkg o.cls)
      if code = 1 && late ≠ [] then (late.foldl (fun (s : State) _ => s.countFab) s).xferFail f 1
      else if code = 2 && (f.gets || s.net.out.any (fun o => match o.kind with | .gets i _ => decide (i = xfer) | _ => false)) then s.xferFail f 2
      else s)

/-! ## Watches and conflicts (R276, R283) -/

/-- The phase of a watch object advances; an object that has become another kind does not. -/
def State.advanceWatch (s : State) (blk off : Nat) : State :=
  let b := s.barAt blk off
  if b.kind = 3 then s.barPut blk off { b with phase := (b.phase + 1) % 2 ^ 16 } none else s
/-- The monitor that a watch event is for is still armed, and its block is here. -/
def State.noteLive (s : State) (w : WatchNote) : Bool :=
  s.onCore w.block && (s.coreAt w.die w.core).monitors.any (fun m => m.id = w.mon && m.at_ w.block w.off)
/-- WATCH_EVENT: a write to a watched sector reaches the core; a monitor released meanwhile takes no event, and for a block that is away
the one advance at its restore stands for it (R276). -/
def execWatchEvent (i : Nat) (s : State) : Host.Outcome State Fault Refusal :=
  .next (match (s.net.notes.drop i).head? with
    | none => s
    | some w =>
      if s.spadLocked w.block w.off 16 none then s
      else
      let s := s.setNet (fun n => { n with notes := n.notes.take i ++ n.notes.drop (i + 1) })
      if s.noteLive w then s.advanceWatch w.block w.off else s)
/-- MONITOR_LOSS: the home has dropped the monitor; it stays armed. While its context is away the loss counts nothing: the one advance is
that of the restore (R290). -/
def execMonitorLoss (die core i : Nat) (s : State) : Host.Outcome State Fault Refusal :=
  .next (match ((s.coreAt die core).monitors.drop i).head? with
    | none => s
    | some m => if !s.onCore m.block || s.spadLocked m.block m.off 16 none then s else s.advanceWatch m.block m.off)
/-- CONFLICT_NOTICE: the open region aborts, unless its COMMIT has begun. -/
def execConflictNotice (i : Nat) (s : State) : Host.Outcome State Fault Refusal :=
  .next (match (s.net.conflicts.drop i).head? with
    | none => s
    | some c =>
      let s := s.setNet (fun n => { n with conflicts := n.conflicts.take i ++ n.conflicts.drop (i + 1) })
      match s.teamAt c.team with
      | none => s
      | some t => match t.region with
        | some r => if r.begun.isSome then s else s.abortRegion c.team 4 none (w64 c.va) 0
        | none => s)

end Sys2Proof.Machine
end

