-- ==== Sys2Proof/Machine/Blocks.lean ====
section
/-! DEFINITION. The block-aware instructions (08_ref_float_block_lane.md R234 to R243). -/

namespace Sys2Proof.Machine

/-! ## Lines as operands -/

/-- A line source read whole (R401). -/
def Iss.lineSrc (x : Iss) (a : Sel) : Except Halt VVal := x.vec allLanes a
/-- Block j is one of a line's blocks, where both are given. -/
def blockIn (sb : SideBand) (j : Option Nat) : Bool :=
  match elemOf (sbFormat sb), j with
  | some f, some j => decide (j < f.blocks)
  | _, _ => true
/-- R51 and the illegal operands of R234 that read FORMAT: a block line when one is needed, j below its block count. -/
def lineCheck (v : VVal) (sel : Nat) (block : Bool) (j : Option Nat) : Except Halt Unit := do
  need (sbOk v.sb) (.fault (plainFault 0x0304 0))
  need (!(block && sbFormat v.sb = 0)) (.fault (illegalOperand 0x0E sel))
  need (blockIn v.sb j) (.fault (illegalOperand 0x0F sel))
/-- The checks on a line source of a performed instruction. -/
def Iss.lineTest (x : Iss) (act : Lanes) (a : Sel) (block : Bool) (j : Option Nat) : Except Halt Unit :=
  if act = 0 then .ok () else do
    let v ← x.lineSrc a
    lineCheck v (encSel a).toNat block j
/-- The format of a block line; MXINT8 stands in for a raw line, which the checks exclude. -/
def fmtOf (sb : SideBand) : ElemFmt := (elemOf (sbFormat sb)).getD .mxint8
/-- Codes and scale of block j of a line (block_of). -/
def codesOf (v : VVal) (j : Nat) : List Nat := blockCodes (fmtOf v.sb) (sbLayout v.sb) v.data j
def isNanCode (f : ElemFmt) (c : Nat) : Bool := (elemValue f c).isNan

/-- The scale operand (R234): s[B] under TY 10, the lowest active lane of v[B] under TY 00. -/
def Iss.scaleOp (x : Iss) (act : Lanes) (ty : Ty) (b : Sel) : Except Halt Nat :=
  match ty with
  | .vec => do
    let l := ((lanesOf act).head?).getD 0
    let v ← x.vec (act &&& (1#32 <<< l)) b
    .ok (bits (laneOf v.data l) 0 12)
  | _ => do
    let v ← x.scal (act ≠ 0) b
    .ok (bits v 0 12)
def scaleUse (ty : Ty) (b : Sel) : SrcUse := match ty with | .vec => src .v b | _ => src .s b

/-- The old D of BQNT and BPACK: read by plain index; a mapped one is a source for switch points and poison, and no read that exempts it
from a lease (Table 08.16). -/
def Iss.oldUse (x : Iss) (d : BitVec 8) : List SrcUse :=
  if (x.t.vget d.toNat).isSome then [{ src .v (.reg d false) with old := true }] else []
def Iss.oldLine (x : Iss) (d : BitVec 8) : Except Halt VVal := x.lineSrc (.reg d false)

/-- A lane result of a block-aware instruction (R234). -/
def Iss.laneResult (x : Iss) (s : State) (act : Lanes) (t : Team) (d : Dst) (srcs : List SrcUse) (y : Nat → W32)
    (fl : Fl) : Except Halt State :=
  .ok (s.setTeam x.u (t.finish x.off srcs [.vec d.idx.toNat d.ws act (lineOf y) none []] fl 1))
/-- A line writer's result: every lane and the side-band when a lane is active, nothing otherwise. -/
def Iss.lineResult (x : Iss) (s : State) (act : Lanes) (t : Team) (d : Dst) (srcs : List SrcUse) (y : Line)
    (sb : SideBand) (fl : Fl) : Except Halt State :=
  .ok (s.setTeam x.u (t.finish x.off srcs
    [.vec d.idx.toNat d.ws (if act = 0 then 0 else allLanes) y (some sb) []] fl 1))
/-- The counter advances when the instruction rounds by SR (R59). -/
def drewIf (c : Bool) (s : State) (u : Nat) : State := if c then s.modTeam u Team.drew else s

/-! ## Lane results -/

/-- R235: the largest magnitude of the finite active values, or a NaN. -/
def bmaxVal (xs : List W32) : W32 × Fl :=
  let vs := xs.map (fun a => Fmt.f32.read a.toNat)
  if vs.any FV.isNan then (0x7FC00000#32, flIf (vs.any FV.sig) flIV)
  else
    let mags := (xs.map (fun a => a.toNat % 2 ^ 31)).filter (· < 0x7F800000)
    (w32 (mags.foldl Nat.max 0), 0)
def execBmax (g : Guard) (d : Dst) (a : Sel) (s : State) : Host.Outcome State Fault Refusal :=
  s.issue (fun x => do
    let act := x.act g
    let t ← x.enter s act [src .v a] (dstUses .v d) false
    let v ← x.vec act a
    let y := bmaxVal ((lanesOf act).map (laneOf v.data))
    x.laneResult s act t d [src .v a] (fun _ => y.1) y.2)
/-- R236. -/
def execBscale (g : Guard) (d : Dst) (a : Sel) (f : ElemFmt) (s : State) : Host.Outcome State Fault Refusal :=
  s.issue (fun x => do
    let act := x.act g
    let t ← x.enter s act [src .v a] (dstUses .v d) false
    let v ← x.vec act a
    x.laneResult s act t d [src .v a] (fun l => w32 (bscale [Fmt.f32.read (laneOf v.data l).toNat] f)) 0)
/-- R239. -/
def execBdq (g : Guard) (d : Dst) (a : Sel) (j : BitVec 3) (s : State) : Host.Outcome State Fault Refusal :=
  s.issue (fun x => do
    let act := x.act g
    let t ← x.enterC s act [src .v a] (dstUses .v d) false (x.lineTest act a true (some j.toNat))
    if act = 0 then x.laneResult s act t d [src .v a] (fun _ => 0) 0
    else
      let v ← x.lineSrc a
      lineCheck v (encSel a).toNat true (some j.toNat)
      let cs := codesOf v j.toNat
      let y := fun l => dequant (nth cs l 0) (sbSlot v.sb j.toNat) (fmtOf v.sb)
      x.laneResult s act t d [src .v a] (fun l => (y l).1) (raisedIn act (fun l => (y l).2)))
/-- The sum of R241 over the given blocks, with its flags. -/
def bsumVal (v : VVal) (js : List Nat) (mode : Rnd) : W32 × Fl :=
  let f := fmtOf v.sb
  if js.any (fun j => s12Nan (sbSlot v.sb j) || (codesOf v j).any (isNanCode f)) then (0x7FC00000#32, 0)
  else
    let terms := js.flatMap (fun j => (codesOf v j).map (fun c => match elemValue f c with
      | .fin y => FV.fin (y.mul (s12Value (sbSlot v.sb j)))
      | z => z))
    let sum := fun (acc : Option FV × Fl) (z : FV) => match acc.1 with
      | none => (some z, acc.2)
      | some y => let r := addFV mode y z
                  (some r.1, acc.2 ||| r.2)
    let r := terms.foldl sum (none, 0)
    let y := Fmt.f32.result (r.1.getD (.fin (.zero false))) mode
    (w32 y.1, r.2 ||| y.2)
def execBsum (g : Guard) (d : Dst) (a : Sel) (j : BitVec 3) (all : Bool) (r : BitVec 2) (s : State) :
    Host.Outcome State Fault Refusal :=
  s.issue (fun x => do
    let act := x.act g
    let t ← x.enterC s act [src .v a] (dstUses .v d) false (x.lineTest act a true (if all then none else some j.toNat))
    if act = 0 then x.laneResult s act t d [src .v a] (fun _ => 0) 0
    else
      let v ← x.lineSrc a
      lineCheck v (encSel a).toNat true (if all then none else some j.toNat)
      let y := bsumVal v (if all then upTo (fmtOf v.sb).blocks else [j.toNat]) (rndOf r)
      x.laneResult s act t d [src .v a] (fun _ => y.1) y.2)
/-- R242: a slot's code, or FORMAT and LAYOUT; a raw line's slots read 0. The LAYOUT of a raw line is answered as it is stored, where R49 has
readers ignore it and R242 names no value: a choice of the model (log 87). -/
def execSget (g : Guard) (d : Dst) (a : Sel) (j : BitVec 3) (fmt : Bool) (s : State) :
    Host.Outcome State Fault Refusal :=
  s.issue (fun x => do
    let act := x.act g
    let t ← x.enterC s act [src .v a] (dstUses .v d) false (x.lineTest act a false (if fmt then none else some j.toNat))
    if act = 0 then x.laneResult s act t d [src .v a] (fun _ => 0) 0
    else
      let v ← x.lineSrc a
      lineCheck v (encSel a).toNat false (if fmt then none else some j.toNat)
      let y := if fmt then bits v.sb 96 8 else if sbFormat v.sb = 0 then 0 else sbSlot v.sb j.toNat
      x.laneResult s act t d [src .v a] (fun _ => w32 y) 0)
/-- R243. -/
def execBunpk (g : Guard) (d : Dst) (a : Sel) (j : BitVec 3) (sx : Bool) (s : State) :
    Host.Outcome State Fault Refusal :=
  s.issue (fun x => do
    let act := x.act g
    let t ← x.enterC s act [src .v a] (dstUses .v d) false (x.lineTest act a true (some j.toNat))
    if act = 0 then x.laneResult s act t d [src .v a] (fun _ => 0) 0
    else
      let v ← x.lineSrc a
      lineCheck v (encSel a).toNat true (some j.toNat)
      let w := elemWidth (fmtOf v.sb)
      let cs := codesOf v j.toNat
      let y := fun l => let c := nth cs l 0
                        if sx && 2 ^ (w - 1) ≤ c then c + 2 ^ 32 - 2 ^ w else c
      x.laneResult s act t d [src .v a] (fun l => w32 (y l)) 0)

/-! ## Line writers -/

/-- R237: block j of the old line, quantised in the active lanes. -/
def bqntLine (old : VVal) (f : ElemFmt) (lay j scale : Nat) (act : Lanes) (a : Nat → W32) (cm : CMode) (mode : Rnd)
    (draw : Nat → Nat) : Line × SideBand × Fl :=
  let same := elemOf (sbFormat old.sb) = some f && sbLayout old.sb = lay
  let data := if same then old.data else 0
  let slots := if same then sbSlots old.sb else List.replicate 8 0
  let vs := (lanesOf act).map (fun l => (l, Fmt.f32.read (a l).toNat))
  let nan := s12Nan scale || vs.any (fun x => x.2.isNan)
  let sig := flIf (vs.any (fun x => x.2.sig)) flIV
  let codes := vs.map (fun (l, v) =>
    if nan then (l, 0, (0 : Fl)) else let y := quantElem v scale f mode cm (draw l)
                                      (l, y.1, y.2.2))
  let w := elemWidth f
  let data := codes.foldl (fun x (l, c, _) => setField x (w * elemPos f lay l j) w c) data
  (clearPad f data, mkSb (setAt j (if nan then 0xFF0 else scale) slots) f.code.toNat lay, codes.foldl (fun x y => x ||| y.2.2) sig)
def execBqnt (g : Guard) (ty : Ty) (d : BitVec 8) (a b : Sel) (f : ElemFmt) (j : BitVec 3) (lay : Bool) (cm : CMode)
    (r : Rnd) (s : State) : Host.Outcome State Fault Refusal :=
  s.issue (fun x => do
    let act := x.act g
    let srcs := [src .v a, scaleUse ty b]
    let dd : Dst := { idx := d, ws := false }
    let t ← x.enter s act (srcs ++ x.oldUse d) (dstUses .v dd) false
    if act = 0 then (x.lineResult s act t dd (srcs ++ x.oldUse d) 0 0 0).map (fun s => drewIf (r = .sr) s x.u)
    else
      let v ← x.vec act a
      let sc ← x.scaleOp act ty b
      let old ← x.oldLine d
      need ((x.t.vget d.toNat).isNone || sbOk old.sb) (.fault (plainFault 0x0304 0))
      let y := bqntLine old f (b1 lay) j.toNat sc act (laneOf v.data) cm r
        (fun l => (x.draws s).at l (32 * j.toNat + l))
      (x.lineResult s act t dd (srcs ++ x.oldUse d) y.1 y.2.1 y.2.2).map (fun s => drewIf (r = .sr) s x.u))
/-- One block of R240: its new scale and codes. -/
def brscBlock (f : ElemFmt) (sc : Nat) (cs : List Nat) (ns : Nat → List FV → Nat) (mode : Rnd) (cm : CMode)
    (draw : Nat → Nat) : Nat × List Nat × Fl :=
  if s12Nan sc || cs.any (isNanCode f) then (0xFF0, List.replicate 32 0, 0)
  else
    let xs := cs.map (fun c => match elemValue f c with | .fin y => FV.fin (y.mul (s12Value sc)) | z => z)
    let s' := ns sc xs
    let r := (xs.zip (upTo 32)).map (fun (v, i) => quantElem v s' f mode cm (draw i))
    (s', r.map (·.1), r.foldl (fun acc y => acc ||| y.2.2) 0)
/-- R240: every block of a line with its new scale. -/
def brscLine (v : VVal) (mode : BrscMode) (k : W64) (cm : CMode) (r : Rnd) (draw : Nat → Nat → Nat) : Line × SideBand × Fl :=
  let f := fmtOf v.sb
  let ns := fun sc xs => match mode with
    | .e8m0 => s12OfE8m0 (e8m0Of sc)
    | .shift _ =>
      let e := ((sc / 16 % 256 : Nat) : Int) + k.toInt
      16 * (if e < 0 then 0 else if 254 < e then 254 else e.toNat) + sc % 16
    | .fresh => bscale xs f
  let bs := (upTo f.blocks).map (fun j => brscBlock f (sbSlot v.sb j) (codesOf v j) ns r cm (fun i => draw i (32 * j + i)))
  (packLine f (sbLayout v.sb) (bs.map (·.2.1)),
    mkSb (bs.map (·.1) ++ List.replicate (8 - f.blocks) 0) f.code.toNat (sbLayout v.sb), bs.foldl (fun acc y => acc ||| y.2.2) 0)
/-- Sources of BRSC, and the shift it reads. -/
def brscUses (a : Sel) : BrscMode → List SrcUse
  | .shift k => [src .v a, src .s k]
  | _ => [src .v a]
def Iss.brscShift (x : Iss) : BrscMode → Except Halt W64
  | .shift k => x.scal true k
  | _ => .ok 0
def execBrsc (g : Guard) (d : Dst) (a : Sel) (mode : BrscMode) (cm : CMode) (r : Rnd) (s : State) :
    Host.Outcome State Fault Refusal :=
  s.issue (fun x => do
    let act := x.act g
    let srcs := brscUses a mode
    let t ← x.enterC s act srcs (dstUses .v d) false (x.lineTest act a true none)
    if act = 0 then (x.lineResult s act t d srcs 0 0 0).map (fun s => drewIf (r = .sr) s x.u)
    else
      let v ← x.lineSrc a
      let k ← x.brscShift mode
      lineCheck v (encSel a).toNat true none
      let y := brscLine v mode k cm r (x.draws s).at
      (x.lineResult s act t d srcs y.1 y.2.1 y.2.2).map (fun s => drewIf (r = .sr) s x.u))
/-- R242: a line with slot j changed, or with a new FORMAT and LAYOUT. -/
def ssetLine (v : VVal) (c j : Nat) (fmt : Bool) : Line × SideBand :=
  if fmt then
    match elemOf (c % 16) with
    | none => (v.data, mkSb (List.replicate 8 0) 0 0)
    | some f => (clearPad f v.data,
        mkSb ((sbSlots v.sb).take f.blocks ++ List.replicate (8 - f.blocks) 0) f.code.toNat (c / 16 % 16))
  else (v.data, mkSb (setAt j c (sbSlots v.sb)) (sbFormat v.sb) (sbLayout v.sb))
/-- A new FORMAT and LAYOUT exist (Table 02.4). -/
def fmtOk (c : Nat) : Bool := c % 16 < 7 && c / 16 % 16 < 2
/-- R242: SSET and SSET.FMT; the latter does not check a under R51. -/
def execSset (g : Guard) (ty : Ty) (d : Dst) (a b : Sel) (j : BitVec 3) (fmt : Bool) (s : State) :
    Host.Outcome State Fault Refusal :=
  s.issue (fun x => do
    let act := x.act g
    let srcs := [src .v a, scaleUse ty b]
    let t ← x.enterC s act srcs (dstUses .v d) false (if fmt then (if act = 0 then .ok () else do
        let c ← x.scaleOp act ty b
        need (fmtOk c) (.fault (illegalOperand 0x10 (encSel b).toNat)))
      else x.lineTest act a true (some j.toNat))
    if act = 0 then x.lineResult s act t d srcs 0 0 0
    else
      let v ← x.lineSrc a
      let c ← x.scaleOp act ty b
      if fmt then need (fmtOk c) (.fault (illegalOperand 0x10 (encSel b).toNat))
      else lineCheck v (encSel a).toNat true (some j.toNat)
      let y := ssetLine v c j.toNat fmt
      x.lineResult s act t d srcs y.1 y.2 0)
/-- R243: block j of the old line with the codes of the active lanes. -/
def bpackLine (old : VVal) (act : Lanes) (a : Nat → W32) (j : Nat) : Line :=
  let f := fmtOf old.sb
  let w := elemWidth f
  (lanesOf act).foldl (fun y l => setField y (w * elemPos f (sbLayout old.sb) l j) w (a l).toNat) old.data
def execBpack (g : Guard) (d : BitVec 8) (a : Sel) (j : BitVec 3) (s : State) : Host.Outcome State Fault Refusal :=
  s.issue (fun x => do
    let act := x.act g
    let dd : Dst := { idx := d, ws := false }
    let srcs := src .v a :: x.oldUse d
    let t ← x.enterC s act srcs (dstUses .v dd) false (if act = 0 then .ok () else do
        need (x.t.vget d.toNat).isSome (.fault (illegalOperand 0x0E 0))
        let old ← x.oldLine d
        lineCheck old 0 true (some j.toNat))
    if act = 0 then x.lineResult s act t dd srcs 0 0 0
    else
      let v ← x.vec act a
      let old ← x.oldLine d
      need (x.t.vget d.toNat).isSome (.fault (illegalOperand 0x0E 0))
      lineCheck old 0 true (some j.toNat)
      x.lineResult s act t dd srcs (bpackLine old act (laneOf v.data) j.toNat) old.sb 0)

end Sys2Proof.Machine
end

