-- ==== Sys2Proof/Machine/Crypto.lean ====
section
/-! DEFINITION. SHA-256 and RSASSA-PKCS1-v1_5, which 17_translation_errors_links.md R428 to R430 name without describing:
taken from FIPS 180-4 and RFC 8017 (PRESUMED, log 33). -/

namespace Sys2Proof.Machine

/-! ## SHA-256 -/

def shaK : List Nat :=
  [0x428A2F98, 0x71374491, 0xB5C0FBCF, 0xE9B5DBA5, 0x3956C25B, 0x59F111F1, 0x923F82A4, 0xAB1C5ED5,
   0xD807AA98, 0x12835B01, 0x243185BE, 0x550C7DC3, 0x72BE5D74, 0x80DEB1FE, 0x9BDC06A7, 0xC19BF174,
   0xE49B69C1, 0xEFBE4786, 0x0FC19DC6, 0x240CA1CC, 0x2DE92C6F, 0x4A7484AA, 0x5CB0A9DC, 0x76F988DA,
   0x983E5152, 0xA831C66D, 0xB00327C8, 0xBF597FC7, 0xC6E00BF3, 0xD5A79147, 0x06CA6351, 0x14292967,
   0x27B70A85, 0x2E1B2138, 0x4D2C6DFC, 0x53380D13, 0x650A7354, 0x766A0ABB, 0x81C2C92E, 0x92722C85,
   0xA2BFE8A1, 0xA81A664B, 0xC24B8B70, 0xC76C51A3, 0xD192E819, 0xD6990624, 0xF40E3585, 0x106AA070,
   0x19A4C116, 0x1E376C08, 0x2748774C, 0x34B0BCB5, 0x391C0CB3, 0x4ED8AA4A, 0x5B9CCA4F, 0x682E6FF3,
   0x748F82EE, 0x78A5636F, 0x84C87814, 0x8CC70208, 0x90BEFFFA, 0xA4506CEB, 0xBEF9A3F7, 0xC67178F2]
def shaH0 : List W32 :=
  [0x6A09E667, 0xBB67AE85, 0x3C6EF372, 0xA54FF53A, 0x510E527F, 0x9B05688C, 0x1F83D9AB, 0x5BE0CD19]
def ror (x : W32) (n : Nat) : W32 := (x >>> n) ||| (x <<< (32 - n))
def bigEnd (bs : List Byte) : Nat := bs.foldl (fun n b => 256 * n + b.toNat) 0
/-- n bytes, the most significant first. -/
def beBytes (n v : Nat) : List Byte := (upTo n).map (fun i => BitVec.ofNat 8 (v / 256 ^ (n - 1 - i)))
/-- The message schedule: the sixteen latest words, oldest first. -/
def shaNext (w : List W32) : W32 :=
  let a := nth w 1 0
  let b := nth w 14 0
  (ror b 17 ^^^ ror b 19 ^^^ (b >>> 10)) + nth w 9 0 + (ror a 7 ^^^ ror a 18 ^^^ (a >>> 3)) + nth w 0 0
def shaRound (h : List W32) (k w : W32) : List W32 :=
  let a := nth h 0 0
  let b := nth h 1 0
  let c := nth h 2 0
  let e := nth h 4 0
  let t1 := nth h 7 0 + (ror e 6 ^^^ ror e 11 ^^^ ror e 25) + ((e &&& nth h 5 0) ^^^ (~~~ e &&& nth h 6 0)) + k + w
  let t2 := (ror a 2 ^^^ ror a 13 ^^^ ror a 22) + ((a &&& b) ^^^ (a &&& c) ^^^ (b &&& c))
  [t1 + t2, a, b, c, nth h 3 0 + t1, e, nth h 5 0, nth h 6 0]
def shaRounds : List Nat → List W32 → List W32 → List W32
  | [], _, h => h
  | k :: r, w, h => shaRounds r (w.drop 1 ++ [shaNext w]) (shaRound h (BitVec.ofNat 32 k) (nth w 0 0))
def shaBlock (h : List W32) (b : List Byte) : List W32 :=
  let w := (upTo 16).map (fun i => BitVec.ofNat 32 (bigEnd ((b.drop (4 * i)).take 4)))
  (h.zip (shaRounds shaK w h)).map (fun (x, y) => x + y)
def shaBlocks : Nat → List Byte → List W32 → List W32
  | 0, _, h => h
  | n + 1, b, h => shaBlocks n (b.drop 64) (shaBlock h (b.take 64))
/-- The 32 bytes of the digest. -/
def sha256 (m : List Byte) : List Byte :=
  let n := m.length
  let pad := m ++ [0x80] ++ List.replicate ((119 - n % 64) % 64) 0 ++ beBytes 8 (8 * n)
  (shaBlocks (pad.length / 64) pad shaH0).flatMap (fun x => beBytes 4 x.toNat)

/-! ## RSASSA-PKCS1-v1_5 with SHA-256 and a 384-byte modulus -/

/-- b to the power e, modulo m; fuel bounds the bits of e. -/
def powMod (m : Nat) : Nat → Nat → Nat → Nat
  | 0, _, _ => 1 % m
  | fuel + 1, b, e =>
    let r := powMod m fuel (b * b % m) (e / 2)
    if e % 2 = 1 then b * r % m else r
/-- The encoded message of 384 bytes. -/
def rsaEncode (msg : List Byte) : List Byte :=
  let info : List Byte := [0x30, 0x31, 0x30, 0x0D, 0x06, 0x09, 0x60, 0x86, 0x48, 0x01, 0x65, 0x03, 0x04, 0x02, 0x01, 0x05, 0x00, 0x04, 0x20]
  let t := info ++ sha256 msg
  [0x00, 0x01] ++ List.replicate (384 - t.length - 3) 0xFF ++ [0x00] ++ t
def rsaVerify (key sig msg : List Byte) : Bool :=
  let n := bigEnd key
  let x := bigEnd sig
  key.length = 384 && sig.length = 384 && x < n && beBytes 384 (powMod n 17 x 65537) = rsaEncode msg
def rsaSign (n d : Nat) (msg : List Byte) : List Byte := beBytes 384 (powMod n 3072 (bigEnd (rsaEncode msg)) d)

end Sys2Proof.Machine
end

