-- ==== Sys2Proof/Machine/Copies.lean ====
section
/-! DEFINITION. The course of a copy: its reads, transforms, landings and cancellation (10_ref_engines.md R296 to R301,
04_ordering_and_visibility.md R125). -/

namespace Sys2Proof.Machine

/-! ## What a copy reads -/

/-- How a read or write of the copy unit ends short: it waits, pauses on a translation fault, or cancels the copy. It answers with the machine
as its lookups have left it (R417). -/
inductive CStop
  | wait
  | pause (code lvl va : Nat)
  | cancel (detail addr : Nat)
  /-- an expander request has failed (R435) -/
  | lost (addr : Nat)
  deriving DecidableEq, Repr

/-- Where a copy works. -/
structure CAt where
  die : Nat
  core : Nat
  c : Copy

/-- Physical address of a global byte of the copy; the fabric window and what Table 03.2 does not map cancel it. -/
def CAt.pa (x : CAt) (s : State) (va : Nat) (p : Perm) : Except (CStop × State) (Nat × State) :=
  match s.translate x.die x.core x.c.ctx va p with
  | .wait => .error (.wait, s)
  | .fault code lvl => .error (.pause code lvl va, s.walkAt x.die x.core x.c.ctx va)
  | .ok pa s => if s.paOk pa && !isFabric pa then .ok (pa, s) else .error (.cancel 2 va, s)
/-- A run of source bytes within one sector. -/
def CAt.run (x : CAt) (s : State) (spad : Bool) (a n : Nat) : Except (CStop × State) (List Byte × State) :=
  if spad then
    let b := s.block x.c.block
    if (poisonIn b.spadPoison a n).isSome then .error (.cancel 4 a, s) else .ok (b.bytes a n, s)
  else
    match x.pa s a .rd with
    | .error e => .error e
    | .ok (pa, s) =>
      if s.xFailed pa then .error (.lost a, s)
      else if !s.homeServes x.die x.c.stamp x.c.id pa n then .error (.wait, s)
      else if (look (pa / 32) s.mem.poison).isSome then .error (.cancel 4 a, s)
      else .ok (s.mem.bytes pa n, s.touchL2 pa (s.tagOf x.c.ctx) false)
def CAt.runs (x : CAt) (spad : Bool) : List (Nat × Nat) → State → Except (CStop × State) (List Byte × State)
  | [], s => .ok ([], s)
  | (a, n) :: r, s => do
    let (b, s) ← x.run s spad a n
    let (bs, s) ← x.runs spad r s
    .ok (b ++ bs, s)
/-- A range cut at sector boundaries. -/
def sectorRuns (a n : Nat) : List (Nat × Nat) :=
  (sectorsOf a n).map (fun sec =>
    let lo := Nat.max a (32 * sec)
    (lo, Nat.min (a + n) (32 * sec + 32) - lo))
/-- A source line with its side-band. -/
structure CLine where
  data : Line
  sb : SideBand
/-- The side-band of line li of source row r, checked under every transform but 0 and 1 (R51). -/
def CAt.side (x : CAt) (s : State) (r li : Nat) : Except (CStop × State) (SideBand × State) := do
  let p := x.c.pb
  let a := cpySrcRow p r + 128 * li
  let (sb, s) ← if cpySpadSrc p then .ok ((s.block x.c.block).sb (a / 128), s)
    else match x.pa s a .rd with
      | .ok (pa, s) =>
        if s.homeServes x.die x.c.stamp x.c.id pa 128 then .ok (s.mem.sb (pa / 128), s.touchL2 pa (s.tagOf x.c.ctx) false) else .error (.wait, s)
      | .error e => .error e
  if 2 ≤ cpyXform p && !sbOk sb then .error (.cancel 3 a, s) else .ok (sb, s)
/-- The format codes of the lines of a source row, from line li on. -/
def CAt.formats (x : CAt) (r : Nat) : List Nat → State → Except (CStop × State) (List Nat × State)
  | [], s => .ok ([], s)
  | li :: ys, s => do
    let (sb, s) ← x.side s r li
    let (fs, s) ← x.formats r ys s
    .ok (sbFormat sb :: fs, s)
def CAt.rowFormats (x : CAt) (s : State) (r : Nat) : Except (CStop × State) (List Nat × State) := x.formats r (upTo (cpyLines x.c.pb)) s
/-- Line li of source row r. -/
def CAt.line (x : CAt) (s : State) (r li : Nat) : Except (CStop × State) (CLine × State) := do
  let p := x.c.pb
  let a := cpySrcRow p r + 128 * li
  let (bs, s) ← x.runs (cpySpadSrc p) (sectorRuns a 128) s
  let (sb, s) ← x.side s r li
  .ok ({ data := BitVec.ofNat 1024 (ofBytes bs), sb := sb }, s)
def CAt.lines (x : CAt) : List (Nat × Nat) → State → Except (CStop × State) (List CLine × State)
  | [], s => .ok ([], s)
  | (r, li) :: ys, s => do
    let (l, s) ← x.line s r li
    let (ls, s) ← x.lines ys s
    .ok (l :: ls, s)

/-! ## What lands (R297, R298) -/

/-- Exact values of block j of a line, and whether its scale is NaN. -/
def CLine.block (l : CLine) (j : Nat) : List FV × Bool :=
  let f := (elemOf (sbFormat l.sb)).getD .mxint8
  let sc := sbSlot l.sb j
  ((blockCodes f (sbLayout l.sb) l.data j).map (fun c => match elemValue f c with
    | .fin y => FV.fin (y.mul (s12Value sc))
    | z => z), s12Nan sc)
/-- Element k of a line: FP32 of a raw line, an exact element value otherwise. -/
def CLine.elem (l : CLine) (k : Nat) : FV × Bool :=
  if sbFormat l.sb = 0 then (Fmt.f32.read (laneOf l.data k).toNat, false)
  else let y := l.block (k / 32)
       (nth y.1 (k % 32) (.fin (.zero false)), y.2)
/-- A destination block of R298: scale, codes, SAT and UNDER counts. -/
def cpyQuant (p : PBlock) (d : Draws) (n j : Nat) (xs : List FV) (nanScale : Bool) : Nat × List Nat × Nat × Nat :=
  let f := (elemOf (cpyFmt p)).getD .mxint8
  let s0 := if nanScale then 0xFF0 else if cpyGiven p then cpyScale p else bscale xs f
  let sc := if s12Nan s0 || !cpyE8m0 p then s0 else s12OfE8m0 (e8m0Of s0)
  let e := (n * f.blocks + j) * 32
  let q := quantBlock xs f (some sc) (rndCode (cpyRnd p)) (cmodeOf (cpyCmode p)) (fun i => d.at i ((e + i) % 2 ^ 30))
  (q.1, q.2.1, q.2.2.1, q.2.2.2.1)
/-- A line of given blocks, the rest zero codes and scale 0x000. -/
def cpyLineOf (fmt lay : Nat) (bs : List (Nat × List Nat)) : Line × SideBand :=
  let f := (elemOf fmt).getD .mxint8
  let pad := f.blocks - bs.length
  (packLine f lay (bs.map (·.2) ++ List.replicate pad (List.replicate 32 0)),
    mkSb (bs.map (·.1) ++ List.replicate (8 - bs.length) 0) fmt lay)
/-- What one unit writes: bytes at a place of the destination, a side-band for the line, SAT and UNDER counts. -/
structure CUnit where
  at_ : Nat
  bytes : List Byte
  side : Option SideBand
  sat : Nat
  under : Nat
/-- Sectors per destination row under transform 0. -/
def cpyRowSectors (p : PBlock) : Nat := (sectorsOf p.w1.toNat (cpyLen p)).length
/-- Lines per destination row; transform 2, whose rows need not be alike, numbers eight places for each source line. -/
def cpyRowLines (p : PBlock) (f : Nat) : Nat :=
  if cpyXform p = 2 then 8 * cpyLines p else ceilDiv (cpyDstLen p (fun _ _ => f) 0) 128
/-- The units of every source row of a transform 2, counted. -/
def CAt.blocks (x : CAt) : List Nat → State → Except (CStop × State) (Nat × State)
  | [], s => .ok (0, s)
  | r :: ys, s => do
    let (fs, s) ← x.rowFormats s r
    let (n, s) ← x.blocks ys s
    .ok (sumNat (fs.map fmtBlocks) + n, s)
/-- How many units the copy lands, for a source whose first line has format code f. -/
def CAt.units (x : CAt) (s : State) (f : Nat) : Except (CStop × State) (Nat × State) :=
  let p := x.c.pb
  match cpyXform p with
  | 0 => .ok (cpyRows p * cpyRowSectors p, s)
  | 2 => x.blocks (upTo (cpyRows p)) s
  | 5 => do
    let (fs, s) ← x.rowFormats s 0
    .ok (sumNat (fs.map fmtElems) * cpyRowLines p f, s)
  | _ => .ok (cpyDstRows p (fun _ _ => f) * cpyRowLines p f, s)
/-- Every source line moves with its side-band (R297). -/
def cpyWhole (p : PBlock) : Bool := p.w0.toNat % 128 = 0 && p.w1.toNat % 128 = 0 && cpyLen p % 128 = 0
/-- The format every source line must have: a block format for transforms 2 to 4, one for all lines of transforms 3 and 4, one under which a
row of transform 4 has no more than 4,096 elements. -/
def cpyFormatOk (p : PBlock) (f lay : Nat) (l : CLine) : Bool :=
  match cpyXform p with
  | 0 | 1 | 5 => true
  | 2 => sbFormat l.sb ≠ 0
  | 4 => f ≠ 0 && sbFormat l.sb = f && sbLayout l.sb = lay && cpyLines p * fmtElems f ≤ 4096
  | _ => f ≠ 0 && sbFormat l.sb = f
/-- Where element e of a row stands: its line and its place there. -/
def elemAt : List Nat → Nat → Nat → Nat × Nat
  | [], li, e => (li, e)
  | f :: r, li, e => if e < fmtElems f then (li, e) else elemAt r (li + 1) (e - fmtElems f)
/-- Column c of some source rows, element by element; rows of another number of elements than n make no column. -/
def CAt.column (x : CAt) (c n : Nat) : List Nat → State → Except (CStop × State) (List (FV × Bool) × State)
  | [], s => .ok ([], s)
  | r :: ys, s => do
    let (fs, s) ← x.rowFormats s r
    if sumNat (fs.map fmtElems) ≠ n || 4096 < n then .error (.cancel 3 (cpySrcRow x.c.pb r), s) else .ok ()
    let y := elemAt fs 0 c
    let (l, s) ← x.line s r y.1
    let (es, s) ← x.column c n ys s
    .ok (l.elem y.2 :: es, s)
/-- The FP32 lanes of dequantised block j. -/
def CLine.fp32 (l : CLine) (j : Nat) : List W32 :=
  let f := (elemOf (sbFormat l.sb)).getD .mxint8
  (blockCodes f (sbLayout l.sb) l.data j).map (fun c => (dequant c (sbSlot l.sb j) f).1)
/-- Unit n of the copy. Under transform 5 with FMT 0 and a number of rows that is no multiple of 32 the last line of a destination row is
partial: its 4 × (ROWS mod 32) bytes are written and counted, the rest of the line stays, and its side-band becomes raw. The spec does
not say what becomes of that line: a choice of the model (log 83). -/
def CAt.make (x : CAt) (s : State) (d : Draws) (n : Nat) : Except (CStop × State) (CUnit × State) :=
  let p := x.c.pb
  if cpyXform p = 0 then do
    let k := cpyRowSectors p
    let r := n / k
    let run := nth (sectorRuns (cpyDstRow p r) (cpyLen p)) (n % k) (0, 0)
    let a := cpySrcRow p r + (run.1 - cpyDstRow p r)
    let (bs, s) ← x.runs (cpySpadSrc p) (sectorRuns a run.2) s
    if cpyWhole p then
      let (l, s) ← x.line s r ((run.1 - cpyDstRow p r) / 128)
      .ok ({ at_ := run.1, bytes := bs, side := some l.sb, sat := 0, under := 0 }, s)
    else .ok ({ at_ := run.1, bytes := bs, side := none, sat := 0, under := 0 }, s)
  else if cpyXform p = 2 then do
    let row := n / (8 * cpyLines p)
    let li := n / 8 % cpyLines p
    let (fs, s) ← x.rowFormats s row
    if cpyRows p ≤ row || fmtBlocks (nth fs li 0) ≤ n % 8 then .error (.wait, s) else .ok ()
    let (l, s) ← x.line s row li
    if cpyFormatOk p 0 0 l then .ok () else .error (.cancel 3 (cpySrcRow p row + 128 * li), s)
    .ok ({ at_ := cpyDstRow p row + 128 * (sumNat ((fs.take li).map fmtBlocks) + n % 8)
           bytes := (l.fp32 (n % 8)).flatMap (toBytes 4), side := some rawSb, sat := 0, under := 0 }, s)
  else do
    let (l0, s) ← if cpyXform p = 1 then .ok (⟨0, 0⟩, s) else x.line s 0 0
    let f := sbFormat l0.sb
    let lay := sbLayout l0.sb
    let B := fmtBlocks f
    let D := fmtBlocks (cpyFmt p)
    let k := cpyRowLines p f
    let row := n / k
    let i := n % k
    let lines := cpyLines p
    let quants := fun (bs : List (List FV × Bool)) =>
      let qs := (bs.zip (upTo bs.length)).map (fun (y, j) => cpyQuant p d n j y.1 y.2)
      let l := cpyLineOf (cpyFmt p) (cpyLay p) (qs.map (fun q => (q.1, q.2.1)))
      ({ at_ := cpyDstRow p row + 128 * i, bytes := toBytes 128 l.1, side := some l.2, sat := sumNat (qs.map (fun q => q.2.2.1))
         under := sumNat (qs.map (fun q => q.2.2.2)) } : CUnit)
    if cpyXform p = 5 then
      let (fs, s) ← x.rowFormats s 0
      let g := if cpyFmt p = 0 then 32 else 32 * D
      let (es, s) ← x.column row (sumNat (fs.map fmtElems)) ((from_ (g * i) g).filter (fun e => e < cpyRows p)) s
      if cpyFmt p = 0 then
        let ws := es.map (fun e => if e.2 then 0x7FC00000#32 else w32 (Fmt.f32.result e.1 .rn).1)
        .ok ({ at_ := cpyDstRow p row + 128 * i, bytes := ws.flatMap (toBytes 4), side := some rawSb, sat := 0, under := 0 }, s)
      else .ok (quants ((upTo (es.length / 32)).map (fun j =>
        let b := (es.drop (32 * j)).take 32
        (b.map (·.1), b.any (·.2)))), s)
    else
      let src := match cpyXform p with
        | 1 => ((upTo D).filter (fun j => i * D + j < lines)).map (fun j => (row, i * D + j))
        | 3 => ((upTo D).filter (fun j => i * D + j < lines * B)).map (fun j => (row, (i * D + j) / B))
        | _ => ((upTo B).filter (fun j => i * B + j < cpyRows p)).map (fun j => (i * B + j, row / B))
      let (ls, s) ← x.lines src s
      match first (fun (y : (Nat × Nat) × CLine) => !cpyFormatOk p f lay y.2) ((src.zip ls)) with
      | some y => .error (.cancel 3 (cpySrcRow p y.1.1 + 128 * y.1.2), s)
      | none =>
        .ok (match cpyXform p with
          | 1 => quants (ls.map (fun l => ((upTo 32).map (fun e => Fmt.f32.read (laneOf l.data e).toNat), false)))
          | 3 => quants ((ls.zip (upTo ls.length)).map (fun (l, j) => l.block ((i * D + j) % B)))
          | _ =>
            let l := cpyLineOf f lay (ls.map (fun l =>
              (sbSlot l.sb (row % B), blockCodes ((elemOf f).getD .mxint8) lay l.data (row % B))))
            { at_ := cpyDstRow p row + 128 * i, bytes := toBytes 128 l.1, side := some l.2, sat := 0, under := 0 }, s)

/-! ## Landing and cancelling (R300, R301) -/

def State.copyAt (s : State) (die core id : Nat) : Option Copy := first (fun (c : Copy) => c.id = id) (s.coreAt die core).copies
def State.modCopy (s : State) (die core id : Nat) (f : Copy → Copy) : State :=
  s.modCore die core (fun k => { k with copies := k.copies.map (fun c => if c.id = id then f c else c) })
def State.dropCopy (s : State) (die core id : Nat) : State :=
  s.modCore die core (fun k => { k with copies := k.copies.filter (fun y => y.id ≠ id) })
/-- A copy of a batch is over: its batch owes one less. -/
def State.batchDone (s : State) (c : Copy) (stamp : Clock) : State :=
  match c.batch with
  | none => s
  | some n => s.modTeam c.team (fun t =>
    let i := (n - t.batch.phase).toNat
    { t with batch := ({ t.batch with owed := modAt i (· - 1) t.batch.owed, stamp := joinClk t.batch.stamp stamp
                                      scope := t.batch.scope.max (cpyScope c.pb) }).settle })
/-- R301: the copy is cancelled; the team that issued it is killed if it has not retired, with one report. -/
def State.copyCancel (s : State) (die core id detail addr : Nat) : State :=
  match s.copyAt die core id with
  | none => s
  | some c =>
    let s := (s.dropCopy die core id).batchDone c .zero
    match s.teamAt c.team with
    | some t =>
      if t.killed then s.engineReport c.team c.key c.off die core c.ctx c.pc 0x0501 addr detail
      else
        let fr := s.engineRecord c.team c.key c.off die core c.ctx c.pc 0x0501 addr detail true
        let s := (((s.modTeam c.team (fun t => { t with frec := fr })).killQuiet c.team).report die c.ctx fr true)
        match t.harness with
        | some (h, _) => s.dissolve t.block h c.team false
        | none => s
    | none => s.engineReport c.team c.key c.off die core c.ctx c.pc 0x0501 addr detail
/-- The bytes of a unit at their homes or in the scratchpad; a release at the copy's scope. Performed at block scope they must be seen by
the block's own loads, so the core's L1 evicts the sectors (log 68); an acquire of a wider scope discards them itself. -/
def CAt.write (x : CAt) (s : State) (u : CUnit) : Except (CStop × State) State :=
  let p := x.c.pb
  let stamp := (s.die x.die).clock
  if cpySpadDst p then
    if s.launchOf x.c.block |>.spadBytes |> (fun n => n < u.at_ + u.bytes.length) then .error (.cancel 2 u.at_, s)
    else if s.spadLocked x.c.block u.at_ u.bytes.length none then .error (.wait, s)
    else
      let s := (s.overtake x.c.block u.at_ u.bytes.length).spadWrite x.c.block u.at_ u.bytes stamp none
      let s := match u.side with
        | some v => s.modBlock x.c.block (fun b => b.setSb (u.at_ / 128) v)
        | none => s
      .ok s
  else
    match x.pa s u.at_ .wr with
    | .error e => .error e
    | .ok (pa, s) =>
      let w : WBody := { pieces := piecesOf pa u.bytes, sides := match u.side with | some v => [(pa / 128, v)] | none => [] }
      if s.xFailed pa then .error (.lost u.at_, s)
      else if w.pieces.all (fun q => s.covers (s.homeOf q.addr) x.die stamp && !s.memLocked (q.addr / 32) none)
          && !s.net.writes.any (fun y => y.src = x.die && bodiesMeet y.body w) then
        let s := s.leaveRdc x.die stamp (s.tagOf x.c.ctx) w
        let s := if (cpyScope p).wide then s
          else w.pieces.foldl (fun (s : State) (q : Piece) => s.storeL1 x.die x.core (q.addr / 128) (secBit q.addr)) s
        .ok ((s.applyBody w stamp (s.tagOf x.c.ctx) none).queueWrite w)
      else .error (.wait, s)
/-- A begun commit holds the barrier object or the census words that a landing writes (R284, step 4). -/
def CAt.barLocked (x : CAt) (s : State) : Bool :=
  let o := cpyBar x.c.pb
  (x.c.batch.isNone && s.spadLocked x.c.block o 16 none) || (cpyCens x.c.pb && s.spadLocked x.c.block (o + 16) 16 none)
/-- Unit n lands: charged as it moves to the copy budget, over several periods where that is smaller (R300), written, its census added, its
bytes counted. -/
def CAt.land (x : CAt) (s : State) (n : Nat) : Except (CStop × State) State := do
  let p := x.c.pb
  let d : Draws := { seed := (s.ctxAt x.c.ctx).seed, ctr := x.c.draw, key := x.c.key }
  let (sb0, s) ← if cpyXform p ≤ 1 then .ok (0, s) else x.side s 0 0
  let f := sbFormat sb0
  let (total, s) ← x.units s f
  if n < (if cpyXform p = 2 then cpyRows p * cpyRowLines p f else total) then .ok () else .error (.wait, s)
  let (u, s) ← x.make s d n
  if x.barLocked s then .error (.wait, s) else .ok ()
  let k := u.bytes.length
  let left := (s.budget x.die x.c.ctx).copy
  if left + x.c.paid < k then
    if left = 0 then .error (.wait, s) else .ok ()
    let s := s.setBudget x.die x.c.ctx (fun b => { b with copy := 0 })
    .ok (s.modCopy x.die x.core x.c.id (fun y => { y with paid := y.paid + left }))
  else
  let s ← x.write s u
  let s := s.setBudget x.die x.c.ctx (fun b => { b with copy := b.copy - (k - x.c.paid) })
  let s := if cpyCens p then s.addCensus x.c.block (cpyBar p + 16) u.sat u.under else s
  let s := s.releaseAt x.die (cpyScope p)
  let stamp := (s.die x.die).clock
  let s := match x.c.batch with
    | none => s.landAt x.c.block (cpyBar p) k stamp (cpyScope p) x.c.team x.c.key x.c.off x.die x.core x.c.ctx x.c.pc
    | some _ => (s.countLate x.c.block k).modTeam x.c.team (fun t => { t with batch := { t.batch with
        stamp := joinClk t.batch.stamp stamp, scope := t.batch.scope.max (cpyScope p) } })
  if total ≤ x.c.landed.length + 1 then
    .ok ((s.dropCopy x.die x.core x.c.id).batchDone x.c stamp)
  else
    .ok (s.modCopy x.die x.core x.c.id (fun y => { y with landed := y.landed ++ [n], paid := 0 }))
/-- How a stop of the copy unit ends. -/
def State.copyStop (s : State) (die core : Nat) (c : Copy) : CStop → State
  | .wait => s
  | .cancel detail addr => s.copyCancel die core c.id detail addr
  | .lost addr => (s.copyCancel die core c.id 4 addr).countX
  | .pause code lvl va =>
    let s := s.modCopy die core c.id (fun y => { y with paused := some code })
    let slot := ((s.coreAt die core).copies.takeWhile (fun y => y.id ≠ c.id)).length
    s.fqEnter die (s.tagOf c.ctx) code va 1 5 lvl (c.key / 32) 0 core slot (.copy core c.id)
def State.copyLand (s : State) (die core id n : Nat) : State :=
  match s.copyAt die core id with
  | none => s
  | some c =>
    if c.paused.isSome || c.landed.contains n then s
    else
      let x : CAt := { die := die, core := core, c := c }
      match x.land s n with
      | .ok s => s
      | .error (e, s) => s.copyStop die core c e
/-- COPY_LANDING: a destination line or sector lands; in a saved block it lands through the image (R412). -/
def execCopyLanding (die core copy n : Nat) (s : State) : Host.Outcome State Fault Refusal :=
  .next (match s.copyAt die core copy with
    | none => s
    | some c =>
      let mine : LandKind := .copy die core copy n
      if s.onCore c.block then s.copyLand die core copy n
      else if c.landed.contains n || s.net.lands.any (fun l => decide (l.kind = mine)) then s
      else s.later c.block mine)

end Sys2Proof.Machine
end

