-- ==== Sys2Proof/Machine/Contexts.lean ====
section
/-! DEFINITION. Contexts on a partition: time slices, eviction, swap, spill and restore, the end of a context, descriptors and
dies, debugger halts (15_launch_and_scheduling.md R384 to R386; 16_traps_preemption_contexts.md R404 to R412). -/

namespace Sys2Proof.Machine

/-! ## Who is resident, and where it stands -/

/-- Teams of a context whose blocks stand on their cores. -/
def State.ctxTeams (s : State) (c : Nat) : List (Nat × Team) :=
  s.teams.filter (fun y => s.onCore y.2.block && s.ctxOf y.2.block = c)
def Side.blocked (sd : Side) : Bool := sd.path.isNone || sd.wait ≠ .none
/-- R36: both sides wait, or the team is parked; in handler mode the handler's side decides (R217). -/
def Team.atBlockingPoint (t : Team) : Bool :=
  t.park.fault.isSome || t.park.spill.isSome || (match t.handler with
    | some h => (t.side h).blocked
    | none => t.near.blocked && t.off.blocked)
def State.queued (s : State) (p k : Nat) : Bool :=
  s.sched.queues.any (fun y => y.2.part = p && y.2.ctx = k && y.2.held ≠ 0)
/-- A slot has work: a queued record or a saved image (R385). -/
def State.hasWork (s : State) (p k : Nat) : Bool :=
  let c := s.ctxAt (16 * p + k)
  c.valid && !c.ending && (s.queued p k || c.saved)
/-- The next slot with work in ascending order after slot k, wrapping round; k itself is not asked. -/
def State.nextWork (s : State) (p k : Nat) : Option Nat :=
  ((from_ 1 15).map (fun i => (k + i) % 16)).find? (s.hasWork p)

/-! ## Descriptors (R384, Table 15.6) -/

/-- The descriptor at a slot's DESC, none where its check fails. -/
def State.readDesc (s : State) (c : Nat) (x : Ctx) : Option Ctx :=
  let w := fun i => s.mem.word (64 * x.desc.toNat + 8 * i)
  let tag := bits (w 0) 48 8
  let ok := bits (w 0) 56 8 = 0 && bits (w 0) 3 45 = 0 && bits (w 2) 57 7 = 0 && w 7 = 0 && tag ≠ 0
    && s.sched.ctxs.all (fun y => y.1 = c || !y.2.valid || y.2.tag ≠ tag)
    && bits (w 4) 32 32 ≠ 0 && bits (w 4) 0 32 ≠ 0 && bits (w 5) 32 32 ≠ 0 && bits (w 6) 48 16 ≠ 0 && bits (w 6) 32 16 ≠ 0
    && bits (w 6) 0 32 ≠ 0 && !(bitOf (w 0) 2 && bits (w 5) 0 32 = 0) && bits (w 2) 0 3 = 0
  if ok then some { x with
    tag := tag, latcrit := bitOf (w 0) 2, debug := bitOf (w 0) 1, sbmode := bitOf (w 0) 0, seed := w 1, handler := w 2, save := w 3
    chuteb := bits (w 4) 32 32, copyb := bits (w 4) 0 32, collb := bits (w 5) 32 32, cls0b := bits (w 5) 0 32
    walkb := bits (w 6) 48 16, slice := bits (w 6) 32 16, grace := bits (w 6) 0 32 }
  else none
/-- The read of a descriptor at its home (R83, R88). -/
def State.descTouched (s : State) (c : Nat) (x : Ctx) : State := s.touchRange (64 * x.desc.toNat) 64 (s.tagOf c) false
/-- A write of PARTCTX but for END: one that sets VALID has the descriptor checked; a slot that is valid keeps its context. -/
def State.ctxWrite (s : State) (part slot : Nat) (v : W64) : State :=
  let c := 16 * part + slot
  let x := { s.ctxAt c with desc := v.extractLsb' 6 46 }
  if 8 ≤ part || 16 ≤ slot then s
  else if (s.ctxAt c).valid || !bitOf v 0 then s.modCtx c (fun _ => x)
  else match s.readDesc c x with
    | none => (s.descTouched c x).modCtx c (fun _ => { x with err := true })
    | some y => (s.descTouched c x).modCtx c (fun _ =>
      { y with valid := true, err := false, sticky := false, first := 0, count := 0, seq := 0, recorded := [], saved := false, ending := false })
/-- CONTEXT_VALIDATE. -/
def execContextValidate (part slot : Nat) (v : W64) (s : State) : Host.Outcome State Fault Refusal := .next (s.ctxWrite part slot v)

/-! ## Images in memory (R408 to R410) -/

def State.modImage (s : State) (die core c : Nat) (f : Image → Image) : State :=
  s.modCore die core (fun k => { k with images := k.images.map (fun i => if i.ctx = c then f i else i) })
/-- Blocks of a context on a core move with their image. -/
def State.moveBlocks (s : State) (die core c : Nat) (r : Residence) : State :=
  { s with blocks := s.blocks.map (fun (y : Nat × Block) =>
      if y.2.die = die && y.2.core = core && s.ctxOf y.1 = c then (y.1, { y.2 with res := r }) else y) }
def State.imageTo (s : State) (die core c : Nat) (r : Residence) (pend : Option Nat) : State :=
  (s.modImage die core c (fun i => { i with res := r, pend := pend })).moveBlocks die core c r
/-- A spill (R410): to the slot; where that faults, to the core's emergency area while it is free and enabled, with the fault
in the queue. pend is 0 for an emergency image to be moved, 1 for a spill that waits, 2 for a restore that waits; 3, 4 and 5 for a spill, a move and a
restore whose walks wait for the next budget period. -/
def State.spill (s : State) (die core : Nat) (i : Image) : State :=
  match s.writeImage die core i with
  | .ok s => s.imageTo die core i.ctx .saved none
  | .error (0, _, _) => s.modImage die core i.ctx (fun y => { y with pend := some 3 })
  | .error (code, lvl, va) =>
    let d := s.die die
    let s := (s.slotFailed die core i.ctx (code, lvl, va)).fqEnter die (s.tagOf i.ctx) code va 2 3 lvl 0 0 core 0 (.spill core i.ctx)
    if d.emergEn && !(s.coreAt die core).images.any (fun y => y.res = .emergency) then
      (s.putImage die core i (s.emergPages die core)).imageTo die core i.ctx .emergency (some 0)
    else s.modImage die core i.ctx (fun y => { y with pend := some 1 })

/-! ## The end of a context (R386) -/

/-- A record still queued for the slot ends with STATUS 8, as far as the context's WALKB allows (R387). -/
def State.endQueued (s : State) (q : Nat) : Nat → State
  | 0 => s
  | n + 1 =>
    let x := s.queueAt q
    let l : Launch := { Launch.none_ with ctx := 16 * x.part + x.ctx, queue := q, record := s.headRecord x }
    if x.held = 0 || !s.mayEnd l then s
    else
      let s := s.touchRange (x.slot x.head.toNat) 64 (s.tagOf l.ctx) false
      let k := s.uid
      let s := { s with launches := place k l s.launches }.bump
      let s := s.modQueue q (fun x => { x with head := x.head + 1, ages := x.ages.drop 1 })
      (s.endLaunch k 8).endQueued q n
/-- The fault-queue entries of a context's spills and restores are answered as killed with it (Table 16.11). -/
def State.dropSpills (s : State) (c : Nat) : State :=
  let mine := fun (w : FqSource) => match w with
    | .spill _ k | .restore _ k => decide (k = c)
    | _ => false
  { s with dies := s.dies.map (fun (d : Die) =>
      { d with held := d.held - BitVec.ofNat 16 (d.fqEnts.countP (fun e => e.seq.isNone && e.who.all mine)),
               fqEnts := (d.fqEnts.filter (fun e => !e.who.all mine)).map (fun e => { e with who := e.who.filter (fun w => !mine w) }) }) }
/-- A context is ended (R386): its teams are killed and its engine work is cancelled. What its teams on their cores have queued leaves
as their budgets allow; a saved image's queues are discarded with it (R420; log 31). -/
def State.endHalt (s : State) (c : Nat) : State :=
  let bs := (s.blocks.filter (fun y => s.ctxOf y.1 = c)).map Prod.fst
  let xs := (s.net.xfers.filter (fun f => f.ctx = c)).map (·.id)
  let s := s.setNet (fun n => { n with
    ops := n.ops.filter (fun o => o.ctx ≠ c || o.kind.atomParts.any (fun p => p.got.isNone))
    xfers := n.xfers.filter (fun f => f.ctx ≠ c), colls := n.colls.filter (fun y => y.ctx ≠ c)
    out := n.out.filter (fun o => match o.kind with
      | .puts i _ _ | .gets i _ | .signal i => !xs.contains i
      | .load _ _ => o.ctx ≠ c
      | _ => true) })
  let s := { s with cores := s.cores.map (fun (y : Nat × Core) => (y.1,
    { y.2 with copies := y.2.copies.filter (fun k => k.ctx ≠ c), mq := y.2.mq.filter (fun e => !bs.contains e.block)
               images := y.2.images.filter (fun i => i.ctx ≠ c) })) }
  ((s.teams.filter (fun y => bs.contains y.2.block)).map Prod.fst).foldl (fun (s : State) u => s.killQuiet u) s
/-- Stores of the context still wait to leave its cores. -/
def State.owes (s : State) (c : Nat) : Bool := (s.ctxTeams c).any (fun y => y.2.queue ≠ [] || y.2.region.isSome)
/-- What an ended context's teams and engines leave goes: teams, their partial sums kept for their launches' ends (R390), and blocks. -/
def State.endTeams (s : State) (c : Nat) : State :=
  let bs := (s.blocks.filter (fun y => s.ctxOf y.1 = c)).map Prod.fst
  let us := s.teams.filter (fun y => bs.contains y.2.block)
  let s := us.foldl (fun (s : State) (y : Nat × Team) => (s.keepSlots y.2).leaves y.1) s
  bs.foldl State.dropBlock s
/-- Its accepted launches end with STATUS 8 and its queued records too, as far as its WALKB allows (R386, R387). -/
def State.endWork (s : State) (c : Nat) : State :=
  let p := partOf c
  let s := (s.launches.filter (fun y => y.2.ctx = c)).foldl (fun (s : State) (y : Nat × Launch) =>
    if s.mayEnd y.2 then (s.flushLaunch y.2).endLaunch y.1 (if y.2.status ≠ 0 then y.2.status else 8) else s) s
  (s.sched.queues.filter (fun y => y.2.part = p && 16 * p + y.2.ctx = c)).foldl
    (fun (s : State) (y : Nat × Queue) => s.endQueued y.1 y.2.held) s
/-- A context begins to end. -/
def State.endBegin (s : State) (c : Nat) : State := ((s.endHalt c).dropSpills c).modCtx c (fun x => { x with ending := true, saved := false })
/-- Nothing of an ended context is left. -/
def State.ended (s : State) (c : Nat) : Bool := !s.launches.any (fun y => y.2.ctx = c) && !s.queued (partOf c) (c % 16)
/-- The end of a context goes on once its stores have left their cores; when nothing of it is left, VALID becomes 0 (R386). -/
def State.endGo (s : State) (c : Nat) : State :=
  if !(s.ctxAt c).ending || s.owes c || !s.covered 8 then s
  else
    let s := (s.endTeams c).endWork c
    if s.ended c then s.modCtx c (fun x => { x with valid := false, recorded := [], ending := false }) else s
/-- A context ended by an error: the report, ERR of its slot, Solnal's history (R396, R409, R423). -/
def State.endError (s : State) (c die core code detail addr : Nat) : State :=
  let ws := s.engineRecord s.uid 0 false die core c 0 code (if code = 0x0601 then addr else 0) detail false
  let ws := setAt 6 (w64 (if code = 0x0601 then addr % 2 ^ 52 else 0)) (setAt 0 (w64 (2 ^ 63 + code)) ws)
  let s := (s.report die c ws true).tell { time := 0, die := die, code := code, tag := s.tagOf c, addr := addr }
  let s := s.modCtx c (fun x => { x with err := x.err || decide (code = 0x0602) })
  { s with solnal := { s.solnal with ended := (s.solnal.ended.1 + b1 (code = 0x0601), s.solnal.ended.2 + b1 (code = 0x0602)) } }

/-! ## The swap (R407, R409, R411) -/

/-- A team of an evicted context: yield-due is clear, and an LNCH that waits runs again from its start (R385, R217). -/
def Team.putAway (t : Team) : Team :=
  { t with yieldDue := false, near := { t.near with lnch := none }, off := { t.off with lnch := none } }
/-- A context leaves its cores: each core's part goes to the core's shadow. -/
def State.swapOut (s : State) (c : Nat) : State :=
  let p := partOf c
  let bs := s.blocks.filter (fun y => y.2.res = .core && s.ctxOf y.1 = c)
  let ks := sortNat (bs.map (fun y => coreKey y.2.die y.2.core))
  let x := s.partAt p
  let s := s.modCtx c (fun y => { y with seq := y.seq + 1, saved := decide (ks ≠ [])
                                         recorded := ks.map (fun k => x.logical (k / 512) (k % 512)) })
  let seq := (s.ctxAt c).seq
  let s := { s with teams := s.teams.map (fun (y : Nat × Team) =>
    if s.ctxOf y.2.block = c then (y.1, y.2.putAway) else y) }
  (ks.foldl (fun (s : State) k =>
    let s := s.modCore (k / 512) (k % 512) (fun y => { y with mq := [], images := y.images ++ [
      { ctx := c, res := .shadow, seq := seq, late := 0, nlate := 0, banks := y.banks, active := y.active, mq := y.mq, pend := none, fill := s.run.free }] })
    s.moveBlocks (k / 512) (k % 512) c .shadow) s).useFree
/-- A core whose shadow must give way to a newer image spills the older ones, but for the context that comes in. -/
def State.spillOld (s : State) (next : Option Nat) (die core : Nat) : State :=
  let sh := (s.coreAt die core).images.filter (fun i => i.res = .shadow && some i.ctx ≠ next)
  (sh.dropLast.filter (fun i => i.pend.isNone || i.pend = some 3)).foldl (fun (s : State) (i : Image) => s.spill die core i) s
/-- A spill of one of the dies waits (R410). -/
def State.spillStuck (s : State) (dies : List Nat) : Bool :=
  s.cores.any (fun y => dies.contains (y.1 / 512) && y.2.images.any (fun i => i.pend = some 1 || i.pend = some 3))
/-- The header of an image in memory, as the restore checks it; its reserved fields are zero, as is the range that Table 16.7 reserves
(R4). -/
def State.headerOk (s : State) (die core c pa : Nat) : Bool :=
  let w := s.mem.word pa
  bits w 0 8 = 1 && bits w 8 8 = 1 && bits w 56 8 = s.tagOf c && bits w 52 4 = die && bits w 43 9 = core && bits w 16 27 = 0
    && (upTo 5).all (fun i => s.mem.word (pa + 24 + 8 * i) = 0)
/-- How the check of one image ends. -/
inductive ImgCheck
  | good
  | bad
  | fault (code lvl va : Nat)
  | wait
def State.checkImage (s : State) (die core : Nat) (i : Image) : ImgCheck :=
  if i.res = .core || i.res = .shadow then .good
  else if i.res = .saved && s.walkSpent die i.ctx then .wait
  else match s.imagePas die core i .rd with
    | .ok pas =>
      if s.imageReads pas && s.headerOk die core i.ctx (nth pas 0 0) && s.mem.imgBytes pas reservedRange.1 reservedRange.2 = [] then .good
      else .bad
    | .error (code, lvl, va) => .fault code lvl va
/-- Registers that a restore has poisoned are logged, one by one (Table 16.11). -/
def State.logRestored (s : State) (old : List (Nat × Team)) : State :=
  (old.zip s.teams).foldl (fun (s : State) (y : (Nat × Team) × (Nat × Team)) =>
    let v := ((y.1.2.vregs.zip y.2.2.vregs).filter (fun z => z.1.2.poison ≠ z.2.2.poison)).length
    let n := ((y.1.2.sregs.zip y.2.2.sregs).filter (fun z => z.1.2.poison ≠ z.2.2.poison)).length
    let s := (upTo v).foldl (fun (s : State) _ => s.logReg y.2.1 y.2.2 Config.physVec) s
    (upTo n).foldl (fun (s : State) _ => s.logReg y.2.1 y.2.2 Config.physScal) s) s
/-- The device state of an image is as the device wrote it: its free values of number c still stand there. -/
def Mem.deviceKept (m : Mem) (pas : List Nat) (c : Nat) : Bool :=
  (imgRuns pas deviceState.1 deviceState.2).all (fun r =>
    m.loose.contains (r.1, r.2.2, c) && !m.cells.any (fun y => r.1 ≤ y.1 && y.1 < r.1 + r.2.2))
/-- A line of free values from number k on. -/
def freeLine (k : Nat) : Line := BitVec.ofNat 1024 (ofBytes (wordsBytes ((from_ k 16).map Config.freeWord)))
def Latch.changed (k : Nat) : Latch → Latch
  | .vec _ sb p => .vec (freeLine k) sb p
  | .scal _ p => .scal (Config.freeWord k) p
/-- A path and its latches of a changed device state: an aligned free address, free lanes (R408). -/
def Side.changed (k : Nat) (x : Side) : Side :=
  match x.path with
  | none => x
  | some p => { x with path := some { p with pc := w64 (8 * bits (Config.freeWord k) 0 54), mask := (Config.freeWord (k + 1)).setWidth 32 }
                       latches := ((upTo x.latches.length).zip x.latches).map (fun (i, y) => y.map (Latch.changed (k + 16 * (i + 1)))) }
/-- A team resumes from a device state that the driver has changed: what that state holds of it is free values from number k on, 16 for
each register and 256 more (R408, log 30). -/
def Team.changed (k : Nat) (t : Team) : Team :=
  let w := fun i => Config.freeWord (k + i)
  let regs := (upTo t.vregs.length).zip t.vregs
  { t with
    near := t.near.changed (k + 64), off := t.off.changed (k + 160), preds := (upTo 16).map (fun i => (w (4 + i)).setWidth 32), flags := (w 20).setWidth 6
    flagen := (w 21).setWidth 6, draw := (w 22).setWidth 32, retst := (w 23).setWidth 32, exited := (w 24).setWidth 32
    shadow := (upTo 8).map (fun i => SReg.plain (w (25 + i))), frec := (upTo 8).map (fun i => w (33 + i)), trystat := (upTo 3).map (fun i => w (41 + i))
    vregs := regs.map (fun (n, (i, r)) => (i, { r with data := freeLine (k + 256 + 16 * n) }))
    sregs := ((upTo t.sregs.length).zip t.sregs).map (fun (n, (i, r)) => (i, { r with val := w (256 + 16 * (regs.length + n)) })) }
/-- Banks and teams of a core as a changed device state leaves them. -/
def State.deviceChanged (s : State) (die core c : Nat) : State :=
  let bs := s.imageBlocks die core c
  let k := s.run.free
  let s := { s with teams := ((upTo s.teams.length).zip s.teams).map (fun (n, (u, t)) =>
    if Team.among t bs then (u, Team.changed (k + 2 ^ 20 * n) t) else (u, t)) }
  { s with run := { s.run with free := k + 2 ^ 20 * s.teams.length } }
/-- An image in memory comes back into its core as its memory holds it: scratchpads, tile store, registers, with the poison of its
sectors, and a device state that has been changed as changed (R408, R411). -/
def State.loadImage (s : State) (die core : Nat) (i : Image) : State :=
  if i.res = .core || i.res = .shadow then s
  else match s.imagePas die core i .rd with
    | .error _ => s
    | .ok pas =>
      let s := if i.res = .saved then s.slotWalked die core i.ctx imagePages else s
      let s := s.touchImage pas 0 (3 * 2 ^ 20) (s.tagOf i.ctx) false
      let s1 := ((s.readBlocks die core i.ctx pas).poisonBlocks die core i.ctx pas).readRegs die core i.ctx pas
      let s1 := if s.mem.deviceKept pas i.fill then s1 else s1.deviceChanged die core i.ctx
      s1.logRestored s.teams
/-- One core's part of a context comes back: banks, queue, blocks; every armed watch advances once. -/
def State.restoreCore (s : State) (die core c : Nat) : State :=
  match s.imageOf die core c with
  | none => s
  | some i =>
    let s := s.loadImage die core i
    let s := s.modCore die core (fun k => { k with banks := i.banks, active := i.active, mq := i.mq
                                                   images := k.images.filter (fun y => y.ctx ≠ c) })
    let s := s.moveBlocks die core c .core
    ((s.coreAt die core).monitors.filter (fun m => s.ctxOf m.block = c)).foldl
      (fun (s : State) (m : Monitor) => s.advanceWatch m.block m.off) s
/-- The cores that hold images of a context. -/
def State.imageCores (s : State) (c : Nat) : List (Nat × Image) :=
  s.cores.filterMap (fun y => (first (fun (i : Image) => i.ctx = c) y.2.images).map (fun i => (y.1, i)))
/-- Every team of the context on its cores is halted, or goes on. -/
def State.haltCtx (s : State) (c : Nat) (v : Bool) : State :=
  (s.ctxTeams c).foldl (fun (s : State) (y : Nat × Team) => s.modTeam y.1 (fun t => { t with halted := v })) s
/-- A context starts or is restored on its partition, once its descriptor and images pass. At a restore the partition's dies acquire
(R411, R133); while HALT is set its teams are halted (R404). -/
def State.bringIn (s : State) (p k : Nat) : Except Bool State :=
  let c := 16 * p + k
  match s.readDesc c (s.ctxAt c) with
  | none => .error true
  | some y =>
    let s := (s.descTouched c y).modCtx c (fun _ => y)
    let is := s.imageCores c
    let s := is.foldl (fun (s : State) (x : Nat × Image) => s.restoreCore (x.1 / 512) (x.1 % 512) c) s
    let s := s.modCtx c (fun x => { x with saved := false, recorded := [] })
    let x := s.partAt p
    let s := if is = [] then s else x.dieList.foldl (fun (s : State) d => s.dieAcquire d (s.die d).clock) s
    let s := if x.halt then s.haltCtx c true else s
    .ok (s.modPart p (fun x => { x with idle := false, switch := false, graced := false, run := k, sliceCount := 0
                                        graceCount := none, next := none, stopped := false }))
/-- The swap goes on: spills, then the incoming context's images are checked and brought in. A context whose check fails is
ended, and the next with work takes its turn. -/
def State.finishSwap (p : Nat) : Nat → State → State
  | 0, s => s
  | fuel + 1, s =>
    let x := s.partAt p
    if !x.switch then s
    else
      let keys := (s.cores.map Prod.fst).filter (fun k => x.dieList.contains (k / 512))
      let s := keys.foldl (fun (s : State) k => s.spillOld (x.next.map (16 * p + ·)) (k / 512) (k % 512)) s
      if s.spillStuck x.dieList then s
      else match x.next with
        | none => s.modPart p (fun x => { x with idle := true, switch := false, graced := false, graceCount := none, stopped := false })
        | some k =>
          let c := 16 * p + k
          if (s.ctxAt c).ending then State.finishSwap p fuel (s.modPart p (fun x => { x with next := s.nextWork p k })) else
          let fail := fun (s : State) (die core detail : Nat) =>
            let s := ((s.endError c die core 0x0602 detail 0).endBegin c).endGo c
            State.finishSwap p fuel (s.modPart p (fun x => { x with next := s.nextWork p k }))
          let is := s.imageCores c
          let bad := is.find? (fun y => match s.checkImage (y.1 / 512) (y.1 % 512) y.2 with | .bad => true | _ => false)
          let faults := is.filterMap (fun y => match s.checkImage (y.1 / 512) (y.1 % 512) y.2 with
            | .fault code lvl va => some (y.1, code, lvl, va)
            | .wait => some (y.1, 0, 0, 0)
            | _ => none)
          match bad, faults with
          | some y, _ => fail s (y.1 / 512) (y.1 % 512) 2
          | none, (key, 0, _, _) :: _ => s.modImage (key / 512) (key % 512) c (fun i => { i with pend := some 5 })
          | none, (key, code, lvl, va) :: _ =>
            let s := s.modImage (key / 512) (key % 512) c (fun i => { i with pend := some 2 })
            (s.slotFailed (key / 512) (key % 512) c (code, lvl, va)).fqEnter (key / 512) (s.tagOf c) code va 3 2 lvl 0 0 (key % 512) 0 (.restore (key % 512) c)
          | none, [] =>
            match s.bringIn p k with
            | .ok s => s
            | .error _ => fail s (nth x.dieList 0 0) 0 1
def State.swapOn (s : State) (p : Nat) : State := State.finishSwap p 20 s
/-- The partition is left by its running context: the next slot with work starts or is restored. -/
def State.vacate (s : State) (p : Nat) : State :=
  let x := s.partAt p
  let next := (s.nextWork p x.run)
  let next := match next with | some k => some k | none => if s.hasWork p x.run then some x.run else none
  (s.modPart p (fun x =>
    { x with switch := true, graceCount := none, graced := false, next := next, stopped := false })).swapOn p

/-! ## The steps of the scheduler (R385, R406) -/

def State.setYield (s : State) (c : Nat) (v : Bool) : State :=
  { s with teams := s.teams.map (fun (y : Nat × Team) => if s.ctxOf y.2.block = c then (y.1, { y.2 with yieldDue := v }) else y) }
/-- TIME_SLICE_EXPIRY: yield-due is set while another slot has work; otherwise the slice is renewed and yield-due cleared. -/
def execTimeSliceExpiry (part : Nat) (s : State) : Host.Outcome State Fault Refusal :=
  .next (match s.running part with
    | none => s
    | some c =>
      let x := s.partAt part
      let other := (s.nextWork part x.run).isSome
      match x.graceCount with
      | some _ => if other then s else (s.setYield c false).modPart part (fun x =>
          { x with graceCount := none, graced := false, stopped := false, sliceCount := 0 })
      | none =>
        if x.sliceCount < (s.ctxAt c).slice then s
        else if other then (s.setYield c true).modPart part (fun x => { x with graceCount := some 0 })
        else s.modPart part (fun x => { x with graced := false, sliceCount := 0 }))
/-- Every resident team of a context stands at a blocking point (R36, R38). -/
def State.allBlocked (s : State) (c : Nat) : Bool := (s.ctxTeams c).all (fun y => y.2.atBlockingPoint)
/-- GRACE_EXPIRY: GRACE, the host interrupt and a watchdog report, where some team has not reached a blocking point. -/
def execGraceExpiry (part : Nat) (s : State) : Host.Outcome State Fault Refusal :=
  .next (match s.running part with
    | none => s
    | some c =>
      let x := s.partAt part
      match x.graceCount with
      | some n =>
        if x.graced || n < (s.ctxAt c).grace || s.allBlocked c then s
        else
          let s := s.modPart part (fun x => { x with graced := true })
          let s := { s with sched := { s.sched with graceIrqs := s.sched.graceIrqs ++ [part] } }
          s.wdReport (nth x.dieList 0 0) 0 c 0 0 0 3 0
      | none => s)
/-- Every resident team stands at a blocking point, and none is halted (R406 step 2). -/
def State.mayStop (s : State) (c : Nat) : Bool := (s.ctxTeams c).all (fun y => y.2.atBlockingPoint && !y.2.halted)
/-- Every register write of the context has landed, but for those of matrix instructions that have not begun (R406 step 3). -/
def State.landed (s : State) (c : Nat) : Bool :=
  !s.net.ops.any (fun o => o.ctx = c && !o.isRecord && o.dst ≠ .none && (match o.kind with | .mload _ got => got.isSome | _ => true))
/-- Regions of a context's teams that a preemption finds open abort with PREEMPT, but for a COMMIT that has begun (R286). -/
def State.preempt (s : State) (c : Nat) : State :=
  (s.ctxTeams c).foldl (fun (s : State) (y : Nat × Team) => match y.2.region with
    | some r => if r.begun.isSome then s else s.abortRegion y.1 7 none 0 0
    | none => s) s
/-- Steps 1 and 2 of R406: once every team stands at a blocking point the cores issue nothing more and admit nothing, and regions abort. -/
def State.stopCores (s : State) (part : Nat) : State :=
  match s.running part with
  | none => s
  | some c =>
    let x := s.partAt part
    if x.graceCount.isNone || !s.mayStop c || (s.nextWork part x.run).isNone || !(x.dieList.all s.covered) then s
    else (s.modPart part (fun x => { x with stopped := true })).preempt c
/-- Steps 3 and 4: once every register write of the halted context has landed it goes to the shadows and the next one comes in. -/
def State.swapStopped (s : State) (part : Nat) : State :=
  let x := s.partAt part
  let c := 16 * part + x.run
  if !x.stopped || !s.landed c then s
  else
    let s := s.setNet (fun n => { n with ops := n.ops.filter (fun o => !(o.ctx = c && o.isRecord)) })
    (s.swapOut c).vacate part
/-- CONTEXT_EVICTION, while yield-due is set and another slot has work. -/
def execContextEviction (part : Nat) (s : State) : Host.Outcome State Fault Refusal := .next ((s.stopCores part).swapStopped part)
/-- CONTEXT_START: an idle partition starts the lowest valid slot that has a queued record. -/
def execContextStart (part : Nat) (s : State) : Host.Outcome State Fault Refusal :=
  .next (
    let x := s.partAt part
    match (upTo 16).find? (fun k => (s.ctxAt (16 * part + k)).valid && !(s.ctxAt (16 * part + k)).ending && s.queued part k) with
    | none => s
    | some k =>
      if !x.idle || x.switch || !(x.dieList.all s.covered) then s
      else (s.modPart part (fun x => { x with switch := true, next := some k })).swapOn part)
/-- PARTITION_RELINQUISH: the running context has no launch and no record left. -/
def execPartitionRelinquish (part : Nat) (s : State) : Host.Outcome State Fault Refusal :=
  .next (match s.running part with
    | none => s
    | some c => if s.launches.any (fun y => y.2.ctx = c) || s.queued part (c % 16) then s else s.vacate part)
/-- The partition goes on after the end of a context in one of its slots; x is the partition as it stood before. -/
def State.moveOn (s : State) (x : Part) (p slot : Nat) : State :=
  if !x.idle && x.run = slot && !x.switch then s.vacate p
  else if x.switch && x.next = some slot then (s.modPart p (fun x => { x with next := s.nextWork p slot })).swapOn p
  else if x.switch then s.swapOn p
  else s
/-- The end of a context goes on; once it is over its partition does. -/
def State.endOn (s : State) (c : Nat) : State :=
  let t := s.endGo c
  if (t.ctxAt c).ending then t else t.moveOn (s.partAt (partOf c)) (partOf c) (c % 16)
/-- A context is ended, at once where its teams owe no stores and its WALKB covers what is left to do. -/
def State.endRun (s : State) (c : Nat) : State :=
  let p := partOf c
  ((s.endBegin c).modPart p (fun x => { x with stopped := x.stopped && x.run ≠ c % 16 })).endOn c
/-- A write of END = 1. -/
def State.ctxEnd (s : State) (part slot : Nat) : State :=
  let c := 16 * part + slot
  if part < 8 && slot < 16 && (s.ctxAt c).valid then (if (s.ctxAt c).ending then s.endOn c else s.endRun c) else s
/-- CONTEXT_END: the write of END, and the end going on. -/
def execContextEnd (part slot : Nat) (s : State) : Host.Outcome State Fault Refusal := .next (s.ctxEnd part slot)
/-- PARTDIES_WRITE, as a change of the machine: 1, 2, 4 or 8 dies aligned to their count, of no other partition, while no slot is valid and no swap runs. -/
def State.diesWrite (s : State) (part : Nat) (v : W64) : State :=
  let m := v.extractLsb' 0 8
  let shape := [1, 2, 4, 8].any (fun n => (upTo (8 / n)).any (fun i => m.toNat = (2 ^ n - 1) * 2 ^ (n * i)))
  let free := (upTo 8).all (fun q => q = part || (s.partAt q).dies &&& m = 0)
  let idle := (upTo 16).all (fun k => !(s.ctxAt (16 * part + k)).valid) && !(s.partAt part).switch
  if shape && free && idle then s.modPart part (fun x => { x with dies := m, derr := false, rot := 0, prev := [] })
  else s.modPart part (fun x => { x with derr := true })
/-- PARTDIES_WRITE. -/
def execPartdiesWrite (part : Nat) (v : W64) (s : State) : Host.Outcome State Fault Refusal := .next (s.diesWrite part v)

/-! ## Debugger halts (R404) -/

/-- DEBUG_HALT, as a change of the machine: a context whose cores have halted for a swap is not halted any more, the one that comes in
is. -/
def State.debugHalt (s : State) (part : Nat) : State :=
  let s := s.modPart part (fun x => { x with halt := true })
  match s.running part with
  | none => s
  | some c => s.haltCtx c true
/-- DEBUG_HALT. -/
def execDebugHalt (part : Nat) (s : State) : Host.Outcome State Fault Refusal := .next (s.debugHalt part)
/-- DEBUG_RESUME, as a change of the machine: a write with HALT = 0 and RESUME = 1. -/
def State.debugResume (s : State) (part : Nat) : State :=
  let s := s.modPart part (fun x => { x with halt := false })
  match s.running part with
  | none => s
  | some c => s.haltCtx c false
/-- DEBUG_RESUME. -/
def execDebugResume (part : Nat) (s : State) : Host.Outcome State Fault Refusal := .next (s.debugResume part)

/-! ## Landings in images (R412) -/

/-- What waits for an image lands in it. -/
def State.landImage (s : State) (l : ImgLand) : State :=
  match l.kind with
  | .copy die core id n => s.copyLand die core id n
  | .mirror m => s.mirrorLand l.block m
  | .arrival a => match s.arrivalAt a with
    | some (blk, off) => s.arriveAt blk off a
    | none => s
  | .signal g => match s.portAt g.die g.port with
    | some p => s.signalAt p.block p.off g
    | none => s.dropSignal g.die
  | .bytes bar n stamp => s.landBytes l.block bar n stamp
  | .collEnd bar n lo census stamp => s.landCollEnd l.block bar n lo census stamp
  | .collRecord bar lo census => s.landRecord l.block bar lo census
  | .commit u r => s.commitSpad u l.block r
/-- Ranges of the block's scratchpad that a landing reads in its image: barrier objects, the sector a mirrored store meets, and the scratchpad
source of a copy. -/
def State.landReads (s : State) (l : ImgLand) : List (Nat × Nat) :=
  match l.kind with
  | .copy die core id n => match first (fun (c : Copy) => c.id = id) (s.coreAt die core).copies with
    | none => []
    | some c =>
      let p := c.pb
      let k := cpyRowSectors p
      let run := nth (sectorRuns (cpyDstRow p (n / k)) (cpyLen p)) (n % k) (0, 0)
      (if c.batch.isNone then [(cpyBar p, if cpyCens p then 32 else 16)] else [])
        ++ (if !cpySpadSrc p then []
            else if cpyXform p = 0 then [(cpySrcRow p (n / k) + (run.1 - cpyDstRow p (n / k)), run.2)]
            else if cpyXform p = 2 then [(cpySrcRow p (n / (8 * cpyLines p)), 128 * cpyLines p)]
            else (upTo (cpyRows p)).map (fun r => (cpySrcRow p r, 128 * cpyLines p)))
  | .mirror m =>
    (if m.off + 32 ≤ (s.launchOf l.block).spadBytes then [(m.off, 32)] else [])
      ++ (match (s.block l.block).window m.yard with
        | some w => if w.cnt then [(w.bar, 16)] else []
        | none => [])
  | .arrival a => match s.arrivalAt a with
    | some (_, off) => [(off, 16)]
    | none => []
  | .signal g => match s.portAt g.die g.port with
    | some p => [(p.off, 16)]
    | none => []
  | .bytes bar _ _ => [(bar, 16)]
  | .collEnd bar _ _ _ _ => [(bar, 32)]
  | .collRecord bar _ _ => [(bar, 32)]
  | .commit _ _ => []
/-- IMAGE_LANDING: in the image, wherever it lies; in the save area through its translation, whose fault pauses it. -/
def execImageLanding (i : Nat) (s : State) : Host.Outcome State Fault Refusal :=
  .next (match (s.net.lands.drop i).head? with
    | none => s
    | some l =>
      let rest := s.setNet (fun n => { n with lands := n.lands.take i ++ n.lands.drop (i + 1) })
      if l.paused.isSome || s.landLocked l.block (s.landReads l) then s
      else match rest.inImage l.block (s.landReads l) (fun s => s.landImage l) with
        | .ok s => s
        | .error ((0, _, _), _) => s
        | .error e =>
          let s := s.imgPause l.block e
          s.setNet (fun n => { n with lands := n.lands.map (fun y => if y = l then { y with paused := some e.1.1 } else y) }))

end Sys2Proof.Machine
end

