-- ==== Sys2Proof/Machine/Faults.lean ====
section
/-! DEFINITION. Parking for registers, the watchdog, and the answers to the die fault queues (13_issue_renaming_latches.md R349,
R350; 15_launch_and_scheduling.md R391; 16_traps_preemption_contexts.md R399, R410 to R414; 17_translation_errors_links.md R418,
R419). -/

namespace Sys2Proof.Machine

/-! ## Register deadlock (R349, R350) -/

def Team.parked (t : Team) : Bool := t.park.fault.isSome || t.park.spill.isSome
/-- Teams whose blocks stand on a core. -/
def State.coreTeams (s : State) (die core : Nat) : List (Nat × Team) := s.teams.filter (fun y => y.2.resident s die core)
/-- A wait that R349 counts towards a deadlock. -/
def Side.deadWait (sd : Side) : Bool :=
  sd.path.isNone || (match sd.wait with
    | .on .regs _ | .on .barrier _ | .on .watch _ | .on .harness _ | .on .slot _ => true
    | _ => false)
def Team.hasPath (t : Team) : Bool := t.near.path.isSome || t.off.path.isSome
/-- The file a REGS wait needs more registers of than the pool holds. -/
def State.shortFile (s : State) (die core : Nat) (t : Team) : Option Kind :=
  let short := fun k => match t.regsNeed k with | some n => decide (s.poolFree die core k < n) | none => false
  if short .v then some .v else if short .s then some .s else none
/-- The sides whose waits count: both, or the handler's alone in handler mode (R209, R217). -/
def Team.waitSides (t : Team) : List Side := match t.handler with | some h => [t.side h] | none => [t.near, t.off]
/-- The pool holds what a REGS waiter needs (R348). -/
def State.servable (s : State) (die core : Nat) (t : Team) : Bool :=
  ((t.regsNeed .v).isSome || (t.regsNeed .s).isSome) && (s.shortFile die core t).isNone
/-- Every team of the core that is not parked waits for one of R349's reasons, none of those that wait with REGS can be served, and the
oldest of them names the file. -/
def State.regsDeadlock (s : State) (die core : Nat) : Option Kind :=
  let ts := (s.coreTeams die core).filter (fun y => !y.2.parked && y.2.hasPath)
  if ts.all (fun y => !y.2.halted && y.2.waitSides.all Side.deadWait && !s.servable die core y.2) then
    (leastBy (fun (y : Nat × Team) => y.2.age) (ts.filter (fun y => (s.shortFile die core y.2).isSome))).bind
      (fun y => s.shortFile die core y.2)
  else none
/-- The victim: above its floor in the file, of the lowest priority class, admitted latest, the higher TEAMID on a tie. A team that is
parked for a fault may be chosen; one that is spilled holds its floors only (log 49). -/
def State.deadlockVictim (s : State) (die core : Nat) (k : Kind) : Option (Nat × Team) :=
  let ts := (s.coreTeams die core).filter (fun y => y.2.park.spill.isNone && y.2.hasPath && (s.launchOf y.2.block).floor k < y.2.footprint k)
  let cls := fun (y : Nat × Team) => (s.queueAt (s.launchOf y.2.block).queue).cls
  let low := ts.foldl (fun n y => Nat.max n (cls y)) 0
  let ts := ts.filter (fun y => cls y = low)
  let late := ts.foldl (fun n y => Nat.max n y.2.age) 0
  (leastBy (fun (y : Nat × Team) => 32 - y.2.idx) (ts.filter (fun y => y.2.age = late)))
/-- Long-latency writes and MLOAD writes to a team's registers are still on their way. -/
def State.writesAway (s : State) (u : Nat) : Bool := s.net.ops.any (fun o => o.team = u && (o.dst ≠ .none || o.kind.isMload))
/-- R349, steps 3 to 5: a chosen team is spilled and parked once its registers' writes have landed; if a replayable fault has struck it
meanwhile, it is parked for both reasons (Table 13.6). -/
def State.spillDue (s : State) (u : Nat) : State :=
  if s.writesAway u then s
  else s.modTeam u (fun t =>
    let extra := fun k => t.footprint k - (s.launchOf t.block).floor k
    { t with park := { t.park with spill := some (extra .v, extra .s), due := false } })
/-- R349, steps 1 and 2: a team is chosen, and its region aborts. -/
def State.choose (s : State) (u : Nat) (t : Team) : State :=
  let s := match t.region with
    | some r => if r.begun.isSome then s else s.abortRegion u 7 none 0 0
    | none => s
  s.modTeam u (fun t => { t with park := { t.park with due := true } })
/-- The team of a core that has been chosen and is not parked yet. -/
def State.chosen (s : State) (die core : Nat) : Option (Nat × Team) := (s.coreTeams die core).find? (fun y => y.2.park.due)
/-- REGS_DEADLOCK_PARK: one team is chosen, and parked once its register writes have landed; the last team that is not parked is
reported instead, once for each wait (R350, R391). -/
def execRegsDeadlockPark (die core : Nat) (s : State) : Host.Outcome State Fault Refusal :=
  .next (match s.chosen die core with
    | some (u, _) => s.spillDue u
    | none =>
      match s.regsDeadlock die core with
      | none => s
      | some k =>
        let live := (s.coreTeams die core).filter (fun y => !y.2.parked && y.2.hasPath)
        match live with
        | [(u, t)] =>
          if t.told then s
          else
            let s := s.modTeam u (fun t => { t with told := true })
            s.wdReport die 0 (s.ctxOf t.block) (s.block t.block).idx t.idx core 2 5
        | _ =>
          match s.deadlockVictim die core k with
          | none => s
          | some (u, t) => (s.choose u t).spillDue u)
/-- A spilled team may return: the pool holds what it spilled and 16 more of each file in which it spilled. -/
def State.mayReturn (s : State) (die core : Nat) (t : Team) : Bool :=
  match t.park.spill with
  | none => false
  | some (v, n) => (v = 0 || v + 16 ≤ s.poolFree die core .v) && (n = 0 || n + 16 ≤ s.poolFree die core .s)
/-- SPILL_RETURN: the oldest parked team that qualifies. -/
def execSpillReturn (die core : Nat) (s : State) : Host.Outcome State Fault Refusal :=
  .next (match leastBy (fun (y : Nat × Team) => y.2.age) ((s.coreTeams die core).filter (fun y => s.mayReturn die core y.2)) with
    | none => s
    | some (u, _) => s.modTeam u (fun t => { t with park := { t.park with spill := none } }))

/-! ## Watchdog (R391) -/

def Reason.code : Reason → Nat
  | .barrier => 1 | .watch => 2 | .remoteLoad => 3 | .expander => 4 | .regs => 5 | .storeBudget => 6 | .harness => 7 | .slot => 8
  | .launch => 9
/-- The wait object as Table 15.8 reports it: an offset, a slot mask, a harness, a queue; none for a pool. -/
def reportObj (r : Reason) (obj : Nat) : Nat :=
  match r with
  | .barrier | .watch => obj % 2 ^ 32
  | .slot => obj % 2 ^ 16
  | .regs => 0
  | _ => obj
def Side.waitsFor (sd : Side) : Option (Reason × Nat) :=
  match sd.path, sd.wait with
  | some _, .on r obj => some (r, obj)
  | _, _ => none
/-- What a blocked team waits for: parked for a fault, parked for registers, or with the reason of its near side, else its off
side's, both waiting; in handler mode that of the handler's side alone. -/
def Team.blockedOn (t : Team) : Option (Nat × Nat) :=
  if t.park.fault.isSome then some (10, 0)
  else if t.park.spill.isSome then some (5, 0)
  else if t.waitSides.all Side.blocked then
    (t.waitSides.filterMap Side.waitsFor).head?.map (fun (r, obj) => (r.code, reportObj r obj))
  else none
/-- A peer is away: parked for registers or in fault service. -/
def State.peersAway (s : State) (p : Nat → Team → Bool) : Bool := s.teams.any (fun y => y.2.parked && p y.1 y.2)
/-- A copy is in fault service. -/
def State.copyAway (s : State) (p : Copy → Bool) : Bool :=
  s.cores.any (fun y => y.2.copies.any (fun c => c.paused.isSome && p c))
/-- An engine instruction that names an object of a block is in fault service: a copy, or a collective. -/
def State.engineAway (s : State) (blk off : Nat) : Bool :=
  s.copyAway (fun c => c.block = blk && c.batch.isNone && cpyBar c.pb = off)
    || s.net.colls.any (fun c => c.paused.isSome && c.block = blk && collBar c.pb = off)
/-- The count freezes: an awaited peer is away. -/
def State.peerAway (s : State) (u : Nat) (t : Team) (r : Reason) (obj : Nat) : Bool :=
  let b := s.block t.block
  match r with
  | .barrier | .watch =>
    if obj = batchObj then s.copyAway (fun c => c.team = u && c.batch.isSome)
    else if r = .watch then false
    else if obj < 2 ^ 32 then
      s.peersAway (fun v x => v ≠ u && x.block = t.block) || s.engineAway t.block obj
    else
      match look (obj / 2 ^ 32 - 1) (s.launch b.launch).yards with
      | none => false
      | some e =>
        let blk := s.blockOf b.launch (yardFirst e)
        s.peersAway (fun v x => v ≠ u && (s.block x.block).launch = b.launch && yardHas e (s.block x.block).idx x.idx)
          || (match blk with | some k => s.engineAway k (obj % 2 ^ 32) | none => false)
  | .harness => s.peersAway (fun v _ => v ≠ u && (b.harness obj).members.contains v)
  | .slot =>
    let h := b.harness (obj / 2 ^ 16)
    let ids := (maskSlots (obj % 2 ^ 16)).flatMap (fun k => (h.slot k).pend)
    let setters := ((s.coreAt b.die b.core).mq.filter (fun e => ids.contains e.id)).map (·.team)
    s.peersAway (fun v _ => v ≠ u && (h.members.contains v || setters.contains v))
  | _ => false
/-- One budget period passes for a team of a die: counted if it is blocked, not halted, and no awaited peer is away. -/
def State.countWait (s : State) (u : Nat) (t : Team) : Nat :=
  if !s.onCore t.block || t.halted || t.blockedOn.isNone then t.waited
  else if t.parked then t.waited + 1
  else
    let away := fun (sd : Side) => match sd.waitsFor with | some (r, obj) => s.peerAway u t r obj | none => false
    if t.waitSides.any away then t.waited else t.waited + 1
/-- WATCHDOG_LIMIT: a count has passed the die's limit; it is reported and restarts. -/
def execWatchdogLimit (team : Nat) (s : State) : Host.Outcome State Fault Refusal :=
  .next (match s.teamAt team with
    | none => s
    | some t =>
      let b := s.block t.block
      let lim := (s.die b.die).wdLimit.toNat
      match t.blockedOn with
      | none => s
      | some (reason, obj) =>
        if lim = 0 || t.waited ≤ lim || !s.onCore t.block || t.halted then s
        else
          let s := s.modTeam team (fun t => { t with waited := 0 })
          s.wdReport b.die obj (s.ctxOf t.block) b.idx t.idx b.core 0 reason)

/-! ## The answers to a die fault queue (R418, R419, Table 17.7) -/

/-- FAULT_ENTRY_DEFERRED: room has appeared for an entry that waited. -/
def execFaultEntryDeferred (die : Nat) (s : State) : Host.Outcome State Fault Refusal :=
  .next (
    let d := s.die die
    match first (fun (e : FqEnt) => e.seq.isNone) d.fqEnts with
    | none => s
    | some e =>
      if d.fq.used < 1024 then
        let i := (d.fqEnts.takeWhile (fun e => e.seq.isSome)).length
        (s.modDie die (fun d => { d with held := d.held - 1, fqEnts := d.fqEnts.take i ++ d.fqEnts.drop (i + 1) })).fqWrite die e
      else s)
def State.fqEntry (s : State) (die : Nat) (seq : W16) : Option FqEnt := first (fun (e : FqEnt) => e.seq = some seq) (s.die die).fqEnts
def State.fqDrop (s : State) (die : Nat) (seq : W16) : State :=
  s.modDie die (fun d => { d with fqEnts := d.fqEnts.filter (fun e => e.seq ≠ some seq) })
/-- One requester of an entry goes on. -/
def State.retryOne (s : State) (die : Nat) : FqSource → State
  | .team u => s.modTeam u (fun t => { t with park := { t.park with fault := none } })
  | .copy core id => s.modCopy die core id (fun c => { c with paused := none })
  | .spill core c =>
    match s.imageOf die core c with
    | none => s
    | some i =>
      let s := match i.pend with
        | some 0 | some 4 => (match s.moveImage die core i with
          | .ok s => s.imageTo die core c .saved none
          | .error (0, _, _) => s.modImage die core c (fun i => { i with pend := some 4 })
          | .error (code, lvl, va) => (s.slotFailed die core c (code, lvl, va)).fqEnter die (s.tagOf c) code va 2 3 lvl 0 0 core 0 (.spill core c))
        | some 1 | some 3 => s.spill die core i
        | _ => s
      s.swapOn (partOf c)
  | .restore core c => (s.modImage die core c (fun i => { i with pend := none })).swapOn (partOf c)
  | .landing blk => s.setNet (fun n => { n with lands := n.lands.map (fun l => if l.block = blk then { l with paused := none } else l) })
  | .group id => (s.modColl id (fun c => { c with paused := none })).collForm id
/-- FAULT_RETRY, as a change of the machine: the driver's release is acquired by the die, and everyone who joined the entry goes on. -/
def State.faultRetry (s : State) (die : Nat) (seq : W16) : State :=
  match s.fqEntry die seq with
    | none => s
    | some e =>
      let s := ((s.fqDrop die seq).merge die (s.die 8).clock).discardRdc die
      e.who.foldl (fun (s : State) (w : FqSource) => s.retryOne die w) s
/-- FAULT_RETRY. -/
def execFaultRetry (die : Nat) (seq : W16) (s : State) : Host.Outcome State Fault Refusal := .next (s.faultRetry die seq)
/-- The fault a record holds. -/
def recordInfo (ws : List W64) : FaultInfo :=
  let w := nth ws 0 0
  { code := bits w 0 16, cause := bits w 32 16, access := bits w 56 4, lanes := (nth ws 3 0).extractLsb' 32 32, addr := (nth ws 2 0).toNat
    detail := (nth ws 5 0).toNat, paddr := (nth ws 6 0).toNat }
/-- A context ended by a kill answer: FIRST holds the code, and STICKY is set with it (log 32). -/
def State.endByKill (s : State) (c code : Nat) : State :=
  if !(s.ctxAt c).valid then s
  else (s.modCtx c (fun y => { y with sticky := true, first := BitVec.ofNat 16 code })).endRun c
/-- One requester of an entry is killed. -/
def State.killFor (s : State) (die code va : Nat) : FqSource → State
  | .team u =>
    match s.teamAt u with
    | none => s
    | some t =>
      if t.park.fault.isNone then s
      else (s.kill u (bitOf (nth t.frec 0 0) 60) (nth t.frec 1 0) 0 (recordInfo t.frec)).collSettle t.block
  | .copy core id =>
    match s.copyAt die core id with
    | some c => if c.paused.isSome then s.copyCancel die core id 1 va else s
    | none => s
  | .spill _ c | .restore _ c => s.endByKill c code
  | .landing blk => if (s.blockAt blk).isSome then s.endByKill (s.ctxOf blk) code else s
  | .group id => s.collFail id 4 0x7FF
/-- FAULT_KILL, as a change of the machine. -/
def State.faultKill (s : State) (die : Nat) (seq : W16) : State :=
  match s.fqEntry die seq with
    | none => s
    | some e => e.who.foldl (fun (s : State) (w : FqSource) => s.killFor die e.code (nth e.words 1 0).toNat w) (s.fqDrop die seq)
/-- FAULT_KILL. -/
def execFaultKill (die : Nat) (seq : W16) (s : State) : Host.Outcome State Fault Refusal := .next (s.faultKill die seq)

end Sys2Proof.Machine
end

