-- ==== Sys2Proof/Machine/Periods.lean ====
section
/-! DEFINITION. The end of a budget period on a die, and what its passing counts (03_memory_hierarchy.md R88, R93;
15_launch_and_scheduling.md R385, R387, R391; 17_translation_errors_links.md R426, R432, R435; 18_fleet_operation.md R445). -/

namespace Sys2Proof.Machine

/-- Table 03.5. -/
def PinWin.fadeStep (w : PinWin) : PinWin :=
  if !w.en then { w with hit := false }
  else if w.hit then { w with fade := w.fade0, hit := false }
  else if w.fade0 = 0xFF then w
  else if 1 < w.fade.toNat then { w with fade := w.fade - 1 }
  else { w with fade := 0, en := false }
/-- One period of the scrubber: at most LINES lines; a pass ends with the last line (R426, R448). -/
def Die.scrubStep (d : Die) : Die :=
  if !d.scrubEn || d.scrubLines = 0 then d
  else if Config.scrubLines ≤ d.scrubPos + d.scrubLines.toNat then { d with scrubPos := 0, scrubPasses := d.scrubPasses + 1 }
  else { d with scrubPos := d.scrubPos + d.scrubLines.toNat }
/-- The die's own part: budgets refilled (R387), windows faded, the scrubber's step, a clock step that was waiting (R445). -/
def Die.nextPeriod (d : Die) (compute : Bool) : Die :=
  let d := { d with period := d.period + 1, budgets := [], clockMHz := d.nextMHz }
  if compute then { d with pins := d.pins.map PinWin.fadeStep }.scrubStep else d
/-- Slices and grace limits count periods of the partition's lowest-numbered die (R385). -/
def Part.count (x : Part) (die : Nat) : Part :=
  if x.dieList.head? = some die && !x.idle && !x.switch && !x.stopped then
    { x with sliceCount := x.sliceCount + 1, graceCount := x.graceCount.map (· + 1) }
  else x
/-- Is an address in the expander region? -/
def inExpander (pa : Nat) : Bool := 2 ^ 42 ≤ pa && pa < 2 ^ 43
def LinePart.atExpander (p : LinePart) : Bool := p.got.isNone && p.pkg.isNone && inExpander (128 * p.line)
def AtomPart.atExpander (p : AtomPart) : Bool := p.got.isNone && p.pkg.isNone && inExpander p.addr
def WBody.atExpander (w : WBody) : Bool := w.pieces.any (fun p => inExpander p.addr)
/-- Requests of teams and their writes that an expander has not completed. -/
def Net.xIds (n : Net) : List Nat :=
  (n.ops.filter (fun o => o.kind.lineParts.any LinePart.atExpander || o.kind.atomParts.any AtomPart.atExpander)).map (·.id)
    ++ (n.writes.filter (fun w => w.body.atExpander)).map (·.id)
/-- Does a virtual address of a context lie in the expander region? -/
def State.vaAtExpander (s : State) (die c va : Nat) : Bool :=
  match s.walk die c va with
  | .ok (e, lvl, _) => inExpander (4096 * bits e 12 40 + va % 2 ^ levelShift lvl)
  | .error _ => false
/-- Copies whose source an expander holds, with their cores: their reads stand out until the copy is done. -/
def State.xCopies (s : State) : List (Nat × Nat) :=
  s.cores.flatMap (fun (y : Nat × Core) => (y.2.copies.filter (fun c => !cpySpadSrc c.pb && (upTo (cpyRows c.pb)).any (fun r =>
    s.vaAtExpander (y.1 / 512) c.ctx (cpySrcRow c.pb r)))).map (fun c => (c.id, y.1)))
/-- Transfers that read an expander. -/
def Net.xPuts (n : Net) : List Nat :=
  (n.xfers.filter (fun f => !f.gets && !f.read && f.srcMap.any (fun q => inExpander q.2))).map (·.id)
/-- Expander requests that have not completed, by name. -/
def State.xIds (s : State) : List Nat := s.net.xIds ++ s.xCopies.map Prod.fst ++ s.net.xPuts
/-- Die 8's part: reports reach Solnal, unreachable traffic, collectives, expander requests and host cache lines grow older (R432, R433, R435, R113). -/
def State.ioPeriod (s : State) : State :=
  let s := s.heard
  let now := (s.die 8).period
  let s := { s with io := { s.io with hostCache := s.io.hostCache.filter (fun l => now < l.filled + Config.rdcPeriods) } }
  s.setNet (fun n => { n with
    out := n.out.map (fun o => { o with waited := if s.unreachable o.pkg o.cls then o.waited + 1 else 0 })
    colls := n.colls.map (fun c => if c.formed && c.status = 0 then { c with waited := c.waited + 1, lost := if (s.collLost c).isSome then c.lost + 1 else 0 } else c)
    xwait := s.xIds.map (fun i => (i, (match look i n.xwait with | some k => k + 1 | none => 1))) })
/-- Spills, moves and restores whose walks waited for the period go on. -/
def State.imgPeriod (s : State) (die : Nat) : State :=
  s.cores.foldl (fun (s : State) (y : Nat × Core) =>
    if y.1 / 512 ≠ die then s
    else y.2.images.foldl (fun (s : State) (i : Image) =>
      match i.pend with
      | some 3 | some 4 => s.retryOne die (.spill (y.1 % 512) i.ctx)
      | some 5 => s.retryOne die (.restore (y.1 % 512) i.ctx)
      | _ => s) s) s
/-- BUDGET_PERIOD: 4,096 core cycles of a die have passed. Transfers and collectives that a budget held go on. -/
def execBudgetPeriod (die : Nat) (s : State) : Host.Outcome State Fault Refusal :=
  .next (
    let s := (s.modDie die (fun d => { d.nextPeriod (die < 8) with ctr := d.ctr.pass s.freeW (Config.freeWord (s.run.free + 1)) })).useFrees 2
    let s := { s with teams := s.teams.map (fun (y : Nat × Team) =>
      if (s.block y.2.block).die = die then (y.1, { y.2 with waited := s.countWait y.1 y.2 }) else y) }
    let s := { s with sched := { s.sched with parts := s.sched.parts.map (fun (x : Part) => x.count die) } }
    let s := if die = 8 then s.ioPeriod else s
    let s := s.imgPeriod die
    let s := (s.net.xfers.filter (fun f => f.die = die)).foldl (fun (s : State) (f : Xfer) => s.pumpPuts f.id) s
    (s.net.colls.filter (fun c => c.die = die)).foldl (fun (s : State) (c : Coll) => s.collPump c.id) s)

end Sys2Proof.Machine
end

