-- ==== Sys2Proof/Machine/Fences.lean ====
section
/-! DEFINITION. Ranged invalidation and migration fences (17_translation_errors_links.md R420, R421, R437). -/

namespace Sys2Proof.Machine

/-! ## Invalidation (R420) -/

/-- A TLB entry maps some part of a range of 64 KiB granules; none of them means the whole address space. -/
def TlbEnt.inRange (e : TlbEnt) (tag first n : Nat) : Bool :=
  (tag = 0 || e.tag = tag)
    && (n = 0 || (e.va < 65536 * (first + n) && 65536 * first < e.va + 2 ^ levelShift e.level))
def State.dropTlb (s : State) (tag first n : Nat) : State :=
  let keep := fun (e : TlbEnt) => !e.inRange tag first n
  { s with cores := s.cores.map (fun (y : Nat × Core) => (y.1, { y.2 with tlb := y.2.tlb.filter keep }))
           dies := s.dies.map (fun (d : Die) => { d with tlb := d.tlb.filter keep }) }
/-- A context that an invalidation names. -/
def State.named (s : State) (tag c : Nat) : Bool := tag = 0 || s.tagOf c = tag
def OpKind.pending (k : OpKind) : Bool :=
  k.lineParts.any (fun p => p.got.isNone) || k.atomParts.any (fun p => p.got.isNone && !p.parked)
/-- GO: what maps the range is dropped, and everything in flight that was translated before is noted. The walks that follow
acquire the driver's release. -/
def State.invStart (s : State) : State :=
  let x := s.sched.inv
  let tag := x.tag.toNat
  let s := s.dropTlb tag x.va.toNat x.pages.toNat
  let s := (upTo 8).foldl (fun (s : State) d => s.merge d (s.die 8).clock) s
  let ops := (s.net.ops.filter (fun o => s.named tag o.ctx && o.kind.pending)).map (·.id)
    ++ (s.net.xfers.filter (fun f => s.named tag f.ctx)).map (·.id)
  let ws := (s.net.writes.filter (fun w => s.named tag w.ctx)).map (·.id) ++ (s.net.out.filter (fun o => s.named tag o.ctx)).map (·.id)
  let us := (s.teams.filter (fun y => s.onCore y.2.block && s.named tag (s.ctxOf y.2.block) && (y.2.queue ≠ [] || y.2.region.isSome))).map Prod.fst
  { s with sched := { s.sched with inv := { x with err := false, busy := true, ops := ops, writes := ws, teams := us } } }
/-- A write of INVCTL. -/
def State.invWrite (s : State) (v : W64) : State :=
  let s := { s with sched := { s.sched with inv := { s.sched.inv with tag := v.extractLsb' 56 8, pages := v.extractLsb' 16 32 } } }
  if !bitOf v 0 then s
  else if s.sched.inv.busy then { s with sched := { s.sched with inv := { s.sched.inv with err := true } } }
  else s.invStart
def execInvalidateGo (v : W64) (s : State) : Host.Outcome State Fault Refusal := .next (s.invWrite v)
/-- Everything that was noted has been performed. -/
def State.invDone (s : State) : Bool :=
  let x := s.sched.inv
  x.ops.all (fun i => !s.net.ops.any (fun o => o.id = i && o.kind.pending) && !s.net.xfers.any (fun f => f.id = i))
    && x.writes.all (fun i => !s.net.writes.any (fun w => w.id = i) && !s.net.out.any (fun o => o.id = i))
    && x.teams.all (fun u => match s.teamAt u with
      | some t => !s.onCore t.block || (t.queue = [] && t.region.isNone)
      | none => true)
    && !s.net.writes.any (fun w => match w.team with | some u => x.teams.contains u | none => false)
    && !s.net.out.any (fun o => match o.team with | some u => x.teams.contains u | none => false)
/-- INVALIDATION_COMPLETE: BUSY clears. -/
def execInvalidationComplete (s : State) : Host.Outcome State Fault Refusal :=
  .next (if s.sched.inv.busy && s.invDone then
      { s with sched := { s.sched with inv := { s.sched.inv with busy := false, ops := [], writes := [], teams := [] } } }
    else s)

/-! ## Migration fences (R421, Table 17.9) -/

def Die.fence (d : Die) (n : Nat) : MigFence := nth d.mig n .reset
def State.modFence (s : State) (die n : Nat) (f : MigFence → MigFence) : State :=
  s.modDie die (fun d => { d with mig := modAt n f d.mig })
def State.modJob (s : State) (die id : Nat) (f : MigJob → MigJob) : State :=
  s.modDie die (fun d => { d with jobs := d.jobs.map (fun j => if j.id = id then f j else j) })
/-- MIGOLDn: BASE, while the fence is not armed. -/
def MigFence.writeOld (f : MigFence) (v : W64) : MigFence := if f.en then f else { f with old := v.extractLsb' 16 36 }
/-- Lines of the old range homed on a die. -/
def State.fenceLines (s : State) (die : Nat) (f : MigFence) : List Nat :=
  (from_ (512 * f.old.toNat) (512 * (f.size.toNat + 1))).filter (fun l => s.homeOf (128 * l) = die)
/-- Where a byte of the old range goes. -/
def MigJob.there (f : MigJob) (pa : Nat) : Nat := 65536 * f.new.toNat + (pa - 65536 * f.old.toNat)
/-- The atomics that a release holds go to the new address, at that address's home: those of teams, of host cores and of other
packages. -/
def State.sendParked (s : State) (die : Nat) (j : MigJob) : State :=
  let ys := (s.die die).pounds.flatMap (fun q => q.2.filter (fun y => y.fence = some j.id))
  let s := s.modDie die (fun d => { d with pounds := d.pounds.map (fun q => (q.1, q.2.filter (fun y => y.fence ≠ some j.id))) })
  let s := ys.foldl (fun (s : State) (y : Parked) =>
    match s.opAt y.op with
    | none => s
    | some o =>
      match (o.kind.atomParts.drop y.part).head? with
      | none => s
      | some p =>
        let a := j.there p.at_
        let p := { p with parked := false }
        s.setOp (o.setAtom y.part (if p.pkg.isSome then { p with dest := some a } else { p with addr := a, home := s.homeOf a }))) s
  let go := fun (y : ExtPark) => if y.die = die && y.fence = j.id && !y.moved then { y with pa := j.there y.pa, moved := true } else y
  let s : State := { s with io := { s.io with hosts := s.io.hosts.map (fun (h : Nat × HostCore) =>
    (h.1, { h.2 with amo := h.2.amo.map (fun y => (y.1, go y.2)) })) } }
  let s : State := s.setNet (fun k => { k with ingress := k.ingress.map (fun (g : Ingress) => { g with park := g.park.map go }) })
  s.modJob die j.id (fun j => { j with sent := ys.map (fun y => (y.op, y.part)) })
/-- The atomics of a fence's range that are parked as it is released belong to the release, but for those that another armed fence
holds (log 90). -/
def State.claimParked (s : State) (die n : Nat) (f : MigFence) (id : Nat) : State :=
  let mine := fun (y : Parked) => (y.fence = some n || y.fence.isNone) && { f with en := true }.covers (32 * y.sector)
  let claim := fun (y : Parked) => if mine y then { y with fence := some ((s.poundFence die (32 * y.sector)).getD id) } else y
  let go := fun (y : ExtPark) => if y.die = die && y.fence = n then { y with fence := (s.poundFence die y.pa).getD id } else y
  let s := s.modDie die (fun d => { d with pounds := d.pounds.map (fun q => (q.1, q.2.map claim)) })
  let s : State := { s with io := { s.io with hosts := s.io.hosts.map (fun (h : Nat × HostCore) =>
    (h.1, { h.2 with amo := h.2.amo.map (fun y => (y.1, go y.2)) })) } }
  s.setNet (fun k => { k with ingress := k.ingress.map (fun (g : Ingress) => { g with park := g.park.map go }) })
/-- A release of an armed fence begins. -/
def State.releaseFence (s : State) (die n : Nat) (mv : Bool) : State :=
  let f := (s.die die).fence n
  let j : MigJob := { id := 8 + s.uid, fence := n, old := f.old, new := f.new, move := mv, left := if mv then s.fenceLines die f else [], sent := [] }
  let s := (s.modFence die n (fun f => { f with en := false })).claimParked die n f j.id
  let s := (s.modDie die (fun d => { d with jobs := d.jobs ++ [j] })).bump
  if mv && j.left = [] then s.sendParked die j else s
/-- A write of MIGNEWn: BASE and SIZE while the fence is not armed, and the edge of EN. -/
def State.fenceWrite (s : State) (die n : Nat) (v : W64) : State :=
  match ((s.die die).fence n).en, bitOf v 0 with
  | false, en => s.modFence die n (fun f =>
      { f with new := v.extractLsb' 16 36, size := v.extractLsb' 2 14, en := en, done := f.done && !en })
  | true, true => s
  | true, false => s.releaseFence die n (bitOf v 1)
/-- MIGRATION_FENCE_ARM: a write of MIGNEWn with EN from 0 to 1. -/
def execMigrationFenceArm (die n : Nat) (v : W64) (s : State) : Host.Outcome State Fault Refusal :=
  .next (if die < 8 && n < 8 && !((s.die die).fence n).en && bitOf v 0 then s.fenceWrite die n v else s)
/-- MIGRATION_RELEASE: a write of MIGNEWn with EN from 1 to 0. -/
def execMigrationRelease (die n : Nat) (v : W64) (s : State) : Host.Outcome State Fault Refusal :=
  .next (if die < 8 && n < 8 && ((s.die die).fence n).en && !bitOf v 0 then s.fenceWrite die n v else s)
/-- One line of the old range read at its home (R83) and written at the new address, with its side-band and its poison. -/
def State.moveLine (s : State) (die l : Nat) (j : MigJob) : State :=
  let a := j.there (128 * l)
  let stamp := (s.die die).clock
  let s := s.touchL2 (128 * l) 0 false
  if (regionOf a = .hbm || (regionOf a = .expander && (s.xwinAt a).en)) && !s.xFailed a then
    let w : WBody := { pieces := piecesOf a (s.mem.bytes (128 * l) 128), sides := [(a / 128, s.mem.sb l)] }
    let bad := (upTo 4).filterMap (fun i => (look (4 * l + i) s.mem.poison).map (fun c => (a / 32 + i, c)))
    let s := (s.applyBody w stamp 0 none).queueWrite w
    { s with mem := { s.mem with poison := bad.foldl (fun m y => place y.1 y.2 m) s.mem.poison } }
  else s
/-- The oldest release of a fence that still moves lines. -/
def Die.moves (d : Die) (n : Nat) : Option MigJob := first (fun (j : MigJob) => j.fence = n && j.move && j.left ≠ []) d.jobs
/-- MIGRATION_MOVE: in a release that moves lines the next line is copied, and after the last one the parked atomics follow; with none,
an armed fence is released with MOVE = 1. -/
def execMigrationMove (die n : Nat) (s : State) : Host.Outcome State Fault Refusal :=
  .next (
    if 8 ≤ die || 8 ≤ n then s
    else match (s.die die).moves n with
      | some j =>
        (match j.left with
        | l :: r =>
          let a := j.there (128 * l)
          if (upTo 4).all (fun i => s.covers (s.homeOf a) die (s.die die).clock && !s.memLocked (a / 32 + i) none)
              && !s.net.writes.any (fun w => w.src = die && bodyTouches w.body (a / 128)) then
            let s := (s.moveLine die l j).modJob die j.id (fun j => { j with left := r })
            if r = [] then s.sendParked die j else s
          else s
        | [] => s)
      | none => if ((s.die die).fence n).en then s.releaseFence die n true else s)
/-- Something of a release is still to do: lines, parked atomics, replays not yet applied. -/
def State.jobOpen (s : State) (die : Nat) (j : MigJob) : Bool :=
  j.left ≠ [] || (s.die die).pounds.any (fun q => q.2.any (fun y => y.fence = some j.id))
    || j.sent.any (fun y => match s.opAt y.1 with
      | some o => (match (o.kind.atomParts.drop y.2).head? with | some p => p.got.isNone | none => false)
      | none => false)
    || s.io.hosts.any (fun (h : Nat × HostCore) => match h.2.amo with | some y => y.2.die = die && y.2.fence = j.id | none => false)
    || s.net.ingress.any (fun (g : Ingress) => match g.park with | some y => y.die = die && y.fence = j.id | none => false)
/-- MIGRATION_DONE: every line and every replay of a release has been applied; DONE is set by the fence's last one. -/
def execMigrationDone (die n : Nat) (s : State) : Host.Outcome State Fault Refusal :=
  .next (match first (fun (j : MigJob) => j.fence = n && !s.jobOpen die j) (s.die die).jobs with
    | none => s
    | some j =>
      let s := s.modDie die (fun d => { d with jobs := d.jobs.filter (fun x => x.id ≠ j.id) })
      if (s.die die).jobs.any (fun x => x.fence = n) then s else s.modFence die n (fun f => { f with done := true }))

end Sys2Proof.Machine
end

