-- ==== Sys2Proof/Machine/Boot.lean ====
section
/-! DEFINITION. Package reset and signed start, measurement and attestation, Solnal, power (00_scope.md R5;
17_translation_errors_links.md R428 to R430, R438; 18_fleet_operation.md R440 to R451). -/

namespace Sys2Proof.Machine

/-! ## Package reset (R5) -/

/-- What memory holds after package reset: the expander keeps its contents, HBM reads free values (log 34). -/
def Mem.afterReset (m : Mem) (free : Nat) : Mem :=
  { cells := m.cells.filter (fun c => 2 ^ 40 ≤ c.1), side := m.side.filter (fun c => 2 ^ 33 ≤ c.1)
    poison := m.poison.filter (fun c => 2 ^ 35 ≤ c.1), corr := [], stamps := [], rehomed := some free
    loose := m.loose.flatMap (cutRange 0 (2 ^ 40)) }
/-- Items of a sample that the main side answers. -/
def Sample.items (x : Sample) : Nat := 1 + x.ctrs.length + x.ports.length + x.failed.length + x.losts.length
/-- The main side resets while Solnal may be reading a sample: which items it had read by then is free (R451, log 36). -/
def Solnal.cut (v : Solnal) (free : W64) : Solnal :=
  if v.on && v.reading then
    { v with reading := false, sample := v.sample.map (fun x => { x with unread := (upTo x.items).filter (bitOf free) }) }
  else v
/-- Every register of the main side at its reset value; Solnal goes on, and reports that had not reached it are lost (R449). -/
def State.packageReset (s : State) : State :=
  let v := s.solnal.cut (Config.freeWord (s.run.free + 1))
  { State.reset with
    mem := s.mem.afterReset s.run.free
    solnal := if s.io.unsaid = [] then v else { v with gap := true }
    run := { s.run with cur := none, free := s.run.free + 2, turn := 0, moves := 0, die := 0 } }
def execPackageReset (s : State) : Host.Outcome State Fault Refusal := .next s.packageReset

/-! ## Signed start (R428, R429) -/

/-- What the signed header holds (log 35). -/
def bootSvn (i : BootImage) : Nat := Config.headerSvn i.header
def bootSlot (i : BootImage) : Nat := Config.headerSlot i.header
def bootBytes (i : BootImage) : List Byte := i.header ++ i.key ++ i.sig ++ i.payload
/-- The bytes of a measurement register, byte 0 first. -/
def measBytes (v : BitVec 256) : List Byte := toBytes 32 v
def measOf (bs : List Byte) : BitVec 256 := BitVec.ofNat 256 (ofBytes bs)
/-- The four conditions of R428. -/
def bootOk (i : BootImage) : Bool :=
  rsaVerify i.key i.sig (i.header ++ i.key ++ i.payload) && bootSlot i < 4 && measOf (sha256 i.key) = Config.fuseKeyHash (bootSlot i)
    && !Config.fuseRevoked (bootSlot i) && Config.fuseSvn ≤ bootSvn i
/-- MEASi := SHA-256(MEASi || digest). -/
def State.extend (s : State) (i : Nat) (digest : List Byte) : State :=
  { s with io := { s.io with meas := modAt i (fun m => measOf (sha256 (measBytes m ++ digest))) s.io.meas } }
def State.flashOk (s : State) (k : Nat) : Bool :=
  match nth s.solnal.flash k none with
  | some i => bootOk i
  | none => false
/-- An entry of Solnal's history with an event code (R449). -/
def State.eventEntry (s : State) (kind die : Nat) : State :=
  s.history { time := 0, die := die, code := Config.eventCode kind, tag := 0, addr := 0 }
/-- The update of a copy is not complete at this boot, which then does not check it: free while one may be in progress (R451, log 35). -/
def State.halfWritten (s : State) (k : Nat) : Bool := s.solnal.writing = some k && bitOf s.freeW 1
/-- A copy that the boot ROM checks and accepts. -/
def State.mayBoot (s : State) (k : Nat) : Bool := s.flashOk k && !s.halfWritten k
/-- MAIN_POWER_UP: where both copies are accepted, a free value says which one runs (log 35). -/
def execMainPowerUp (s : State) : Host.Outcome State Fault Refusal :=
  .next (
    if s.io.mainOn || !s.solnal.on then s
    else
      let left := s.solnal.writing.filter s.halfWritten
      let pick := match s.mayBoot 0, s.mayBoot 1 with
        | true, true => some (b1 (bitOf s.freeW 0))
        | true, false => some 0
        | false, true => some 1
        | false, false => none
      let s : State := { s.useFree with solnal := { s.solnal with writing := left } }
      match pick with
      | none => s.eventEntry 1 8
      | some k =>
        match nth s.solnal.flash k none with
        | none => s
        | some i =>
          let s := s.extend 0 (sha256 (bootBytes i))
          { s with io := { s.io with mainOn := true, svn := bootSvn i, bootCopy := some k, stage := 1 }, solnal := { s.solnal with accepted := some k } })
/-- BOOT_STAGE_MEASUREMENT: the running stage verifies the next one's image and extends the next measurement register, MEAS1 to MEAS7 in
turn. -/
def execBootStageMeasurement (n : Nat) (img : BootImage) (s : State) : Host.Outcome State Fault Refusal :=
  .next (if s.io.mainOn && n = s.io.stage && 1 ≤ n && n ≤ 7 && bootOk img then
      (let t := s.extend n (sha256 (bootBytes img))
       { t with io := { t.io with stage := n + 1 } })
    else s)

/-! ## Measurement and attestation registers (R438, Table 17.15) -/

/-- A write of MEASEXT. -/
def State.measWrite (s : State) (v : W64) : State :=
  let i := bits v 0 3
  if i < 4 then { s with io := { s.io with measErr := true } }
  else
    let s := s.extend i (wordsBytes s.io.measData)
    { s with io := { s.io with measData := [0, 0, 0, 0], measErr := false } }
def execMeasurementExtend (v : W64) (s : State) : Host.Outcome State Fault Refusal := .next (s.measWrite v)
/-- A write of ATTCTL. -/
def State.attWrite (s : State) (v : W64) : State :=
  let pa := 4096 * s.io.attBuf.toNat
  if !bitOf v 0 then s
  else if s.io.attJob.isSome || regionOf pa ≠ .hbm then { s with io := { s.io with attErr := true } }
  else { s with io := { s.io with attErr := false, attDone := false, attJob := some (some pa, wordsBytes s.io.attNonce) } }
def execAttestationGo (v : W64) (s : State) : Host.Outcome State Fault Refusal := .next (s.attWrite v)
/-- SOLNAL_ATTESTATION_REQUEST: taken when no report is being produced. -/
def execSolnalAttestationRequest (nonce : List Byte) (s : State) : Host.Outcome State Fault Refusal :=
  .next (if s.solnal.on && s.io.mainOn && s.io.attJob.isNone && nonce.length = 32 then
      { s with io := { s.io with attJob := some (none, nonce) } }
    else s)
/-- The 712 bytes of Table 17.13. -/
def State.attReport (s : State) (nonce : List Byte) : List Byte :=
  let part : List Byte := [0x50, 0x4C, 0x48, 0x2D, 0x43, 0x58, 0x31, 0x41]
  let head := toBytes 4 (0x00015441 : W32) ++ toBytes 2 (1 : W16) ++ toBytes 2 (8 : W16) ++ nonce ++ (upTo 16).map Config.serial ++ part
    ++ toBytes 4 (w32 s.io.svn) ++ [0, 0, 0, 0] ++ s.io.meas.flatMap measBytes
  head ++ rsaSign Config.identityModulus Config.identityExponent head
/-- ATTESTATION_DONE. -/
def execAttestationDone (s : State) : Host.Outcome State Fault Refusal :=
  .next (match s.io.attJob with
    | none => s
    | some (buf, nonce) =>
      let r := s.attReport nonce
      let s := { s with io := { s.io with attJob := none, attDone := s.io.attDone || buf.isSome } }
      match buf with
      | some pa => s.devWrite 8 pa r
      | none => { s with solnal := { s.solnal with report := r } })

/-! ## Solnal (R440 to R442, R449) -/

/-- STANDBY_POWER_UP. -/
def execStandbyPowerUp (s : State) : Host.Outcome State Fault Refusal :=
  .next { s with solnal := { s.solnal with on := true } }
/-- DATETIME_SET. -/
def execDatetimeSet (us : Nat) (s : State) : Host.Outcome State Fault Refusal :=
  .next (if s.solnal.on then { s with solnal := { s.solnal with clock := us } } else s)
/-- TELEMETRY_INTERVAL_SET: 10 ms to 10 s in steps of 10 ms. -/
def execTelemetryIntervalSet (ms : Nat) (s : State) : Host.Outcome State Fault Refusal :=
  .next (if s.solnal.on && 10 ≤ ms && ms ≤ 10000 && ms % 10 = 0 then { s with solnal := { s.solnal with interval := ms } } else s)
/-- TELEMETRY_SAMPLE: an interval of Solnal's clock has passed; items of the main side while it runs, which may still be read until a budget
period of die 8 ends (R451, log 36). -/
def execTelemetrySample (power : Nat) (temps : List Nat) (s : State) : Host.Outcome State Fault Refusal :=
  .next (if !s.solnal.on then s
    else
      let now := s.solnal.clock + 1000 * s.solnal.interval
      let off := !s.io.mainOn
      let x : Sample := { time := now, power := power, temps := temps, mhz := if off then none else some s.io.mhz
                          ctrs := if off then [] else s.dies.map (·.ctr), ports := if off then [] else s.io.ports
                          failed := if off then [] else s.io.xwins.map (·.failed)
                          losts := if off then [] else s.dies.map (fun d => (d.wd.lost, d.er.lost, d.fq.lost))
                          ends := s.solnal.ended, offline := off, unread := [] }
      { s with solnal := { s.solnal with clock := now, sample := some x, reading := !off } })
/-- FIRMWARE_UPDATE: the copy not last accepted; before any was accepted a free value says which (log 35). It may still be in progress at the
next boot (R451). -/
def execFirmwareUpdate (img : BootImage) (s : State) : Host.Outcome State Fault Refusal :=
  .next (if !s.solnal.on then s
    else
      let k := match s.solnal.accepted with | some k => 1 - k | none => b1 (bitOf s.freeW 0)
      let s := s.useFree
      { s with solnal := { s.solnal with flash := setAt k (some img) s.solnal.flash, writing := some k } })

/-! ## Power (R444, R445) -/

/-- SUPPLY_UNDERVOLTAGE: the main side is held in reset, and Solnal records it. -/
def execSupplyUndervoltage (s : State) : Host.Outcome State Fault Refusal := .next (s.packageReset.eventEntry 3 8)
/-- POWER_CAP_SET: a cap outside 1,500 to 3,400 W is refused. -/
def execPowerCapSet (watts : Nat) (s : State) : Host.Outcome State Fault Refusal :=
  .next (if s.solnal.on && 1500 ≤ watts && watts ≤ 3400 then { s with io := { s.io with cap := BitVec.ofNat 16 watts } } else s)
/-- Every compute die takes a clock at its next budget period boundary. -/
def State.setClock (s : State) (mhz : Nat) : State :=
  { s with io := { s.io with mhz := BitVec.ofNat 16 mhz, throttled := decide (mhz < 2700) },
           dies := (s.dies.take 8).map (fun (d : Die) => { d with nextMHz := mhz }) ++ s.dies.drop 8 }
/-- CLOCK_STEP_DOWN: the 10 ms mean exceeds CAP. -/
def execClockStepDown (mean10 : Nat) (s : State) : Host.Outcome State Fault Refusal :=
  .next (if s.solnal.on && s.io.cap.toNat < mean10 then s.setClock (Nat.max 1500 (s.io.mhz.toNat - 100)) else s)
/-- CLOCK_STEP_UP: the evaluation of the 100 ms mean: a step up below 0.95 × CAP, a critical event at 1,500 MHz above CAP. -/
def execClockStepUp (mean100 : Nat) (s : State) : Host.Outcome State Fault Refusal :=
  .next (
    let cap := s.io.cap.toNat
    if !s.solnal.on then s
    else if 100 * mean100 < 95 * cap then s.setClock (Nat.min 2700 (s.io.mhz.toNat + 100))
    else if s.io.mhz = 1500 && cap < mean100 then
      let e : Event := { time := s.solnal.clock, kind := 445, fabid := s.io.fabid, die := 8, tag := 0, coll := 0, status := 0
                         chunks := 0, lostPkg := 0 }
      ({ s with solnal := { s.solnal with events := s.solnal.events ++ [e] } }).eventEntry 4 8
    else s)

end Sys2Proof.Machine
end

