-- ==== Sys2Proof/Machine/Registers.lean ====
section
/-! DEFINITION. The registers of the nine control blocks: what each reads and what a write to it does, by its field rules and
with what R374 to R446 give the write (00_scope.md R4; 03_memory_hierarchy.md R87 to R89; 15_launch_and_scheduling.md R374 to
R384; 16_traps_preemption_contexts.md R398, R404, R410; 17_translation_errors_links.md R415 to R438; 18_fleet_operation.md R443 to
R446). -/

namespace Sys2Proof.Machine

/-! ## Pinned windows (R87 to R89) -/

/-- Bytes a window counts toward the limit of a die, under an interleave of width w. -/
def PinWin.counts (x : PinWin) (lw die : Nat) : Nat :=
  let w := 2 ^ lw
  let pa := 2 ^ 21 * x.base.toNat
  let last := pa + 2 ^ 21 * (x.size.toNat + 1) - 1
  let group := fun (a : Nat) => if lw = 3 then 0 else fieldN a (37 + lw) (3 - lw)
  if pa < 2 ^ 40 && (group pa = die / w || group last = die / w) then (x.size.toNat + 1) * 2 ^ 21 / w else 0
/-- The enable rule for window n with its new values; FADE0 other than 0 sets FADE, refused or not (R88). -/
def State.pinEnable (s : State) (die n : Nat) (x : PinWin) : PinWin :=
  let lw := s.io.lw.toNat
  let ws := (s.die die).pins
  let others := ((upTo 16).zip ws).foldl (fun k (i, y) => if i ≠ n && y.en then k + y.counts lw die else k) 0
  if x.fade0 = 0 then { x with en := false, err := true }
  else if Config.pinLimit < others + x.counts lw die then { x with en := false, err := true, fade := x.fade0 }
  else { x with en := true, err := false, fade := x.fade0 }
def State.modPin (s : State) (die n : Nat) (f : PinWin → PinWin) : State := s.modDie die (fun d => { d with pins := modAt n f d.pins })
/-- L2PINBASEn: a change of an enabled window disables it first and applies the enable rule again. -/
def State.pinBaseWrite (s : State) (die n : Nat) (v : W64) : State :=
  let x := nth (s.die die).pins n .reset
  let y := { x with base := v.extractLsb' 21 31 }
  s.modPin die n (fun _ => if x.en && x.base ≠ y.base then s.pinEnable die n y else y)
/-- L2PINCTLn. -/
def State.pinCtlWrite (s : State) (die n : Nat) (v : W64) : State :=
  let x := nth (s.die die).pins n .reset
  let y := { x with fade0 := v.extractLsb' 24 8, size := v.extractLsb' 8 16 }
  s.modPin die n (fun _ => if bitOf v 0 then s.pinEnable die n y else { y with en := false, err := false })
/-- PIN_WINDOW_ENABLE. -/
def execPinWindowEnable (die n : Nat) (v : W64) (s : State) : Host.Outcome State Fault Refusal :=
  .next (if die < 8 then s.pinCtlWrite die n v else s)

/-! ## Home interleave, expander windows, telemetry (R427, R434, R435, R443) -/

/-- HOMECFG: a change of LW leaves HBM with free values. -/
def State.homeWrite (s : State) (v : W64) : State :=
  if s.io.lock then s
  else
    let lw := v.extractLsb' 0 2
    let s' := { s with io := { s.io with lock := bitOf v 63, lw := lw } }
    if lw = s.io.lw then s' else { s' with mem := s'.mem.afterReset s.run.free }.useFree
/-- HOMECFG_WRITE. -/
def execHomecfgWrite (v : W64) (s : State) : Host.Outcome State Fault Refusal := .next (s.homeWrite v)
/-- XWINn: EN = 1 clears FAILED. -/
def State.xwinWrite (s : State) (n : Nat) (v : W64) : State :=
  { s with io := { s.io with xwins := modAt n (fun x =>
      { port := v.extractLsb' 1 2, en := bitOf v 0, failed := x.failed && !bitOf v 0 }) s.io.xwins } }
/-- XWIN_ENABLE. -/
def execXwinEnable (n : Nat) (v : W64) (s : State) : Host.Outcome State Fault Refusal := .next (s.xwinWrite n v)
/-- Counter n of Table 18.2, in the order of the registers. -/
def Counters.get (c : Counters) : Nat → W64
  | 0 => c.c0over | 1 => c.sigdrop | 2 => c.collrerun | 3 => c.collfail | 4 => c.memce | 5 => c.arrce | 6 => c.uncorr
  | 7 => c.pcieur | 8 => c.fabfail | 9 => c.xfail | _ => 0
def Counters.clear (c : Counters) : Nat → Counters
  | 0 => { c with c0over := 0 } | 1 => { c with sigdrop := 0 } | 2 => { c with collrerun := 0 } | 3 => { c with collfail := 0 }
  | 4 => { c with memce := 0 } | 5 => { c with arrce := 0 } | 6 => { c with uncorr := 0 } | 7 => { c with pcieur := 0 }
  | 8 => { c with fabfail := 0 } | 9 => { c with xfail := 0 } | _ => c
def State.ctrClear (s : State) (die n : Nat) : State :=
  if die < 8 && 6 < n then s else s.modDie die (fun d => { d with ctr := d.ctr.clear n })
/-- TELEMETRY_COUNTER_CLEAR: a write of any value clears the counter. -/
def execTelemetryCounterClear (die n : Nat) (s : State) : Host.Outcome State Fault Refusal := .next (s.ctrClear die n)

/-! ## Launch queues (R378, R379) -/

/-- LQPUSHn: the record is read once its home has applied what the host's release covers (R379). -/
def State.lqPush (s : State) (q : Nat) (v : W64) : State :=
  let x := s.queueAt q
  let pa := 64 * bits v 6 46
  if !x.en || x.full then s.modQueue q (fun x => { x with fullerr := true })
  else if !s.homeServes 8 (s.die 8).clock s.uid pa 64 then s
  else s.append q ((upTo 8).map (fun i => s.mem.word (pa + 8 * i))) (s.die 8).clock
/-- LQPUSH. -/
def execLqpush (queue : Nat) (v : W64) (s : State) : Host.Outcome State Fault Refusal :=
  .next (if queue < Config.queues then s.lqPush queue v else s)
/-- EN = 0 and no launch of the queue is in flight. -/
def State.queueIdle (s : State) (q : Nat) : Bool := !(s.queueAt q).en && !s.launches.any (fun y => y.2.queue = q)
def State.lqWrite (s : State) (q r : Nat) (v : W64) : State :=
  let idle := s.queueIdle q
  match r with
  | 0 => if idle then s.modQueue q (fun x => { x with base := v.extractLsb' 12 40 }) else s
  | 1 => s.modQueue q (fun x => { x with
      fullerr := false, size := if idle then Nat.min 16 (bits v 27 5) else x.size, part := bits v 24 3, ctx := bits v 20 4
      cls := bits v 18 2, irq := bitOf v 4, serial := bitOf v 3, devapp := bitOf v 2, en := bitOf v 0 })
  | 2 =>
    if idle then
      let t : W32 := v.extractLsb' 32 32
      let h : W32 := v.extractLsb' 0 32
      s.modQueue q (fun x => { x with tail := t, head := h, ages := List.replicate (t - h).toNat (s.sched.appended, Clock.zero) })
    else s
  | 3 => s.lqPush q v
  | _ => s
def Queue.read (x : Queue) : Nat → W64
  | 0 => w64 (4096 * x.base.toNat)
  | 1 => w64 (b1 x.fullerr * 2 ^ 63 + x.size * 2 ^ 27 + x.part * 2 ^ 24 + x.ctx * 2 ^ 20 + x.cls * 2 ^ 18 + b1 x.irq * 16
      + b1 x.serial * 8 + b1 x.devapp * 4 + b1 x.en)
  | 2 => x.tail ++ x.head
  | 4 => w64 x.done.toNat
  | _ => 0

/-! ## Partitions and contexts (R384, R398, R404, R415, R446) -/

def State.ctxRead (s : State) (c : Nat) : W64 :=
  let x := s.ctxAt c
  w64 (64 * x.desc.toNat + 4 * b1 x.err + b1 x.valid)
def State.partRead (s : State) (p r : Nat) : W64 :=
  let x := s.partAt p
  match r with
  | 0 => w64 (256 * b1 x.derr + x.dies.toNat)
  | 1 => w64 (64 * b1 x.idle + 32 * b1 x.graced + 16 * b1 (x.switch || x.stopped) + x.run)
  | _ => if r < 18 then s.ctxRead (16 * p + (r - 2)) else 0
/-- PARTCTX: END acts after the other fields. -/
def State.partWrite (s : State) (p r : Nat) (v : W64) : State :=
  match r with
  | 0 => s.diesWrite p v
  | 1 => s
  | _ =>
    if r < 18 then
      let s := s.ctxWrite p (r - 2) v
      if bitOf v 1 then s.ctxEnd p (r - 2) else s
    else s
/-- Every resident team of the running context is halted. -/
def State.allHalted (s : State) (p : Nat) : Bool :=
  match s.running p with
  | none => false
  | some c => (s.ctxTeams c).all (fun y => y.2.halted)
def State.dbgWrite (s : State) (p : Nat) (v : W64) : State :=
  let s := if bitOf v 1 then s.debugResume p else s
  if bitOf v 0 then s.debugHalt p else s.modPart p (fun x => { x with halt := false })
def Ctx.errRead (x : Ctx) : W64 := w64 (b1 x.sticky * 2 ^ 63 + x.first.toNat * 2 ^ 32 + x.count.toNat)

/-! ## Rings, fault queues, fences of a die -/

def Ring.ptr (r : Ring) : W64 := w64 (r.lost.toNat * 2 ^ 48 + r.tail.toNat * 2 ^ 16 + r.head.toNat)
def Ring.setHead (r : Ring) (v : W64) : Ring := { r with head := v.extractLsb' 0 16 }
/-- A ring's base: the bits from lo upward. -/
def Ring.setBase (r : Ring) (lo : Nat) (v : W64) : Ring := { r with base := w64 (bits v lo (52 - lo) * 2 ^ lo) }
/-- FQRESP. -/
def State.fqAnswer (s : State) (die : Nat) (v : W64) : State :=
  match bits v 16 2 with
  | 0 => s.faultRetry die (v.extractLsb' 0 16)
  | 1 => s.faultKill die (v.extractLsb' 0 16)
  | _ => s
/-- An emergency image of the die is held. -/
def State.emergHeld (s : State) (die : Nat) : Bool :=
  s.cores.any (fun y => y.1 / 512 = die && y.2.images.any (fun i => i.res = .emergency))

/-! ## Reading a register -/

/-- The register of die d at offset o of its control block; everything else reads as zero. -/
def State.dieRead (s : State) (d o : Nat) : W64 :=
  let x := s.die d
  if 0x3500 ≤ o && o < 0x3550 then (if d < 8 && 0x3538 ≤ o then 0 else x.ctr.get ((o - 0x3500) / 8))
  else if o = 0x3000 then w64 x.wdLimit.toNat
  else if o = 0x3008 then x.wd.base
  else if o = 0x3010 then x.wd.ptr
  else if o = 0x3100 then x.er.base
  else if o = 0x3108 then x.er.ptr
  else if d = 8 then 0
  else if 0x2000 ≤ o && o < 0x2100 then
    let w := nth x.pins ((o - 0x2000) / 16) .reset
    if o % 16 = 0 then w64 (2 ^ 21 * w.base.toNat)
    else w64 (b1 w.err * 2 ^ 63 + w.fade.toNat * 2 ^ 32 + w.fade0.toNat * 2 ^ 24 + w.size.toNat * 2 ^ 8 + b1 w.en)
  else if 0x2400 ≤ o && o < 0x2480 then
    let f := x.fence ((o - 0x2400) / 16)
    if o % 16 = 0 then w64 (65536 * f.old.toNat + b1 f.done) else w64 (65536 * f.new.toNat + 4 * f.size.toNat + b1 f.en)
  else if o = 0x3200 then w64 (2 ^ 21 * x.emergBase.toNat + b1 x.emergEn)
  else if o = 0x3300 then x.fq.base
  else if o = 0x3308 then w64 (x.held.toNat * 2 ^ 48 + x.fq.tail.toNat * 2 ^ 16 + x.fq.head.toNat)
  else if o = 0x3400 then w64 (x.scrubPasses.toNat * 2 ^ 32 + x.scrubLines.toNat * 2 ^ 8 + b1 x.scrubEn)
  else 0
/-- The route entry of package q and class c: VALID and PORT. -/
def Io.route (io : Io) (k : Nat) : W64 :=
  match look k io.routes with
  | some r => w64 (2 ^ 63 * b1 r.valid + r.port.toNat)
  | none => 0
/-- The I/O die's own registers. -/
def State.ioRead (s : State) (o : Nat) : W64 :=
  let io := s.io
  if o = 0x400 then w64 (b1 io.lock * 2 ^ 63 + io.lw.toNat)
  else if o = 0x410 then w64 io.fabid.toNat
  else if o = 0x418 then w64 io.fabto.toNat
  else if o = 0x500 then w64 (b1 io.throttled * 2 ^ 32 + io.mhz.toNat * 2 ^ 16 + io.cap.toNat)
  else if o = 0x620 then w64 (8 * b1 io.measErr)
  else if 0x700 ≤ o && o < 0x800 then (nth io.meas ((o - 0x700) / 32) 0).extractLsb' (64 * (o / 8 % 4)) 64
  else if 0x800 ≤ o && o < 0x820 then nth io.attNonce ((o - 0x800) / 8) 0
  else if o = 0x820 then w64 (4096 * io.attBuf.toNat)
  else if o = 0x828 then w64 (8 * b1 io.attErr + 4 * b1 io.attDone + 2 * b1 io.attJob.isSome)
  else if 0x1000 ≤ o && o < 0x1800 then s.partRead ((o - 0x1000) / 256) (o % 256 / 8)
  else if 0x4000 ≤ o && o < 0x4040 then
    let p := (o - 0x4000) / 8
    w64 (4 * b1 (s.allHalted p) + b1 (s.partAt p).halt)
  else if 0x5000 ≤ o && o < 0x5400 then (s.ctxAt ((o - 0x5000) / 8)).errRead
  else if 0x6000 ≤ o && o < 0x6400 then w64 (2 ^ 17 * (s.ctxAt ((o - 0x6000) / 8)).ptroot.toNat)
  else if o = 0x7000 then w64 (65536 * s.sched.inv.va.toNat)
  else if o = 0x7008 then
    w64 (s.sched.inv.tag.toNat * 2 ^ 56 + s.sched.inv.pages.toNat * 2 ^ 16 + 4 * b1 s.sched.inv.err + 2 * b1 s.sched.inv.busy)
  else if 0x8000 ≤ o && o < 0x8040 then w64 (b1 (s.partAt ((o - 0x8000) / 8)).forcefo)
  else if 0x9000 ≤ o && o < 0x9080 then
    let w := nth io.xwins ((o - 0x9000) / 8) { failed := false, port := 0, en := false }
    w64 (8 * b1 w.failed + 2 * w.port.toNat + b1 w.en)
  else if o = 0x9100 then w64 io.xto.toNat
  else if 0xA000 ≤ o && o < 0xA100 then
    let w := nth io.pcis ((o - 0xA000) / 16) { base := 0, size := 0, en := false }
    if o % 16 = 0 then w64 (65536 * w.base.toNat) else w64 (65536 * w.size.toNat + b1 w.en)
  else if 0x10000 ≤ o && o < 0x18000 then
    let g := s.gateAt ((o - 0x10000) / 8)
    w64 (g.phase.toNat * 2 ^ 32 + g.arr.toNat * 2 ^ 16 + g.pend.toNat)
  else if 0x100000 ≤ o && o < 0x108000 then io.route ((o - 0x100000) / 8)
  else if 0x800000 ≤ o then (s.queueAt ((o - 0x800000) / 64)).read (o % 64 / 8)
  else 0
/-- A 64-bit read of a control block (R374). -/
def State.regRead (s : State) (pa : Nat) : W64 :=
  let d := (pa - 2 ^ 41) / 2 ^ 24
  let o := pa % 2 ^ 24
  if o % 8 ≠ 0 then 0
  else if d = 8 then (if 0x3000 ≤ o && o < 0x4000 then s.dieRead 8 o else s.ioRead o)
  else s.dieRead d o

/-! ## Writing a register -/

def State.dieWrite (s : State) (d o : Nat) (v : W64) : State :=
  if 0x3500 ≤ o && o < 0x3550 then s.ctrClear d ((o - 0x3500) / 8)
  else if o = 0x3000 then s.modDie d (fun x => { x with wdLimit := v.extractLsb' 0 32 })
  else if o = 0x3008 then s.modDie d (fun x => { x with wd := x.wd.setBase 12 v })
  else if o = 0x3010 then s.modDie d (fun x => { x with wd := x.wd.setHead v })
  else if o = 0x3100 then s.modDie d (fun x => { x with er := x.er.setBase 14 v })
  else if o = 0x3108 then s.modDie d (fun x => { x with er := x.er.setHead v })
  else if d = 8 then s
  else if 0x2000 ≤ o && o < 0x2100 then
    (if o % 16 = 0 then s.pinBaseWrite d ((o - 0x2000) / 16) v else s.pinCtlWrite d ((o - 0x2000) / 16) v)
  else if 0x2400 ≤ o && o < 0x2480 then
    (if o % 16 = 0 then s.modFence d ((o - 0x2400) / 16) (fun f => f.writeOld v) else s.fenceWrite d ((o - 0x2400) / 16) v)
  else if o = 0x3200 then
    (if s.emergHeld d then s else s.modDie d (fun x => { x with emergBase := v.extractLsb' 21 31, emergEn := bitOf v 0 }))
  else if o = 0x3300 then s.modDie d (fun x => { x with fq := x.fq.setBase 15 v })
  else if o = 0x3308 then s.modDie d (fun x => { x with fq := x.fq.setHead v })
  else if o = 0x3310 then s.fqAnswer d v
  else if o = 0x3400 then s.modDie d (fun x => { x with scrubLines := v.extractLsb' 8 24, scrubEn := bitOf v 0 })
  else s
/-- A route entry: traffic that waits takes the new route; the order within a stream stays (R121, R432). -/
def Io.setRoute (io : Io) (k : Nat) (v : W64) : Io :=
  let r : Route := { valid := bitOf v 63, port := v.extractLsb' 0 4 }
  { io with routes := if r.valid || r.port ≠ 0 then place k r io.routes else drop k io.routes }
/-- PCIWINBASEn and PCIWINCTLn: BASE and SIZE only while the window is not enabled. -/
def PciWin.write (w : PciWin) (ctl : Bool) (v : W64) : PciWin :=
  match ctl, w.en with
  | false, true => w
  | false, false => { w with base := v.extractLsb' 16 36 }
  | true, true => { w with en := bitOf v 0 }
  | true, false => { w with size := v.extractLsb' 16 32, en := bitOf v 0 }
def State.ioWrite (s : State) (o : Nat) (v : W64) : State :=
  let io := s.io
  if o = 0x400 then s.homeWrite v
  else if o = 0x410 then { s with io := { io with fabid := v.extractLsb' 0 10 } }
  else if o = 0x418 then { s with io := { io with fabto := v.extractLsb' 0 32 } }
  else if 0x600 ≤ o && o < 0x620 then { s with io := { io with measData := setAt ((o - 0x600) / 8) v io.measData } }
  else if o = 0x620 then s.measWrite v
  else if 0x800 ≤ o && o < 0x820 then { s with io := { io with attNonce := setAt ((o - 0x800) / 8) v io.attNonce } }
  else if o = 0x820 then { s with io := { io with attBuf := v.extractLsb' 12 40 } }
  else if o = 0x828 then s.attWrite v
  else if 0x1000 ≤ o && o < 0x1800 then s.partWrite ((o - 0x1000) / 256) (o % 256 / 8) v
  else if 0x4000 ≤ o && o < 0x4040 then s.dbgWrite ((o - 0x4000) / 8) v
  else if 0x5000 ≤ o && o < 0x5400 then s.modCtx ((o - 0x5000) / 8) (fun x => { x with sticky := x.sticky && bitOf v 63 })
  else if 0x6000 ≤ o && o < 0x6400 then
    s.modCtx ((o - 0x6000) / 8) (fun x => if x.valid then x else { x with ptroot := v.extractLsb' 17 35 })
  else if o = 0x7000 then { s with sched := { s.sched with inv := { s.sched.inv with va := v.extractLsb' 16 41 } } }
  else if o = 0x7008 then s.invWrite v
  else if 0x8000 ≤ o && o < 0x8040 then s.modPart ((o - 0x8000) / 8) (fun x => { x with forcefo := bitOf v 0 })
  else if 0x9000 ≤ o && o < 0x9080 then s.xwinWrite ((o - 0x9000) / 8) v
  else if o = 0x9100 then { s with io := { io with xto := v.extractLsb' 0 32 } }
  else if 0xA000 ≤ o && o < 0xA100 then
    { s with io := { io with pcis := modAt ((o - 0xA000) / 16) (fun w => w.write (o % 16 ≠ 0) v) io.pcis } }
  else if 0x10000 ≤ o && o < 0x18000 then
    s.setGate ((o - 0x10000) / 8) { s.gateAt ((o - 0x10000) / 8) with
      phase := v.extractLsb' 32 16, arr := v.extractLsb' 16 16, pend := v.extractLsb' 0 16 }
  else if 0x100000 ≤ o && o < 0x108000 then { s with io := io.setRoute ((o - 0x100000) / 8) v }
  else if 0x800000 ≤ o then s.lqWrite ((o - 0x800000) / 64) (o % 64 / 8) v
  else s
/-- A 64-bit write to a control block (R374). -/
def State.regWrite (s : State) (pa : Nat) (v : W64) : State :=
  let d := (pa - 2 ^ 41) / 2 ^ 24
  let o := pa % 2 ^ 24
  if o % 8 ≠ 0 then s
  else if d = 8 then (if 0x3000 ≤ o && o < 0x4000 then s.dieWrite 8 o v else s.ioWrite o v)
  else s.dieWrite d o v
/-- REGISTER_WRITE. -/
def execRegisterWrite (pa : Nat) (v : W64) (s : State) : Host.Outcome State Fault Refusal :=
  .next (if regionOf pa = .control then s.regWrite pa v else s)

end Sys2Proof.Machine
end

