-- ==== Sys2Proof/Machine/Hosts.lean ====
section
/-! DEFINITION. Host cores and PCIe requesters, agents of die 8 (04_ordering_and_visibility.md R132, Table 04.7;
17_translation_errors_links.md R436). -/

namespace Sys2Proof.Machine

/-- The stream of a host core's stores, and that of the PCIe requesters. -/
def hostStream (core : Nat) : Nat := 4096 + core
def pcieStream : Nat := 8192
/-- The context that stands for none: its tag is 0. -/
def noCtx : Nat := 128
def State.hostAt (s : State) (k : Nat) : HostCore := (look k s.io.hosts).getD { last := 0, seen := .zero, rel := none, amo := none }
def State.setHost (s : State) (k : Nat) (h : HostCore) : State := { s with io := { s.io with hosts := place k h s.io.hosts } }

/-! ## Reads -/

/-- A byte in the host cores' data caches. -/
def State.hostLine (s : State) (a : Nat) : Option RdcLine :=
  first (fun (l : RdcLine) => l.line = a / 128 && l.held.getLsbD (a / 32 % 4)) s.io.hostCache
/-- Sectors of a line's bytes that no store of a die-8 agent is on its way to: those that a host cache may take. -/
def State.hostMay (s : State) (l : Nat) (as : List Nat) : BitVec 4 :=
  BitVec.ofNat 4 ((upTo 4).foldl (fun n k =>
    if as.any (fun a => a / 32 = 4 * l + k) && !s.net.writes.any (fun w => w.src = 8 && bodyHits w.body (128 * l + 32 * k) 32) then n + 2 ^ k
    else n) 0)
/-- Sectors join the host caches. -/
def hostFill (x : RdcLine) (l : List RdcLine) : List RdcLine :=
  let y : RdcLine := match first (fun (y : RdcLine) => y.line = x.line) l with
    | some y => { y with held := y.held ||| x.held, data := mergeSectors x.held x.data y.data, stamp := meetClk y.stamp x.stamp
                         vals := y.vals ++ x.vals }
    | none => x
  y :: l.filter (fun (z : RdcLine) => z.line ≠ x.line)
/-- A store of a host core through the package's own window to some of these bytes is on its way (R76, R106). -/
def State.hostOwnOut (s : State) (pa n : Nat) : Bool :=
  s.net.out.any (fun o => o.team.isNone && o.pkg = s.io.fabid.toNat && (match o.kind with
    | .write w _ => w.pieces.any (fun p => decide (pa / 32 ≤ ownPa p.addr / 32 ∧ ownPa p.addr / 32 ≤ (pa + n - 1) / 32))
    | _ => false))
/-- Lines of some bytes leave the host caches. -/
def State.hostDrop (s : State) (pa n : Nat) : State :=
  { s with io := { s.io with hostCache := s.io.hostCache.filter (fun (l : RdcLine) => l.line < pa / 128 || (pa + n - 1) / 128 < l.line) } }
/-- Bytes of this package's memory as a host core reads them, with the join of their stamps: from its caches, else from their homes,
whose sectors fill the caches; none while a home is behind the clock the read carries or an earlier store of the same stream is on its
way. -/
def State.hostRead (s : State) (stream pa n : Nat) (cached : Bool) (upto : Nat) (ck : Clock) : Option (List Byte × Clock × State) :=
  let as := from_ pa n
  let own := s.net.writes.any (fun w => w.stream = some stream && bodyHits w.body pa n) || s.hostOwnOut pa n
  let far := as.filter (fun a => !cached || (s.hostLine a).isNone)
  if own || !far.all (fun a => s.homeServes 8 ck upto a 1) then none
  else
    let one := fun (a : Nat) => match (if cached then s.hostLine a else none) with
      | some l => (byteOf l.data (a % 128), stampOfByte l.vals a)
      | none => (s.mem.byte a, stampOfByte s.mem.stamps a)
    let bs := as.map one
    let s' := (sortNat (far.map (fun a => a / 128))).foldl (fun (s : State) l =>
      let st := (s.die (s.homeOf (128 * l))).applied
      let s := s.touchL2 (128 * l) 0 false
      let need := s.hostMay l far
      if !cached || !leClk (s.die 8).clock st || need = 0 then s
      else
        let x : RdcLine := { line := l, held := need, data := s.mem.line l, sb := s.mem.sb l, stamp := st
                             vals := s.lineStamps l need, filled := (s.die 8).period, owner := 0 }
        { s with io := { s.io with hostCache := hostFill x s.io.hostCache } }) s
    some (bs.map Prod.fst, bs.foldl (fun c y => joinClk c y.2) Clock.zero, s')

/-! ## Writes -/

/-- A store leaves die 8: one write for each line, and the host caches' copies are updated. -/
def State.hostStore (s : State) (stream pa : Nat) (bs : List Byte) : State :=
  let ps := piecesOf pa bs
  let stamp := (s.die 8).clock
  (sortNat (ps.map (fun p => p.addr / 128))).foldl (fun (s : State) l =>
    let mine := ps.filter (fun p => p.addr / 128 = l)
    let w : NWrite := { id := s.uid, src := 8, home := s.homeOf (128 * l), team := none, ctx := noCtx, stamp := stamp, owner := 0
                        body := { pieces := mine, sides := [] }, commit := false, stream := some stream }
    let s := { s with io := { s.io with hostCache := s.io.hostCache.map (fun (y : RdcLine) =>
        mine.foldl (fun (y : RdcLine) p => y.wrote stamp 0 p) y) } }
    (s.setNet (fun n => { n with writes := n.writes ++ [w] })).bump) s
/-- A store into the fabric window. -/
def State.hostOut (s : State) (pa : Nat) (bs : List Byte) : State :=
  s.addOut { id := 0, pkg := pkgOf pa, cls := 1, team := none, ctx := noCtx, die := 8, pc := 0, kind := .write { pieces := piecesOf pa bs, sides := [] } false
             waited := 0 }

/-! ## Host cores -/

/-- The fabric window's addresses that name this package are its own HBM, reached as fabric traffic: the host caches take no part
(R76). -/
def State.hostPa (s : State) (pa : Nat) : Nat :=
  match regionOf pa with
  | .fabric k off => if k = s.io.fabid.toNat then off else pa
  | _ => pa
def State.ownWindow (s : State) (pa : Nat) : Bool := s.hostPa pa ≠ pa
/-- Where a host access goes. -/
inductive HostAt
  | mem | lost | fabric | control | missing
/-- Memory of this package, an expander window that has failed, the fabric window, a control block, or nothing. -/
def State.hostAtPa (s : State) (pa n : Nat) : HostAt :=
  match regionOf pa, regionOf (pa + n - 1) with
  | .hbm, .hbm => .mem
  | .expander, .expander => if s.xFailed pa then .lost else if (s.xwinAt pa).en then .mem else .missing
  | .fabric _ _, .fabric _ _ => .fabric
  | .control, .control => .control
  | _, _ => .missing
/-- Some sector of the bytes is poisoned. -/
def State.poisoned (s : State) (pa n : Nat) : Bool := (poisonIn s.mem.poison pa n).isSome
/-- A loaded value and the stamps it carries. -/
def State.loaded (s : State) (core : Nat) (v : W64) (st : Clock) : State :=
  let h := s.hostAt core
  s.setHost core { last := v, seen := joinClk h.seen st, rel := none, amo := none }
def State.loadedFree (s : State) (core : Nat) : State := (s.loaded core s.freeW .zero).useFree
/-- The acquire of Table 04.7: what the core has read is merged into C_8, and the host caches are discarded (R132). -/
def State.hostAcquire (s : State) (core : Nat) : State :=
  let h := s.hostAt core
  ((s.merge 8 h.seen).discardRdc 8).setHost core { h with seen := .zero }
/-- A load. Poisoned data and data of another package are free values (log 37). -/
def State.hostLoad (s : State) (core pa n : Nat) : Host.Outcome State Fault Refusal :=
  let own := s.ownWindow pa
  let pa := s.hostPa pa
  match s.hostAtPa pa n with
  | .missing => .fault (.unmappedHostAccess pa)
  | .control => .next (s.loaded core (if n = 8 then s.regRead pa else 0) .zero)
  | .fabric => .next (s.loadedFree core)
  | .lost => .next (s.loadedFree core).countX
  | .mem => .next (match s.hostRead (hostStream core) pa n (!own) s.uid (s.die 8).clock with
      | none => s
      | some (bs, st, s') =>
        let s' := if own then s'.hostDrop pa n else s'
        if s.poisoned pa n then s'.loadedFree core else s'.loaded core (w64 (ofBytes bs)) st)
def State.hostWrite (s : State) (core pa n : Nat) (v : W64) : Host.Outcome State Fault Refusal :=
  let at0 := pa
  let own := s.ownWindow pa
  let pa := s.hostPa pa
  match s.hostAtPa pa n with
  | .missing => .fault (.unmappedHostAccess pa)
  | .control => .next (if n = 8 then s.regWrite pa v else s)
  | .fabric => .next (s.hostOut pa (toBytes n v))
  | .lost => .next s.countX
  | .mem => .next (if own then (s.hostDrop pa n).hostOut at0 (toBytes n v) else s.hostStore (hostStream core) pa (toBytes n v))
/-- The release of an AMO, done once, and the number and clock it carries from then on. -/
def State.hostRelease (s : State) (core : Nat) (rl : Bool) : State :=
  if rl && (s.hostAt core).rel.isNone then
    let t := s.increment 8
    t.setHost core { t.hostAt core with rel := some (t.uid, (t.die 8).clock) }
  else s
def State.hostClock (s : State) (core : Nat) (rl : Bool) : Nat × Clock :=
  match rl, (s.hostAt core).rel with
  | true, some y => y
  | _, _ => (s.uid, (s.die 8).clock)
/-- An AMO for another package leaves for it; what it returns is a free value (log 37). -/
def State.hostFar (s : State) (core : Nat) (f : Option AtomOp) (pa n : Nat) (v c : W64) (aq rl : Bool) : State :=
  let s := if rl then s.increment 8 else s
  let s := (s.addOut { id := 0, pkg := pkgOf pa, cls := 1, team := none, ctx := noCtx, die := 8, pc := 0, kind := .host f pa n v c rl
                       waited := 0 }).loadedFree core
  if aq then s.hostAcquire core else s
/-- An AMO, applied at its home. One that finds an armed migration fence there goes with the fence (R421); one that a lock, a write-back
or an earlier parked atomic of its sector holds, or that is not aligned, waits outside (log 29); one homed on die 8 comes after the core's
earlier stores there (Table 04.3). -/
def State.hostAmo (s : State) (core : Nat) (f : Option AtomOp) (pa n : Nat) (v c : W64) (aq rl : Bool) : Host.Outcome State Fault Refusal :=
  let at0 := s.hostPa pa
  match s.hostAtPa at0 n with
  | .missing => .fault (.unmappedHostAccess at0)
  | .control => .next (s.loaded core 0 .zero)
  | .fabric => .next (if n = 0 || at0 % n ≠ 0 then s else s.hostFar core f at0 n v c aq rl)
  | .lost => .next (s.loadedFree core).countX
  | .mem => .next (
      if n = 0 || at0 % n ≠ 0 then s
      else
        let s1 := s.hostRelease core rl
        let park := (s1.hostAt core).amo.bind (fun y => if y.1 = pa then some y.2 else none)
        let pa' := ExtPark.at_ park at0
        let home := s1.homeOf pa'
        let held := s1.memLocked (pa' / 32) none || s1.scrubbing (pa' / 32) || s1.extHeld home pa' park
          || (s1.pound home (poundSlice pa')).any (fun y => y.sector = pa' / 32)
          || (home = 8 && s1.net.writes.any (fun w => w.stream = some (hostStream core) && w.home = 8))
        let k := s1.hostClock core rl
        match held, s1.hostRead (hostStream core) pa' n false k.1 k.2 with
        | false, some (bs, st, s2) =>
          let s3 := if s2.poisoned pa' n then s2.loadedFree core
            else
              let y := s2.atomWord f n pa' [(0, v, c)] k.2 0 none
              let s3 := { y.2 with io := { y.2.io with hostCache := y.2.io.hostCache.filter (fun (l : RdcLine) => l.line ≠ pa' / 128) } }
              s3.loaded core (w64 (ofBytes bs)) st
          if aq then s3.hostAcquire core else s3
        | _, _ => s1.setHost core { s1.hostAt core with amo := (s1.extPark pa' park).map (fun y => (pa, y)) })
/-- HOST_CORE_ACCESS, by one of the 64 host cores (Table 00.1). Cores 1 to 63 stay in reset until software releases them, which no event or
register of the spec shows: an access by one is by a core that has been released (R428, log 79). -/
def execHostCoreAccess (core : Nat) (op : HostOp) (s : State) : Host.Outcome State Fault Refusal :=
  if Config.hostCores ≤ core then .next s else match op with
  | .load pa n => s.hostLoad core pa n
  | .store pa n v => s.hostWrite core pa n v
  | .amo f pa n v aq rl => s.hostAmo core (some f) pa n v 0 aq rl
  | .cas pa n c v aq rl => s.hostAmo core none pa n c v aq rl
  | .fenceRwW => .next (s.increment 8)
  | .fenceRRw => .next (s.hostAcquire core)
  | .fenceRwRw => .next ((s.increment 8).hostAcquire core)

/-! ## PCIe (R436) -/

def PciWin.holds (w : PciWin) (pa n : Nat) : Bool :=
  w.en && 65536 * w.base.toNat ≤ pa && pa + n ≤ 65536 * (w.base.toNat + w.size.toNat + 1)
def State.pcieAnswer (s : State) (v : Option W64) : State := { s with io := { s.io with pcieOut := v :: s.io.pcieOut } }
/-- PCIE_INBOUND_REQUEST: a write or read inside a window; outside every window, Unsupported Request. R436 gives reads and writes
only, so an atomic or a fence is no request and does nothing (log 37). -/
def execPcieInboundRequest (relaxed : Bool) (op : HostOp) (s : State) : Host.Outcome State Fault Refusal :=
  let open_ := fun (pa n : Nat) => s.io.pcis.any (fun w => w.holds pa n)
  let refuse := (s.pcieAnswer none).modDie 8 (fun d => { d with ctr := { d.ctr with pcieur := satInc d.ctr.pcieur } })
  match op with
  | .load pa n =>
    if !open_ pa n then .next refuse
    else
      let pa := s.hostPa pa
      match s.hostAtPa pa n with
      | .missing | .control => .fault (.unmappedHostAccess pa)
      | .fabric => .next (s.pcieAnswer (some s.freeW)).useFree
      | .lost => .next (s.pcieAnswer (some s.freeW)).useFree.countX
      | .mem => .next (match s.hostRead pcieStream pa n false s.uid (s.die 8).clock with
          | none => s
          | some (bs, _, s') => if s.poisoned pa n then (s'.pcieAnswer (some s'.freeW)).useFree else s'.pcieAnswer (some (w64 (ofBytes bs))))
  | .store pa n v =>
    if !open_ pa n then .next refuse
    else
      let s := if relaxed then s else s.increment 8
      let pa := s.hostPa pa
      match s.hostAtPa pa n with
      | .missing | .control => .fault (.unmappedHostAccess pa)
      | .fabric => .next (s.hostOut pa (toBytes n v))
      | .lost => .next s.countX
      | .mem => .next (s.hostStore pcieStream pa (toBytes n v))
  | _ => .next s

end Sys2Proof.Machine
end

