-- ==== Sys2Proof/Machine/Integer.lean ====
section
/-! DEFINITION. The integer and address instructions and the predicate group (07_ref_integer_control_system.md R184 to
R197). -/

namespace Sys2Proof.Machine

/-! ## Values (Table 07.2) -/

/-- A signed value clamped to w bits (R189). -/
def satS (w : Nat) (i : Int) : BitVec w × Fl :=
  let hi : Int := 2 ^ (w - 1) - 1
  let lo : Int := -(2 ^ (w - 1))
  if hi < i then (BitVec.ofInt w hi, flST) else if i < lo then (BitVec.ofInt w lo, flST) else (BitVec.ofInt w i, 0)
/-- An unsigned value clamped to w bits (R189). -/
def satU (w : Nat) (i : Int) : BitVec w × Fl :=
  let hi : Int := 2 ^ w - 1
  if hi < i then (BitVec.ofInt w hi, flST) else if i < 0 then (0, flST) else (BitVec.ofInt w i, 0)

def iaddVal (m : SatMode) (w : Nat) (a b : BitVec w) : BitVec w × Fl :=
  match m with
  | .wrap => (a + b, 0)
  | .sat => satS w (a.toInt + b.toInt)
  | .usat => satU w (a.toNat + b.toNat : Int)
def isubVal (m : SatMode) (w : Nat) (a b : BitVec w) : BitVec w × Fl :=
  match m with
  | .wrap => (a - b, 0)
  | .sat => satS w (a.toInt - b.toInt)
  | .usat => satU w ((a.toNat : Int) - (b.toNat : Int))
def iaddcVal (co : Bool) (w : Nat) (a b c : BitVec w) : BitVec w :=
  let c0 := b1 (bitOf c 0)
  if co then BitVec.ofNat w ((a.toNat + b.toNat + c0) / 2 ^ w) else a + b + BitVec.ofNat w c0
def imulhVal (u : Bool) (w : Nat) (a b : BitVec w) : BitVec w :=
  if u then BitVec.ofNat w (a.toNat * b.toNat / 2 ^ w) else BitVec.ofInt w (a.toInt * b.toInt / 2 ^ w)
def imulwVal (u : Bool) (w : Nat) (a b : BitVec w) : BitVec w :=
  let x := a.setWidth (w / 2)
  let y := b.setWidth (w / 2)
  if u then BitVec.ofNat w (x.toNat * y.toNat) else BitVec.ofInt w (x.toInt * y.toInt)
/-- Quotient of Table 07.3. -/
def idivVal (u : Bool) (w : Nat) (a b : BitVec w) : BitVec w × Fl :=
  if b = 0 then (BitVec.allOnes w, flDZ)
  else if u then (BitVec.ofNat w (a.toNat / b.toNat), 0)
  else (BitVec.ofInt w (Int.tdiv a.toInt b.toInt), 0)
/-- Remainder of Table 07.3. -/
def iremVal (u : Bool) (w : Nat) (a b : BitVec w) : BitVec w × Fl :=
  if b = 0 then (a, flDZ)
  else if u then (BitVec.ofNat w (a.toNat % b.toNat), 0)
  else (BitVec.ofInt w (Int.tmod a.toInt b.toInt), 0)
def iminVal (u : Bool) (w : Nat) (a b : BitVec w) : BitVec w :=
  if (if u then b.toNat < a.toNat else b.toInt < a.toInt) then b else a
def imaxVal (u : Bool) (w : Nat) (a b : BitVec w) : BitVec w :=
  if (if u then a.toNat < b.toNat else a.toInt < b.toInt) then b else a
def iabsVal (sat : Bool) (w : Nat) (a : BitVec w) : BitVec w × Fl :=
  if sat && a.toInt = -(2 ^ (w - 1)) then (BitVec.ofInt w (2 ^ (w - 1) - 1), flST)
  else (BitVec.ofNat w a.toInt.natAbs, 0)
def shlVal (w : Nat) (a b : BitVec w) : BitVec w := if w ≤ b.toNat then 0 else a <<< b.toNat
def shrVal (w : Nat) (a b : BitVec w) : BitVec w := if w ≤ b.toNat then 0 else a >>> b.toNat
def sarVal (w : Nat) (a b : BitVec w) : BitVec w := a.sshiftRight (if b.toNat < w - 1 then b.toNat else w - 1)
def rotVal (left : Bool) (w : Nat) (a b : BitVec w) : BitVec w :=
  let m := b.toNat % w
  if left then (a <<< m) ||| (a >>> (w - m)) else (a >>> m) ||| (a <<< (w - m))
/-- The funnel {a, b} shifted by c mod w (R191). -/
def shfVal (left : Bool) (w : Nat) (a b c : BitVec w) : BitVec w :=
  let m := c.toNat % w
  if left then (a <<< m) ||| (b >>> (w - m)) else (b >>> m) ||| (a <<< (w - m))
def popcVal (w : Nat) (a : BitVec w) : BitVec w := BitVec.ofNat w (popCount a)
/-- Zero bits above the highest one bit. -/
def clzVal (w : Nat) (a : BitVec w) : BitVec w :=
  BitVec.ofNat w (if a.toNat = 0 then w else w - 1 - Nat.log2 a.toNat)
/-- Zero bits below the lowest one bit. -/
def ctzVal (w : Nat) (a : BitVec w) : BitVec w := BitVec.ofNat w ((first (fun i => bitOf a i) (upTo w)).getD w)
def brevVal (w : Nat) (a : BitVec w) : BitVec w :=
  BitVec.ofNat w ((upTo w).foldl (fun acc i => 2 * acc + b1 (bitOf a i)) 0)
/-- Position and length of a register spec (R192). -/
def specOf {w : Nat} (v : BitVec w) : Nat × Nat := (bits v 0 8, bits v 8 8)
def bfxVal (sx : Bool) (w : Nat) (a : BitVec w) (pos len : Nat) : BitVec w :=
  if len = 0 || w ≤ pos then 0
  else
    let n := Nat.min len (w - pos)
    let d := bits a pos n
    BitVec.ofNat w (if sx && d / 2 ^ (n - 1) = 1 then d + 2 ^ w - 2 ^ n else d)
def bfiVal (w : Nat) (a b : BitVec w) (pos len : Nat) : BitVec w :=
  if len = 0 || w ≤ pos then a
  else
    let n := Nat.min len (w - pos)
    let mask := BitVec.ofNat w (2 ^ n - 1)
    (a &&& ~~~ (mask <<< pos)) ||| ((b &&& mask) <<< pos)
def leaVal (k : Nat) (w32 : Bool) (w : Nat) (a b : BitVec w) : BitVec w :=
  let b' := if w32 then BitVec.ofInt w (b.setWidth 32).toInt else b
  a + b' <<< k
/-- Table 07.4. -/
def icmpVal (c : ICond) (w : Nat) (a b : BitVec w) : Bool :=
  match c with
  | .eq => a = b
  | .ne => a ≠ b
  | .lt => a.toInt < b.toInt
  | .le => a.toInt ≤ b.toInt
  | .gt => b.toInt < a.toInt
  | .ge => b.toInt ≤ a.toInt
  | .ltu => a.toNat < b.toNat
  | .leu => a.toNat ≤ b.toNat
  | .gtu => b.toNat < a.toNat
  | .geu => b.toNat ≤ a.toNat

/-! ## Integer and address instructions -/

/-- Two operands A and B. -/
def Iss.calc2 (x : Iss) (s : State) (g : Guard) (ty : Ty) (d : Dst) (a : Sel) (b : Opnd) (f : Calc) : Except Halt State :=
  x.calc s g ty d [argA ty a, argOpnd ty b] (wordsB b) f
/-- One operand A. -/
def Iss.calc1 (x : Iss) (s : State) (g : Guard) (ty : Ty) (d : Dst) (a : Sel) (f : Calc) : Except Halt State :=
  x.calc s g ty d [argA ty a] 1 f

def execIadd (g : Guard) (ty : Ty) (d : Dst) (a : Sel) (b : Opnd) (m : SatMode) (s : State) :
    Host.Outcome State Fault Refusal := s.issue (fun x => x.calc2 s g ty d a b (fun w v => iaddVal m w (v 0) (v 1)))
def execIsub (g : Guard) (ty : Ty) (d : Dst) (a : Sel) (b : Opnd) (m : SatMode) (s : State) :
    Host.Outcome State Fault Refusal := s.issue (fun x => x.calc2 s g ty d a b (fun w v => isubVal m w (v 0) (v 1)))
def execIaddc (g : Guard) (ty : Ty) (d : Dst) (a : Sel) (b : Opnd) (c : Opnd10) (co : Bool) (s : State) :
    Host.Outcome State Fault Refusal :=
  s.issue (fun x => x.calc s g ty d [argA ty a, argOpnd ty b, argOpnd10 ty c] (wordsB b)
    (fun w v => (iaddcVal co w (v 0) (v 1) (v 2), 0)))
def execImul (g : Guard) (ty : Ty) (d : Dst) (a : Sel) (b : Opnd) (s : State) : Host.Outcome State Fault Refusal :=
  s.issue (fun x => x.calc2 s g ty d a b (fun _ v => (v 0 * v 1, 0)))
def execImulh (g : Guard) (ty : Ty) (d : Dst) (a : Sel) (b : Opnd) (u : Bool) (s : State) :
    Host.Outcome State Fault Refusal := s.issue (fun x => x.calc2 s g ty d a b (fun w v => (imulhVal u w (v 0) (v 1), 0)))
def execImulw (g : Guard) (ty : Ty) (d : Dst) (a : Sel) (b : Opnd) (u : Bool) (s : State) :
    Host.Outcome State Fault Refusal := s.issue (fun x => x.calc2 s g ty d a b (fun w v => (imulwVal u w (v 0) (v 1), 0)))
def execImad (g : Guard) (ty : Ty) (d : Dst) (a : Sel) (b : Opnd) (c : Sel) (s : State) :
    Host.Outcome State Fault Refusal :=
  s.issue (fun x => x.calc s g ty d [argA ty a, argOpnd ty b, argA ty c] (wordsB b) (fun _ v => (v 0 * v 1 + v 2, 0)))
/-- Long-latency (R190). -/
def execIdiv (g : Guard) (ty : Ty) (d : BitVec 8) (a : Sel) (b : Opnd) (u : Bool) (s : State) :
    Host.Outcome State Fault Refusal :=
  s.issue (fun x => x.calcLong s g ty d.toNat [argA ty a, argOpnd ty b] (wordsB b)
    (fun w v => idivVal u w (v 0) (v 1)))
/-- Long-latency (R190). -/
def execIrem (g : Guard) (ty : Ty) (d : BitVec 8) (a : Sel) (b : Opnd) (u : Bool) (s : State) :
    Host.Outcome State Fault Refusal :=
  s.issue (fun x => x.calcLong s g ty d.toNat [argA ty a, argOpnd ty b] (wordsB b)
    (fun w v => iremVal u w (v 0) (v 1)))
def execImin (g : Guard) (ty : Ty) (d : Dst) (a : Sel) (b : Opnd) (u : Bool) (s : State) :
    Host.Outcome State Fault Refusal := s.issue (fun x => x.calc2 s g ty d a b (fun w v => (iminVal u w (v 0) (v 1), 0)))
def execImax (g : Guard) (ty : Ty) (d : Dst) (a : Sel) (b : Opnd) (u : Bool) (s : State) :
    Host.Outcome State Fault Refusal := s.issue (fun x => x.calc2 s g ty d a b (fun w v => (imaxVal u w (v 0) (v 1), 0)))
def execIabs (g : Guard) (ty : Ty) (d : Dst) (a : Sel) (sat : Bool) (s : State) : Host.Outcome State Fault Refusal :=
  s.issue (fun x => x.calc1 s g ty d a (fun w v => iabsVal sat w (v 0)))
def execAnd (g : Guard) (ty : Ty) (d : Dst) (a : Sel) (b : Opnd) (s : State) : Host.Outcome State Fault Refusal :=
  s.issue (fun x => x.calc2 s g ty d a b (fun _ v => (v 0 &&& v 1, 0)))
def execOr (g : Guard) (ty : Ty) (d : Dst) (a : Sel) (b : Opnd) (s : State) : Host.Outcome State Fault Refusal :=
  s.issue (fun x => x.calc2 s g ty d a b (fun _ v => (v 0 ||| v 1, 0)))
def execXor (g : Guard) (ty : Ty) (d : Dst) (a : Sel) (b : Opnd) (s : State) : Host.Outcome State Fault Refusal :=
  s.issue (fun x => x.calc2 s g ty d a b (fun _ v => (v 0 ^^^ v 1, 0)))
def execAndn (g : Guard) (ty : Ty) (d : Dst) (a : Sel) (b : Opnd) (s : State) : Host.Outcome State Fault Refusal :=
  s.issue (fun x => x.calc2 s g ty d a b (fun _ v => (v 0 &&& ~~~ v 1, 0)))
def execShl (g : Guard) (ty : Ty) (d : Dst) (a : Sel) (b : Opnd) (s : State) : Host.Outcome State Fault Refusal :=
  s.issue (fun x => x.calc2 s g ty d a b (fun w v => (shlVal w (v 0) (v 1), 0)))
def execShr (g : Guard) (ty : Ty) (d : Dst) (a : Sel) (b : Opnd) (s : State) : Host.Outcome State Fault Refusal :=
  s.issue (fun x => x.calc2 s g ty d a b (fun w v => (shrVal w (v 0) (v 1), 0)))
def execSar (g : Guard) (ty : Ty) (d : Dst) (a : Sel) (b : Opnd) (s : State) : Host.Outcome State Fault Refusal :=
  s.issue (fun x => x.calc2 s g ty d a b (fun w v => (sarVal w (v 0) (v 1), 0)))
def execShf (g : Guard) (ty : Ty) (d : Dst) (a b : Sel) (c : Opnd10) (left : Bool) (s : State) :
    Host.Outcome State Fault Refusal :=
  s.issue (fun x => x.calc s g ty d [argA ty a, argB ty b, argOpnd10 ty c] 1
    (fun w v => (shfVal left w (v 0) (v 1) (v 2), 0)))
def execRot (g : Guard) (ty : Ty) (d : Dst) (a : Sel) (b : Opnd) (left : Bool) (s : State) :
    Host.Outcome State Fault Refusal := s.issue (fun x => x.calc2 s g ty d a b (fun w v => (rotVal left w (v 0) (v 1), 0)))
def execPopc (g : Guard) (ty : Ty) (d : Dst) (a : Sel) (s : State) : Host.Outcome State Fault Refusal :=
  s.issue (fun x => x.calc1 s g ty d a (fun w v => (popcVal w (v 0), 0)))
def execClz (g : Guard) (ty : Ty) (d : Dst) (a : Sel) (s : State) : Host.Outcome State Fault Refusal :=
  s.issue (fun x => x.calc1 s g ty d a (fun w v => (clzVal w (v 0), 0)))
def execCtz (g : Guard) (ty : Ty) (d : Dst) (a : Sel) (s : State) : Host.Outcome State Fault Refusal :=
  s.issue (fun x => x.calc1 s g ty d a (fun w v => (ctzVal w (v 0), 0)))
def execBrev (g : Guard) (ty : Ty) (d : Dst) (a : Sel) (s : State) : Host.Outcome State Fault Refusal :=
  s.issue (fun x => x.calc1 s g ty d a (fun w v => (brevVal w (v 0), 0)))
def execBfx (g : Guard) (ty : Ty) (d : Dst) (a : Sel) (b : Opnd) (sx : Bool) (s : State) :
    Host.Outcome State Fault Refusal :=
  s.issue (fun x => x.calc2 s g ty d a b (fun w v => (bfxVal sx w (v 0) (specOf (v 1)).1 (specOf (v 1)).2, 0)))
/-- Position and length of BFI's spec: a register, or the immediate whose len field is one less (R192). -/
def bfiSpec {w : Nat} (c : Opnd10) (v : BitVec w) : Nat × Nat :=
  match c with
  | .imm i => (bits i 0 5, bits i 5 5 + 1)
  | _ => specOf v
def execBfi (g : Guard) (ty : Ty) (d : Dst) (a : Sel) (b : Opnd) (c : Opnd10) (s : State) :
    Host.Outcome State Fault Refusal :=
  s.issue (fun x => x.calc s g ty d [argA ty a, argOpnd ty b, argOpnd10 ty c] (wordsB b)
    (fun w v => (bfiVal w (v 0) (v 1) (bfiSpec c (v 2)).1 (bfiSpec c (v 2)).2, 0)))
def execLea (g : Guard) (ty : Ty) (d : Dst) (a : Sel) (b : Opnd) (k : BitVec 3) (w32 : Bool) (s : State) :
    Host.Outcome State Fault Refusal :=
  s.issue (fun x => x.calc2 s g ty d a b (fun w v => (leaVal k.toNat w32 w (v 0) (v 1), 0)))
def execIcmp (g : Guard) (ty : Ty) (p : BitVec 4) (a : Sel) (b : Opnd) (cond : ICond) (m : Comb) (s : State) :
    Host.Outcome State Fault Refusal :=
  s.issue (fun x => x.compare s g ty p m [argA ty a, argOpnd ty b] (wordsB b)
    (fun w v => (icmpVal cond w (v 0) (v 1), 0)))
/-- The lowest active lane's bit of a predicate. -/
def lowBit (act p : Lanes) : Bool :=
  match lanesOf act with
  | l :: _ => p.getLsbD l
  | [] => false
/-- R194: the predicate is an operand of its own: lane l's bit, in a scalar form the lowest active lane's. -/
def execIsel (g : Guard) (ty : Ty) (d : Dst) (a : Sel) (b : Opnd) (p : BitVec 4) (s : State) :
    Host.Outcome State Fault Refusal :=
  s.issue (fun x => do
    let act := x.act g
    let args := [argA ty a, argOpnd ty b]
    let pr := x.t.pred p.toNat
    let t ← x.enter s act (argUses args) (dstUses ty.kind d) false
    match ty.kind with
    | .s =>
      let vs ← x.wordL (act ≠ 0) args
      .ok (s.setTeam x.u (t.finish x.off (argUses args)
        [.scal d.idx.toNat d.ws (act ≠ 0) (if lowBit act pr then wordArgs vs 0 else wordArgs vs 1) none] 0 (wordsB b)))
    | .v =>
      let vs ← x.lanesL act args
      let y := lineOf (fun l => if pr.getLsbD l then laneArgs vs l 0 else laneArgs vs l 1)
      .ok (s.setTeam x.u (t.finish x.off (argUses args) [.vec d.idx.toNat d.ws act y none []] 0 (wordsB b))))
/-- R195: a move from a vector also copies the side-band. -/
def execMov (g : Guard) (ty : Ty) (d : Dst) (a : Sel) (s : State) : Host.Outcome State Fault Refusal :=
  s.issue (fun x =>
    match ty with
    | .vec => do
      let act := x.act g
      let t ← x.enter s act [src .v a] (dstUses .v d) false
      let v ← x.vec act a
      .ok (s.setTeam x.u (t.finish x.off [src .v a] [.vec d.idx.toNat d.ws act v.data (some v.sb) []] 0 1))
    | .scal => x.calc s g .scal d [.s a] 1 (fun _ v => (v 0, 0))
    | .mix => x.calc s g .mix d [.s a] 1 (fun _ v => (v 0, 0)))
def execMovi (g : Guard) (ty : Ty) (d : Dst) (v : BitVec 20) (s : State) : Host.Outcome State Fault Refusal :=
  s.issue (fun x => x.calc s g ty d [.imm (sext64 v)] 1 (fun _ v => (v 0, 0)))
def execMovl (g : Guard) (ty : Ty) (d : Dst) (v : W64) (s : State) : Host.Outcome State Fault Refusal :=
  s.issue (fun x => x.calc s g ty d [.imm v] 2 (fun _ v => (v 0, 0)))

/-! ## Predicates (R196, R197) -/

/-- A predicate computed from predicates, in the active lanes. -/
def Iss.predOp (x : Iss) (s : State) (g : Guard) (d : BitVec 4) (v : Lanes) : Except Halt State :=
  .ok (s.setTeam x.u (x.t.finish x.off [] [.pred d.toNat (x.act g) v] 0 1))

def execPand (g : Guard) (d a b : BitVec 4) (s : State) : Host.Outcome State Fault Refusal :=
  s.issue (fun x => x.predOp s g d (x.t.pred a.toNat &&& x.t.pred b.toNat))
def execPor (g : Guard) (d a b : BitVec 4) (s : State) : Host.Outcome State Fault Refusal :=
  s.issue (fun x => x.predOp s g d (x.t.pred a.toNat ||| x.t.pred b.toNat))
def execPxor (g : Guard) (d a b : BitVec 4) (s : State) : Host.Outcome State Fault Refusal :=
  s.issue (fun x => x.predOp s g d (x.t.pred a.toNat ^^^ x.t.pred b.toNat))
def execPnot (g : Guard) (d a : BitVec 4) (s : State) : Host.Outcome State Fault Refusal :=
  s.issue (fun x => x.predOp s g d (~~~ x.t.pred a.toNat))
def execPset (g : Guard) (d : BitVec 4) (a : Sel) (v : Bool) (s : State) : Host.Outcome State Fault Refusal :=
  s.issue (fun x => do
    let act := x.act g
    if v then
      let t ← x.enter s act [src .v a] [] false
      let y ← x.vec act a
      let m := laneMask ((upTo 32).filter (fun l => laneOf y.data l ≠ 0))
      .ok (s.setTeam x.u (t.finish x.off [src .v a] [.pred d.toNat act m] 0 1))
    else
      let t ← x.enter s act [src .s a] [] false
      let y ← x.scal (act ≠ 0) a
      .ok (s.setTeam x.u (t.finish x.off [src .s a] [.pred d.toNat act (y.setWidth 32)] 0 1)))
def execPget (g : Guard) (d : Dst) (a : BitVec 4) (v : Bool) (s : State) : Host.Outcome State Fault Refusal :=
  s.issue (fun x => do
    let act := x.act g
    let pr := x.t.pred a.toNat
    if v then
      let t ← x.enter s act [] (dstUses .v d) false
      let y := lineOf (fun l => w32 (b1 (pr.getLsbD l)))
      .ok (s.setTeam x.u (t.finish x.off [] [.vec d.idx.toNat d.ws act y none []] 0 1))
    else
      let t ← x.enter s act [] (dstUses .s d) false
      .ok (s.setTeam x.u (t.finish x.off [] [.scal d.idx.toNat d.ws (act ≠ 0) (pr.setWidth 64) none] 0 1)))

end Sys2Proof.Machine
end

