-- ==== Sys2Proof/Machine/Lanes.lean ====
section
/-! DEFINITION. The cross-lane instructions (08_ref_float_block_lane.md R244 to R248) and their halves under COMPAT16
(01_teams_blocks_yards.md R34). -/

namespace Sys2Proof.Machine

/-- Lanes of lane l's half under COMPAT16, all lanes otherwise. -/
def halfOf (compat : Bool) (l : Nat) : Lanes :=
  if compat then (if l < 16 then 0x0000FFFF#32 else 0xFFFF0000#32) else allLanes

/-! ## Shuffles (R245) -/

inductive ShflForm
  | idx | up | down | xor
  deriving DecidableEq, Repr
/-- The source lane of lane l for amount n; none when it is out of range or leaves the half (Tables 01.8, 08.12). -/
def shflSrc (form : ShflForm) (compat : Bool) (l n : Nat) : Option Nat :=
  let hb := if compat then 16 * (l / 16) else 0
  let size := if compat then 16 else 32
  match form with
  | .idx => if n < size then some (hb + n) else none
  | .up => if n ≤ l - hb then some (l - n) else none
  | .down => if l + n < hb + size then some (l + n) else none
  | .xor => if n < size then some (Nat.xor l n) else none

/-- Amounts per lane. -/
def Iss.amounts (x : Iss) (act : Lanes) (ty : Ty) : ShAmt → Except Halt (Nat → Nat)
  | .imm n => .ok (fun _ => n.toNat)
  | .sel b => do
    let y ← x.lanes act (argB ty b)
    .ok (fun l => (y l).toNat)
def shAmtUses (ty : Ty) : ShAmt → List SrcUse
  | .imm _ => []
  | .sel b => (argB ty b).uses

/-- The lane that lane l of a shuffle reads of a; none where it reads c: out of range, or exited (R245). -/
def Iss.pick (x : Iss) (form : ShflForm) (n : Nat → Nat) (l : Nat) : Option Nat :=
  match shflSrc form x.l.compat16 l (n l) with
  | some j => if x.t.exited.getLsbD j then none else some j
  | none => none
def Iss.shfl (x : Iss) (s : State) (form : ShflForm) (g : Guard) (ty : Ty) (d : Dst) (a : Sel) (b : ShAmt) (c : Sel) :
    Except Halt State := do
  let act := x.act g
  let srcs := src .v a :: shAmtUses ty b ++ [src .v c]
  let t ← x.enter s act srcs (dstUses .v d) false
  let n ← x.amounts act ty b
  let pick := x.pick form n
  let from' := laneMask ((lanesOf act).filterMap pick)
  let va ← x.vec from' a
  let vc ← x.vec (laneMask ((lanesOf act).filter (fun l => (pick l).isNone))) c
  let y := lineOf (fun l => match pick l with | some j => laneOf va.data j | none => laneOf vc.data l)
  .ok (s.setTeam x.u (t.finish x.off srcs [.vec d.idx.toNat d.ws act y none []] 0 1))

def execShflIdx (g : Guard) (ty : Ty) (d : Dst) (a : Sel) (b : ShAmt) (c : Sel) (s : State) :
    Host.Outcome State Fault Refusal := s.issue (fun x => x.shfl s .idx g ty d a b c)
def execShflUp (g : Guard) (ty : Ty) (d : Dst) (a : Sel) (b : ShAmt) (c : Sel) (s : State) :
    Host.Outcome State Fault Refusal := s.issue (fun x => x.shfl s .up g ty d a b c)
def execShflDown (g : Guard) (ty : Ty) (d : Dst) (a : Sel) (b : ShAmt) (c : Sel) (s : State) :
    Host.Outcome State Fault Refusal := s.issue (fun x => x.shfl s .down g ty d a b c)
def execShflXor (g : Guard) (ty : Ty) (d : Dst) (a : Sel) (b : ShAmt) (c : Sel) (s : State) :
    Host.Outcome State Fault Refusal := s.issue (fun x => x.shfl s .xor g ty d a b c)

/-! ## Votes, reductions, scans, matches -/

/-- R246: the value of a vote among the given lanes; mask bits count from `base`. -/
def voteVal (m : VoteMode) (lanes p : Lanes) (base : Nat) : W32 :=
  let yes := lanes &&& p
  match m with
  | .mask => yes >>> base
  | .some => w32 (b1 (yes ≠ 0))
  | .every => w32 (b1 (yes = lanes))
  | .agree => w32 (b1 (yes = lanes || yes = 0))
  | .count => w32 (popCount yes)
def execVote (g : Guard) (d : Dst) (p : BitVec 4) (m : VoteMode) (s : State) : Host.Outcome State Fault Refusal :=
  s.issue (fun x => do
    let act := x.act g
    let t ← x.enter s act [] (dstUses .v d) false
    let y := lineOf (fun l => voteVal m (act &&& halfOf x.l.compat16 l) (x.t.pred p.toNat)
      (if x.l.compat16 then 16 * (l / 16) else 0))
    .ok (s.setTeam x.u (t.finish x.off [] [.vec d.idx.toNat d.ws act y none []] 0 1)))

/-- Table 08.13: the combination and the exclusive first value. -/
def laneOpVal (op : LaneOp) (r : BitVec 2) (a b : W32) : W32 × Fl :=
  match op with
  | .iadd => (a + b, 0)
  | .imin => (iminVal false 32 a b, 0)
  | .imax => (imaxVal false 32 a b, 0)
  | .umin => (iminVal true 32 a b, 0)
  | .umax => (imaxVal true 32 a b, 0)
  | .and => (a &&& b, 0)
  | .or => (a ||| b, 0)
  | .xor => (a ^^^ b, 0)
  | .fadd => faddVal r a b
  | .fmin => fminmaxVal false a b
  | .fmax => fminmaxVal true a b
def laneOpFirst (op : LaneOp) : W32 :=
  match op with
  | .iadd | .umax | .or | .xor => 0
  | .imin => 0x7FFFFFFF#32
  | .imax | .fadd => 0x80000000#32
  | .umin | .and => 0xFFFFFFFF#32
  | .fmin => 0x7F800000#32
  | .fmax => 0xFF800000#32
/-- fold(t) for each lane of a list, ascending, with the flags of the steps. -/
def laneFolds (op : LaneOp) (r : BitVec 2) (a : Nat → W32) : List Nat → List (Nat × W32) × Fl
  | [] => ([], 0)
  | k :: ks =>
    let go := fun (acc : W32 × List (Nat × W32) × Fl) (l : Nat) =>
      let y := laneOpVal op r acc.1 (a l)
      (y.1, acc.2.1 ++ [(l, y.1)], acc.2.2 ||| y.2)
    let z := ks.foldl go (a k, [(k, a k)], 0)
    z.2
/-- LRED and LSCAN over one set of lanes: each lane's result (R247). The last combine of an exclusive scan, whose value no lane receives,
raises no flag (a choice of the model, log 76). -/
def laneCombine (op : LaneOp) (r : BitVec 2) (scan excl : Bool) (a : Nat → W32) (ls : List Nat) :
    List (Nat × W32) × Fl :=
  let fs := laneFolds op r a ls
  if !scan then
    let last := match fs.1.getLast? with | some x => x.2 | none => 0
    (ls.map (fun l => (l, last)), fs.2)
  else if excl then ((ls.zip (laneOpFirst op :: fs.1.map (·.2))), (laneFolds op r a ls.dropLast).2)
  else fs
/-- The sets of lanes that combine: one, or the two halves. -/
def laneSets (compat : Bool) (act : Lanes) : List (List Nat) :=
  if compat then [lanesOf (act &&& halfOf true 0), lanesOf (act &&& halfOf true 16)] else [lanesOf act]
def Iss.combineLanes (x : Iss) (s : State) (g : Guard) (d : Dst) (a : Sel) (op : LaneOp) (r : BitVec 2)
    (scan excl : Bool) : Except Halt State := do
  let act := x.act g
  let t ← x.enter s act [src .v a] (dstUses .v d) false
  let v ← x.vec act a
  let rs := (laneSets x.l.compat16 act).map (laneCombine op r scan excl (laneOf v.data))
  let vals := rs.flatMap (·.1)
  let y := lineOf (fun l => (look l vals).getD 0)
  .ok (s.setTeam x.u (t.finish x.off [src .v a] [.vec d.idx.toNat d.ws act y none []]
    (rs.foldl (fun acc z => acc ||| z.2) 0) 1))

def execLred (g : Guard) (d : Dst) (a : Sel) (op : LaneOp) (r : BitVec 2) (s : State) :
    Host.Outcome State Fault Refusal := s.issue (fun x => x.combineLanes s g d a op r false false)
def execLscan (g : Guard) (d : Dst) (a : Sel) (op : LaneOp) (excl : Bool) (r : BitVec 2) (s : State) :
    Host.Outcome State Fault Refusal := s.issue (fun x => x.combineLanes s g d a op r true excl)
/-- R248. -/
def execLmatch (g : Guard) (d : Dst) (a : Sel) (s : State) : Host.Outcome State Fault Refusal :=
  s.issue (fun x => do
    let act := x.act g
    let t ← x.enter s act [src .v a] (dstUses .v d) false
    let v ← x.vec act a
    let y := lineOf (fun l => laneMask ((lanesOf act).filter (fun k => laneOf v.data k = laneOf v.data l)))
    .ok (s.setTeam x.u (t.finish x.off [src .v a] [.vec d.idx.toNat d.ws act y none []] 0 1)))

/-! ## The pair form (05_instruction_word_and_opcode_map.md R156 to R159) -/

/-- A half's result on w bits from its two sources D and A (R157). -/
def pairOpVal (op : POp) (w : Nat) (d a : BitVec w) : BitVec w × Fl :=
  let f := fun (g : W32 → W32 → W32 × Fl) =>
    let y := g (d.setWidth 32) (a.setWidth 32)
    (y.1.setWidth w, y.2)
  match op with
  | .iadd => (d + a, 0)
  | .isub => (d - a, 0)
  | .imul => (d * a, 0)
  | .imin => (iminVal false w d a, 0)
  | .imax => (imaxVal false w d a, 0)
  | .iabs => iabsVal false w a
  | .and => (d &&& a, 0)
  | .or => (d ||| a, 0)
  | .xor => (d ^^^ a, 0)
  | .andn => (d &&& ~~~ a, 0)
  | .shl => (shlVal w d a, 0)
  | .shr => (shrVal w d a, 0)
  | .sar => (sarVal w d a, 0)
  | .mov => (a, 0)
  | .fadd r => f (faddVal r)
  | .fsub r => f (fsubVal r)
  | .fmul r => f (fmulVal r)
  | .fmin => f (fminmaxVal false)
  | .fmax => f (fminmaxVal true)
  | .h2add bf => f (h2addVal bf 0)
  | .h2mul bf => f (h2mulVal bf 0)
def pairUnary : POp → Bool
  | .iabs | .mov => true
  | _ => false
/-- Sources of a half: D by plain index unless the operation is unary, then A. -/
def halfUses (h : Half) (k : Kind) : List SrcUse :=
  (if pairUnary h.op then [] else [src k (.reg h.d false)]) ++ [src k h.a]
/-- The result of a half in its own file. -/
def Iss.half (x : Iss) (act : Lanes) (k : Kind) (h : Half) : Except Halt (Write × Fl) :=
  match k with
  | .v => do
    let vd ← if pairUnary h.op then .ok ({ data := 0, sb := 0, poison := [] } : VVal) else x.vec act (.reg h.d false)
    let va ← x.vec act h.a
    let y := fun l => pairOpVal h.op 32 (laneOf vd.data l) (laneOf va.data l)
    .ok (.vec h.d.toNat false act (lineOf (fun l => (y l).1)) (if h.op = .mov then some va.sb else none) [],
      raisedIn act (fun l => (y l).2))
  | .s => do
    let vd ← if pairUnary h.op then .ok 0 else x.scal (act ≠ 0) (.reg h.d false)
    let va ← x.scal (act ≠ 0) h.a
    let y := pairOpVal h.op 64 vd va
    .ok (.scal h.d.toNat false (act ≠ 0) y.1 none, if act ≠ 0 then y.2 else 0)
def halfGuard (h : Half) : Guard := { p := h.p.setWidth 4, neg := h.neg }

/-- R158, R159: both halves read before either writes; half 0's result enters the latches first. -/
def execPair (h0 h1 : Half) (hs : Bool) (s : State) : Host.Outcome State Fault Refusal :=
  s.issue (fun x => do
    let k1 : Kind := if hs then .s else .v
    let a0 := x.act (halfGuard h0)
    let a1 := x.act (halfGuard h1)
    let srcs := halfUses h0 .v ++ halfUses h1 k1
    let d0 : List DstUse := if a0 = 0 then [] else [{ k := .v, idx := h0.d.toNat, n := 1 }]
    let d1 : List DstUse := if a1 = 0 then [] else [{ k := k1, idx := h1.d.toNat, n := 1 }]
    let t ← x.enter s (a0 ||| a1) srcs (d0 ++ d1) false
    let w0 ← x.half a0 .v h0
    let w1 ← x.half a1 k1 h1
    .ok (s.setTeam x.u (t.finish x.off srcs [w0.1, w1.1] (w0.2 ||| w1.2) 1)))

end Sys2Proof.Machine
end

