-- ==== Sys2Proof/Machine/Links.lean ====
section
/-! DEFINITION. Attachments and errors: UALink and CXL links, timeouts, uncorrectable errors (17_translation_errors_links.md R402,
R423, R432, R433, R435, R437, R439; 18_fleet_operation.md R449). -/

namespace Sys2Proof.Machine

/-! ## Expander requests that fail (R435) -/

/-- Parts of an operation at an expander address that a test names end with poison of a code, each counted. -/
def State.failOp (s : State) (o : MemOp) (code : Nat) (hit : Nat → Bool) : State :=
  let bad := fun (p : LinePart) => p.atExpander && hit (128 * p.line)
  let badA := fun (p : AtomPart) => p.atExpander && hit p.addr
  let k : OpKind := match o.kind with
    | .load a b c d ps ls => .load a b c d (ps.map (fun p => if bad p then { p with got := some (0, 0, code + 65536 * p.need.toNat, .zero, []) } else p)) ls
    | .line a b c p => .line a b c (if bad p then { p with got := some (0, 0, code + 65536 * p.need.toNat, .zero, []) } else p)
    | .atomic f n ps => .atomic f n (ps.map (fun p => if badA p then
        { p with got := some (p.lanes.map (fun y => (y.1, 0#64)), code, .zero), parked := false, refused := false } else p))
    | k => k
  let n := (o.kind.lineParts.filter bad).length + (o.kind.atomParts.filter badA).length
  (upTo n).foldl (fun (s : State) _ => s.countX) (s.setOp { o with kind := k })
/-- What a write holds for such addresses is dropped, with its report; the rest of it goes on. -/
def State.failWrite (s : State) (w : NWrite) (code : Nat) (hit : Nat → Bool) : State :=
  let hit := fun a => inExpander a && hit a
  let live := w.body.part (fun a => !hit a)
  let rest := if live.none? then s.net.writes.filter (fun y => y.id ≠ w.id)
    else s.net.writes.map (fun y => if y.id = w.id then { y with body := live } else y)
  (s.setNet (fun n => { n with writes := rest })).dropWrite { w with body := w.body.part hit } code
def WBody.hits (w : WBody) (hit : Nat → Bool) : Bool := !(w.part (fun a => inExpander a && hit a)).none?
/-- Parked atomics whose answer has come leave their pounds. -/
def State.unpark (s : State) : State :=
  let live := fun (y : Parked) => match s.opAt y.op with
    | some o => (match (o.kind.atomParts.drop y.part).head? with | some p => p.got.isNone | none => false)
    | none => false
  { s with dies := s.dies.map (fun (d : Die) => { d with pounds := d.pounds.map (fun q => (q.1, q.2.filter live)) }) }
/-- Outstanding requests at addresses that a test names fail. -/
def State.failAt (s : State) (code : Nat) (hit : Nat → Bool) : State :=
  let s := s.net.ops.foldl (fun (s : State) (o : MemOp) => s.failOp o code hit) s
  let s := (s.net.writes.filter (fun w => w.body.hits hit)).foldl (fun (s : State) (w : NWrite) => s.failWrite w code hit) s
  s.unpark
/-- CXL_LINK_FAILURE: every window of the port fails; its lines leave the caches, so that later loads are poisoned too. -/
def execCxlLinkFailure (port : Nat) (s : State) : Host.Outcome State Fault Refusal :=
  .next (
    let mine := fun (w : XWin) => decide (w.port.toNat = port)
    let hit := fun (pa : Nat) => mine (s.xwinAt pa)
    let s := { s with io := { s.io with xwins := s.io.xwins.map (fun w => if mine w then { w with failed := true, en := false } else w) } }
    let gone := fun (l : Nat) => inExpander (128 * l) && hit (128 * l)
    let s := { s with
      cores := s.cores.map (fun (y : Nat × Core) => (y.1, { y.2 with l1 := y.2.l1.filter (fun l => !gone l.line) }))
      dies := s.dies.map (fun (d : Die) => { d with rdc := d.rdc.filter (fun l => !gone l.line) })
      io := { s.io with hostCache := s.io.hostCache.filter (fun l => !gone l.line) } }
    (s.failAt 0x0402 hit).tell { time := 0, die := 8, code := Config.eventCode 2, tag := 0, addr := 0 })
/-- A copy or a transfer whose read has not been answered: its data are uncorrectable (R403). -/
def State.failUnit (s : State) (id : Nat) : State :=
  match look id s.xCopies, s.xferAt id with
  | some k, _ => (s.copyCancel (k / 512) (k % 512) id 4 0).countX
  | none, some f => (s.xferFail f 2).countX
  | none, none => s
/-- CXL_COMPLETION_TIMEOUT: a request that has waited XTO. -/
def execCxlCompletionTimeout (id : Nat) (s : State) : Host.Outcome State Fault Refusal :=
  .next (
    let old := match look id s.net.xwait with | some k => decide (s.io.xto.toNat ≤ k) | none => false
    if !old then s
    else match s.opAt id, first (fun (w : NWrite) => w.id = id) s.net.writes with
      | some o, _ => (s.failOp o 0x0403 (fun _ => true)).unpark
      | none, some w => s.failWrite w 0x0403 (fun _ => true)
      | none, none => s.failUnit id)

/-! ## UALink (R432, R433, R439) -/

def State.modPort (s : State) (n : Nat) (f : Port → Port) : State := { s with io := { s.io with ports := modAt n f s.io.ports } }
/-- FABRIC_LINK_UP: CAPS is recorded; a malformed block is discarded. -/
def execFabricLinkUp (port : Nat) (caps : ExtBlock) (s : State) : Host.Outcome State Fault Refusal :=
  .next (
    let ok := extType caps = 8 && extOk caps
    s.modPort port (fun p => { up := true, retrains := p.retrains + b1 p.trained, combine := ok && bitOf caps.d1 0
                               slots := if ok then bits caps.d1 8 8 else 0, trained := true }))
/-- The Redfish event of a port (Table 18.5), while Solnal is on. -/
def portEvent (s : Solnal) (fabid : BitVec 10) : Event :=
  { time := s.clock, kind := 432, fabid := fabid, die := 8, tag := 0, coll := 0, status := 0, chunks := 0, lostPkg := 0x7FF }
def State.portEvent (s : State) : State :=
  if s.solnal.on then { s with solnal := { s.solnal with events := s.solnal.events ++ [Machine.portEvent s.solnal s.io.fabid] } } else s
/-- UALINK_LINK_FAILURE: the port goes down, and Solnal records it and issues the port's event. -/
def execUalinkLinkFailure (port : Nat) (s : State) : Host.Outcome State Fault Refusal :=
  .next ((s.modPort port (fun p => { p with up := false })).tell
    { time := 0, die := 8, code := Config.eventCode 2, tag := 0, addr := 0 }).portEvent
/-- A part of an operation that no package answers. -/
def State.poisonPart (s : State) (op part : Nat) : State :=
  match s.opAt op with
  | none => s
  | some o =>
    let lines := (o.kind.lineParts.drop part).head?
    let atoms := (o.kind.atomParts.drop part).head?
    match lines, atoms with
    | some p, _ => if p.got.isSome then s else s.setOp (o.setLine part { p with got := some (0, 0, 0x0404 + 65536 * p.need.toNat, .zero, []) })
    | none, some p => if p.got.isSome then s else s.setOp (o.setAtom part { p with got := some (p.lanes.map (fun y => (y.1, 0#64)), 0x0404, .zero) })
    | none, none => s
/-- FABRIC_TIMEOUT: a request has waited FABTO for a usable route. -/
def execFabricTimeout (id : Nat) (s : State) : Host.Outcome State Fault Refusal :=
  .next (match first (fun (o : OutReq) => o.id = id) s.net.out with
    | none => s
    | some o =>
      if o.waited < s.io.fabto.toNat || !s.unreachable o.pkg o.cls then s
      else
        let s := (s.setNet (fun n => { n with out := n.out.filter (fun y => y.id ≠ id) })).countFab
        match o.kind with
        | .load op part | .atomic op part => s.poisonPart op part
        | .write w _ =>
          let at_ := match w.pieces with | p :: _ => p.addr | [] => 0
          let u := o.team.getD 0
          if o.team.isSome then s.engineReport u (s.whoIs u).key false o.die (s.coreOfTeam u) o.ctx o.pc 0x0503 at_ 1 else s
        | .puts x _ _ | .gets x _ | .signal x => (match s.xferAt x with
          | some f => s.xferFail f 1
          | none => s)
        | .reply _ _ | .host _ _ _ _ _ _ => s
        | .coll m => (match first (fun (c : Coll) => c.ctx = o.ctx && c.die = o.die && collTag c.pb = extTag m.ext && c.status = 0) s.net.colls with
          | some c => s.collFailAll c.id 3 o.pkg
          | none => s))

/-! ## Uncorrectable errors (R402, R423, Table 17.11) -/

/-- The context with an owner tag. -/
def State.ctxOfTag (s : State) (tag : Nat) : Option Nat :=
  (first (fun (y : Nat × Ctx) => y.2.valid && y.2.tag = tag && tag ≠ 0) s.sched.ctxs).map Prod.fst
/-- A context is ended by an error on a die. -/
def State.endByError (s : State) (c die core addr : Nat) : State :=
  if !(s.ctxAt c).valid then s
  else (s.endError c die core 0x0601 0 addr).endRun c
def Mem.poisonLine (m : Mem) (line : Nat) : Mem :=
  { m with poison := (upTo 4).foldl (fun p i => place (4 * line + i) 0x0401 p) m.poison }
/-- A dirty line of an L2: a commit that has locked it, else its owner, is ended; it is written back poisoned. -/
def State.dirtyLine (s : State) (line owner : Nat) : State :=
  let die := s.homeOf (128 * line)
  let s := { s with mem := s.mem.poisonLine line }
  let s := s.modDie die (fun d => { d with l2 := d.l2.filter (fun x => x.line ≠ line) })
  let locker := first (fun (y : Nat × Team) => (upTo 4).any (fun i => y.2.locks .mem (4 * line + i)) || y.2.locks .memSide line) s.teams
  let c := match locker with
    | some y => some (s.ctxOf y.2.block)
    | none => s.ctxOfTag owner
  match c with
  | some c => (s.contained die 0x0601 (s.tagOf c) (128 * line)).endByError c die 0 (128 * line)
  | none => s.contained die 0x0601 0 (128 * line)
/-- The physical address of a buffered try sector; a sector of the scratchpad has none. -/
def BufSec.pa (b : BufSec) : Nat := match b.kind with | .mem => 32 * b.key | .memSide => 128 * b.key | .spad | .spadSide => 0
/-- The team whose state is struck at an address: its context is ended. -/
def State.strikeTeam (s : State) (u : Nat) (at_ : Team → Option Nat) : State :=
  match s.teamAt u with
  | none => s
  | some t =>
    match at_ t with
    | none => s
    | some pa =>
      let b := s.block t.block
      let c := s.ctxOf t.block
      (s.contained b.die 0x0601 (s.tagOf c) pa).endByError c b.die b.core pa
/-- A struck register lane: where the register is mapped as the snapshot of an open region holds it, the snapshot's word is the same
(R402). One that has been found is logged; any other waits for the read that finds it. -/
def Team.strikeV (t : Team) (idx lane : Nat) (found : Bool) : Team :=
  let hit := change idx (fun r => r.poisonWith (if found then 0x0405 else latentError) lane)
  { t with vregs := hit t.vregs, region := if t.held .v idx then t.region.map (fun r => { r with sVregs := hit r.sVregs }) else t.region }
def Team.strikeS (t : Team) (idx : Nat) (found : Bool) : Team :=
  let hit := change idx (fun r => { r with poison := some ⟨0, if found then 0x0405 else latentError, 0⟩ })
  { t with sregs := hit t.sregs, region := if t.held .s idx then t.region.map (fun r => { r with sSregs := hit r.sSregs }) else t.region }
/-- UNCORRECTABLE_ERROR: nothing happens at a site that holds nothing. -/
def execUncorrectableError (site : ErrSite) (s : State) : Host.Outcome State Fault Refusal :=
  .next (match site with
    | .l1 die core line =>
      if (s.coreAt die core).l1.any (fun l => l.line = line) then
        (s.modCore die core (fun c => { c with l1 := c.l1.filter (fun l => l.line ≠ line) })).contained die 0x0601 0 (128 * line)
      else s
    | .rdc die line =>
      if (s.die die).rdc.any (fun l => l.line = line) then
        (s.modDie die (fun d => { d with rdc := d.rdc.filter (fun l => l.line ≠ line) })).contained die 0x0601 0 (128 * line)
      else s
    | .l2 line =>
      let die := s.homeOf (128 * line)
      (match first (fun (x : L2Line) => x.line = line) (s.die die).l2 with
      | none => s
      | some x =>
        if x.dirty then s.dirtyLine line x.owner
        else (s.modDie die (fun d => { d with l2 := d.l2.filter (fun y => y.line ≠ line) })).contained die 0x0601 0 (128 * line))
    | .tryBuffer u k => s.strikeTeam u (fun t => t.region.bind (fun r => (r.buf.drop k).head?.map BufSec.pa))
    | .storeQueue u k => s.strikeTeam u (fun t => (t.queue.drop k).head?.map (fun e => e.view.addr))
    | .pound die slice k =>
      (match ((s.pound die slice).drop k).head? with
      | none => s
      | some y => (match s.opAt y.op with
        | some o => (s.contained die 0x0601 (s.tagOf o.ctx) (32 * y.sector)).endByError o.ctx die 0 (32 * y.sector)
        | none => s))
    | .spad blk line =>
      (match s.blockAt blk with
      | none => s
      | some b => (s.modBlock blk (fun b => { b with
          spadPoison := (upTo 4).foldl (fun p i => place (4 * line + i) 0x0401 p) b.spadPoison })).contained b.die 0x0401 (s.tagOf (s.ctxOf blk)) 0)
    | .tile blk word =>
      (match s.blockAt blk with
      | none => s
      | some b => (s.modBlock blk (fun b => { b with
          tilePoison := if b.tilePoison.contains word then b.tilePoison else b.tilePoison ++ [word] })).contained b.die 0x0401 (s.tagOf (s.ctxOf blk)) 0)
    | .vreg u idx lane found =>
      (match s.teamAt u with
      | none => s
      | some t => if t.mapped .v idx && lane < 32 then
          (let s := s.modTeam u (fun t => t.strikeV idx lane found)
           if found then s.logReg u t Config.physVec else s)
        else s)
    | .sreg u idx found =>
      (match s.teamAt u with
      | none => s
      | some t => if t.mapped .s idx then
          (let s := s.modTeam u (fun t => t.strikeS idx found)
           if found then s.logReg u t Config.physScal else s)
        else s)
    | .hbm sector =>
      if 2 ^ 40 ≤ 32 * sector && !inExpander (32 * sector) then s
      else { s with mem := { s.mem with poison := place sector 0x0401 s.mem.poison } }.tell
        { time := 0, die := s.homeOf (32 * sector), code := 0x0401, tag := 0, addr := 32 * sector })

end Sys2Proof.Machine
end

