-- ==== Sys2Proof/Machine/Dispatch.lean ====
section
/-! DEFINITION. What each instruction and event does: one direct call for each constructor of Instr. -/

namespace Sys2Proof.Machine

def exec (i : Instr) (s : State) : Host.Outcome State Fault Refusal :=
  match i with
  | .nop g => Sys2Proof.Machine.execNop g s
  | .bra g disp m => Sys2Proof.Machine.execBra g disp m s
  | .brc g disp rdisp => Sys2Proof.Machine.execBrc g disp rdisp s
  | .brx g a m => Sys2Proof.Machine.execBrx g a m s
  | .call g d disp => Sys2Proof.Machine.execCall g d disp s
  | .callx g d a => Sys2Proof.Machine.execCallx g d a s
  | .ret g a => Sys2Proof.Machine.execRet g a s
  | .reconv g => Sys2Proof.Machine.execReconv g s
  | .exit g => Sys2Proof.Machine.execExit g s
  | .yield g => Sys2Proof.Machine.execYield g s
  | .loop g d disp => Sys2Proof.Machine.execLoop g d disp s
  | .lnch g d a b nb => Sys2Proof.Machine.execLnch g d a b nb s
  | .mfs g d r => Sys2Proof.Machine.execMfs g d r s
  | .mts g r a => Sys2Proof.Machine.execMts g r a s
  | .trap g code => Sys2Proof.Machine.execTrap g code s
  | .tfence g => Sys2Proof.Machine.execTfence g s
  | .bkpt g => Sys2Proof.Machine.execBkpt g s
  | .reth g => Sys2Proof.Machine.execReth g s
  | .iadd g ty d a b m => Sys2Proof.Machine.execIadd g ty d a b m s
  | .isub g ty d a b m => Sys2Proof.Machine.execIsub g ty d a b m s
  | .iaddc g ty d a b c co => Sys2Proof.Machine.execIaddc g ty d a b c co s
  | .imul g ty d a b => Sys2Proof.Machine.execImul g ty d a b s
  | .imulh g ty d a b u => Sys2Proof.Machine.execImulh g ty d a b u s
  | .imulw g ty d a b u => Sys2Proof.Machine.execImulw g ty d a b u s
  | .imad g ty d a b c => Sys2Proof.Machine.execImad g ty d a b c s
  | .idiv g ty d a b u => Sys2Proof.Machine.execIdiv g ty d a b u s
  | .irem g ty d a b u => Sys2Proof.Machine.execIrem g ty d a b u s
  | .imin g ty d a b u => Sys2Proof.Machine.execImin g ty d a b u s
  | .imax g ty d a b u => Sys2Proof.Machine.execImax g ty d a b u s
  | .iabs g ty d a sat => Sys2Proof.Machine.execIabs g ty d a sat s
  | .and g ty d a b => Sys2Proof.Machine.execAnd g ty d a b s
  | .or g ty d a b => Sys2Proof.Machine.execOr g ty d a b s
  | .xor g ty d a b => Sys2Proof.Machine.execXor g ty d a b s
  | .andn g ty d a b => Sys2Proof.Machine.execAndn g ty d a b s
  | .shl g ty d a b => Sys2Proof.Machine.execShl g ty d a b s
  | .shr g ty d a b => Sys2Proof.Machine.execShr g ty d a b s
  | .sar g ty d a b => Sys2Proof.Machine.execSar g ty d a b s
  | .shf g ty d a b c left => Sys2Proof.Machine.execShf g ty d a b c left s
  | .rot g ty d a b left => Sys2Proof.Machine.execRot g ty d a b left s
  | .popc g ty d a => Sys2Proof.Machine.execPopc g ty d a s
  | .clz g ty d a => Sys2Proof.Machine.execClz g ty d a s
  | .ctz g ty d a => Sys2Proof.Machine.execCtz g ty d a s
  | .brev g ty d a => Sys2Proof.Machine.execBrev g ty d a s
  | .bfx g ty d a b q => Sys2Proof.Machine.execBfx g ty d a b q s
  | .bfi g ty d a b c => Sys2Proof.Machine.execBfi g ty d a b c s
  | .lea g ty d a b k w32 => Sys2Proof.Machine.execLea g ty d a b k w32 s
  | .icmp g ty p a b cond m => Sys2Proof.Machine.execIcmp g ty p a b cond m s
  | .isel g ty d a b p => Sys2Proof.Machine.execIsel g ty d a b p s
  | .mov g ty d a => Sys2Proof.Machine.execMov g ty d a s
  | .movi g ty d v => Sys2Proof.Machine.execMovi g ty d v s
  | .movl g ty d v => Sys2Proof.Machine.execMovl g ty d v s
  | .pand g d a b => Sys2Proof.Machine.execPand g d a b s
  | .por g d a b => Sys2Proof.Machine.execPor g d a b s
  | .pxor g d a b => Sys2Proof.Machine.execPxor g d a b s
  | .pnot g d a => Sys2Proof.Machine.execPnot g d a s
  | .pset g d a v => Sys2Proof.Machine.execPset g d a v s
  | .pget g d a v => Sys2Proof.Machine.execPget g d a v s
  | .fadd g ty d a b r => Sys2Proof.Machine.execFadd g ty d a b r s
  | .fsub g ty d a b r => Sys2Proof.Machine.execFsub g ty d a b r s
  | .fmul g ty d a b r => Sys2Proof.Machine.execFmul g ty d a b r s
  | .fma g ty d a b c np nc r => Sys2Proof.Machine.execFma g ty d a b c np nc r s
  | .fmin g ty d a b => Sys2Proof.Machine.execFmin g ty d a b s
  | .fmax g ty d a b => Sys2Proof.Machine.execFmax g ty d a b s
  | .fcmp g ty p a b cond m => Sys2Proof.Machine.execFcmp g ty p a b cond m s
  | .frnd g ty d a r => Sys2Proof.Machine.execFrnd g ty d a r s
  | .fclass g ty p a mask m => Sys2Proof.Machine.execFclass g ty p a mask m s
  | .fdiv g ty d a b r => Sys2Proof.Machine.execFdiv g ty d a b r s
  | .h2add g ty d a b bf r => Sys2Proof.Machine.execH2add g ty d a b bf r s
  | .h2mul g ty d a b bf r => Sys2Proof.Machine.execH2mul g ty d a b bf r s
  | .h2fma g ty d a b c bf r => Sys2Proof.Machine.execH2fma g ty d a b c bf r s
  | .fdot2 g ty d a b c bf r => Sys2Proof.Machine.execFdot2 g ty d a b c bf r s
  | .rcp g ty d a acc => Sys2Proof.Machine.execRcp g ty d a acc s
  | .rsq g ty d a acc => Sys2Proof.Machine.execRsq g ty d a acc s
  | .sqrt g ty d a acc => Sys2Proof.Machine.execSqrt g ty d a acc s
  | .exp2 g ty d a acc => Sys2Proof.Machine.execExp2 g ty d a acc s
  | .log2 g ty d a acc => Sys2Proof.Machine.execLog2 g ty d a acc s
  | .sin g ty d a acc => Sys2Proof.Machine.execSin g ty d a acc s
  | .cos g ty d a acc => Sys2Proof.Machine.execCos g ty d a acc s
  | .tanh g ty d a acc => Sys2Proof.Machine.execTanh g ty d a acc s
  | .sigm g ty d a acc => Sys2Proof.Machine.execSigm g ty d a acc s
  | .cvt g ty d a dst src cm r => Sys2Proof.Machine.execCvt g ty d a dst src cm r s
  | .cvts g d a dst cm => Sys2Proof.Machine.execCvts g d a dst cm s
  | .bmax g d a => Sys2Proof.Machine.execBmax g d a s
  | .bscale g d a f => Sys2Proof.Machine.execBscale g d a f s
  | .bqnt g ty d a b f j lay cm r => Sys2Proof.Machine.execBqnt g ty d a b f j lay cm r s
  | .bdq g d a j => Sys2Proof.Machine.execBdq g d a j s
  | .brsc g d a mode cm r => Sys2Proof.Machine.execBrsc g d a mode cm r s
  | .bsum g d a j all r => Sys2Proof.Machine.execBsum g d a j all r s
  | .sget g d a j fmt => Sys2Proof.Machine.execSget g d a j fmt s
  | .sset g ty d a b j fmt => Sys2Proof.Machine.execSset g ty d a b j fmt s
  | .bpack g d a j => Sys2Proof.Machine.execBpack g d a j s
  | .bunpk g d a j q => Sys2Proof.Machine.execBunpk g d a j q s
  | .shflIdx g ty d a b c => Sys2Proof.Machine.execShflIdx g ty d a b c s
  | .shflUp g ty d a b c => Sys2Proof.Machine.execShflUp g ty d a b c s
  | .shflDown g ty d a b c => Sys2Proof.Machine.execShflDown g ty d a b c s
  | .shflXor g ty d a b c => Sys2Proof.Machine.execShflXor g ty d a b c s
  | .vote g d p m => Sys2Proof.Machine.execVote g d p m s
  | .lred g d a op r => Sys2Proof.Machine.execLred g d a op r s
  | .lscan g d a op excl r => Sys2Proof.Machine.execLscan g d a op excl r s
  | .lmatch g d a => Sys2Proof.Machine.execLmatch g d a s
  | .ld g d a w prv scl o => Sys2Proof.Machine.execLd g d a w prv scl o s
  | .st g a b w prv scl o => Sys2Proof.Machine.execSt g a b w prv scl o s
  | .lds g d a w scl o => Sys2Proof.Machine.execLds g d a w scl o s
  | .sts g a b w scl o => Sys2Proof.Machine.execSts g a b w scl o s
  | .ldc g d a w scl => Sys2Proof.Machine.execLdc g d a w scl s
  | .ldb g d a sp => Sys2Proof.Machine.execLdb g d a sp s
  | .stb g a b sp => Sys2Proof.Machine.execStb g a b sp s
  | .pref g a scl l1 => Sys2Proof.Machine.execPref g a scl l1 s
  | .stm g a b w k => Sys2Proof.Machine.execStm g a b w k s
  | .atom g d a b op b64 scl o => Sys2Proof.Machine.execAtom g d a b op b64 scl o s
  | .cas g d a b b64 scl o => Sys2Proof.Machine.execCas g d a b b64 scl o s
  | .red g a b op b64 scl o => Sys2Proof.Machine.execRed g a b op b64 scl o s
  | .atoms g d a b op b64 scl o => Sys2Proof.Machine.execAtoms g d a b op b64 scl o s
  | .cass g d a b b64 scl o => Sys2Proof.Machine.execCass g d a b b64 scl o s
  | .fence g q k => Sys2Proof.Machine.execFence g q k s
  | .fenceDevSc g => Sys2Proof.Machine.execFenceDevSc g s
  | .binit g a n => Sys2Proof.Machine.execBinit g a n s
  | .arrive g a cnt q => Sys2Proof.Machine.execArrive g a cnt q s
  | .arriveYard g k cnt dev => Sys2Proof.Machine.execArriveYard g k cnt dev s
  | .expect g r b => Sys2Proof.Machine.execExpect g r b s
  | .wait g r b => Sys2Proof.Machine.execWait g r b s
  | .waitBatch g b => Sys2Proof.Machine.execWaitBatch g b s
  | .testp g p r b => Sys2Proof.Machine.execTestp g p r b s
  | .watch g d a b => Sys2Proof.Machine.execWatch g d a b s
  | .unwatch g a => Sys2Proof.Machine.execUnwatch g a s
  | .tryT g disp => Sys2Proof.Machine.execTryT g disp s
  | .tryL g disp rdisp => Sys2Proof.Machine.execTryL g disp rdisp s
  | .commit g q => Sys2Proof.Machine.execCommit g q s
  | .commitSplit g q => Sys2Proof.Machine.execCommitSplit g q s
  | .abort g code => Sys2Proof.Machine.execAbort g code s
  | .abortl g code => Sys2Proof.Machine.execAbortl g code s
  | .tstat g d k => Sys2Proof.Machine.execTstat g d k s
  | .sqocc g d => Sys2Proof.Machine.execSqocc g d s
  | .sbget g d => Sys2Proof.Machine.execSbget g d s
  | .cpy g pb => Sys2Proof.Machine.execCpy g pb s
  | .cbatch g d => Sys2Proof.Machine.execCbatch g d s
  | .mma g pb => Sys2Proof.Machine.execMma g pb s
  | .mzero g a b => Sys2Proof.Machine.execMzero g a b s
  | .mload g d a n => Sys2Proof.Machine.execMload g d a n s
  | .mstoreV g a b => Sys2Proof.Machine.execMstoreV g a b s
  | .mstoreS g slot a b c => Sys2Proof.Machine.execMstoreS g slot a b c s
  | .actld g slot a => Sys2Proof.Machine.execActld g slot a s
  | .harn g n h => Sys2Proof.Machine.execHarn g n h s
  | .unharn g => Sys2Proof.Machine.execUnharn g s
  | .slotw g h mask => Sys2Proof.Machine.execSlotw g h mask s
  | .coll g pb => Sys2Proof.Machine.execColl g pb s
  | .puts g a b c spad => Sys2Proof.Machine.execPuts g a b c spad s
  | .gets g a b c spad => Sys2Proof.Machine.execGets g a b c spad s
  | .mirwWin g a b k => Sys2Proof.Machine.execMirwWin g a b k s
  | .mirwPort g d a b => Sys2Proof.Machine.execMirwPort g d a b s
  | .pair h0 h1 hs => Sys2Proof.Machine.execPair h0 h1 hs s
  | .blockAdmission launch => Sys2Proof.Machine.execBlockAdmission launch s
  | .teamRetirement team => Sys2Proof.Machine.execTeamRetirement team s
  | .blockRetirement block => Sys2Proof.Machine.execBlockRetirement block s
  | .launchAccept part => Sys2Proof.Machine.execLaunchAccept part s
  | .launchEnd launch => Sys2Proof.Machine.execLaunchEnd launch s
  | .lnchDeferredAppend team off => Sys2Proof.Machine.execLnchDeferredAppend team off s
  | .longLatencyResult op => Sys2Proof.Machine.execLongLatencyResult op s
  | .storeQueueDrain team => Sys2Proof.Machine.execStoreQueueDrain team s
  | .storeApply write => Sys2Proof.Machine.execStoreApply write s
  | .clockAnnouncement k => Sys2Proof.Machine.execClockAnnouncement k s
  | .loadService op part reply => Sys2Proof.Machine.execLoadService op part reply s
  | .writeWindowOpen die stack => Sys2Proof.Machine.execWriteWindowOpen die stack s
  | .rdcLineExpiry die line => Sys2Proof.Machine.execRdcLineExpiry die line s
  | .scFenceSequence => Sys2Proof.Machine.execScFenceSequence s
  | .budgetPeriod die => Sys2Proof.Machine.execBudgetPeriod die s
  | .atomicApply op part reply => Sys2Proof.Machine.execAtomicApply op part reply s
  | .poundReplay die slice => Sys2Proof.Machine.execPoundReplay die slice s
  | .atomicResend op part => Sys2Proof.Machine.execAtomicResend op part s
  | .remoteArrival k => Sys2Proof.Machine.execRemoteArrival k s
  | .watchEvent k => Sys2Proof.Machine.execWatchEvent k s
  | .monitorLoss die core k => Sys2Proof.Machine.execMonitorLoss die core k s
  | .conflictNotice k => Sys2Proof.Machine.execConflictNotice k s
  | .copyLanding die core copy n => Sys2Proof.Machine.execCopyLanding die core copy n s
  | .mmaExecute die core => Sys2Proof.Machine.execMmaExecute die core s
  | .tileOpExecute die core => Sys2Proof.Machine.execTileOpExecute die core s
  | .actldBankLoad die core => Sys2Proof.Machine.execActldBankLoad die core s
  | .collDeclaration coll reports decl => Sys2Proof.Machine.execCollDeclaration coll reports decl s
  | .collCreqReceive m => Sys2Proof.Machine.execCollCreqReceive m s
  | .collCresultReceive m => Sys2Proof.Machine.execCollCresultReceive m s
  | .collGrantReceive m => Sys2Proof.Machine.execCollGrantReceive m s
  | .collClossReceive m => Sys2Proof.Machine.execCollClossReceive m s
  | .collChunkTimeout coll chunk => Sys2Proof.Machine.execCollChunkTimeout coll chunk s
  | .putsSignalArrival k => Sys2Proof.Machine.execPutsSignalArrival k s
  | .fabricIngressWrite r => Sys2Proof.Machine.execFabricIngressWrite r s
  | .getsLanding xfer n reply => Sys2Proof.Machine.execGetsLanding xfer n reply s
  | .transferFailure xfer code => Sys2Proof.Machine.execTransferFailure xfer code s
  | .mirroredStoreArrival k => Sys2Proof.Machine.execMirroredStoreArrival k s
  | .timeSliceExpiry part => Sys2Proof.Machine.execTimeSliceExpiry part s
  | .graceExpiry part => Sys2Proof.Machine.execGraceExpiry part s
  | .contextEviction part => Sys2Proof.Machine.execContextEviction part s
  | .contextStart part => Sys2Proof.Machine.execContextStart part s
  | .partitionRelinquish part => Sys2Proof.Machine.execPartitionRelinquish part s
  | .imageLanding k => Sys2Proof.Machine.execImageLanding k s
  | .regsDeadlockPark die core => Sys2Proof.Machine.execRegsDeadlockPark die core s
  | .spillReturn die core => Sys2Proof.Machine.execSpillReturn die core s
  | .watchdogLimit team => Sys2Proof.Machine.execWatchdogLimit team s
  | .faultEntryDeferred die => Sys2Proof.Machine.execFaultEntryDeferred die s
  | .faultRetry die seq => Sys2Proof.Machine.execFaultRetry die seq s
  | .faultKill die seq => Sys2Proof.Machine.execFaultKill die seq s
  | .lqpush queue v => Sys2Proof.Machine.execLqpush queue v s
  | .contextValidate part slot v => Sys2Proof.Machine.execContextValidate part slot v s
  | .contextEnd part slot => Sys2Proof.Machine.execContextEnd part slot s
  | .partdiesWrite part v => Sys2Proof.Machine.execPartdiesWrite part v s
  | .debugHalt part => Sys2Proof.Machine.execDebugHalt part s
  | .debugResume part => Sys2Proof.Machine.execDebugResume part s
  | .invalidateGo v => Sys2Proof.Machine.execInvalidateGo v s
  | .invalidationComplete => Sys2Proof.Machine.execInvalidationComplete s
  | .migrationFenceArm die n v => Sys2Proof.Machine.execMigrationFenceArm die n v s
  | .migrationRelease die n v => Sys2Proof.Machine.execMigrationRelease die n v s
  | .migrationMove die n => Sys2Proof.Machine.execMigrationMove die n s
  | .migrationDone die n => Sys2Proof.Machine.execMigrationDone die n s
  | .pinWindowEnable die n v => Sys2Proof.Machine.execPinWindowEnable die n v s
  | .homecfgWrite v => Sys2Proof.Machine.execHomecfgWrite v s
  | .measurementExtend v => Sys2Proof.Machine.execMeasurementExtend v s
  | .attestationGo v => Sys2Proof.Machine.execAttestationGo v s
  | .attestationDone => Sys2Proof.Machine.execAttestationDone s
  | .xwinEnable n v => Sys2Proof.Machine.execXwinEnable n v s
  | .telemetryCounterClear die n => Sys2Proof.Machine.execTelemetryCounterClear die n s
  | .registerWrite pa v => Sys2Proof.Machine.execRegisterWrite pa v s
  | .cxlLinkFailure port => Sys2Proof.Machine.execCxlLinkFailure port s
  | .cxlCompletionTimeout id => Sys2Proof.Machine.execCxlCompletionTimeout id s
  | .fabricLinkUp port caps => Sys2Proof.Machine.execFabricLinkUp port caps s
  | .fabricTimeout id => Sys2Proof.Machine.execFabricTimeout id s
  | .pcieInboundRequest relaxed op => Sys2Proof.Machine.execPcieInboundRequest relaxed op s
  | .uncorrectableError site => Sys2Proof.Machine.execUncorrectableError site s
  | .demandScrubWriteback sector => Sys2Proof.Machine.execDemandScrubWriteback sector s
  | .packageReset => Sys2Proof.Machine.execPackageReset s
  | .mainPowerUp => Sys2Proof.Machine.execMainPowerUp s
  | .supplyUndervoltage => Sys2Proof.Machine.execSupplyUndervoltage s
  | .powerCapSet watts => Sys2Proof.Machine.execPowerCapSet watts s
  | .clockStepDown mean10 => Sys2Proof.Machine.execClockStepDown mean10 s
  | .clockStepUp mean100 => Sys2Proof.Machine.execClockStepUp mean100 s
  | .telemetrySample power temps => Sys2Proof.Machine.execTelemetrySample power temps s
  | .datetimeSet us => Sys2Proof.Machine.execDatetimeSet us s
  | .firmwareUpdate img => Sys2Proof.Machine.execFirmwareUpdate img s
  | .solnalAttestationRequest nonce => Sys2Proof.Machine.execSolnalAttestationRequest nonce s
  | .ualinkLinkFailure port => Sys2Proof.Machine.execUalinkLinkFailure port s
  | .hostCoreAccess core op => Sys2Proof.Machine.execHostCoreAccess core op s
  | .chuteResend write => Sys2Proof.Machine.execChuteResend write s
  | .fabricWriteCompletion id => Sys2Proof.Machine.execFabricWriteCompletion id s
  | .bootStageMeasurement n img => Sys2Proof.Machine.execBootStageMeasurement n img s
  | .standbyPowerUp => Sys2Proof.Machine.execStandbyPowerUp s
  | .telemetryIntervalSet ms => Sys2Proof.Machine.execTelemetryIntervalSet ms s

end Sys2Proof.Machine
end

