-- ==== Sys2Proof/Machine/Fetch.lean ====
section
/-! DEFINITION. Fetching an instruction: the word at a path's pc and its extension words (05_instruction_word_and_opcode_map.md R135,
R152, R160, R162; 16_traps_preemption_contexts.md R393, R399). -/

namespace Sys2Proof.Machine

/-- What fetching at a path's pc gives. A fault names the word that could not be fetched. -/
inductive Fetched
  | ok (i : Instr)
  /-- the word at pc, and which word of the instruction breaks a rule -/
  | illegal (w : W64) (word : Nat)
  | fault (pc : W64) (f : FaultInfo)
  | park (pc : W64) (f : FaultInfo)
  /-- the walk waits for its budget or for its home -/
  | wait
/-- One word, or why there is none. -/
inductive WordAt
  | ok (w : W64)
  | fault (f : FaultInfo)
  | park (f : FaultInfo)
  | wait
/-- An instruction word is read at its home; the word of another package is a free value (log 38). -/
def State.fetchPa (s : State) (tag pa : Nat) : WordAt × State :=
  let read := fun (a : Nat) => match look (a / 32) s.mem.poison with
    | some code => (WordAt.fault { accessFault code 1 allLanes (a / 32 * 32) 0 with paddr := a / 32 * 32 }, s)
    | none => (WordAt.ok (s.mem.word a), s.touchL2 a tag false)
  if !s.paOk pa then (.fault (accessFault 0x0202 1 allLanes pa 0), s)
  else match regionOf pa with
    | .fabric pkg off => if pkg = s.io.fabid.toNat then read off else (.ok s.freeW, s.useFree)
    | _ => if s.xFailed pa then (.fault { accessFault 0x0402 1 allLanes (pa / 32 * 32) 0 with paddr := pa / 32 * 32 }, s) else read pa
/-- A word of an instruction, and the machine after its lookup, whose walk is charged whatever comes of it (R387, R417). -/
def State.fetchWord (s : State) (die core c va : Nat) : WordAt × State :=
  if 2 ^ 57 ≤ va then (.fault (accessFault 0x0201 1 allLanes va 0), s)
  else match s.translate die core c va .ex with
    | .wait => (.wait, s)
    | .fault code lvl => (.park (accessFault code 1 allLanes va lvl), s.walkAt die core c va)
    | .ok pa s => (match s.fetchPa (s.tagOf c) pa with
      | (.fault f, s) => (.fault { f with addr := if f.code = 0x0202 then va else f.addr }, s)
      | r => r)
/-- n words from va on. -/
def State.fetchWords (die core c : Nat) : Nat → Nat → State → Except (Nat × WordAt) (List W64) × State
  | 0, _, s => (.ok [], s)
  | n + 1, va, s =>
    match s.fetchWord die core c va with
    | (.ok w, s) => (match State.fetchWords die core c n (va + 8) s with
      | (.ok ws, s) => (.ok (w :: ws), s)
      | r => r)
    | (r, s) => (.error (va, r), s)
def Fetched.ofWord (va : Nat) : WordAt → Fetched
  | .fault f => .fault (w64 va) f
  | .park f => .park (w64 va) f
  | _ => .wait
/-- The instruction at a path's pc, and the machine after the fetch. -/
def State.fetch (s : State) (x : Iss) : Fetched × State :=
  let pc := x.p.pc.toNat
  match s.fetchWord x.b.die x.b.core x.c pc with
  | (.ok w, s) =>
    (match State.fetchWords x.b.die x.b.core x.c (extWords w) (pc + 8) s with
    | (.error (va, r), s) => (.ofWord va r, s)
    | (.ok ext, s) => match decode w ext with
      | .ok i => (.ok i, { s with run := { s.run with word := w } })
      | .error e => (.illegal w e.word, s))
  | (r, s) => (.ofWord pc r, s)

end Sys2Proof.Machine
end

