-- ==== Sys2Proof/Machine/Runner.lean ====
section
/-! DEFINITION. What moves next (log 3): a named move, else an event inside the device that can take place, else a side of a team
that can issue; a budget period ends when nothing can move, and after every few moves. -/

namespace Sys2Proof.Machine

abbrev Out := Host.Outcome State Fault Refusal

/-- A side that can issue: the main side runs (R444), its team is resident, neither halted nor parked, the side has a path and no LNCH
under way, the other side is not in the handler (R209), and no eviction has stopped the cores (R406). -/
def State.canIssue (s : State) (u : Nat) (off : Bool) : Bool :=
  match s.teamAt u with
  | none => false
  | some t => s.io.mainOn && s.onCore t.block && !t.halted && t.park.fault.isNone && t.park.spill.isNone && (t.side off).path.isSome
      && (t.side off).lnch.isNone && t.handler ≠ some (!off) && !(s.partAt (partOf (s.ctxOf t.block))).stopped
/-- One side of a team fetches, decodes and runs its instruction. A path that waits stays chosen. -/
def State.issueOnce (s : State) (u : Nat) (off : Bool) : Out :=
  let s1 : State := { s with run := { s.run with cur := some (u, off) } }
  match s1.issuing with
  | none => .next s
  | some x =>
    if !s.canIssue u off then .next s else
    match s1.fetch x with
    | (.ok i, s2) => exec i s2
    | (.illegal w n, s2) => .next (s2.stop1 { x with fetched := w } (.fault (plainFault 0x0301 n)))
    | (.fault pc f, s2) => .next ((s2.kill u off pc 0 f).unissue off u)
    | (.park pc f, s2) => .next ((s2.parkTeam u off pc f).unissue off u)
    | (.wait, s2) => .next s2
/-- The same; of a team that is to be parked for registers (R349) nothing issues any more but what strikes it with a replayable fault
(Table 13.6). -/
def State.tryIssue (s : State) (u : Nat) (off : Bool) : Out :=
  let parked := fun (s : State) => match s.teamAt u with | some t => t.park.fault.isSome | none => false
  match s.teamAt u, s.issueOnce u off with
  | some t, .next r => .next (if t.park.due && !parked r then { s with run := { s.run with cur := some (u, off) } } else r)
  | _, r => r
/-- No path is chosen any more. -/
def State.settle (s : State) : State := { s with run := { s.run with cur := none, word := 0 } }
def settleOut : Out → Out
  | .next t => .next t.settle
  | r => r

/-! ### The active set (R346) -/

/-- Does the side's next instruction end? -/
def State.ready (s : State) (u : Nat) (off : Bool) : Bool :=
  match s.tryIssue u off with
  | .next t => t.run.cur.isNone && t.settle ≠ s
  | _ => true
/-- A pending team may enter: its pipe's active set has room, and no older pending team of the pipe is ready. -/
def State.mayEnter (s : State) (u : Nat) (t : Team) : Bool :=
  let ms := s.pipeMates t
  decide (ms.countP (fun y => y.2.active) < 8)
    && ms.all (fun y => y.1 = u || y.2.active || decide (t.age < y.2.age) || (decide (t.age = y.2.age) && decide (t.idx < y.2.idx))
      || !(s.ready y.1 false || s.ready y.1 true))
/-- One side of a team issues: a team of the active set, or a pending one that enters it as it issues. -/
def State.issueAt (s : State) (u : Nat) (off : Bool) : Out :=
  match s.teamAt u with
  | none => .next s
  | some t =>
    if t.active then s.tryIssue u off
    else if !s.mayEnter u t then .next s
    else match (s.modTeam u (fun t => { t with active := true })).tryIssue u off with
      | .next r => .next (if r.run.cur.isNone then r else r.modTeam u (fun t => { t with active := false }))
      | r => r

/-- The sides in the order in which they are tried: teams from the turn on, each with the side whose turn it is first. -/
def State.sides (s : State) : List (Nat × Bool) :=
  let ts := s.teams.filter (fun y => s.run.turn ≤ y.1) ++ s.teams.filter (fun y => y.1 < s.run.turn)
  (ts.flatMap (fun y => [(y.1, y.2.turn), (y.1, !y.2.turn)])).filter (fun y => s.canIssue y.1 y.2)
/-- The first side whose instruction ends or changes the machine. -/
def State.firstSide (s : State) : List (Nat × Bool) → Option Out
  | [] => none
  | (u, off) :: r =>
    match s.issueAt u off with
    | .next t =>
      if t.settle = s then s.firstSide r
      else some (.next { t.settle with run := { t.settle.run with turn := u + 1 } })
    | o => some o

/-! ## Events inside the device -/

def opEvents (o : MemOp) : List Instr :=
  (upTo o.kind.lineParts.length).map (fun i => .loadService o.id i none)
    ++ ((upTo o.kind.atomParts.length).zip o.kind.atomParts).flatMap (fun (i, p) =>
      if p.got.isSome then [] else if p.refused then [.atomicResend o.id i] else [.atomicApply o.id i none])
    ++ [.longLatencyResult o.id]
def teamEvents (u : Nat) (t : Team) : List Instr :=
  [(if t.queue = [] && !(t.killed && t.region.isSome) then [] else [.storeQueueDrain u]),
   (if t.near.lnch.isSome then [.lnchDeferredAppend u false] else []),
   (if t.off.lnch.isSome then [.lnchDeferredAppend u true] else []),
   [.teamRetirement u, .watchdogLimit u]].flatten
def coreEvents (key : Nat) (c : Core) : List Instr :=
  let d := key / 512
  let k := key % 512
  c.copies.flatMap (fun x =>
      let n := if cpyXform x.pb = 2 then x.landed.foldl (fun m i => Nat.max m (i + 1)) 0
        else ((upTo (x.landed.length + 1)).find? (fun n => !x.landed.contains n)).getD 0
      (from_ n (if cpyXform x.pb = 2 then 8 else 1)).map (fun n => .copyLanding d k x.id n))
    ++ (if c.mq = [] then [] else [.mmaExecute d k, .tileOpExecute d k, .actldBankLoad d k])
def dieEvents (d : Nat) (x : Die) : List Instr :=
  [x.pounds.map (fun q => .poundReplay d q.1),
   (upTo 2).flatMap (fun k => if (nth x.wq k ([], false)).1 = [] then [] else [.writeWindowOpen d k]),
   x.rdc.map (fun l => .rdcLineExpiry d l.line),
   (if x.held = 0 then [] else [.faultEntryDeferred d]),
   x.jobs.flatMap (fun j => (if (x.moves j.fence).isSome then [.migrationMove d j.fence] else []) ++ [.migrationDone d j.fence])].flatten
def partEvents (p : Nat) : List Instr :=
  [.contextEviction p, .timeSliceExpiry p, .graceExpiry p, .partitionRelinquish p, .contextStart p, .launchAccept p]
/-- Traffic of the package to itself, which reaches its own ingress (R76). -/
def State.ownEvents (s : State) (o : OutReq) : List Instr :=
  if o.pkg ≠ s.io.fabid.toNat then []
  else match o.kind with
    | .write _ _ | .puts _ _ _ | .signal _ => [.fabricWriteCompletion o.id]
    | .gets x n => [.getsLanding x n none]
    | _ => []
/-- The cores that hold blocks. -/
def State.coreKeys (s : State) : List Nat := sortNat (s.blocks.map (fun y => coreKey y.2.die y.2.core))
/-- Events that the contents of State may make possible; each one's own conditions decide. A register deadlock comes last. -/
def State.internal (s : State) : List Instr :=
  let n := s.net
  [(upTo n.anns.length).map .clockAnnouncement,
   n.writes.map (fun w => .storeApply w.id),
   n.ops.flatMap opEvents,
   s.teams.flatMap (fun y => teamEvents y.1 y.2),
   (upTo n.arrivals.length).map .remoteArrival,
   (upTo n.notes.length).map .watchEvent,
   (upTo n.conflicts.length).map .conflictNotice,
   (upTo n.mirrors.length).map .mirroredStoreArrival,
   (upTo n.signals.length).map .putsSignalArrival,
   (if n.scq = [] then [] else [.scFenceSequence]),
   (upTo n.lands.length).map .imageLanding,
   n.ingress.map (fun y => .fabricIngressWrite y.req),
   n.out.flatMap s.ownEvents,
   n.colls.map (fun c => .collDeclaration c.id [] none),
   n.collIn.map (fun m => if extType m.ext = 4 then .collCreqReceive m else .collCresultReceive m),
   s.cores.flatMap (fun y => coreEvents y.1 y.2),
   ((upTo s.dies.length).zip s.dies).flatMap (fun y => dieEvents y.1 y.2),
   s.mem.corr.map .demandScrubWriteback,
   n.out.map (fun o => .fabricTimeout o.id),
   n.xwait.map (fun y => .cxlCompletionTimeout y.1),
   n.colls.flatMap (fun c => (upTo (Nat.max 1 c.chunks)).map (fun i => .collChunkTimeout c.id i)),
   (if s.sched.inv.busy then [.invalidationComplete] else []),
   (if s.io.attJob.isSome then [.attestationDone] else []),
   s.blocks.map (fun y => .blockRetirement y.1),
   s.launches.map (fun y => .launchEnd y.1),
   (upTo 8).flatMap partEvents,
   s.sched.ctxs.flatMap (fun y => if y.2.ending then [.contextEnd (partOf y.1) (y.1 % 16)] else []),
   s.launches.map (fun y => .blockAdmission y.1),
   s.coreKeys.flatMap (fun k => .spillReturn (k / 512) (k % 512)
     :: (if (s.chosen (k / 512) (k % 512)).isSome then [.regsDeadlockPark (k / 512) (k % 512)] else []))].flatten
/-- A core where a register deadlock may be resolved: no team is ready, or one has been chosen (R349). -/
def State.mayPark (s : State) (d k : Nat) : Bool :=
  (s.chosen d k).isSome || s.teams.all (fun y => !y.2.resident s d k || !(s.ready y.1 false || s.ready y.1 true))
/-- The events of register deadlocks, tried at the end of every few moves and when nothing else moves. -/
def State.stuckEvents (s : State) : List Instr := 
  (s.coreKeys.filter (fun k => s.mayPark (k / 512) (k % 512))).map (fun k => .regsDeadlockPark (k / 512) (k % 512))
/-- The first event that changes the machine. -/
def State.firstEvent (s : State) : List Instr → Option Out
  | [] => none
  | i :: r =>
    match exec i s with
    | .next t => if t = s then s.firstEvent r else some (.next t)
    | o => some o

/-! ## The next move -/

/-- A budget period ends on the die whose turn it is: when nothing can move, and after every few moves (log 3). -/
def State.tick (s : State) : Out :=
  exec (.budgetPeriod s.run.die) { s with run := { s.run with moves := 0, die := (s.run.die + 1) % 9 } }
/-- One move more since a period last ended. -/
def State.count (s : State) : State := { s with run := { s.run with moves := s.run.moves + 1 } }
def countOut : Out → Out
  | .next t => .next t.count
  | r => r
def State.free (s : State) : Out :=
  if !s.io.mainOn then .next s
  else if Config.movesPerPeriod ≤ s.run.moves then (match s.firstEvent s.stuckEvents with
    | some o => o
    | none => s.tick)
  else match s.firstEvent s.internal with
  | some o => countOut o
  | none => match s.firstSide s.sides with
    | some o => countOut o
    | none => match s.firstEvent s.stuckEvents with
      | some o => countOut o
      | none => s.tick
/-- What happens while the main side is off or held in reset: what Solnal and the supplies do (R428, R440, R444). -/
def standbyMove : Instr → Bool
  | .packageReset | .mainPowerUp | .standbyPowerUp | .supplyUndervoltage | .powerCapSet _ | .telemetrySample _ _ | .datetimeSet _
  | .firmwareUpdate _ | .solnalAttestationRequest _ | .telemetryIntervalSet _ => true
  | _ => false
/-- A named event that can take place now. -/
def State.mayHappen (s : State) : Instr → Bool
  | .regsDeadlockPark d k => s.io.mainOn && s.mayPark d k
  | i => s.io.mainOn || standbyMove i
/-- The move named first, or the machine's own. While the main side is off or held in reset every other move is without effect
(log 79). -/
def State.advance (s : State) : Out :=
  match s.run.agenda with
  | [] => s.free
  | m :: r =>
    let s := { s with run := { s.run with agenda := r } }
    match m with
    | .event i => if s.mayHappen i then exec i s else .next s
    | .issue u off => settleOut (s.issueAt u off)

/-! ## An instruction placed to run next (log 4) -/

/-- The bytes of the words of an instruction of the table, five words in all (R135). -/
def tableBytes (nbits w : Nat) : List Byte :=
  (upTo 5).flatMap (fun i => toBytes 8 (tableWord nbits w i))
/-- Where the placed instruction stands: virtual and physical address 2^20. -/
def placedAt : Nat := 2 ^ 20
/-- A root table and a table with one leaf that maps the first gigabyte to itself, with every permission (R415, R416). -/
def placedTables : List Host.Cell :=
  [(0x20000, 0x01), (0x20002, 0x04), (0x40000, 0x1F)]
/-- A launch of one block of one team, whose entry is the placed instruction (Table 15.1). -/
def placedLaunch : Launch := { Launch.none_ with record := [0, w64 placedAt, 0, 0, 0, 0, 0, 0] }
/-- The instruction w in memory, and a team of context slot 0 of partition 0, on core 0 of die 0, that issues it next. -/
def State.place (s : State) (nbits w : Nat) : State :=
  let m := placedTables.foldl (fun (m : Mem) c => m.setByte c.1 c.2) (s.mem.setBytes placedAt (tableBytes nbits w))
  let s := ({ s with mem := m }).modCtx 0 (fun x => { x with valid := true, tag := 1, ptroot := 1, walkb := 65535, chuteb := 2 ^ 20
                                                             copyb := 2 ^ 20, collb := 2 ^ 20, slice := 65535, grace := 2 ^ 31 })
  let s := ({ s with io := { s.io with mainOn := true } } : State).modPart 0 (fun x => { x with idle := false, run := 0 })
  let l := s.uid
  let b := l + 1
  let u := l + 2
  { s with
    launches := Sys2Proof.Machine.place l placedLaunch s.launches
    blocks := Sys2Proof.Machine.place b (Block.new l 0 0 0 placedLaunch) s.blocks
    teams := Sys2Proof.Machine.place u (Team.new b 0 u false false placedLaunch.entry) s.teams
    run := { s.run with agenda := .issue u false :: s.run.agenda, uid := l + 3 } }

end Sys2Proof.Machine
end

