-- ==== Sys2Proof/Machine/Step.lean ====
section
/-! DEFINITION. One step of the machine, and the state in which a given instruction is what it runs next. -/

namespace Sys2Proof.Machine

/-- One step: the next move of the agenda, or the machine's own choice (log 3). -/
def step (s : State) : Host.Outcome State Fault Refusal := s.advance

/-- s with an instruction of the table placed so that the very next step runs it (log 4). -/
def State.withFetchWord (s : State) (nbits w : Nat) : State := s.place nbits w

end Sys2Proof.Machine
end

