-- ==== Sys2Proof/Safety.lean ====
section
/-! DEFINITION. What a safe run is, and what every state that the machine reaches keeps: the terms in which claims are stated. -/

namespace Sys2Proof.Machine

/-- A step that goes on. -/
def State.steps (s t : State) : Prop := step s = .next t
/-- A run of n steps that ends in t. -/
def State.runs : Nat → State → State → Prop
  | 0, s, t => s = t
  | n + 1, s, t => ∃ m, s.steps m ∧ State.runs n m t
/-- A run is safe when no step of it stops: a fault is an access to an address that Table 03.2 does not have. -/
def State.safe (s : State) : Prop := ∀ n t, State.runs n s t → ∃ u, step t = .next u
/-- The canonical form of memory: addresses strictly rising, none that reads as an unlisted one. -/
def State.memWf (s : State) : Prop := s.mem.wf = true
/-- The device has its nine dies and eight partitions (00_scope.md Table 00.1; R384). -/
def State.shape (s : State) : Prop := s.dies.length = 9 ∧ s.sched.parts.length = 8
/-- A team has its sixteen predicates, eight shadow registers and fault-record words (R8, R210, R395). -/
def Team.shape (t : Team) : Prop := t.preds.length = 16 ∧ t.shadow.length = 8 ∧ t.frec.length = 8

/-! ## When an instruction completes -/

/-- A source can be read: mapped registers with no result still to land, or a valid latch of the right file that the
instruction does not clear as a switch point (R144, R148, R150). -/
def Iss.readable (x : Iss) (s : State) (sw : Bool) (a : SrcUse) : Bool :=
  match a.sel with
  | .reg i _ => (from_ i.toNat a.n).all (fun j => x.t.mapped a.k j && (s.pending x.u x.t a.k j).isNone)
  | .latch n => !sw && (match a.k, nth (x.t.side x.off).latches n.toNat none with
    | .v, some (.vec _ _ _) => true
    | .s, some (.scal _ _) => true
    | _, _ => false)
/-- The pool gives the registers of a file that the destinations take (R347, R348). -/
def Iss.roomFor (x : Iss) (s : State) (us : List SrcUse) (ds : List DstUse) (k : Kind) : Bool :=
  !x.raises us ds k || (decide (x.poolNeed us ds k ≤ s.poolFree x.b.die x.b.core k) && !s.olderWaits x k)
/-- The operands of an instruction stand ready: its sources can be read, no result is still to land in its destinations, and
the pool has the registers it takes. -/
def Iss.ready (x : Iss) (s : State) (act : Lanes) (us : List SrcUse) (ds : List DstUse) (static : Bool) : Bool :=
  us.all (x.readable s (x.switches act us ds static))
    && (decide (act = 0) || (ds.all (fun d => d.regs.all (fun i => (s.pending x.u x.t d.k i).isNone))
          && x.roomFor s us ds .v && x.roomFor s us ds .s))
/-- No lane that is read is poisoned (R401). -/
def Iss.clean (x : Iss) (act : Lanes) (us : List SrcUse) : Bool :=
  us.all (fun a => match a.k with
    | .v => (x.t.readV x.off a.sel).poison.all (fun p => !act.getLsbD p.lane)
    | .s => decide (act = 0) || (x.t.readS x.off a.sel).poison.isNone)
/-- The team as the instruction finds it: a switch point has cleared its side's latches (R149). -/
def Iss.entered (x : Iss) (act : Lanes) (us : List SrcUse) (ds : List DstUse) (static : Bool) : Team :=
  if x.switches act us ds static then x.t.setSide x.off (x.t.side x.off).clear else x.t

/-- The value of an operand in a lane, and of an operand of a scalar form. -/
def Iss.laneVal (x : Iss) : Arg → Nat → W32
  | .v a => laneOf (x.t.readV x.off a).data
  | .s a => fun _ => (x.t.readS x.off a).v.setWidth 32
  | .imm v => fun _ => v.setWidth 32
def Iss.wordVal (x : Iss) : Arg → W64
  | .v _ => 0
  | .s a => (x.t.readS x.off a).v
  | .imm v => v

/-- Operand i of a list in a lane, and in a scalar form. -/
def Iss.laneVals (x : Iss) (args : List Arg) (l i : Nat) : W32 := nth (args.map x.laneVal) i (fun _ => 0) l
def Iss.wordVals (x : Iss) (args : List Arg) (i : Nat) : W64 := nth (args.map x.wordVal) i 0

/-! ## What an instruction leaves alone -/

/-- A vector register as a program reads it: data, side-band, poison. -/
def Team.vval (t : Team) (i : Nat) : Option (Line × SideBand × List Poison) := (t.vget i).map (fun r => (r.data, r.sb, r.poison))
/-- A scalar register as a program reads it: value and poison. -/
def Team.sval (t : Team) (i : Nat) : Option (W64 × Option Poison) := (t.sget i).map (fun r => (r.val, r.poison))
/-- The latches of a side. -/
def Team.latch (t : Team) (off : Bool) (n : Nat) : Option Latch := nth (t.side off).latches n none
/-- A register that a source names with K = 1 (R143); shadow registers stay (R210). -/
def Team.lastRead (t : Team) (us : List SrcUse) (k : Kind) (i : Nat) : Bool :=
  us.any (fun a => a.k = k && a.isLast && a.regs.contains i) && !(k = .s && t.shadowed i)
/-- A team without what a computation may change: registers, predicates, flags, the two sides, and whose turn it is. -/
def Team.rest (t : Team) : Team :=
  { t with vregs := [], sregs := [], preds := [], flags := 0, near := .empty, off := .empty, shadow := [], turn := false,
           waited := 0, told := false }
/-- The machine without its teams and the model's own fields: memory, blocks, cores, dies, scheduler, traffic, I/O die. -/
def State.outside (s : State) : State := { s with teams := [], run := State.reset.run }
/-- Registers after an instruction with sources us that writes vector registers vs and scalar registers ss: every other
register is as before, but for those that K bits free. -/
def Team.regsKept (a b : Team) (us : List SrcUse) (vs ss : List Nat) : Prop :=
  (∀ i, !vs.contains i → b.vval i = if a.lastRead us .v i then none else a.vval i)
    ∧ (∀ i, !ss.contains i → b.sval i = if a.lastRead us .s i then none else a.sval i)
/-- Every predicate but p is as before. -/
def Team.predsKept (a b : Team) (p : Option Nat) : Prop := ∀ q, some q ≠ p → b.pred q = a.pred q
/-- The issuing path at an address, its mask and reconvergence address kept; past n words of its instruction. -/
def Iss.at_ (x : Iss) (pc : W64) : Option Path := some { x.p with pc := pc }
def Iss.past (x : Iss) (n : Nat) : Option Path := x.at_ (x.p.pc + w64 (8 * n))

/-! ## How an instruction of fixed latency ends -/

/-- What an instruction leaves besides its result: sources read, registers and predicate written, flags, the path
of its side, the latches of its side, the rest of its team, the machine around the team. -/
structure Ending where
  us : List SrcUse
  vs : List Nat
  ss : List Nat
  p : Option Nat
  flags : Fl
  path : Option Path
  latches : List (Option Latch)
  rest : Team
  out : State
/-- The instruction has ended so: team u stands in t, and nothing but what the ending names has changed. -/
def Iss.endsIn (x : Iss) (s t : State) (u : Team) (e : Ending) : Prop :=
  t.teamAt x.u = some u
    ∧ (u.side x.off).latches = e.latches
    ∧ u.flags = e.flags
    ∧ (u.side x.off).path = e.path
    ∧ u.side (!x.off) = x.t.side (!x.off)
    ∧ x.t.regsKept u e.us e.vs e.ss
    ∧ x.t.predsKept u e.p
    ∧ u.rest = e.rest
    ∧ t.outside = e.out.outside
    ∧ (∀ a, t.mem.byte a = e.out.mem.byte a)
    ∧ ∀ v, v ≠ x.u → t.teamAt v = s.teamAt v

/-- A vector register before a result enters it: nothing once its last read freed it (R142, R143). -/
def Team.prior (t : Team) (us : List SrcUse) (i : Nat) : Line × SideBand × List Poison :=
  if t.lastRead us .v i then (0, 0, []) else (t.vval i).getD (0, 0, [])
/-- A vector result: the lanes of m from y, the others as the destination was; a discarded result has zeros there (R146). -/
def Iss.resultV (x : Iss) (us : List SrcUse) (d : Dst) (m : Lanes) (y : Line) (sb : Option SideBand) :
    Line × SideBand × List Poison :=
  let o := if d.ws then (0, 0, []) else x.t.prior us d.idx.toNat
  (mergeLanes m y o.1, if m = 0 then o.2.1 else sb.getD o.2.1, o.2.2.filter (fun p => !m.getLsbD p.lane))
/-- A scalar result; of an instruction that no lane performs, the destination as it was. -/
def Iss.resultS (x : Iss) (us : List SrcUse) (d : Dst) (perf : Bool) (v : W64) : W64 × Option Poison :=
  if perf then (v, none)
  else if d.ws || x.t.lastRead us .s d.idx.toNat then (0, none) else (x.t.sval d.idx.toNat).getD (0, none)
/-- What a scalar register takes of a value: shadow s59 has bits [31:0] only (Table 07.14). -/
def Team.keepsS (t : Team) (i : Nat) (v : W64) : W64 := if t.shadowed i then shadowKeeps (i - 56) v else v
/-- What register d of the vector file holds after a result r in lanes m, and of the scalar file. -/
def Team.afterV (t : Team) (us : List SrcUse) (d : Nat) (m : Lanes) (r : Line × SideBand × List Poison) :
    Option (Line × SideBand × List Poison) :=
  if m = 0 then (if t.lastRead us .v d then none else t.vval d) else some r
def Team.afterS (t : Team) (us : List SrcUse) (d : Nat) (m : Lanes) (v : W64) : Option (W64 × Option Poison) :=
  if m = 0 then (if t.lastRead us .s d then none else t.sval d) else some (t.keepsS d v, none)

/-- A result as a latch holds it. -/
abbrev latchV (r : Line × SideBand × List Poison) : Latch := .vec r.1 r.2.1 r.2.2
abbrev latchS (r : W64 × Option Poison) : Latch := .scal r.1 r.2
/-- The registers a destination writes. -/
def dstRegs (d : Dst) : List Nat := if d.ws then [] else [d.idx.toNat]
/-- The latches of the side once a result has entered (R147). -/
def Iss.latched (x : Iss) (act : Lanes) (us : List SrcUse) (ds : List DstUse) (y : Latch) : List (Option Latch) :=
  some y :: ((x.entered act us ds false).side x.off).latches.take 3
/-- The instruction has ended with one vector result in the lanes of m; with none of them the register stays. -/
def Iss.gaveV (x : Iss) (s : State) (o : Host.Outcome State Fault Refusal) (us : List SrcUse) (d : Dst) (act m : Lanes)
    (y : Line) (sb : Option SideBand) (fl : Fl) (words : Nat) (drew : Bool) : Prop :=
  ∃ t u, o = .next t
    ∧ x.endsIn s t u { us := us, vs := dstRegs d, ss := [], p := none, flags := x.t.flags ||| fl, path := x.past words,
                       latches := x.latched act us (dstUses .v d) (latchV (x.resultV us d m y sb)),
                       rest := if drew then x.t.rest.drew else x.t.rest, out := s }
    ∧ (d.ws = false → u.vval d.idx.toNat = x.t.afterV us d.idx.toNat m (x.resultV us d m y sb))
/-- The instruction has ended with one scalar result; one that no lane performs leaves the register. -/
def Iss.gaveS (x : Iss) (s : State) (o : Host.Outcome State Fault Refusal) (us : List SrcUse) (d : Dst) (act : Lanes)
    (v : W64) (fl : Fl) (words : Nat) (out : State) : Prop :=
  ∃ t u, o = .next t
    ∧ x.endsIn s t u { us := us, vs := [], ss := dstRegs d, p := none,
                       flags := x.t.flags ||| if act = 0 then 0 else fl, path := x.past words,
                       latches := x.latched act us (dstUses .s d) (latchS (x.resultS us d (act ≠ 0) v)),
                       rest := x.t.rest, out := out }
    ∧ (d.ws = false → u.sval d.idx.toNat = x.t.afterS us d.idx.toNat act v)
/-- The instruction has ended with predicate bits in its active lanes; p0 discards them (R141). -/
def Iss.gaveP (x : Iss) (s : State) (o : Host.Outcome State Fault Refusal) (us : List SrcUse) (p : Nat) (act v : Lanes)
    (fl : Fl) (words : Nat) : Prop :=
  ∃ t u, o = .next t
    ∧ x.endsIn s t u { us := us, vs := [], ss := [], p := some p, flags := x.t.flags ||| fl, path := x.past words,
                       latches := ((x.entered act us [] false).side x.off).latches, rest := x.t.rest, out := s }
    ∧ u.pred p = if p = 0 then allLanes else (x.t.pred p &&& ~~~ act) ||| (v &&& act)

/-! ## How a long-latency instruction issues -/

/-- The registers a result will land in. -/
def LDst.vregs : LDst → List Nat
  | .vec i n => from_ i n
  | _ => []
def LDst.sregs : LDst → List Nat
  | .scal i => [i]
  | _ => []
/-- A scalar register before a result enters it. -/
def Team.priorS (t : Team) (us : List SrcUse) (i : Nat) : W64 × Option Poison :=
  if t.lastRead us .s i then (0, none) else (t.sval i).getD (0, none)
/-- The instruction has issued; its destination is mapped and keeps what it holds until the result lands (R148, R149). -/
def Iss.sent (x : Iss) (s : State) (o : Host.Outcome State Fault Refusal) (us : List SrcUse) (act : Lanes) (dst : LDst)
    (static : Bool) (fl : Fl) (words : Nat) (rest : Team) (out : State) : Prop :=
  ∃ t u, o = .next t
    ∧ x.endsIn s t u { us := us, vs := dst.vregs, ss := dst.sregs, p := none, flags := x.t.flags ||| fl, path := x.past words,
                       latches := ((x.entered act us dst.uses static).side x.off).latches, rest := rest, out := out }
    ∧ (∀ i ∈ dst.vregs, u.vval i = some (x.t.prior us i))
    ∧ (∀ i ∈ dst.sregs, u.sval i = some (x.t.priorS us i))
/-- The destination, the value and the flags of a computation whose result lands later. -/
def longDst (act : Lanes) (ty : Ty) (d : Nat) : LDst := if act = 0 then .none else match ty.kind with | .v => .vec d 1 | .s => .scal d
def Iss.longKind (x : Iss) (act : Lanes) (ty : Ty) (args : List Arg) (f : Calc) : OpKind :=
  match ty.kind with
  | .s => .value [] (f 64 (x.wordVals args)).1
  | .v => .value ((lanesOf act).map (fun l => (l, (f 32 (x.laneVals args l)).1))) 0
def Iss.longFlags (x : Iss) (act : Lanes) (ty : Ty) (args : List Arg) (f : Calc) : Fl :=
  match ty.kind with
  | .s => if act ≠ 0 then (f 64 (x.wordVals args)).2 else 0
  | .v => raisedIn act (fun l => (f 32 (x.laneVals args l)).2)

/-! ## The instructions that compute, by what they compute (07 Tables 07.2 to 07.5, 08 Tables 08.2 to 08.5) -/

/-- A computation from operands to one register: guard, type, destination, operands, words, and the value for each width. -/
structure CalcForm where
  g : Guard
  ty : Ty
  d : Dst
  args : List Arg
  words : Nat
  fn : Calc
/-- Operands A and B, and A alone. -/
def calcAB (g : Guard) (ty : Ty) (d : Dst) (a : Sel) (b : Opnd) (f : Calc) : Option CalcForm :=
  some { g := g, ty := ty, d := d, args := [argA ty a, argOpnd ty b], words := wordsB b, fn := f }
def calcA (g : Guard) (ty : Ty) (d : Dst) (a : Sel) (f : Calc) : Option CalcForm :=
  some { g := g, ty := ty, d := d, args := [argA ty a], words := 1, fn := f }
/-- FP32 operands A and B. -/
def calcFF (g : Guard) (ty : Ty) (d : Dst) (a : Sel) (b : Opnd) (f : W32 → W32 → W32 × Fl) : Option CalcForm :=
  some { g := g, ty := ty, d := d, args := [argA ty a, argFB ty b], words := wordsB b,
         fn := onW32 (fun v => f (v 0) (v 1)) }
/-- A special function of grade .F. -/
def calcSfu (f : Sfu) (g : Guard) (ty : Ty) (d : Dst) (a : Sel) (acc : Bool) : Option CalcForm :=
  if acc then none else calcA g ty d a (onW32 (fun v => f.eval false (v 0)))
/-- The fixed-latency computations. -/
def calcForm : Instr → Option CalcForm
  | .iadd g ty d a b m => calcAB g ty d a b (fun w v => iaddVal m w (v 0) (v 1))
  | .isub g ty d a b m => calcAB g ty d a b (fun w v => isubVal m w (v 0) (v 1))
  | .iaddc g ty d a b c co => some { g := g, ty := ty, d := d, args := [argA ty a, argOpnd ty b, argOpnd10 ty c],
                                     words := wordsB b, fn := fun w v => (iaddcVal co w (v 0) (v 1) (v 2), 0) }
  | .imul g ty d a b => calcAB g ty d a b (fun _ v => (v 0 * v 1, 0))
  | .imulh g ty d a b u => calcAB g ty d a b (fun w v => (imulhVal u w (v 0) (v 1), 0))
  | .imulw g ty d a b u => calcAB g ty d a b (fun w v => (imulwVal u w (v 0) (v 1), 0))
  | .imad g ty d a b c => some { g := g, ty := ty, d := d, args := [argA ty a, argOpnd ty b, argA ty c], words := wordsB b,
                                 fn := fun _ v => (v 0 * v 1 + v 2, 0) }
  | .imin g ty d a b u => calcAB g ty d a b (fun w v => (iminVal u w (v 0) (v 1), 0))
  | .imax g ty d a b u => calcAB g ty d a b (fun w v => (imaxVal u w (v 0) (v 1), 0))
  | .iabs g ty d a sat => calcA g ty d a (fun w v => iabsVal sat w (v 0))
  | .and g ty d a b => calcAB g ty d a b (fun _ v => (v 0 &&& v 1, 0))
  | .or g ty d a b => calcAB g ty d a b (fun _ v => (v 0 ||| v 1, 0))
  | .xor g ty d a b => calcAB g ty d a b (fun _ v => (v 0 ^^^ v 1, 0))
  | .andn g ty d a b => calcAB g ty d a b (fun _ v => (v 0 &&& ~~~ v 1, 0))
  | .shl g ty d a b => calcAB g ty d a b (fun w v => (shlVal w (v 0) (v 1), 0))
  | .shr g ty d a b => calcAB g ty d a b (fun w v => (shrVal w (v 0) (v 1), 0))
  | .sar g ty d a b => calcAB g ty d a b (fun w v => (sarVal w (v 0) (v 1), 0))
  | .shf g ty d a b c left => some { g := g, ty := ty, d := d, args := [argA ty a, argB ty b, argOpnd10 ty c], words := 1,
                                     fn := fun w v => (shfVal left w (v 0) (v 1) (v 2), 0) }
  | .rot g ty d a b left => calcAB g ty d a b (fun w v => (rotVal left w (v 0) (v 1), 0))
  | .popc g ty d a => calcA g ty d a (fun w v => (popcVal w (v 0), 0))
  | .clz g ty d a => calcA g ty d a (fun w v => (clzVal w (v 0), 0))
  | .ctz g ty d a => calcA g ty d a (fun w v => (ctzVal w (v 0), 0))
  | .brev g ty d a => calcA g ty d a (fun w v => (brevVal w (v 0), 0))
  | .bfx g ty d a b sx => calcAB g ty d a b (fun w v => (bfxVal sx w (v 0) (specOf (v 1)).1 (specOf (v 1)).2, 0))
  | .bfi g ty d a b c => some { g := g, ty := ty, d := d, args := [argA ty a, argOpnd ty b, argOpnd10 ty c], words := wordsB b,
                                fn := fun w v => (bfiVal w (v 0) (v 1) (bfiSpec c (v 2)).1 (bfiSpec c (v 2)).2, 0) }
  | .lea g ty d a b k w32 => calcAB g ty d a b (fun w v => (leaVal k.toNat w32 w (v 0) (v 1), 0))
  | .mov g ty d a => match ty with
    | .vec => none
    | .scal => calcA g .scal d a (fun _ v => (v 0, 0))
    | .mix => some { g := g, ty := .mix, d := d, args := [.s a], words := 1, fn := fun _ v => (v 0, 0) }
  | .movi g ty d v => some { g := g, ty := ty, d := d, args := [.imm (sext64 v)], words := 1, fn := fun _ v => (v 0, 0) }
  | .movl g ty d v => some { g := g, ty := ty, d := d, args := [.imm v], words := 2, fn := fun _ v => (v 0, 0) }
  | .fadd g ty d a b r => calcFF g ty d a b (faddVal r)
  | .fsub g ty d a b r => calcFF g ty d a b (fsubVal r)
  | .fmul g ty d a b r => calcFF g ty d a b (fmulVal r)
  | .fma g ty d a b c np nc r => some { g := g, ty := ty, d := d, args := [argA ty a, argFB10 ty b, argA ty c], words := words10 b,
                                        fn := onW32 (fun v => fmaVal np nc r (v 0) (v 1) (v 2)) }
  | .fmin g ty d a b => calcFF g ty d a b (fminmaxVal false)
  | .fmax g ty d a b => calcFF g ty d a b (fminmaxVal true)
  | .frnd g ty d a r => calcA g ty d a (onW32 (fun v => frndVal r (v 0)))
  | .h2add g ty d a b bf r => calcFF g ty d a b (h2addVal bf r)
  | .h2mul g ty d a b bf r => calcFF g ty d a b (h2mulVal bf r)
  | .h2fma g ty d a b c bf r => some { g := g, ty := ty, d := d, args := [argA ty a, argFB ty b, argA ty c], words := wordsB b,
                                       fn := onW32 (fun v => h2fmaVal bf r (v 0) (v 1) (v 2)) }
  | .fdot2 g ty d a b c bf r => some { g := g, ty := ty, d := d, args := [argA ty a, argFB ty b, argA ty c], words := wordsB b,
                                       fn := onW32 (fun v => fdot2Val bf r (v 0) (v 1) (v 2)) }
  | .rcp g ty d a acc => calcSfu .rcp g ty d a acc
  | .rsq g ty d a acc => calcSfu .rsq g ty d a acc
  | .sqrt g ty d a acc => calcSfu .sqrt g ty d a acc
  | .exp2 g ty d a acc => calcSfu .exp2 g ty d a acc
  | .log2 g ty d a acc => calcSfu .log2 g ty d a acc
  | .sin g ty d a acc => calcSfu .sin g ty d a acc
  | .cos g ty d a acc => calcSfu .cos g ty d a acc
  | .tanh g ty d a acc => calcSfu .tanh g ty d a acc
  | .sigm g ty d a acc => calcSfu .sigm g ty d a acc
  | .cvt g ty d a dst src cm r => calcA g ty d a (fun w v => cvtVal dst src cm (rndOf r) 0 w (v 0))
  | _ => none
/-- A special function of grade .A. -/
def longSfu (f : Sfu) (g : Guard) (ty : Ty) (d : Dst) (a : Sel) (acc : Bool) : Option CalcForm :=
  if acc then calcA g ty d a (onW32 (fun v => f.eval true (v 0))) else none
/-- The computations whose result lands later (R148, R190, R227, R229). -/
def longForm : Instr → Option CalcForm
  | .idiv g ty d a b u => calcAB g ty { idx := d, ws := false } a b (fun w v => idivVal u w (v 0) (v 1))
  | .irem g ty d a b u => calcAB g ty { idx := d, ws := false } a b (fun w v => iremVal u w (v 0) (v 1))
  | .fdiv g ty d a b r => calcFF g ty { idx := d, ws := false } a b (fdivVal r)
  | .rcp g ty d a acc => longSfu .rcp g ty d a acc
  | .rsq g ty d a acc => longSfu .rsq g ty d a acc
  | .sqrt g ty d a acc => longSfu .sqrt g ty d a acc
  | .exp2 g ty d a acc => longSfu .exp2 g ty d a acc
  | .log2 g ty d a acc => longSfu .log2 g ty d a acc
  | .sin g ty d a acc => longSfu .sin g ty d a acc
  | .cos g ty d a acc => longSfu .cos g ty d a acc
  | .tanh g ty d a acc => longSfu .tanh g ty d a acc
  | .sigm g ty d a acc => longSfu .sigm g ty d a acc
  | _ => none
/-- A comparison into a predicate: guard, type, predicate, combination, operands, words, test. -/
structure TestForm where
  g : Guard
  ty : Ty
  p : BitVec 4
  m : Comb
  args : List Arg
  words : Nat
  fn : Test
def testForm : Instr → Option TestForm
  | .icmp g ty p a b cond m => some { g := g, ty := ty, p := p, m := m, args := [argA ty a, argOpnd ty b], words := wordsB b,
                                      fn := fun w v => (icmpVal cond w (v 0) (v 1), 0) }
  | .fcmp g ty p a b cond m => some { g := g, ty := ty, p := p, m := m, args := [argA ty a, argFB ty b], words := wordsB b,
                                      fn := fun _ v => fcmpVal cond ((v 0).setWidth 32) ((v 1).setWidth 32) }
  | .fclass g ty p a mask m => some { g := g, ty := ty, p := p, m := m, args := [argA ty a], words := 1,
                                      fn := fun _ v => (bitOf mask (fclassOf ((v 0).setWidth 32)), 0) }
  | _ => none

/-! ## The instructions that move and combine lanes (07 R194 to R197, 08 R231 to R248) -/

/-- One vector result: guard, sources, destination, lanes written, their values, side-band, flags, words, whether a draw was
taken, and what the operands must meet beyond being ready. -/
structure LaneForm where
  g : Guard
  us : List SrcUse
  d : Dst
  m : Lanes
  y : Nat → W32
  sb : Option SideBand
  fl : Fl
  words : Nat
  drew : Bool
  ok : Bool
/-- A result in the active lanes, without side-band or draw. -/
def Iss.laneForm (x : Iss) (g : Guard) (us : List SrcUse) (d : Dst) (ok : Bool) (y : Nat → W32) (fl : Fl) : Option LaneForm :=
  some { g := g, us := us, d := d, m := x.act g, y := y, sb := none, fl := fl, words := 1, drew := false, ok := ok }
/-- The amount of a shuffle in lane l. -/
def Iss.amount (x : Iss) (ty : Ty) (b : ShAmt) (l : Nat) : Nat :=
  match b with
  | .imm n => n.toNat
  | .sel b => (x.laneVal (argB ty b) l).toNat
def Iss.shflForm (x : Iss) (form : ShflForm) (g : Guard) (ty : Ty) (d : Dst) (a : Sel) (b : ShAmt) (c : Sel) : Option LaneForm :=
  let act := x.act g
  let pick := x.pick form (x.amount ty b)
  x.laneForm g (src .v a :: shAmtUses ty b ++ [src .v c]) d
    (x.clean act (shAmtUses ty b) && x.clean (laneMask ((lanesOf act).filterMap pick)) [src .v a]
      && x.clean (laneMask ((lanesOf act).filter (fun l => (pick l).isNone))) [src .v c])
    (fun l => match pick l with | some j => x.laneVal (.v a) j | none => x.laneVal (.v c) l) 0
/-- LRED and LSCAN (R247). -/
def Iss.combineForm (x : Iss) (g : Guard) (d : Dst) (a : Sel) (op : LaneOp) (r : BitVec 2) (scan excl : Bool) : Option LaneForm :=
  let rs := (laneSets x.l.compat16 (x.act g)).map (laneCombine op r scan excl (x.laneVal (.v a)))
  x.laneForm g [src .v a] d (x.clean (x.act g) [src .v a]) (fun l => (look l (rs.flatMap (·.1))).getD 0)
    (rs.foldl (fun acc z => acc ||| z.2) 0)
/-- Moves, selections, votes, shuffles, reductions, conversions by stochastic rounding. -/
def moveForm (x : Iss) (s : State) : Instr → Option LaneForm
  | .mov g ty d a => match ty with
    | .vec => (x.laneForm g [src .v a] d (x.clean (x.act g) [src .v a]) (x.laneVal (.v a)) 0).map
        (fun f => { f with sb := some (x.t.readV x.off a).sb })
    | _ => none
  | .isel g ty d a b p => match ty.kind with
    | .v => (x.laneForm g (argUses [argA ty a, argOpnd ty b]) d (x.clean (x.act g) (argUses [argA ty a, argOpnd ty b]))
        (fun l => if (x.t.pred p.toNat).getLsbD l then x.laneVal (argA ty a) l else x.laneVal (argOpnd ty b) l) 0).map
          (fun f => { f with words := wordsB b })
    | .s => none
  | .pget g d a v => if v then x.laneForm g [] d true (fun l => w32 (b1 ((x.t.pred a.toNat).getLsbD l))) 0 else none
  | .vote g d p m => x.laneForm g [] d true (fun l => voteVal m (x.act g &&& halfOf x.l.compat16 l) (x.t.pred p.toNat)
      (if x.l.compat16 then 16 * (l / 16) else 0)) 0
  | .lred g d a op r => x.combineForm g d a op r false false
  | .lscan g d a op excl r => x.combineForm g d a op r true excl
  | .lmatch g d a => x.laneForm g [src .v a] d (x.clean (x.act g) [src .v a])
      (fun l => laneMask ((lanesOf (x.act g)).filter (fun k => x.laneVal (.v a) k = x.laneVal (.v a) l))) 0
  | .shflIdx g ty d a b c => x.shflForm .idx g ty d a b c
  | .shflUp g ty d a b c => x.shflForm .up g ty d a b c
  | .shflDown g ty d a b c => x.shflForm .down g ty d a b c
  | .shflXor g ty d a b c => x.shflForm .xor g ty d a b c
  | .cvts g d a dst cm => (x.laneForm g [src .v a] d (x.clean (x.act g) [src .v a])
      (fun l => (cvtVal dst .f32 cm .sr ((x.draws s).at l 0) 32 (x.laneVal (.v a) l)).1)
      (raisedIn (x.act g) (fun l => (cvtVal dst .f32 cm .sr ((x.draws s).at l 0) 32 (x.laneVal (.v a) l)).2))).map
        (fun f => { f with drew := true })
  | .bmax g d a =>
    let y := bmaxVal ((lanesOf (x.act g)).map (x.laneVal (.v a)))
    x.laneForm g [src .v a] d (x.clean (x.act g) [src .v a]) (fun _ => y.1) y.2
  | .bscale g d a f => x.laneForm g [src .v a] d (x.clean (x.act g) [src .v a])
      (fun l => w32 (bscale [Fmt.f32.read (x.laneVal (.v a) l).toNat] f)) 0
  | _ => none

/-- What R234 and R51 ask of a line operand: a valid side-band, a block format where one is needed, block j present. -/
def lineOk (v : VVal) (block : Bool) (j : Option Nat) : Bool :=
  sbOk v.sb && !(block && sbFormat v.sb = 0) && blockIn v.sb j
/-- A result in the active lanes from a whole line. -/
def Iss.lineForm (x : Iss) (g : Guard) (d : Dst) (a : Sel) (block : Bool) (j : Option Nat) (y : VVal → Nat → W32)
    (fl : VVal → Fl) : Option LaneForm :=
  let v := x.t.readV x.off a
  x.laneForm g [src .v a] d (x.act g = 0 || (x.clean allLanes [src .v a] && lineOk v block j)) (y v)
    (if x.act g = 0 then 0 else fl v)
/-- The lane results of block lines. -/
def blockForm (x : Iss) : Instr → Option LaneForm
  | .bdq g d a j => x.lineForm g d a true (some j.toNat)
      (fun v l => (dequant (nth (codesOf v j.toNat) l 0) (sbSlot v.sb j.toNat) (fmtOf v.sb)).1)
      (fun v => raisedIn (x.act g) (fun l => (dequant (nth (codesOf v j.toNat) l 0) (sbSlot v.sb j.toNat) (fmtOf v.sb)).2))
  | .bsum g d a j all r =>
    let js := fun (v : VVal) => if all then upTo (fmtOf v.sb).blocks else [j.toNat]
    x.lineForm g d a true (if all then none else some j.toNat) (fun v _ => (bsumVal v (js v) (rndOf r)).1)
      (fun v => (bsumVal v (js v) (rndOf r)).2)
  | .sget g d a j fmt => x.lineForm g d a false (if fmt then none else some j.toNat)
      (fun v _ => w32 (if fmt then bits v.sb 96 8 else if sbFormat v.sb = 0 then 0 else sbSlot v.sb j.toNat)) (fun _ => 0)
  | .bunpk g d a j sx => x.lineForm g d a true (some j.toNat)
      (fun v l => w32 (let c := nth (codesOf v j.toNat) l 0
                       let w := elemWidth (fmtOf v.sb)
                       if sx && 2 ^ (w - 1) ≤ c then c + 2 ^ 32 - 2 ^ w else c)) (fun _ => 0)
  | _ => none

/-- The lowest active lane. -/
def lowLane (act : Lanes) : Nat := ((lanesOf act).head?).getD 0
/-- The scale operand of R234, and the lanes of it that are read. -/
def Iss.scaleVal (x : Iss) (act : Lanes) (ty : Ty) (b : Sel) : Nat :=
  match ty with
  | .vec => bits (x.laneVal (.v b) (lowLane act)) 0 12
  | _ => bits (x.wordVal (.s b)) 0 12
def Iss.scaleClean (x : Iss) (act : Lanes) (ty : Ty) (b : Sel) : Bool :=
  match ty with
  | .vec => x.clean (act &&& (1#32 <<< lowLane act)) [src .v b]
  | _ => x.clean act [src .s b]
/-- The shift BRSC reads. -/
def Iss.shiftVal (x : Iss) : BrscMode → W64
  | .shift k => x.wordVal (.s k)
  | _ => 0
def Iss.shiftClean (x : Iss) (act : Lanes) : BrscMode → Bool
  | .shift k => x.clean act [src .s k]
  | _ => true
/-- A result in every lane with its side-band, when some lane performs the instruction. -/
def Iss.writerForm (x : Iss) (g : Guard) (us : List SrcUse) (d : Dst) (ok : Bool) (y : Line) (sb : SideBand) (fl : Fl) (drew : Bool) :
    Option LaneForm :=
  let none_ := x.act g = 0
  some { g := g, us := us, d := d, m := if none_ then 0 else allLanes, y := laneOf y, sb := some sb,
         fl := if none_ then 0 else fl, words := 1, drew := drew, ok := none_ || ok }
/-- The line writers. -/
def writerForm (x : Iss) (s : State) : Instr → Option LaneForm
  | .bqnt g ty d a b f j lay cm r =>
    let old := x.t.readV x.off (.reg d false)
    let y := bqntLine old f (b1 lay) j.toNat (x.scaleVal (x.act g) ty b) (x.act g) (x.laneVal (.v a)) cm r
      (fun l => (x.draws s).at l (32 * j.toNat + l))
    x.writerForm g ([src .v a, scaleUse ty b] ++ x.oldUse d) { idx := d, ws := false }
      (x.clean (x.act g) [src .v a] && x.scaleClean (x.act g) ty b && x.clean allLanes [src .v (.reg d false)]
        && ((x.t.vget d.toNat).isNone || sbOk old.sb)) y.1 y.2.1 y.2.2 (r = .sr)
  | .brsc g d a mode cm r =>
    let v := x.t.readV x.off a
    let y := brscLine v mode (x.shiftVal mode) cm r (x.draws s).at
    x.writerForm g (brscUses a mode) d (x.clean allLanes [src .v a]
      && x.shiftClean (x.act g) mode && lineOk v true none) y.1 y.2.1 y.2.2 (r = .sr)
  | .sset g ty d a b j fmt =>
    let v := x.t.readV x.off a
    let c := x.scaleVal (x.act g) ty b
    x.writerForm g [src .v a, scaleUse ty b] d (x.clean allLanes [src .v a] && x.scaleClean (x.act g) ty b
      && (if fmt then fmtOk c else lineOk v true (some j.toNat))) (ssetLine v c j.toNat fmt).1 (ssetLine v c j.toNat fmt).2 0 false
  | .bpack g d a j =>
    let old := x.t.readV x.off (.reg d false)
    x.writerForm g (src .v a :: x.oldUse d) { idx := d, ws := false }
      (x.clean (x.act g) [src .v a] && x.clean allLanes [src .v (.reg d false)] && (x.t.vget d.toNat).isSome
        && lineOk old true (some j.toNat)) (bpackLine old (x.act g) (x.laneVal (.v a)) j.toNat) old.sb 0 false
  | _ => none

/-- A scalar result that is no computation of Table 07.2: guard, sources, destination, value, words. -/
structure WordForm where
  g : Guard
  us : List SrcUse
  d : Dst
  v : W64
  words : Nat
def wordForm (x : Iss) : Instr → Option WordForm
  | .isel g ty d a b p => match ty.kind with
    | .v => none
    | .s => some { g := g, us := argUses [argA ty a, argOpnd ty b], d := d, words := wordsB b,
                   v := if lowBit (x.act g) (x.t.pred p.toNat) then x.wordVal (argA ty a) else x.wordVal (argOpnd ty b) }
  | .pget g d a v => if v then none
    else some { g := g, us := [], d := d, v := (x.t.pred a.toNat).setWidth 64, words := 1 }
  | _ => none
/-- A predicate result: guard, sources, predicate, value. -/
structure PredForm where
  g : Guard
  us : List SrcUse
  p : BitVec 4
  v : Lanes
def predForm (x : Iss) : Instr → Option PredForm
  | .pand g d a b => some { g := g, us := [], p := d, v := x.t.pred a.toNat &&& x.t.pred b.toNat }
  | .por g d a b => some { g := g, us := [], p := d, v := x.t.pred a.toNat ||| x.t.pred b.toNat }
  | .pxor g d a b => some { g := g, us := [], p := d, v := x.t.pred a.toNat ^^^ x.t.pred b.toNat }
  | .pnot g d a => some { g := g, us := [], p := d, v := ~~~ x.t.pred a.toNat }
  | .pset g d a v =>
    if v then some { g := g, us := [src .v a], p := d, v := laneMask ((upTo 32).filter (fun l => x.laneVal (.v a) l ≠ 0)) }
    else some { g := g, us := [src .s a], p := d, v := (x.wordVal (.s a)).setWidth 32 }
  | _ => none

/-! ## The pair form (05 R156 to R159) -/

def halfTo (h : Half) : Dst := { idx := h.d, ws := false }
/-- A half's result on vector registers, lane by lane, and its side-band; on scalar registers. -/
def Iss.halfLane (x : Iss) (h : Half) (l : Nat) : W32 × Fl :=
  pairOpVal h.op 32 (x.laneVal (.v (.reg h.d false)) l) (x.laneVal (.v h.a) l)
def Iss.halfSb (x : Iss) (h : Half) : Option SideBand := if h.op = .mov then some (x.t.readV x.off h.a).sb else none
def Iss.halfWord (x : Iss) (h : Half) : W64 × Fl := pairOpVal h.op 64 (x.wordVal (.s (.reg h.d false))) (x.wordVal (.s h.a))
/-- The file of half 1. -/
def half1Kind (hs : Bool) : Kind := if hs then .s else .v
/-- Sources and destinations of a pair; a half that no lane performs writes nothing. -/
def pairUses (h0 h1 : Half) (hs : Bool) : List SrcUse := halfUses h0 .v ++ halfUses h1 (half1Kind hs)
def halfDst (h : Half) (k : Kind) (act : Lanes) : List DstUse := if act = 0 then [] else [{ k := k, idx := h.d.toNat, n := 1 }]
def pairDsts (h0 h1 : Half) (hs : Bool) (a0 a1 : Lanes) : List DstUse := halfDst h0 .v a0 ++ halfDst h1 (half1Kind hs) a1

/-! ## Control (07 R198 to R204, R209 to R215) -/

/-- Table 07.9: the branch is performed; a .U branch whose guard is mixed is neither. -/
def Iss.taken (x : Iss) (g : Guard) : BrMode → Bool
  | .any => x.act g ≠ 0
  | .all | .uniform => x.act g = x.p.mask
def Iss.decided (x : Iss) (g : Guard) (m : BrMode) : Bool := m ≠ .uniform || x.act g = x.p.mask || x.act g = 0
/-- A path that goes on at another address and nothing else: sources, the address if not the next one, whether the latches
are cleared whatever is read, what the operands must meet. -/
structure JumpForm where
  us : List SrcUse
  dest : Option W64
  clear : Bool
  ok : Bool
def Iss.jumpTo (x : Iss) (g : Guard) (m : BrMode) (us : List SrcUse) (goal : W64) (ok : Bool) : Option JumpForm :=
  some { us := us, dest := if x.taken g m then some goal else none, clear := false, ok := x.decided g m && (!x.taken g m || ok) }
/-- An instruction that only passes: NOP, and others where their condition does not hold. -/
def passes (clear ok : Bool) : Option JumpForm := some { us := [], dest := none, clear := clear, ok := ok }
/-- Flags that TFENCE answers (R212). -/
def Team.due (t : Team) : Fl := t.flags &&& t.flagen
def jumpForm (x : Iss) : Instr → Option JumpForm
  | .nop _ => passes false true
  | .bra g disp m => x.jumpTo g m [] (x.target disp) (addrOk57 (x.target disp))
  | .brc g disp _ =>
    if x.act g = 0 then passes false true
    else some { us := [], dest := some (x.target disp), clear := false,
                ok := x.p.mask &&& ~~~ x.act g = 0 && addrOk57 (x.target disp) }
  | .brx g a m => x.jumpTo g m [src .s a] (x.wordVal (.s a)) (x.clean allLanes [src .s a] && targetOk (x.wordVal (.s a)))
  | .ret g a => x.jumpTo g .uniform [src .s a] (x.wordVal (.s a)) (x.clean allLanes [src .s a] && targetOk (x.wordVal (.s a)))
  | .reconv _ => passes false (x.p.rpc ≠ x.p.pc)
  | .yield _ => passes true (!x.t.yieldDue)
  | .exit g => passes false (x.act g = 0)
  | .trap g _ => passes false (x.act g = 0)
  | .tfence g => passes true (x.act g = 0 || x.t.due = 0 || x.t.handler.isSome || x.t.region.isSome)
  | .reth g => passes true (x.act g = 0)
  | _ => none
/-- A branch that writes a scalar (R199, R202): guard, sources, destination, value, target, what the operands must meet. -/
structure LinkForm where
  g : Guard
  us : List SrcUse
  d : BitVec 8
  v : W64
  dest : W64
  ok : Bool
def linkForm (x : Iss) : Instr → Option LinkForm
  | .call g d disp => some { g := g, us := [], d := d, v := x.p.pc + 8, dest := x.target disp, ok := addrOk57 (x.target disp) }
  | .callx g d a => some { g := g, us := [src .s a], d := d, v := x.p.pc + 8, dest := x.wordVal (.s a),
                           ok := x.clean allLanes [src .s a] && targetOk (x.wordVal (.s a)) }
  | .loop g d disp =>
    let n := x.wordVal (.s (.reg d false)) - 1
    some { g := g, us := [src .s (.reg d false)], d := d, v := n, dest := if n = 0 then x.p.pc + 8 else x.target disp,
           ok := x.clean allLanes [src .s (.reg d false)] && (n = 0 || addrOk57 (x.target disp)) }
  | _ => none
/-- The team has entered its handler from path P of its side (R209, R210): P stands at the handler with its mask, the side's
latches are invalid, s56 to s63 name the shadow registers, which say why and where to resume; the registers stay. -/
def Iss.inHandler (x : Iss) (s : State) (o : Host.Outcome State Fault Refusal) (cause detail : Nat) (resume : W64) : Prop :=
  ∃ t u, o = .next t
    ∧ x.endsIn s t u { us := [], vs := [], ss := from_ 56 8, p := none, flags := x.t.flags,
                       path := x.at_ (s.ctxAt (s.ctxOf x.t.block)).handler, latches := [none, none, none, none],
                       rest := { x.t.rest with handler := some x.off }, out := s }
    ∧ u.shadow = [w64 cause, resume, w64 detail, x.p.mask.setWidth 64, 0, 0, 0, 0].map SReg.plain
    ∧ u.sregs = x.t.sregs
    ∧ ∀ i ∈ from_ 56 8, u.sval i = some ((nth u.shadow (i - 56) (.plain 0)).val, none)

end Sys2Proof.Machine
end

