-- ==== Sys2Proof/Safety/Memory.lean ====
section
/-! DEFINITION. What memory and synchronisation instructions leave, form by form: the terms in which their statements are made
(09_ref_memory_sync_try.md R252 to R288; 03_memory_hierarchy.md; 04_ordering_and_visibility.md). -/

namespace Sys2Proof.Machine

/-! ## Operands that are groups of registers -/

def SrcUse.each (a : SrcUse) : List SrcUse := (upTo a.n).map (fun i => src a.k (nextSel a.sel i))
/-- No lane that is read of any register of the groups is poisoned (R401). -/
def Iss.cleanAll (x : Iss) (act : Lanes) (us : List SrcUse) : Bool := x.clean act (us.flatMap SrcUse.each)
/-- Table 09.4: the addresses, or offsets, of the active lanes; a scalar form is one access of lane 0. -/
def Iss.addrs (x : Iss) (act : Lanes) (scl prv : Bool) (a : Sel) : List (Nat × Nat) :=
  if scl then (if act = 0 then [] else [(0, (x.wordVal (.s a)).toNat)])
  else (lanesOf act).map (fun l => (l,
    (if prv then 0 else (x.laneVal (.v (nextSel a 1)) l).toNat * 2 ^ 32) + (x.laneVal (.v a) l).toNat))
/-- The bytes that an access stores: a scalar's low bytes, or a lane's registers one after another. -/
def Iss.stored (x : Iss) (act : Lanes) (scl : Bool) (size : Nat) (b : Sel) : List (Nat × List Byte) :=
  if scl then [(0, toBytes size (x.wordVal (.s b)))]
  else (lanesOf act).map (fun l => (l, ((upTo 4).flatMap (fun i => toBytes 4 (x.laneVal (.v (nextSel b i)) l))).take size))

/-! ## What an instruction leaves besides registers -/

/-- Guard, sources, the registers that wait for a result, whether it is always a switch point, words; what must hold beyond
ready operands; the rest of the team and the machine around it afterwards. -/
structure EffForm where
  g : Guard
  us : List SrcUse
  dst : LDst
  static : Bool
  words : Nat
  ok : Bool
  rest : Team
  out : State
/-- An instruction that no lane performs: its sources are read, and nothing else happens (R159). -/
def Iss.idle (x : Iss) (s : State) (g : Guard) (us : List SrcUse) (static : Bool) (words : Nat) : Option EffForm :=
  some { g := g, us := us, dst := .none, static := static, words := words, ok := true, rest := x.t.rest, out := s }
/-- The instruction has ended so. -/
def Iss.did (x : Iss) (s : State) (o : Host.Outcome State Fault Refusal) (f : EffForm) : Prop :=
  x.sent s o f.us (x.act f.g) f.dst f.static 0 f.words f.rest f.out
/-- Its operands stand ready and clean. -/
def Iss.able (x : Iss) (s : State) (f : EffForm) : Bool :=
  f.ok && x.ready s (x.act f.g) f.us f.dst.uses f.static && x.cleanAll (x.act f.g) f.us

/-- No acquire of the team is outstanding (R116), and a region is not open where none may be (R281). -/
def Iss.unheld (x : Iss) (s : State) : Bool := !s.acquirePending x.u
def Iss.alone (x : Iss) (s : State) : Bool := x.t.region.isNone && x.unheld s
/-- R115: a release at a scope waits for nothing. -/
def Iss.mayRelease (x : Iss) (s : State) (scope : Scope) : Bool :=
  !s.accessPending x.u && (!decide (2 ≤ scope.rank) || decide (x.t.queue = [])) && (!decide (scope = .fab) || !s.fabricWrites x.u)
/-- The region once sectors have entered its read set; none where the set is full. -/
def Iss.readsIn (x : Iss) (registered : Bool) (rs : List (SecKind × Nat × Nat)) : Option (Option Try) :=
  match x.t.region with
  | none => some none
  | some r => (r.read registered rs).map some
/-- No access to the fabric window inside a region (R281). -/
def Iss.fabricFree (x : Iss) (as : List Acc) : Bool := x.t.region.isNone || as.all (fun a => !isFabric a.pa)

/-! ## Loads and prefetch -/

/-- LD and LDC (R79, R256): each line is requested, the bytes that the team's own queue or buffer holds are taken along. -/
def Iss.loadEff (x : Iss) (s : State) (g : Guard) (d : BitVec 8) (a : Sel) (w : LdW) (prv scl cst : Bool) (o : Ord)
    (accs : List (Nat × Nat) → Except Halt (State × List Acc)) : Option EffForm :=
  let act := x.act g
  let n := ldBytes w
  let us := addrUses scl (prv || cst) a
  if act = 0 then x.idle s g us false 1
  else match accs (x.addrs act scl (prv || cst) a) with
    | .error _ => none
    | .ok (s1, as) =>
      match (if cst then some x.t.region else x.readsIn false (readSectors n as)) with
      | none => none
      | some r =>
        let strong := decide (o.ann ≠ .plain)
        let region := x.t.region.isSome && !cst
        let lines := linesOf n (as.map (·.pa))
        let s2 := if region then s1.dropHome x.b.die x.b.core lines
          else if strong then s1.dropLines x.b.die x.b.core lines else s1
        let las := as.map (fun a => ({ lane := a.lane, addr := a.pa, fwd := forwarded x.t.viewByte a.pa n } : LaneAddr))
        let ps := x.parts s2 cst (cst || (!strong && !region)) (!region) lines
        let dst := loadDst act scl d.toNat n
        some { g := g, us := us, dst := dst, static := false, words := 1
               ok := x.unheld s && x.fabricFree as
               rest := { x.t.rest with region := r }
               out := s2.addOp { x.memOp s2 (.load n (ldExt w) cst region ps las) dst act with
                 strong := strong
                 acq := if o.ann = .acq then some (o.scope.getD (defaultScope prv as)) else none
                 reason := reasonOf (as.map (·.pa)) } }
/-- LDB from global and private memory (R257). -/
def Iss.lineEff (x : Iss) (s : State) (g : Guard) (d : Dst) (a : Sel) (prv : Bool) : Option EffForm :=
  let act := x.act g
  let us := [src .s a]
  if act = 0 then x.idle s g us false 1
  else
    let ls := x.addrs act true true a
    match (if prv then x.privAccs s accLoad true .rd 128 ls else x.globalAccs s accLoad true .rd 128 ls) with
    | .error _ => none
    | .ok (s1, as) =>
      match x.readsIn false (readSectors 128 as) with
      | none => none
      | some r =>
        let pa := (as.map (·.pa)).headD 0
        let region := x.t.region.isSome
        let s2 := if region then s1.dropHome x.b.die x.b.core [(pa / 128, 15)] else s1
        let own := s2.accessOnWay x.u (pa / 128)
        let p := s2.linePart x.b.die x.b.core (pa / 128) 15 false (!region && !own) (!region && !own)
        let sb := match bufSb x.t .memSide (pa / 128) with | some v => some v | none => x.t.queueSb (pa / 128)
        some { g := g, us := us, dst := .vec d.idx.toNat 1, static := false, words := 1
               ok := x.unheld s && x.fabricFree as
               rest := { x.t.rest with region := r }
               out := s2.addOp { x.memOp s2 (.line region (forwarded x.t.viewByte pa 128) sb p) (.vec d.idx.toNat 1) allLanes with
                 reason := reasonOf [pa] } }
/-- PREF (R260): what passes its checks is requested, nothing waits for it. -/
def Iss.prefEff (x : Iss) (s : State) (g : Guard) (a : Sel) (scl l1 : Bool) : Option EffForm :=
  let act := x.act g
  match s.prefAddrs x.b.die x.b.core x.c ((x.addrs act scl false a).map (·.2)) with
  | .error _ => none
  | .ok (s1, as) =>
    let ps := (linesOf 1 as).map (fun y => s1.linePart x.b.die x.b.core y.1 y.2 false l1 (l1 || isExpander (128 * y.1)))
    some { g := g, us := addrUses scl false a, dst := .none, static := false, words := 1, ok := true, rest := x.t.rest
           out := if as = [] then s1 else s1.addOp (x.memOp s1 (.load 1 .zero false false ps []) .none act) }
/-- The loads whose result lands later, and prefetch. -/
def loadForm (x : Iss) (s : State) : Instr → Option EffForm
  | .ld g d a w prv scl o => x.loadEff s g d a w prv scl false o (fun ls =>
      if prv then x.privAccs s accLoad scl .rd (ldBytes w) ls else x.globalAccs s accLoad scl .rd (ldBytes w) ls)
  | .ldc g d a w scl => x.loadEff s g d a w false scl true { ann := .plain, scope := none } (fun ls => do
      x.checkOffs accLoad scl (ldBytes w) x.l.constSize 0x0205 ls
      x.globalAccs s accLoad scl .rd (ldBytes w) (ls.map (fun a => (a.1, x.l.constBase + a.2))))
  | .ldb g d a sp => match sp with
    | .spad => none
    | .prv => x.lineEff s g d a true
    | .g => x.lineEff s g d a false
  | .pref g a scl l1 => x.prefEff s g a scl l1
  | _ => none

/-! ## Stores -/

/-- The entries that a store leaves fit its team's queue (R94). -/
def Iss.queueFits (x : Iss) (f : EffForm) : Bool := f.rest.queue = x.t.queue || decide (f.rest.queue.length ≤ Config.storeQueue)
/-- What a store leaves: inside a region its bytes in the buffer; outside entries at the end of the queue, their sectors out of
the core's L1, the store retired. -/
def Iss.storeEff (x : Iss) (s1 s2 : State) (g : Guard) (us : List SrcUse) (static ok : Bool)
    (ws : List (SecKind × Nat × Nat × Nat × Byte)) (es : List QEntry) : Option EffForm :=
  match x.t.region with
  | some r =>
    match r.write ws with
    | none => none
    | some r' => some { g := g, us := us, dst := .none, static := static, words := 1, ok := ok
                        rest := { x.t.rest with region := some { r' with stores := r'.stores + 1 } }, out := s1 }
  | none => some { g := g, us := us, dst := .none, static := static, words := 1
                   ok := ok
                   rest := { x.t.rest with queue := x.t.queue ++ es, retst := x.t.retst + 1 }
                   out := s2.storedL1 x.b.die x.b.core es }
/-- The same for a store to scratchpad, which is applied at once. -/
def Iss.spadEff (x : Iss) (s1 s2 : State) (g : Guard) (us : List SrcUse) (static ok : Bool)
    (ws : List (SecKind × Nat × Nat × Nat × Byte)) : Option EffForm :=
  match x.t.region with
  | some r =>
    match r.write ws with
    | none => none
    | some r' => some { g := g, us := us, dst := .none, static := static, words := 1, ok := ok
                        rest := { x.t.rest with region := some { r' with stores := r'.stores + 1 } }, out := s1 }
  | none => some { g := g, us := us, dst := .none, static := static, words := 1, ok := ok
                   rest := { x.t.rest with retst := x.t.retst + 1 }, out := s2 }
/-- Offsets of a scratchpad access: aligned, within the block's scratchpad (R77), not leased (R294), not locked (R284). -/
def Iss.spadFits (x : Iss) (n : Nat) (ls : List (Nat × Nat)) : Bool :=
  ls.all (fun a => a.2 % n = 0 && decide (a.2 + n ≤ x.l.spadBytes))
def Iss.spadFree (x : Iss) (s : State) (n : Nat) (ls : List (Nat × Nat)) : Bool :=
  ls.all (fun a => !s.leased x.t.block a.2 n && !s.spadLocked x.t.block a.2 n (some x.u))
/-- Stores (R258, R257, R259): ST, STS, STB, STM. -/
def storeForm (x : Iss) (s : State) : Instr → Option EffForm
  | .st g a b w prv scl o =>
    let act := x.act g
    let n := stBytes w
    let us := addrUses scl prv a ++ dataUses scl (groupOf n) b
    let ls := x.addrs act scl prv a
    if act = 0 then x.idle s g us true 1
    else match (if prv then x.privAccs s accStore scl .wr n ls else x.globalAccs s accStore scl .wr n ls) with
      | .error _ => none
      | .ok (s1, as) =>
        let ws := (as.zip (x.stored act scl n b)).map (fun y => (y.1.lane, y.1.pa, y.2.2))
        let scope := o.scope.getD (defaultScope prv as)
        let rel := decide (o.ann = .rel)
        let s2 := if rel then s1.releaseAt x.b.die scope else s1
        x.storeEff s2 s2 g us true
          (x.unheld s && x.fabricFree as && (!rel || x.mayRelease s1 scope)
            && !(o.ann ≠ .plain && s1.ownStrong x.u x.b.die && as.any (fun a => s1.homeOf a.pa = x.b.die)))
          (bufWrites .mem (writeLanes scl act) ws)
          ((storeEntries (ws.map (·.2))).map (fun (e : QEntry) => { e with rel := rel && decide (scope = .fab) }))
  | .sts g a b w scl o =>
    let act := x.act g
    let n := stBytes w
    let us := addrUses scl true a ++ dataUses scl (groupOf n) b
    let ls := x.addrs act scl true a
    let rel := decide (o.ann = .rel)
    if act = 0 then x.idle s g us rel 1
    else
      let ws := (ls.zip (x.stored act scl n b)).map (fun y => (y.1.1, y.1.2, y.2.2))
      let s1 := if rel then s.releaseAt x.b.die (o.scope.getD .blk) else s
      x.spadEff s1 (s1.spadWrites x.u x.t.block (s1.die x.b.die).clock (ws.map (·.2))) g us rel
        (x.unheld s && x.spadFits n ls && x.spadFree s n ls && (!rel || x.mayRelease s (o.scope.getD .blk)))
        (bufWrites .spad (writeLanes scl act) ws)
  | .stb g a b sp =>
    let act := x.act g
    let us := [src .s a, src .v b]
    let ls := x.addrs act true true a
    let v := x.t.readV x.off b
    if act = 0 then x.idle s g us (decide (sp ≠ .spad)) 1
    else match sp with
      | .spad =>
        let o := (x.wordVal (.s a)).toNat
        x.spadEff s (s.spadWriteLine x.t.block (o / 128) v.data (sbOut v.sb) (s.die x.b.die).clock (some x.u)) g us false
          (x.unheld s && x.spadFits 128 ls && x.spadFree s 128 ls && x.clean allLanes [src .v b])
          (bufWrites .spad (writeLanes true act) [(0, o, toBytes 128 v.data)] ++ sideWrites .spadSide (o / 128) (sbOut v.sb) (onceLanes act))
      | _ =>
        match (if sp = .prv then x.privAccs s accStore true .wr 128 ls else x.globalAccs s accStore true .wr 128 ls) with
        | .error _ => none
        | .ok (s1, as) =>
          let pa := (as.map (·.pa)).headD 0
          x.storeEff s1 s1 g us true (x.unheld s && x.fabricFree as && x.clean allLanes [src .v b])
            (bufWrites .mem (writeLanes true act) [(0, pa, toBytes 128 v.data)] ++ sideWrites .memSide (pa / 128) (sbOut v.sb) (onceLanes act))
            (lineEntries pa v.data (sbOut v.sb))
  | .stm g a b w k =>
    let act := x.act g
    let n := stBytes w
    let us := [src .v a, srcN .v (groupOf n) b]
    let ls := x.addrs act false true a
    if act = 0 then x.idle s g us true 1
    else match x.yard k.toNat with
      | none => none
      | some (i, e) =>
        match x.b.window i with
        | none => none
        | some m =>
          let ps := sectorPieces ((ls.zip (x.stored act false n b)).map (fun y => (y.1.2, y.2.2)))
          let es := ps.map (fun p =>
            ({ view := { addr := 0, mask := 0, data := 0 }, charge := 32 * (s.yardDies x.b.launch e).length,
               send := .mirror i p.addr p.mask p.data, commit := false, rel := false, stamp := none } : QEntry))
          some { g := g, us := us, dst := .none, static := true, words := 1
                 ok := x.alone s && ls.all (fun a => a.2 % n = 0 && decide (m.base ≤ a.2) && decide (a.2 + n ≤ m.base + m.size))
                 rest := { x.t.rest with queue := x.t.queue ++ es, retst := x.t.retst + 1 }
                 out := s }
  | _ => none

/-! ## Atomics -/

/-- The destination group of an atomic waits for the old values. -/
def Iss.atomEff (x : Iss) (s : State) (g : Guard) (d : BitVec 8) (ret : Bool) (f : Option AtomOp) (a b : Sel) (b64 scl : Bool)
    (o : Ord) : Option EffForm :=
  let act := x.act g
  let n := if b64 then 8 else 4
  let us := atomUses d f false a b b64 scl
  let rel := isRel o.ann
  if act = 0 then x.idle s g us rel 1
  else match x.globalAccs s accAtomic scl .rdwr n (x.addrs act scl false a) with
    | .error _ => none
    | .ok (s1, as) =>
      let cs := if f.isNone then x.stored act scl n (.reg d false) else []
      let gs := atomGroups (atomOperands as (x.stored act scl n b) cs)
      let scope := o.scope.getD (defaultScope false as)
      let dst := if ret then loadDst act scl d.toNat n else .none
      let s2 := if rel then s1.releaseAt x.b.die scope else s1
      let ok := x.unheld s && x.fabricFree as && (!rel || x.mayRelease s1 scope)
      let fab := rel && decide (scope = .fab)
      let acq := if isAcq o.ann then some scope else none
      if x.l.fixed && f = some .fadd && as.any (fun a => !isFabric a.pa) then
        let y := slotAdds scl x.t.slots (gs.filter (fun q => !isFabric q.1))
        let c := (s2.die x.b.die).clock
        let own := fun (l : List (Nat × W64 × W64)) => l.map (fun z => (z.1, ((look z.1 y.2.1).getD 0#32).setWidth 64))
        let ps := gs.map (fun q => s2.atomReq q.1 q.2 c fab (if isFabric q.1 then none else some (own q.2, 0, .zero)))
        some { g := g, us := us, dst := dst, static := rel, words := 1
               ok := ok && decide (y.1.length ≤ 64) && decide ((sortNat ((as.filter (fun a => !isFabric a.pa)).map (·.pa)
                 ++ x.t.slots.map Prod.fst)).length ≤ 64)
               rest := { x.t.rest with slots := y.1, region := x.t.region.map (fun (r : Try) => { r with adds := r.adds ++ y.2.2 }) }
               out := if gs.any (fun q => isFabric q.1) then
                   s2.addOp (x.atomOp s2 (some .fadd) n scl ps dst act acq (reasonOf (as.map (·.pa))))
                 else if dst = .none && acq.isNone then s2
                 else s2.addOp { x.memOp s2 (.value y.2.1 (((y.2.1.head?.map Prod.snd).getD 0#32).setWidth 64)) dst act with acq := acq } }
      else
        let s3 := s2.dropHome x.b.die x.b.core (linesOf n (as.map (·.pa)))
        let c := (s3.die x.b.die).clock
        let send := fun (ps : List AtomPart) =>
          s3.addOp (x.atomOp s3 f n scl ps dst act acq (reasonOf (as.map (·.pa))))
        match x.t.region with
        | none => some { g := g, us := us, dst := dst, static := rel, words := 1, ok := ok && !x.storesBefore s1 as
                         rest := x.t.rest, out := send (gs.map (fun y => s3.atomReq y.1 y.2 c fab none)) }
        | some r =>
          match r.read true (readSectors n as) with
          | none => none
          | some r =>
            let z := regionAtoms .mem f n scl act (fun pa => s3.memView { x.t with region := some r } pa n) gs
            match r.write z.2 with
            | none => none
            | some r => some
              { g := g, us := us, dst := dst, static := rel, words := 1
                ok := ok && !x.storesBefore s1 as && gs.all (fun y => s3.homeServes x.b.die c s3.uid y.1 n)
                  && as.all (fun a => (look (a.pa / 32) s3.mem.poison).isNone)
                rest := { x.t.rest with region := some r }
                out := send (gs.map (fun y => s3.atomReq y.1 y.2 c fab (some ((look y.1 z.1).getD [], 0, stampOf s3.mem.stamps y.1 n)))) }
/-- An atomic on scratchpad: applied at the core in the block's order; the old values are on their way. -/
def Iss.atomSpadEff (x : Iss) (s : State) (g : Guard) (d : BitVec 8) (f : Option AtomOp) (a b : Sel) (b64 scl : Bool) (o : Ord) :
    Option EffForm :=
  let act := x.act g
  let n := if b64 then 8 else 4
  let us := atomUses d f true a b b64 scl
  let rel := isRel o.ann
  let ls := x.addrs act scl true a
  if act = 0 then x.idle s g us rel 1
  else
    let as := ls.map (fun y => ({ lane := y.1, va := y.2, pa := y.2 } : Acc))
    let cs := if f.isNone then x.stored act scl n (.reg d false) else []
    let gs := atomGroups (atomOperands as (x.stored act scl n b) cs)
    let scope := o.scope.getD .blk
    let s2 := if rel then s.releaseAt x.b.die scope else s
    let c := (s2.die x.b.die).clock
    let dst := loadDst act scl d.toNat n
    let send := fun (s3 : State) (ps : List AtomPart) =>
      s3.addOp (x.atomOp s3 f n scl ps dst act (if isAcq o.ann then some scope else none) none)
    let ok := x.unheld s && x.spadFits n ls && x.spadFree s n ls && (!rel || x.mayRelease s scope)
    match x.t.region with
    | none => some { g := g, us := us, dst := dst, static := rel, words := 1, ok := ok, rest := x.t.rest
                     out := send (s2.spadAtoms x.u x.t.block x.b f n c gs) (gs.map (fun y => x.b.spadAnswer x.b.die f n c y.1 y.2)) }
    | some r =>
      match r.read true (as.flatMap (fun a => (sectorsOf a.pa n).map (fun k => (.spad, k, 32 * k)))) with
      | none => none
      | some r =>
        let z := regionAtoms .spad f n scl act
          (fun pa => w64 (ofBytes ((from_ pa n).map (s2.spadView x.u { x.t with region := some r })))) gs
        match r.write z.2 with
        | none => none
        | some r => some
          { g := g, us := us, dst := dst, static := rel, words := 1
            ok := ok && as.all (fun a => (poisonIn x.b.spadPoison a.pa n).isNone)
            rest := { x.t.rest with region := some r }
            out := send s2 (gs.map (fun y => spadReq x.b.die y.1 y.2 c ((look y.1 z.1).getD []) 0 (stampOf x.b.spadStamps y.1 n))) }
/-- Atomics (R261 to R263, R389). -/
def atomForm (x : Iss) (s : State) : Instr → Option EffForm
  | .atom g d a b op b64 scl o => x.atomEff s g d true (some op) a b b64 scl o
  | .cas g d a b b64 scl o => x.atomEff s g d true none a b b64 scl o
  | .red g a b op b64 scl o => x.atomEff s g 0 false (some op) a b b64 scl o
  | .atoms g d a b op b64 scl o => x.atomSpadEff s g d (some op) a b b64 scl o
  | .cass g d a b b64 scl o => x.atomSpadEff s g d none a b b64 scl o
  | _ => none

/-! ## Fences, barriers, watches -/

/-- A local object named by an instruction: aligned, in the block's scratchpad, and unlocked where it is written. -/
def Iss.barPlace (x : Iss) (s : State) (writes : Bool) : BarRef → Option BarLoc
  | .local a =>
    let o := (x.wordVal (.s a)).toNat
    if o % 16 = 0 && decide (o + 16 ≤ x.l.spadBytes) && !(writes && s.spadLocked x.t.block o 16 (some x.u)) then
      some { blk := x.t.block, off := o, obj := o }
    else none
  | .yard k => match x.yard k.toNat with
    | none => none
    | some (i, e) => (s.blockOf x.b.launch (yardFirst e)).map (fun blk =>
        { blk := blk, off := yardBarOff e, obj := 2 ^ 32 * (i + 1) + yardBarOff e })
/-- R268: a counting barrier without reserved values; with watch also a watch object. -/
def barGood (b : Bar) (watch : Bool) : Bool := b.clean && b.kind ≠ 0 && b.kind < 4 && (watch || b.kind ≠ 3)
/-- What an instruction without result leaves: the rest of the team and the machine. -/
def Iss.eff (_x : Iss) (g : Guard) (us : List SrcUse) (static ok : Bool) (words : Nat) (rest : Team) (out : State) : Option EffForm :=
  some { g := g, us := us, dst := .none, static := static, words := words, ok := ok, rest := rest, out := out }
/-- An arrival count. -/
def Iss.countVal (x : Iss) : Option Sel → Nat
  | some c => bits (x.wordVal (.s c)) 0 16
  | none => 1
/-- FENCE, FENCE.DEV.SC once sequenced, BINIT, ARRIVE, EXPECT, WAIT, UNWATCH (R117, R118, R270 to R277). -/
def syncForm (x : Iss) (s : State) : Instr → Option EffForm
  | .fence g sc k =>
    if x.act g = 0 then x.idle s g [] (decide (k ≠ .r)) 1
    else
      let s1 := if k = .r then s else s.releaseAt x.b.die sc
      x.eff g [] (decide (k ≠ .r)) (x.unheld s && !s.accessPending x.u && (decide (k = .r) || x.mayRelease s sc)) 1
        (if k = .w then x.t.rest else { x.t.rest with seen := .zero })
        (if k = .w then s1 else s1.acquireAt x.b.die x.b.core sc x.t.seen)
  | .fenceDevSc g =>
    if x.act g = 0 then x.idle s g [] true 1
    else x.eff g [] true (decide (x.t.scFence = some { off := x.off, pc := x.p.pc, passed := true })) 1
      { x.t.rest with scFence := none, seen := .zero } (s.discardL1 x.b.die x.b.core)
  | .binit g a n =>
    let us := [src .s a] ++ (match n with | .sel c => [src .s c] | .imm _ => [])
    if x.act g = 0 then x.idle s g us false 1
    else match x.barPlace s true (.local a) with
      | none => none
      | some p =>
        let c := match n with | .sel c => (x.wordVal (.s c)).toNat | .imm i => i.toNat
        x.eff g us false (x.alone s && decide (1 ≤ c) && decide (c ≤ 65535) && decide ((s.barAt p.blk p.off).kind < 2)) 1 x.t.rest
          ((s.barForget p.blk p.off).barPut p.blk p.off (.new 1 c) (some x.u))
  | .arrive g a cnt sc =>
    let us := src .s a :: cntUses cnt
    if x.act g = 0 then x.idle s g us true 1
    else match x.barPlace s true (.local a) with
      | none => none
      | some p =>
        let n := x.countVal cnt
        let scope := sc.getD .blk
        let s1 := s.releaseAt x.b.die scope
        x.eff g us true (x.alone s && barGood (s1.barAt p.blk p.off) false && decide (n ≤ (s1.barAt p.blk p.off).pend)
            && x.mayRelease s scope) 1 x.t.rest
          (if n = 0 then s1
            else (s1.barNote p.blk p.off (s1.die x.b.die).clock scope).barChange p.blk p.off (some x.u) (Bar.arrive n))
  | .arriveYard g k cnt _ =>
    let us := cntUses cnt
    if x.act g = 0 then x.idle s g us true 1
    else match x.yard k.toNat with
      | none => none
      | some (y, e) =>
        let n := x.countVal cnt
        let s1 := s.releaseAt x.b.die .dev
        let ph := match s1.blockOf x.b.launch (yardFirst e) with
          | some blk => BitVec.ofNat 16 (s1.barAt blk (yardBarOff e)).phase
          | none => 0
        let s2 := if x.l.fixed then
            s1.modLaunch x.b.launch (fun l => { l with contribs := contribute l.contribs y x.b.idx x.t.idx ph x.t.slots })
          else s1
        x.eff g us true (x.alone s && x.mayRelease s .dev) 1
          (if n ≠ 0 && x.l.fixed then { x.t.rest with slots := [] } else x.t.rest)
          (if n = 0 then s1 else s2.setNet (fun m => { m with arrivals := m.arrivals ++ [
            { launch := x.b.launch, yard := y, count := n, team := x.u, blockIdx := x.b.idx, teamIdx := x.t.idx, pc := x.p.pc,
              off := x.off, die := x.b.die, stamp := (s2.die x.b.die).clock, ctx := x.c }] }))
  | .expect g r b =>
    let us := barUses r ++ [src .s b]
    if x.act g = 0 then x.idle s g us false 1
    else match x.barPlace s true r with
      | none => none
      | some p => x.eff g us false (x.alone s && barGood (s.barAt p.blk p.off) false
            && !s.spadLocked p.blk p.off 16 (some x.u)) 1 x.t.rest
          (s.barChange p.blk p.off (some x.u) (Bar.expect (bits (x.wordVal (.s b)) 0 32)))
  | .wait g r b =>
    let us := barUses r ++ [src .s b]
    if x.act g = 0 then x.idle s g us true 1
    else match x.barPlace s false r with
      | none => none
      | some p =>
        let o := s.barAt p.blk p.off
        x.eff g us true (x.unheld s && barGood o true && phaseDone o.phase (bits (x.wordVal (.s b)) 0 16)) 1
          (if o.kind = 3 then x.t.rest else { x.t.rest with seen := .zero }) (if o.kind = 3 then s else s.barAcquire x p)
  | .waitBatch g b =>
    let us := [src .s b]
    if x.act g = 0 then x.idle s g us true 1
    else
      let n := bits (x.wordVal (.s b)) 0 16
      x.eff g us true (x.unheld s && x.t.batchClosed n && phaseDone x.t.batch.phase.toNat n) 1
        { x.t.rest with seen := .zero } (s.batchAcquire x)
  | .unwatch g a =>
    let us := [src .s a]
    if x.act g = 0 then x.idle s g us false 1
    else match x.barPlace s true (.local a) with
      | none => none
      | some p =>
        let o := s.barAt p.blk p.off
        x.eff g us false (x.alone s && barGood o true && decide (o.kind = 3)) 1 x.t.rest
          ((s.modCore x.b.die x.b.core (fun c => { c with monitors := c.monitors.filter (fun m => !m.at_ p.blk p.off) })).barPut
            p.blk p.off { o with low := fieldN o.low 8 1 * 256 } (some x.u))
  | _ => none

/-! ## Opening a region -/

/-- TRY.T and TRY.L (R280): the region records what its end restores. -/
def Iss.tryEff (x : Iss) (s : State) (g : Guard) (lane : Bool) (target rpc : W64) : Option EffForm :=
  if x.act g = 0 then x.idle s g [] false 1
  else x.eff g [] false ((x.t.side (!x.off)).path.isNone && x.t.handler.isNone && x.t.region.isNone && addrOk57 target
      && (!lane || addrOk57 rpc)) 1
    { x.t.rest with region := some (x.region s x.t lane target rpc), trystat := [tryWord 0 0 true lane 0, 0, 0] } s
def tryForm (x : Iss) (s : State) : Instr → Option EffForm
  | .tryT g disp => x.tryEff s g false (x.target disp) rpcNone
  | .tryL g disp rdisp => x.tryEff s g true (x.target disp) (x.target rdisp)
  | _ => none

end Sys2Proof.Machine
end

