-- ==== Sys2Proof/Safety/Answers.lean ====
section
/-! DEFINITION. Instructions that give a result at once and leave more than registers: scratchpad loads, TESTP, the instructions
that answer with a scalar, and how a harness convenes (07 R205, R206; 09 R256, R257, R274, R275, R278; 10 R302, R303, R327). -/

namespace Sys2Proof.Machine

/-! ## Loads from scratchpad -/

/-- Results in a group of vector registers: the lanes of m of register i take y i; the instruction enters the latches once, with the lowest
register (log 16). -/
structure GroupForm where
  g : Guard
  us : List SrcUse
  d : Dst
  n : Nat
  m : Lanes
  y : Nat → Nat → W32
  sb : Option SideBand
  ok : Bool
  rest : Team
  out : State
/-- Register i of a group as a destination. -/
def regPlus (d : Dst) (i : Nat) : Dst := { d with idx := d.idx + BitVec.ofNat 8 i }
def groupDst (d : Dst) (n : Nat) : List DstUse := (dstUses .v d).map (fun y => { y with n := n })
/-- The instruction has ended so. -/
def Iss.loaded (x : Iss) (s : State) (o : Host.Outcome State Fault Refusal) (f : GroupForm) : Prop :=
  let r := fun i => x.resultV f.us (regPlus f.d i) f.m (lineOf (f.y i)) f.sb
  ∃ t u, o = .next t
    ∧ x.endsIn s t u { us := f.us, vs := if f.d.ws then [] else from_ f.d.idx.toNat f.n, ss := [], p := none, flags := x.t.flags,
                       path := x.past 1,
                       latches := some (latchV (r 0)) :: ((x.entered (x.act f.g) f.us (groupDst f.d f.n) false).side x.off).latches.take 3,
                       rest := f.rest, out := f.out }
    ∧ (f.d.ws = false → ∀ i, i < f.n → u.vval (f.d.idx.toNat + i) = x.t.afterV f.us (f.d.idx.toNat + i) f.m (r i))
/-- A byte of the block's scratchpad as the team sees it, and the stamp of the bytes read. -/
def Iss.spadBytes (x : Iss) (s : State) (a n : Nat) : List Byte := (from_ a n).map (s.spadView x.u x.t)
def Iss.spadStamp (x : Iss) (n : Nat) (ls : List (Nat × Nat)) : Clock :=
  ls.foldl (fun c a => joinClk c (stampOf x.b.spadStamps a.2 n)) .zero
/-- The team and the machine after a load from scratchpad (R104, R116). -/
def Iss.spadSeen (x : Iss) (s : State) (o : Ord) (n : Nat) (ls : List (Nat × Nat)) (r : Option Try) : Team × State :=
  let t := { x.t.rest with region := r }
  (if o.ann = .acq then { t with seen := .zero } else if o.ann ≠ .plain then { t with seen := joinClk x.t.seen (x.spadStamp n ls) } else t,
   if o.ann = .acq then s.acquireAt x.b.die x.b.core (o.scope.getD .blk) (x.spadStamp n ls) else s)
/-- The sectors of scratchpad accesses as a region reads them. -/
def spadSectors (n : Nat) (ls : List (Nat × Nat)) : List (SecKind × Nat × Nat) :=
  ls.flatMap (fun a => (sectorsOf a.2 n).map (fun k => (.spad, k, 32 * k)))
/-- LDS of vector registers, and LDB from scratchpad. -/
def groupForm (x : Iss) (s : State) : Instr → Option GroupForm
  | .lds g d a w scl o =>
    if scl then none
    else
      let act := x.act g
      let n := ldBytes w
      let us := addrUses false true a
      let ls := x.addrs act false true a
      let form := fun (r : Option Try) (ok : Bool) =>
        let z := x.spadSeen s o n ls r
        some { g := g, us := us, d := d, n := groupOf n, m := act, sb := none, ok := ok
               y := fun i l => match look l ls with
                 | none => 0
                 | some p => if n < 4 then extend (ldExt w) (x.spadBytes s p n) 32
                   else BitVec.ofNat 32 (ofBytes (x.spadBytes s (p + 4 * i) 4))
               rest := z.1, out := z.2 }
      if act = 0 then some { g := g, us := us, d := d, n := groupOf n, m := 0, sb := none, ok := true, y := fun _ _ => 0, rest := x.t.rest, out := s }
      else match x.readsIn true (spadSectors n ls) with
        | none => none
        | some r => form r (x.unheld s && x.spadFits n ls && ls.all (fun p => (poisonIn x.b.spadPoison p.2 n).isNone))
  | .ldb g d a .spad =>
    let act := x.act g
    let us := [src .s a]
    let ls := x.addrs act true true a
    let k := (x.wordVal (.s a)).toNat / 128
    if act = 0 then some { g := g, us := us, d := d, n := 1, m := 0, sb := none, ok := true, y := fun _ _ => 0, rest := x.t.rest, out := s }
    else match x.readsIn true (spadSectors 128 ls) with
      | none => none
      | some r => some
        { g := g, us := us, d := d, n := 1, m := allLanes, sb := some (sbOut ((bufSb x.t .spadSide k).getD (x.b.sb k)))
          y := fun _ l => BitVec.ofNat 32 (ofBytes (x.spadBytes s (128 * k + 4 * l) 4))
          ok := x.unheld s && x.spadFits 128 ls && (poisonIn x.b.spadPoison (128 * k) 128).isNone
          rest := { x.t.rest with region := r }, out := s }
  | _ => none

/-! ## Scalar answers -/

/-- One scalar result, and what else the instruction leaves. -/
structure ScalForm where
  g : Guard
  us : List SrcUse
  d : Dst
  static : Bool
  ok : Bool
  v : W64
  rest : Team
  out : State
/-- The instruction has ended so. -/
def Iss.answered (x : Iss) (s : State) (o : Host.Outcome State Fault Refusal) (f : ScalForm) : Prop :=
  let act := x.act f.g
  ∃ t u, o = .next t
    ∧ x.endsIn s t u { us := f.us, vs := [], ss := dstRegs f.d, p := none, flags := x.t.flags, path := x.past 1,
                       latches := some (latchS (x.resultS f.us f.d (act ≠ 0) f.v))
                         :: ((x.entered act f.us (dstUses .s f.d) f.static).side x.off).latches.take 3,
                       rest := f.rest, out := f.out }
    ∧ (f.d.ws = false → u.sval f.d.idx.toNat = x.t.afterS f.us f.d.idx.toNat act f.v)
/-- An instruction that no lane performs gives no answer. -/
def Iss.noAnswer (x : Iss) (s : State) (g : Guard) (us : List SrcUse) (d : Dst) (static : Bool) : Option ScalForm :=
  some { g := g, us := us, d := d, static := static, ok := true, v := 0, rest := x.t.rest, out := s }
/-- R205: the record an LNCH reads, where memory of this package serves it at once, and the machine after the read. -/
def Iss.launchRecord (x : Iss) (s : State) (va : Nat) : Option (State × List W64) :=
  match x.globalAccs s accLoad true .rd 64 [(0, va)] with
  | .ok (s1, [a]) =>
    if !isFabric a.pa && s1.homeServes x.b.die (s1.die x.b.die).clock s1.uid a.pa 64 && x.mayRelease s1 .dev
        && !s1.xFailed a.pa && (sectorsOf a.pa 64).all (fun k => (look k s1.mem.poison).isNone) then
      some ((s1.releaseAt x.b.die .dev).touchL2 a.pa (s.tagOf x.c) false, (upTo 8).map (fun i => s1.mem.word (a.pa + 8 * i)))
    else none
  | _ => none
/-- LDS of a scalar, SQOCC, SBGET, TSTAT, CBATCH, WATCH, MIRW.PORT, and LNCH where it need not wait. -/
def scalForm (x : Iss) (s : State) : Instr → Option ScalForm
  | .lds g d a w scl o =>
    if !scl then none
    else
      let act := x.act g
      let n := ldBytes w
      let us := addrUses true true a
      let ls := x.addrs act true true a
      if act = 0 then x.noAnswer s g us d false
      else match x.readsIn true (spadSectors n ls) with
        | none => none
        | some r =>
          let z := x.spadSeen s o n ls r
          some { g := g, us := us, d := d, static := false
                 ok := x.unheld s && x.spadFits n ls && ls.all (fun p => (poisonIn x.b.spadPoison p.2 n).isNone)
                 v := extend (ldExt w) (x.spadBytes s (x.wordVal (.s a)).toNat n) 64, rest := z.1, out := z.2 }
  | .sqocc g d => some { g := g, us := [], d := d, static := false, ok := true, v := w64 x.t.queue.length, rest := x.t.rest, out := s }
  | .sbget g d => some { g := g, us := [], d := d, static := false, ok := true, v := w64 (s.budget x.b.die x.c).chute
                         rest := x.t.rest, out := s }
  | .tstat g d k => some { g := g, us := [], d := d, static := false, ok := true, v := nth x.t.trystat k.toNat 0
                           rest := x.t.rest, out := s }
  | .cbatch g d =>
    if x.act g = 0 then x.noAnswer s g [] d false
    else
      let b := x.t.batch
      some { g := g, us := [], d := d, static := false, ok := x.t.region.isNone, v := b.closed.setWidth 64
             rest := { x.t.rest with batch := { b with closed := b.closed + 1, owed := b.owed ++ [0] }.settle }, out := s }
  | .watch g d a b =>
    let us := [src .s a, src .s b]
    if x.act g = 0 then x.noAnswer s g us d false
    else match x.barPlace s true (.local a), x.globalAccs s accLoad true .rd 1 [(0, (x.wordVal (.s b)).toNat)] with
      | some p, .ok (s1, [y]) =>
        let k := (s.barAt p.blk p.off).kind
        let ms := (s1.coreAt x.b.die x.b.core).monitors.filter (fun m => !m.at_ p.blk p.off)
        let no := isFabric y.pa
        let full := decide (Config.monitors ≤ ms.length) || decide (4 ≤ (ms.filter (fun m => m.team = x.u)).length)
        let m : Monitor := { id := s1.uid, block := p.blk, off := p.off, sector := y.pa / 32, team := x.u }
        some { g := g, us := us, d := d, static := false, ok := x.alone s && (k = 0 || k = 3)
               v := if no then 2 else if full then 1 else 0, rest := x.t.rest
               out := if no || full then s1
                 else ((s1.bump.modCore x.b.die x.b.core (fun c => { c with monitors := ms ++ [m] })).barForget p.blk p.off).barPut
                   p.blk p.off (.new 3 0) (some x.u) }
      | _, _ => none
  | .mirwPort g d a b =>
    let us := [src .s a, src .s b]
    let p := (x.wordVal (.s a)).toNat
    let o := x.wordVal (.s b)
    let off := bitOf o 63
    let other := match s.portAt x.b.die p with | some y => decide (y.block ≠ x.t.block) | none => false
    let rest := (s.die x.b.die).ports.filter (fun y => y.port ≠ p)
    let v : W64 := if off then (if other || (s.portAt x.b.die p).isNone then 2 else 0) else if other then 1 else 0
    if x.act g = 0 then x.noAnswer s g us d false
    else some
      { g := g, us := us, d := d, static := false, v := v, rest := x.t.rest
        ok := x.alone s && decide (p < 1024)
          && (off || (o.toNat % 16 = 0 && decide (o.toNat + 16 ≤ x.l.spadBytes) && (s.barAt x.t.block o.toNat).counts))
        out := if v ≠ 0 then s
          else s.modDie x.b.die (fun d => { d with ports :=
            if off then rest else rest ++ [{ port := p, block := x.t.block, off := o.toNat }] }) }
  | .lnch g d a b nb =>
    let us := lnchUses a b
    let q := (x.wordVal (.s a)).toNat
    if x.act g = 0 then x.noAnswer s g us d true
    else match x.launchRecord s (x.wordVal (.s b)).toNat with
      | none => none
      | some (s1, rec) =>
        let no := decide (Config.queues ≤ q) || s1.refusesAppend q x.c
        let full := (s1.queueAt q).full
        some { g := g, us := us, d := d, static := true, ok := x.alone s && (no || !full || nb)
               v := if no then 2 else if full then 1 else 0, rest := x.t.rest
               out := if no || full then s1 else s1.append q rec (s1.die x.b.die).clock }
  | _ => none

/-! ## TESTP -/

/-- A test of a barrier's phase: what the team acquires where it has passed (R274). -/
structure PassForm where
  g : Guard
  us : List SrcUse
  p : BitVec 4
  ok : Bool
  passed : Bool
  /-- the test acquires: what the team has seen counts from here (R116) -/
  acq : Bool
  out : State
def passForm (x : Iss) (s : State) : Instr → Option PassForm
  | .testp g p .batch b =>
    let n := bits (x.wordVal (.s b)) 0 16
    let d := phaseDone x.t.batch.phase.toNat n
    some { g := g, us := [src .s b], p := p, ok := decide (x.act g = 0) || (x.unheld s && x.t.batchClosed n), passed := d
           acq := x.act g ≠ 0 && d, out := if x.act g ≠ 0 && d then s.batchAcquire x else s }
  | .testp g p (.bar r) b =>
    let us := barUses r ++ [src .s b]
    if x.act g = 0 then some { g := g, us := us, p := p, ok := true, passed := false, acq := false, out := s }
    else match x.barPlace s false r with
      | none => none
      | some q =>
        let o := s.barAt q.blk q.off
        let d := phaseDone o.phase (bits (x.wordVal (.s b)) 0 16)
        some { g := g, us := us, p := p, ok := x.unheld s && barGood o true, passed := d
               acq := d && o.kind ≠ 3, out := if d && o.kind ≠ 3 then s.barAcquire x q else s }
  | _ => none
def Iss.tested (x : Iss) (s : State) (o : Host.Outcome State Fault Refusal) (f : PassForm) : Prop :=
  let act := x.act f.g
  ∃ t u, o = .next t
    ∧ x.endsIn s t u { us := f.us, vs := [], ss := [], p := some f.p.toNat, flags := x.t.flags, path := x.past 1,
                       latches := ((x.entered act f.us [] false).side x.off).latches,
                       rest := if f.acq then { x.t.rest with seen := .zero } else x.t.rest, out := f.out }
    ∧ u.pred f.p.toNat = if f.p.toNat = 0 then allLanes else (x.t.pred f.p.toNat &&& ~~~ act) ||| (if f.passed then act else 0)

end Sys2Proof.Machine
end

