-- ==== Sys2Proof/Safety/Engines.lean ====
section
/-! DEFINITION. What engine instructions leave, form by form (10_ref_engines.md R291 to R326; 01_teams_blocks_yards.md R28 to
R30). -/

namespace Sys2Proof.Machine

/-- A parameter block with the value of a scalar in the place of each marker (R154, R155). -/
def Iss.filled (x : Iss) (p : PBlock) : List MField → PBlock
  | [] => p
  | f :: r => match f.marker p with
    | none => x.filled p r
    | some i => f.put (x.filled p r) (x.wordVal (.s (markSel i))).toNat
/-- A barrier object of the block at which engines may count. -/
def Iss.barFits (x : Iss) (s : State) (o : Nat) : Bool :=
  o % 16 = 0 && decide (o + 16 ≤ x.l.spadBytes) && (s.barAt x.t.block o).counts
/-- An engine instruction that some lane performs: outside a region, with no acquire outstanding. -/
def Iss.engEff (x : Iss) (s : State) (g : Guard) (us : List SrcUse) (static : Bool) (words : Nat) (ok : Bool) (rest : Team)
    (out : State) : Option EffForm :=
  if x.act g = 0 then x.idle s g us static words else x.eff g us static (x.alone s && ok) words rest out
/-- An entry joins the matrix engine's queue of the core. -/
def Iss.enters (x : Iss) (s : State) (op : MOp) (slot : Option SlotRef) : State :=
  (s.enqueue x.b.die x.b.core (x.entry s op slot)).bump
def Iss.mqFree (x : Iss) (s : State) : Bool := decide ((x.core s).mq.length < Config.matrixQueue)

/-- An instruction that no lane performs: where it draws, the draw counter advances all the same (R59). -/
def Iss.idleDraw (x : Iss) (s : State) (g : Guard) (us : List SrcUse) (static : Bool) (words : Nat) (draws : Bool) : Option EffForm :=
  (x.idle s g us static words).map (fun f => { f with rest := { x.t.rest with draw := if draws then x.t.draw + 1 else x.t.draw } })
/-- The part of this member enters its joint instruction; the last part puts the entry into the matrix engine's queue (R29,
R304). -/
def Iss.jointEff (x : Iss) (s : State) (g : Guard) (us : List SrcUse) (words : Nat) (good : Bool) (p : JointPart) : Option EffForm :=
  if x.act g = 0 then x.idleDraw s g us false words (!p.zero && mmaRnd p.raw = 4)
  else match x.t.harness with
    | none => none
    | some (h, k) =>
      let y := x.b.harness h
      let j0 : Joint := (first (fun (i : Joint) => i.k = k) y.joints).getD { k := k, parts := [], older := .none_ }
      let j := { j0 with parts := j0.parts ++ [p] }
      let last := !decide (j.parts.length < y.size)
      let same := j.parts.all (fun q => q.zero = p.zero && (if p.zero then q.raw = p.raw else sameBlock mmaFields q.raw p.raw))
      let noWaits := j.parts.all (fun q => match s.teamAt q.team with
        | some t => t.slotw.all (fun w => !w.joints.contains k)
        | none => true)
      x.engEff s g us false words
        (good && (x.t.owed (some h)).isNone && decide (k < y.done + 8) && !y.orphan j && (!last || (same && noWaits && x.mqFree s)))
        { x.t.rest with harness := some (h, k + 1), draw := if !p.zero && mmaRnd p.pb = 4 then x.t.draw + 1 else x.t.draw }
        (if last then s.complete x h y j
         else s.modBlock x.t.block (fun b => b.modHarness h (fun y =>
           { y with joints := y.joints.filter (fun i => i.k ≠ k) ++ [j] })))

/-- A collective once this team's issue of it is on record (R316). -/
def Iss.collRecord (x : Iss) (s : State) (pb p : PBlock) (y : List Nat) : Coll :=
  let rank := (first (fun (r : Nat × Nat) => r.1 = x.b.idx) (y.zip (upTo y.length))).map Prod.snd
  let fresh : Coll := { id := s.uid, block := x.t.block, k := x.t.colls, ctx := x.c, die := x.b.die, pc := x.p.pc, pb := p, raws := [],
                        formed := false, parts := [], yardBlocks := [], rank := 0, badTable := false, badSource := false,
                        decl := none, grants := [], refusedGrant := false, nodes := [], sent := [], paid := 0, landed := [],
                        reruns := [], waited := 0, lost := 0, status := 0, census := 0, paused := none }
  let c := (first (fun (c : Coll) => c.block = x.t.block && c.k = x.t.colls) s.net.colls).getD fresh
  { c with pc := x.p.pc, pb := p, raws := c.raws ++ [{ team := x.u, idx := x.t.idx, pc := x.p.pc, word := x.fetched, off := x.off, pb := pb }], yardBlocks := y, rank := rank.getD 0 }

/-- The transfer that PUTS and GETS start (R322 to R324). -/
def Iss.xfer (x : Iss) (s : State) (gets spad : Bool) (d r : Nat) (c : W64) (dm sm : List (Nat × Nat)) : Xfer :=
  let n := ctlLen c
  { id := s.uid, gets := gets, team := x.u, key := x.key, off := x.off, block := x.t.block, pc := x.p.pc, ctx := x.c, die := x.b.die
    core := x.b.core, spad := spad, dst := d, src := r, dstMap := dm, srcMap := sm, got := []
    pkg := if gets then pkgOf (mapPa sm r) else pkgOf (mapPa dm d), len := n, bar := if gets then 16 * bits c 32 14 else 0
    sig := !gets && bitOf c 63, sigDie := if gets then 0 else bits c 56 3, sigPort := if gets then 0 else bits c 40 10
    moved := [], paid := 0, read := gets || n = 0, stamp := (s.die x.b.die).clock }
/-- The checks of R322 that both share. -/
def Iss.xferGood (x : Iss) (d r n : Nat) (spad : Option Nat) : Bool :=
  n % 32 = 0 && decide (n ≤ 2 ^ 24) && d % 32 = 0 && r % 32 = 0
    && (match spad with | some o => decide (o + n ≤ x.l.spadBytes) | none => true)

/-- CPY, MMA, MZERO, MLOAD, MSTORE, ACTLD, UNHARN, SLOTW once its entries are done, COLL, PUTS, GETS, MIRW.WIN. -/
def engineForm (x : Iss) (s : State) : Instr → Option EffForm
  | .cpy g pb =>
    let us := markUses cpyFields pb
    let p := x.filled pb cpyFields
    let s1 := s.releaseAt x.b.die (cpyScope p)
    let fm := s.cpyFormat x.b.die x.c x.t.block x.u p
    let c : Copy := { id := s1.uid, block := x.t.block, team := x.u, off := x.off, paid := 0, pc := x.p.pc, pb := p, ctx := x.c, key := x.key,
                      draw := x.t.draw, batch := if cpyBatch p then some x.t.batch.closed else none, landed := [],
                      paused := none, stamp := (s1.die x.b.die).clock, leases := cpyLeases p fm }
    let some_ := decide (cpyLen p ≠ 0)
    if x.act g = 0 then x.idleDraw s g us true 5 (cpyRnd pb = 4)
    else x.engEff s g us true 5
      (cpyOk p x.l fm && (cpyBatch p || x.barFits s (cpyBar p)) && decide ((x.core s).copies.length < Config.copySlots)
        && x.mayRelease s (cpyScope p))
      { x.t.rest with batch := if some_ && cpyBatch p then x.t.batch.owe else x.t.batch
                      draw := if cpyRnd p = 4 then x.t.draw + 1 else x.t.draw }
      (s1.modCore x.b.die x.b.core (fun k => if some_ then { k with copies := k.copies ++ [c] } else k)).bump
  | .mma g pb =>
    let p := x.filled pb mmaFields
    x.jointEff s g (markUses mmaFields pb) 5 (mmaOk p x.l)
      { team := x.u, off := x.off, pc := x.p.pc, raw := pb, pb := p, draw := x.t.draw, key := x.key, zero := false }
  | .mzero g a b =>
    let o := x.wordVal (.s a)
    let n := x.wordVal (.s b)
    let p : PBlock := { w0 := o, w1 := n, w2 := 0, w3 := 0 }
    x.jointEff s g [src .s a, src .s b] 1 (tileOk x.l o.toNat n.toNat)
      { team := x.u, off := x.off, pc := x.p.pc, raw := p, pb := p, draw := x.t.draw, key := x.key, zero := true }
  | .mload g d a n =>
    let n := mlRegs n
    let o := (x.wordVal (.s a)).toNat
    let dst : LDst := .vec d.toNat n
    let op := x.memOp s (.mload n none) dst (x.act g)
    if x.act g = 0 then x.idle s g [src .s a] false 1
    else some { g := g, us := [src .s a], dst := dst, static := false, words := 1
                ok := x.alone s && tileOk x.l o (128 * n) && x.mqFree s
                rest := x.t.rest, out := x.enters (s.addOp op) (.mload x.u o n op.id) none }
  | .mstoreV g a b =>
    let o := (x.wordVal (.s a)).toNat
    x.engEff s g [src .s a, src .v b] false 1 (tileOk x.l o 128 && x.mqFree s) x.t.rest
      (x.enters s (.mstoreV o (x.act g) (x.t.readV x.off b).data) none)
  | .mstoreS g slot a b c =>
    let o := (x.wordVal (.s a)).toNat
    let d := (x.wordVal (.s b)).toNat
    let n := (x.wordVal (.s c)).toNat
    x.engEff s g [src .s a, src .s b, src .s c] false 1 (tileOk x.l o n && spadOk x.l d n && x.mqFree s) x.t.rest
      (x.enters s (.mstoreS o d n) slot)
  | .actld g slot a =>
    let o := (x.wordVal (.s a)).toNat
    x.engEff s g [src .s a] false 1 (spadOk x.l o (17 * 128) && x.mqFree s) x.t.rest (x.enters s (.actld o) slot)
  | .unharn g => match x.t.harness with
    | none => if x.act g = 0 then x.idle s g [] false 1 else none
    | some (h, _) =>
      if x.act g = 0 then x.idle s g [] false 1
      else x.eff g [] false x.t.region.isNone 1 { x.t.rest with harness := none }
        (s.modBlock x.t.block (fun b => b.modHarness h (fun y => y.leave x.u)))
  | .slotw g h mask =>
    let h := h.toNat
    let m := mask.toNat
    let y := x.b.harness h
    let mine := fun (j : Joint) => j.parts.any (fun p => p.team = x.u
      && (match p.pb.mmaSlot with | some k => !p.zero && m / 2 ^ k % 2 = 1 | none => false))
    let now : SlotWait := { off := x.off, pc := x.p.pc, ids := y.pending m, joints := (y.joints.filter mine).map (·.k) }
    let w := (first (fun (w : SlotWait) => w.off = x.off && w.pc = x.p.pc) x.t.slotw).getD now
    x.engEff s g [] true 1
      ((x.t.owed (some h)).isNone && !y.bad m && w.joints = [] && w.ids.all (fun i => !y.slots.any (fun z => z.pend.contains i)))
      { x.t.rest with slotw := x.t.slotw.filter (fun w => w.off ≠ x.off) } (s.acquireAt x.b.die x.b.core .blk .zero)
  | .coll g pb =>
    let p := x.filled pb collFields
    let ys := if collYard p then (x.yard (collYk p)).map (fun y => yardBlocksOf y.2) else some []
    let s1 := s.releaseAt x.b.die .blk
    let c := x.collRecord s1 pb p (ys.getD [])
    let old := s.net.colls.any (fun c => c.block = x.t.block && c.k = x.t.colls)
    x.engEff s g (markUses collFields pb) true 5
      (collOk p x.l && ys.isSome && x.barFits s (collBar p) && x.mayRelease s .blk
        && !s.net.colls.any (fun c => c.block = x.t.block && c.k ≠ x.t.colls && c.status = 0 && collTag c.pb = collTag p)
        && c.raws.all (fun r => sameBlock collFields r.pb pb))
      { x.t.rest with colls := x.t.colls + 1 }
      ((if old then s1.modColl c.id (fun _ => c) else (s1.setNet (fun n => { n with colls := n.colls ++ [c] })).bump).collForm c.id)
  | .puts g a b c spad =>
    let us := [src .s a, src .s b, src .s c]
    let d := (x.wordVal (.s a)).toNat
    let r := (x.wordVal (.s b)).toNat
    let c := x.wordVal (.s c)
    let n := ctlLen c
    if x.act g = 0 then x.idle s g us true 1
    else
      let rs : List XRange := [{ perm := .wr, win := .fabric, at_ := d, len := n }]
        ++ if spad then [] else [{ perm := .rd, win := .any, at_ := r, len := n }]
      match x.ranges s true rs (.ok ()) with
      | .error _ => none
      | .ok (s2, ms) =>
        x.eff g us true (x.alone s && bits c 59 4 = 0 && bits c 50 6 = 0 && bits c 32 8 = 0
            && x.xferGood d r n (if spad then some r else none) && x.mayRelease s2 .fab) 1 x.t.rest
          ((s2.releaseAt x.b.die .fab).startPuts (x.xfer (s2.releaseAt x.b.die .fab) false spad d r c (nth ms 0 []) (nth ms 1 [])))
  | .gets g a b c spad =>
    let us := [src .s a, src .s b, src .s c]
    let d := (x.wordVal (.s a)).toNat
    let r := (x.wordVal (.s b)).toNat
    let c := x.wordVal (.s c)
    let n := ctlLen c
    if x.act g = 0 then x.idle s g us false 1
    else
      let rs : List XRange := [{ perm := .rd, win := .fabric, at_ := r, len := n }]
        ++ if spad then [] else [{ perm := .wr, win := .here, at_ := d, len := n }]
      match x.ranges s false rs (x.engBar s (16 * bits c 32 14)) with
      | .error _ => none
      | .ok (s2, ms) =>
        x.eff g us false (x.alone s && bits c 46 18 = 0 && x.xferGood d r n (if spad then some d else none)) 1 x.t.rest
          (s2.startGets (x.xfer s2 true spad d r c (nth ms 1 []) (nth ms 0 [])))
  | .mirwWin g a b k =>
    let base := (x.wordVal (.s a)).toNat
    let c := x.wordVal (.s b)
    let size := bits c 0 32
    let bar := 16 * bits c 48 14
    if x.act g = 0 then x.idle s g [src .s a, src .s b] false 1
    else match x.yard k.toNat with
      | none => none
      | some (y, _) =>
        let rest := x.b.windows.filter (fun w => w.yard ≠ y)
        x.eff g [src .s a, src .s b] false
          (x.alone s && bits c 62 1 = 0 && bits c 32 16 = 0 && spadOk x.l base size
            && (!bitOf c 63 || x.barFits s bar) && (size = 0 || decide (rest.length < 8))) 1 x.t.rest
          (s.modBlock x.t.block (fun b => { b with windows :=
            if size = 0 then rest else rest ++ [{ yard := y, base := base, size := size, cnt := bitOf c 63, bar := bar }] }))
  | _ => none

/-! ## HARN (R28, R303) -/

/-- Nothing stands in the way of this member: it is in no harness, and the harness forms with n members. -/
def Iss.harnFits (x : Iss) (n h : Nat) : Bool :=
  x.t.region.isNone && x.t.harness.isNone && decide (1 ≤ n) && decide (n ≤ 8) && decide (h ≤ 3)
    && !(x.b.harness h).convened && ((x.b.harness h).members = [] || (x.b.harness h).size = n)

end Sys2Proof.Machine
end

