-- ==== Sys2Proof/Safety/Events.lean ====
section
/-! DEFINITION. The terms of the statements about events: what stays as it was, the bytes a write leaves, the values that land in a
register. -/

namespace Sys2Proof.Machine

/-! ## What stays -/

/-- Every team, every block and every byte of memory is as before. -/
def State.calm (t s : State) : Prop := t.teams = s.teams ∧ t.blocks = s.blocks ∧ ∀ a, t.mem.byte a = s.mem.byte a
/-- Every other team, every block and every byte of memory is as before. -/
def State.calmBut (t s : State) (u : Nat) : Prop :=
  (∀ v, v ≠ u → t.teamAt v = s.teamAt v) ∧ t.blocks = s.blocks ∧ ∀ a, t.mem.byte a = s.mem.byte a
/-- What a program can read in a team's registers: vector and scalar registers, predicates, flags, shadow and special registers. -/
def Team.regs (t : Team) : List (Nat × VReg) × List (Nat × SReg) × List Lanes × Fl × Fl × List SReg × List W64 × W32 × W32 :=
  (t.vregs, t.sregs, t.preds, t.flags, t.flagen, t.shadow, t.frec, t.retst, t.draw)
/-- Where a team stands: both sides, the loft, its exited lanes, the handler. -/
def Team.stand (t : Team) : Side × Side × List LoftEnt × Nat × Lanes × Option Bool := (t.near, t.off, t.loft, t.loftDepth, t.exited, t.handler)

/-! ## Writes -/

/-- The address a write body goes to. -/
def WBody.start (w : WBody) : Nat :=
  match w.pieces, w.sides with
  | p :: _, _ => p.addr
  | [], (l, _) :: _ => 128 * l
  | [], [] => 0
/-- The byte a write body leaves at an address whose byte was v: that of the last piece that covers it. -/
def WBody.byteAt (w : WBody) (a : Nat) (v : Byte) : Byte :=
  w.pieces.foldl (fun v p => if p.addr ≤ a ∧ a < p.addr + 32 ∧ p.mask.getLsbD (a - p.addr) then byteOf p.data (a - p.addr) else v) v
/-- The side-band a write body leaves at a line whose side-band was v. -/
def WBody.sbAt (w : WBody) (l : Nat) (v : SideBand) : SideBand := w.sides.foldl (fun v y => if y.1 = l then y.2 else v) v

/-! ## Results that land -/

/-- Vector registers an operation's result is written to. -/
def MemOp.landsV (o : MemOp) : List Nat :=
  match o.dst, o.kind with
  | .vec d _, .line .. => [d]
  | .vec d _, .mload n _ => from_ d n
  | .vec d k, _ => from_ d k
  | _, _ => []
/-- The bytes a load brings to a lane. -/
def MemOp.laneBytes (o : MemOp) (l : Nat) : List Byte :=
  match o.kind with
  | .load n _ _ _ ps ls => (match first (fun (a : LaneAddr) => a.lane = l) ls with | some a => a.bytes ps n | none => [])
  | _ => []
/-- The old value an atomic returns to a lane. -/
def MemOp.laneOld (o : MemOp) (l : Nat) : W64 :=
  (look l (o.kind.atomParts.flatMap (fun p => match p.got with | some (vs, _) => vs | none => []))).getD 0
/-- The scalar result. -/
def MemOp.scalarResult (o : MemOp) : W64 :=
  match o.kind with
  | .load n ext _ _ ps ls => (match ls with | a :: _ => extend ext (a.bytes ps n) 64 | [] => extend ext [] 64)
  | .atomic _ _ ps => (match ps.flatMap (fun p => match p.got with | some (vs, _) => vs | none => []) with | y :: _ => y.2 | [] => 0)
  | .value _ v => v
  | _ => 0

/-! ## Barrier objects -/

/-- An object after a change and the completion check of R267. -/
def Bar.after (b : Bar) (f : Bar → Bar) : Bar := if (f b).done then (f b).complete else f b
/-- The object at an offset of a block has become b; every other byte of scratchpad, every other block and every team is as before. -/
def State.barBecame (t s : State) (blk off : Nat) (b : Bar) : Prop :=
  t.barAt blk off = b ∧ t.teams = s.teams ∧ (∀ k, k ≠ blk → t.blockAt k = s.blockAt k)
    ∧ (∀ o, o < off ∨ off + 16 ≤ o → (t.block blk).byte o = (s.block blk).byte o)
/-- A yard barrier of a launch that sums in fixed order: its phases write memory as they end (R390). -/
def State.flushes (s : State) (blk off : Nat) : Bool := (s.barAt blk off).kind = 2 && (s.launchOf blk).fixed
/-- A region has aborted with a code: registers, predicates, flags and the draw counter are what TRY recorded, and the path goes on at
TRY's target with TRY's mask (R286, R288). -/
def Team.backTo (u : Team) (r : Try) (code : Nat) (w1 w2 : W64) : Prop :=
  u.vregs.map (fun v => (v.1, v.2.data, v.2.sb, v.2.poison)) = r.sVregs.map (fun v => (v.1, v.2.data, v.2.sb, v.2.poison))
    ∧ u.sregs.map (fun v => (v.1, v.2.val, v.2.poison)) = r.sSregs.map (fun v => (v.1, v.2.val, v.2.poison))
    ∧ u.preds = r.sPreds ∧ u.flags = r.sFlags ∧ u.flagen = r.sFlagen ∧ u.draw = r.sDraw ∧ u.slots = r.sSlots ∧ u.region = none
    ∧ u.near.path = some { pc := r.target, mask := r.mask, rpc := r.prpc } ∧ u.off.path = none
    ∧ u.near.latches = [none, none, none, none] ∧ ∃ user, u.trystat = [tryWord r.mask user false r.lane code, w1, w2]

/-! ## Engines at work -/

/-- The seed, counter and key a joint MMA draws with: those of its member with the lowest TEAMID (R310). -/
def State.mmaDraws (s : State) (e : MqEntry) (ps : List JointPart) : Draws :=
  match drawPart ps with
  | some m => { seed := (s.ctxAt (s.ctxOf e.block)).seed, ctr := m.draw, key := m.key }
  | none => { seed := 0, ctr := 0, key := 0 }
/-- Accumulator (i, j) of a joint MMA once its products are added (R66, R67). -/
def Block.product (b : Block) (p : PBlock) (i j : Nat) : W32 × Fl :=
  mmaElement (b.acc (mmaToff p / 4 + mmaN p * i + j)) (b.rowBlocks p p.w0 (mmaA p) i) (b.rowBlocks p p.w1 (mmaB p) j)
/-- Row i of the accumulators after the products. -/
def Block.productRow (b : Block) (p : PBlock) (i : Nat) : List W32 := (upTo (mmaN p)).map (fun j => (b.product p i j).1)
/-- Lines of an output row. -/
def mmaOutCount (p : PBlock) : Nat := if mmaEqnt p then 1 else mmaN p / 32
/-- The entry has left the core's queue. -/
def State.leftQueue (t s : State) (d c : Nat) (e : MqEntry) : Prop := (t.coreAt d c).mq = (s.coreAt d c).mq.filter (fun y => y.id ≠ e.id)
/-- Its dependency slot counts it no longer, and is marked failed if it failed (R305, R306). -/
def State.leftSlot (t s : State) (e : MqEntry) (failed : Bool) : Prop :=
  ∀ h k, e.slot = some (h, k) → k < ((s.block e.block).harness h).slots.length →
    ((t.block e.block).harness h).slot k = { pend := (((s.block e.block).harness h).slot k).pend.filter (· ≠ e.id),
                                             failed := (((s.block e.block).harness h).slot k).failed || failed }

/-! ## Blocks and teams as they begin -/

/-- A block as it is admitted (R18, R26): scratchpad and tile store read zero, but for a barrier object at each yard it is first in. -/
def Block.begins (b : Block) (l : Launch) : Prop :=
  b.res = .core ∧ b.harnesses = [] ∧ b.windows = [] ∧ (∀ w, b.acc w = 0)
    ∧ (∀ o, (∀ y ∈ l.yards, yardFirst y.2 = b.idx → o < yardBarOff y.2 ∨ yardBarOff y.2 + 16 ≤ o) → b.byte o = 0)
    ∧ ∀ y ∈ l.yards, yardFirst y.2 = b.idx → yardSize y.2 < 65536 →
        (∀ z ∈ l.yards, z ≠ y → yardFirst z.2 = b.idx → yardBarOff z.2 + 16 ≤ yardBarOff y.2 ∨ yardBarOff y.2 + 16 ≤ yardBarOff z.2) →
        Bar.ofBytes (b.bytes (yardBarOff y.2) 16) = Bar.new 2 (yardSize y.2)
/-- A team as it is admitted (R8): one path at the entry with every lane, nothing mapped, every predicate and flag zero. -/
def Team.begins (u : Team) (l : Launch) : Prop :=
  u.near.path = some { pc := l.entry, mask := allLanes, rpc := rpcNone } ∧ u.off.path = none ∧ u.near.latches = [none, none, none, none]
    ∧ u.vregs = [] ∧ u.sregs = [] ∧ u.preds = List.replicate 16 0 ∧ u.flags = 0 ∧ u.flagen = 0 ∧ u.draw = 0 ∧ u.retst = 0 ∧ u.region = none
    ∧ u.queue = [] ∧ u.exited = 0 ∧ u.handler = none ∧ u.loft = [] ∧ u.harness = none ∧ u.frec = List.replicate 8 0
/-- No core holds an image of a context. -/
def State.noImages (s : State) : Prop := ∀ y ∈ s.cores, y.2.images = []

/-! ## Reports -/

/-- A ring of n records has taken a report, or, full, has counted it as lost (R391, R396, R418). -/
def State.rang (t s : State) (die : Nat) (get : Die → Ring) (n : Nat) (bs : List Byte) : Prop :=
  let r := get (s.die die)
  let p := r.base.toNat + bs.length * (r.tail.toNat % n)
  (die < s.dies.length → get (t.die die) = if r.used < n then { r with tail := r.tail + 1 }
      else { r with lost := if r.lost = BitVec.allOnes 16 then r.lost else r.lost + 1 })
    ∧ (n ≤ r.used → ∀ a, t.mem.byte a = s.mem.byte a)
    ∧ (r.used < n → regionOf p = .hbm ∨ regionOf p = .expander →
        ∀ a, t.mem.byte a = if p ≤ a ∧ a < p + bs.length then nth bs (a - p) 0 else s.mem.byte a)
/-- What names a team in the key of a report: BLOCKID and TEAMID. -/
def State.teamKey (s : State) (u : Nat) : Nat := (s.whoIs u).key
/-- The bytes of a watchdog report (Table 15.8). -/
def State.wdBytes (s : State) (obj ctx blk team core kind reason : Nat) : List Byte :=
  wordsBytes [w64 (s.tagOf ctx * 2 ^ 56 + blk % 2 ^ 24 * 2 ^ 32 + team % 32 * 2 ^ 27 + core % 512 * 2 ^ 18 + kind % 16 * 2 ^ 14
    + reason % 16 * 2 ^ 10), w64 obj]
/-- Every die but one is as before. -/
def State.otherDies (t s : State) (d : Nat) : Prop := ∀ e, e ≠ d → t.die e = s.die e
/-- Solnal's history has taken an entry with the time of its clock, or, while Solnal is off, has a gap (R449). -/
def Solnal.noted (t s : Solnal) (e : HistEnt) : Prop :=
  (s.on = false → t = { s with gap := true })
    ∧ (s.on = true → t.history = (if 4096 ≤ s.history.length then s.history.drop 1 else s.history) ++ [{ e with time := s.clock }])

end Sys2Proof.Machine
end

