-- ==== Sys2Proof/Certificates/Slice0/Obligations.lean ====
section
/-! DEFINITION. The statements for the provers, one for each entry of OBLIGATIONS.json. -/

open Sys2Proof Sys2Proof.Machine

/-! ## Computations -/

/-- Fixed-latency computations of vector types (R142, R146, R147, R184, R218): each active lane of the destination takes the computation of
that lane's operands; K bits free their names; everything else stays. The model's choices: the latch's unwritten lanes where the
instruction's own K bit frees D (log 66); flags of a clamped conversion (log 44) and of the special functions (log 62); the flush of grade
.F (log 74). -/
def Obligations.VectorComputations : Prop :=
  ∀ (i : Instr) (f : CalcForm) (s : State) (x : Iss), calcForm i = some f → f.ty.kind = .v → s.issuing = some x →
    x.ready s (x.act f.g) (argUses f.args) (dstUses .v f.d) false = true → x.clean (x.act f.g) (argUses f.args) = true →
    x.gaveV s (exec i s) (argUses f.args) f.d (x.act f.g) (x.act f.g)
      (lineOf (fun l => (f.fn 32 (x.laneVals f.args l)).1)) none
      (raisedIn (x.act f.g) (fun l => (f.fn 32 (x.laneVals f.args l)).2)) f.words false

/-- The same computations of the scalar type: one 64-bit result, if any lane performs the instruction. The model's choices: as for the
vector types (logs 44, 62, 66, 74), and the latch of an instruction that is not performed where its own K bit frees D (log 66). -/
def Obligations.ScalarComputations : Prop :=
  ∀ (i : Instr) (f : CalcForm) (s : State) (x : Iss), calcForm i = some f → f.ty.kind = .s → s.issuing = some x →
    x.ready s (x.act f.g) (argUses f.args) (dstUses .s f.d) false = true → x.clean (x.act f.g) (argUses f.args) = true →
    x.gaveS s (exec i s) (argUses f.args) f.d (x.act f.g) (f.fn 64 (x.wordVals f.args)).1 (f.fn 64 (x.wordVals f.args)).2
      f.words s

/-- Division, remainder, FDIV and the special functions of grade .A (R148): the operands are read and the flags raised at issue, the result
is on its way to the destination, which keeps what it holds until then. The flags of the special functions are judged on what the opaque
function delivers (log 62, the model's choice). -/
def Obligations.LongLatencyComputations : Prop :=
  ∀ (i : Instr) (f : CalcForm) (s : State) (x : Iss), longForm i = some f → s.issuing = some x →
    x.ready s (x.act f.g) (argUses f.args) (longDst (x.act f.g) f.ty f.d.idx.toNat).uses false = true →
    x.clean (x.act f.g) (argUses f.args) = true →
    x.sent s (exec i s) (argUses f.args) (x.act f.g) (longDst (x.act f.g) f.ty f.d.idx.toNat) false
      (x.longFlags (x.act f.g) f.ty f.args f.fn) f.words x.t.rest
      (if x.act f.g = 0 then s else s.addOp (x.memOp s (x.longKind (x.act f.g) f.ty f.args f.fn)
        (longDst (x.act f.g) f.ty f.d.idx.toNat) (x.act f.g)))

/-- Comparisons (R193): ICMP, FCMP and FCLASS combine their result with the predicate in the active lanes. -/
def Obligations.Comparisons : Prop :=
  ∀ (i : Instr) (f : TestForm) (s : State) (x : Iss), testForm i = some f → s.issuing = some x →
    x.ready s (x.act f.g) (argUses f.args) [] false = true → x.clean (x.act f.g) (argUses f.args) = true →
    (f.ty.kind = .v → x.gaveP s (exec i s) (argUses f.args) f.p.toNat (x.act f.g)
        (combine f.m (x.t.pred f.p.toNat) (laneMask ((upTo 32).filter (fun l => (f.fn 32 (x.laneVals f.args l)).1))))
        (raisedIn (x.act f.g) (fun l => (f.fn 32 (x.laneVals f.args l)).2)) f.words)
      ∧ (f.ty.kind = .s → x.gaveP s (exec i s) (argUses f.args) f.p.toNat (x.act f.g)
        (combine f.m (x.t.pred f.p.toNat) (if (f.fn 64 (x.wordVals f.args)).1 then allLanes else 0))
        (if x.act f.g = 0 then 0 else (f.fn 64 (x.wordVals f.args)).2) f.words)

/-- Moves, selections and cross-lane instructions (R194, R195, R197, R231, R245 to R248), lane results of block lines (BDQ, BSUM, SGET,
BUNPK), and line writers (BQNT, BRSC, SSET, BPACK: R234): each lane that the instruction writes takes the value it names, a line writer all
lanes and the side-band at once or nothing; everything else stays. The model's choices: the latch after an own K bit on D (log 66); a line
writer reads D as a source, also with no lane (log 48); the sign of BSUM's exact zero (log 45); an MXINT8 block no scale holds (log 75);
folds beyond the last lane (log 76). -/
def Obligations.LaneResults : Prop :=
  ∀ (i : Instr) (s : State) (x : Iss) (f : LaneForm), s.issuing = some x →
    moveForm x s i = some f ∨ blockForm x i = some f ∨ writerForm x s i = some f → f.ok = true →
    x.ready s (x.act f.g) f.us (dstUses .v f.d) false = true →
    x.gaveV s (exec i s) f.us f.d (x.act f.g) f.m (lineOf f.y) f.sb f.fl f.words f.drew

/-- ISEL and PGET of the scalar type (R194, R197). The latch of an own K bit on D is the model's choice (log 66). -/
def Obligations.ScalarMoves : Prop :=
  ∀ (i : Instr) (s : State) (x : Iss) (f : WordForm), s.issuing = some x → wordForm x i = some f →
    x.ready s (x.act f.g) f.us (dstUses .s f.d) false = true → x.clean (x.act f.g) f.us = true →
    x.gaveS s (exec i s) f.us f.d (x.act f.g) f.v 0 f.words s

/-- Predicates from predicates and from registers (R196, R197), in the active lanes; p0 discards its bits (R141). -/
def Obligations.PredicateResults : Prop :=
  ∀ (i : Instr) (s : State) (x : Iss) (f : PredForm), s.issuing = some x → predForm x i = some f →
    x.ready s (x.act f.g) f.us [] false = true → x.clean (x.act f.g) f.us = true →
    x.gaveP s (exec i s) f.us f.p.toNat (x.act f.g) f.v 0 1

/-- The pair form (R157 to R159): both halves read before either writes; half 0's result enters the latches first, so that h0 holds half 1's
and h1 half 0's. The latches of a result whose own K bit frees it are the model's choice (log 66). -/
def Obligations.PairForm : Prop :=
  ∀ (h0 h1 : Half) (hs : Bool) (s : State) (x : Iss), s.issuing = some x →
    let a0 := x.act (halfGuard h0)
    let a1 := x.act (halfGuard h1)
    let us := pairUses h0 h1 hs
    h0.d.toNat % 4 ≠ h1.d.toNat % 4 →
    x.ready s (a0 ||| a1) us (pairDsts h0 h1 hs a0 a1) false = true →
    x.clean a0 (halfUses h0 .v) = true → x.clean a1 (halfUses h1 (half1Kind hs)) = true →
    let y0 := lineOf (fun l => (x.halfLane h0 l).1)
    let y1 := lineOf (fun l => (x.halfLane h1 l).1)
    let r0 := x.resultV us (halfTo h0) a0 y0 (x.halfSb h0)
    let r1 := x.resultV us (halfTo h1) a1 y1 (x.halfSb h1)
    let w1 := x.resultS us (halfTo h1) (a1 ≠ 0) (x.halfWord h1).1
    let old := ((x.entered (a0 ||| a1) us (pairDsts h0 h1 hs a0 a1) false).side x.off).latches
    ∃ t u, exec (.pair h0 h1 hs) s = .next t
      ∧ x.endsIn s t u { us := us, vs := h0.d.toNat :: (if hs then [] else [h1.d.toNat]), ss := if hs then [h1.d.toNat] else [],
                         p := none, path := x.past 1, rest := x.t.rest, out := s,
                         flags := x.t.flags ||| (raisedIn a0 (fun l => (x.halfLane h0 l).2) |||
                           (if hs then (if a1 = 0 then 0 else (x.halfWord h1).2) else raisedIn a1 (fun l => (x.halfLane h1 l).2))),
                         latches := some (if hs then latchS w1 else latchV r1)
                           :: some (latchV r0) :: old.take 2 }
      ∧ u.vval h0.d.toNat = x.t.afterV us h0.d.toNat a0 r0
      ∧ (hs = false → u.vval h1.d.toNat = x.t.afterV us h1.d.toNat a1 r1)
      ∧ (hs = true → u.sval h1.d.toNat = x.t.afterS us h1.d.toNat a1 (x.halfWord h1).1)

/-! ## Control -/

/-- Branches, and the control instructions where they only pass (R198 to R204, R212, R214): the path goes on at the target or at the next
word; everything else stays. An untaken branch passes whatever its target and reconvergence address are: the model's choice (log 42). -/
def Obligations.Jumps : Prop :=
  ∀ (i : Instr) (f : JumpForm) (s : State) (x : Iss), s.issuing = some x → jumpForm x i = some f → f.ok = true →
    x.ready s 0 f.us [] false = true →
    ∃ t u, exec i s = .next t
      ∧ x.endsIn s t u { us := f.us, vs := [], ss := [], p := none, flags := x.t.flags,
                         path := (match f.dest with | some a => x.at_ a | none => x.past 1),
                         latches := if f.clear then [none, none, none, none] else ((x.entered 0 f.us [] false).side x.off).latches,
                         rest := x.t.rest, out := s }

/-- CALL, CALLX and LOOP (R199 to R202): performed, the scalar takes its value and the path goes on at the target; not performed, the path
goes on at the next word and the scalar's prior value enters h0. The target is checked where the transfer is performed only (log 42), and a
prior value that an own K bit frees enters as zero (log 66): the model's choices. -/
def Obligations.LinkingBranches : Prop :=
  ∀ (i : Instr) (f : LinkForm) (s : State) (x : Iss), s.issuing = some x → linkForm x i = some f →
    x.decided f.g .uniform = true →
    let perf := x.taken f.g .uniform
    let act := if perf then x.p.mask else 0
    let d : Dst := { idx := f.d, ws := false }
    (perf = true → f.ok = true) → x.ready s act f.us (linkDst perf f.d) false = true →
    ∃ t u, exec i s = .next t
      ∧ x.endsIn s t u { us := f.us, vs := [], ss := [f.d.toNat], p := none, flags := x.t.flags,
                         path := if perf then x.at_ f.dest else x.past 1,
                         latches := x.latched act f.us (linkDst perf f.d) (latchS (x.resultS f.us d perf f.v)),
                         rest := x.t.rest, out := s }
      ∧ u.sval f.d.toNat = x.t.afterS f.us f.d.toNat (if perf then allLanes else 0) f.v

/-- BRC with lanes on both sides (R10): the false lanes go on at the next word in the NEAR slot, the true lanes at the
target in the OFF slot, both with the branch's reconvergence address and copies of the latches; the JOIN entry goes to the
loft, over the entry of the other side's path when there was one. Here the entries fit on chip. -/
def Obligations.Divergence : Prop :=
  ∀ (g : Guard) (disp : BitVec 20) (rdisp : BitVec 18) (s : State) (x : Iss), s.issuing = some x →
    let T := x.act g
    let F := x.p.mask &&& ~~~ T
    let rpc := x.target rdisp
    let ls := (x.t.side x.off).latches
    let es := x.pushes rpc
    T ≠ 0 → F ≠ 0 → x.t.handler = none → addrOk57 (x.target disp) = true → addrOk57 rpc = true →
    x.t.loft.length + es.length ≤ 4 → x.t.loftDepth + es.length ≤ 64 →
    ∃ t u, exec (.brc g disp rdisp) s = .next t ∧ t.teamAt x.u = some u
      ∧ u.near = { path := some { pc := x.p.pc + 8, mask := F, rpc := rpc }, latches := ls, wait := .none, lnch := none }
      ∧ u.off = { path := some { pc := x.target disp, mask := T, rpc := rpc }, latches := ls, wait := .none, lnch := none }
      ∧ u.vregs = x.t.vregs ∧ u.sregs = x.t.sregs ∧ u.preds = x.t.preds ∧ u.flags = x.t.flags ∧ u.shadow = x.t.shadow
      ∧ u.rest = { x.t.rest with loft := es.reverse ++ x.t.loft, loftDepth := x.t.loftDepth + es.length }
      ∧ t.outside = s.outside ∧ (∀ a, t.mem.byte a = s.mem.byte a) ∧ ∀ v, v ≠ x.u → t.teamAt v = s.teamAt v

/-- The end of a path (R12, R13, R30): EXIT of some of its lanes keeps the others, and no path of the team keeps the lanes that left; EXIT of
the last lanes of a path empties its slot while the other side's path runs, and with nothing else left ends the team: every lane has exited,
and a harness it was in is left. RECONV at the reconvergence address empties the slot, which waits while the other side's path runs; a PATH
entry on top of the loft enters the empty slot with its lanes that still run, the NEAR slot where both are empty; with both empty, a JOIN
entry on top of the loft goes on past its address with its lanes that still run, its latches invalid. -/
def Obligations.PathEnds : Prop :=
  ∀ (g : Guard) (s : State) (x : Iss), s.issuing = some x →
    (x.act g ≠ 0 → x.p.mask &&& ~~~ x.act g ≠ 0 → x.t.region = none → x.t.handler = none →
      (∀ q, (x.t.side (!x.off)).path = some q → q.mask &&& x.act g = 0) →
      ∃ t u, exec (.exit g) s = .next t
        ∧ x.endsIn s t u { us := [], vs := [], ss := [], p := none, flags := x.t.flags, latches := (x.t.side x.off).latches,
                           path := some { x.p with mask := x.p.mask &&& ~~~ x.act g, pc := x.p.pc + 8 },
                           rest := { x.t.rest with exited := x.t.exited ||| x.act g }, out := s })
    ∧ (∀ q, x.act g ≠ 0 → x.p.mask &&& ~~~ x.act g ≠ 0 → x.t.region = none → x.t.handler = none →
      (x.t.side (!x.off)).path = some q → q.mask &&& ~~~ x.act g ≠ 0 →
      ∃ t u, exec (.exit g) s = .next t ∧ t.teamAt x.u = some u ∧ u.exited = x.t.exited ||| x.act g
        ∧ (u.side x.off).path = some { x.p with mask := x.p.mask &&& ~~~ x.act g, pc := x.p.pc + 8 }
        ∧ (u.side (!x.off)).path = some { q with mask := q.mask &&& ~~~ x.act g }
        ∧ u.vregs = x.t.vregs ∧ u.sregs = x.t.sregs ∧ u.preds = x.t.preds ∧ u.flags = x.t.flags ∧ t.outside = s.outside)
    ∧ (∀ q, x.act g ≠ 0 → x.p.mask &&& ~~~ x.act g = 0 → x.t.region = none → x.t.handler = none → x.t.loftDepth = 0 →
      (x.t.side (!x.off)).path = some q → q.mask &&& x.act g = 0 → x.t.exited ||| x.act g ≠ allLanes →
      ∃ t u, exec (.exit g) s = .next t
        ∧ x.endsIn s t u { us := [], vs := [], ss := [], p := none, flags := x.t.flags, latches := [none, none, none, none],
                           path := none, rest := { x.t.rest with exited := x.t.exited ||| x.act g }, out := s })
    ∧ (x.act g ≠ 0 → x.p.mask &&& ~~~ x.act g = 0 → x.t.region = none → x.t.handler = none → x.t.loftDepth = 0 →
      (x.t.side (!x.off)).path = none → s.net.colls.all (fun c => c.block ≠ x.t.block || c.formed) = true →
      ∃ t u, exec (.exit g) s = .next t ∧ t.teamAt x.u = some u ∧ u.exited = allLanes ∧ u.near.path = none ∧ u.off.path = none
        ∧ u.harness = none
        ∧ (x.t.harness = none → x.endsIn s t u { us := [], vs := [], ss := [], p := none, flags := x.t.flags, out := s, path := none,
                                                 latches := [none, none, none, none], rest := { x.t.rest with exited := allLanes } }))
    ∧ (x.p.rpc = x.p.pc → x.t.loftDepth = 0 → (x.t.side (!x.off)).path ≠ none →
      ∃ t u, exec (.reconv g) s = .next t
        ∧ x.endsIn s t u { us := [], vs := [], ss := [], p := none, flags := x.t.flags, latches := [none, none, none, none],
                           path := none, rest := x.t.rest, out := s })
    ∧ (∀ (e : LoftEnt) (l : List LoftEnt), x.p.rpc = x.p.pc → x.t.loft = e :: l → x.t.loftDepth = l.length + 1 → l.length < 4 →
      e.kind = .path → e.ok = true → e.mask &&& x.t.live ≠ 0 → (x.t.side (!x.off)).path ≠ none →
      ∃ t u, exec (.reconv g) s = .next t
        ∧ x.endsIn s t u { us := [], vs := [], ss := [], p := none, flags := x.t.flags, latches := [none, none, none, none],
                           path := some { pc := e.pc, mask := e.mask &&& x.t.live, rpc := e.rpc },
                           rest := { x.t.rest with loft := l, loftDepth := l.length }, out := s })
    ∧ (∀ e : LoftEnt, x.p.rpc = x.p.pc → x.t.loft = [e] → x.t.loftDepth = 1 → e.ok = true →
      (x.t.side (!x.off)).path = none → e.mask &&& x.t.live ≠ 0 →
      ∃ t u, exec (.reconv g) s = .next t ∧ t.teamAt x.u = some u
        ∧ u.near.path = some { pc := match e.kind with | .join => e.pc + 8 | .path => e.pc, mask := e.mask &&& x.t.live, rpc := e.rpc }
        ∧ u.near.latches = [none, none, none, none] ∧ u.off.path = none
        ∧ u.vregs = x.t.vregs ∧ u.sregs = x.t.sregs ∧ u.preds = x.t.preds ∧ u.flags = x.t.flags
        ∧ u.rest = { x.t.rest with loft := [], loftDepth := 0 } ∧ t.outside = s.outside)

/-- TRAP completes by entering the handler (R209, R210, R211, R215): the path stands at HANDLER with its mask, the side's latches are
invalid, the team is in handler mode, and shadow s56 to s59 hold cause 0x01, the address after TRAP, CODE and the mask; the registers,
predicates and flags, the other side, the other teams, memory and the machine around the team are as before. A TFENCE with an enabled flag
up enters with cause 0x02 (R212). In a context without a handler the team is killed with code 0x0309 and the cause in DETAIL. -/
def Obligations.TrapEntry : Prop :=
  (∀ (g : Guard) (code : BitVec 8) (s : State) (x : Iss), s.issuing = some x → x.act g ≠ 0 → x.t.region = none → x.t.handler = none →
    (s.ctxAt (s.ctxOf x.t.block)).handler ≠ 0 →
    ∃ t u, exec (.trap g code) s = .next t ∧ t.teamAt x.u = some u ∧ u.handler = some x.off
      ∧ (u.side x.off).path = some { x.p with pc := (s.ctxAt (s.ctxOf x.t.block)).handler }
      ∧ (u.side x.off).latches = [none, none, none, none] ∧ u.side (!x.off) = x.t.side (!x.off)
      ∧ u.shadow = [w64 1, x.p.pc + 8, code.setWidth 64, x.p.mask.setWidth 64, 0, 0, 0, 0].map SReg.plain
      ∧ u.vregs = x.t.vregs ∧ u.sregs = x.t.sregs ∧ u.preds = x.t.preds ∧ u.flags = x.t.flags
      ∧ u.rest = { x.t.rest with handler := some x.off }
      ∧ t.outside = s.outside ∧ (∀ a, t.mem.byte a = s.mem.byte a) ∧ ∀ v, v ≠ x.u → t.teamAt v = s.teamAt v)
  ∧ ∀ (g : Guard) (code : BitVec 8) (s : State) (x : Iss), s.issuing = some x → x.act g ≠ 0 → x.t.region = none → x.t.handler = none →
    ((s.ctxAt (s.ctxOf x.t.block)).handler ≠ 0 →
      x.inHandler s (exec (.trap g code) s) 0x01 code.toNat (x.p.pc + 8)
      ∧ (x.t.due ≠ 0 → x.inHandler s (exec (.tfence g) s) 0x02 x.t.due.toNat (x.p.pc + 8)))
    ∧ ((s.ctxAt (s.ctxOf x.t.block)).handler = 0 →
      exec (.trap g code) s = .next ((s.kill x.u x.off x.p.pc 0 (plainFault 0x0309 0x01)).unissue x.off x.u))

/-- RETH in the handler (R214): handler mode ends, the path goes on at shadow s57, the latches are invalid; s56 to s63 name the team's own
registers again; results on their way to the shadow registers land nowhere. A result on its way to s57 itself is waited for, and its poison
is a fault, as at every read (R148, R401). That those results land nowhere is the model's choice (log 61). -/
def Obligations.TrapReturn : Prop :=
  ∀ (g : Guard) (s : State) (x : Iss), s.issuing = some x → x.act g ≠ 0 → x.t.handler ≠ none →
    s.pending x.u x.t .s 57 = none → (nth x.t.shadow 1 (.plain 0)).poison = none → targetOk x.t.resume = true →
    ∃ t u, exec (.reth g) s = .next t
      ∧ x.endsIn s t u { us := [], vs := [], ss := from_ 56 8, p := none, flags := x.t.flags,
                         path := x.at_ x.t.resume, latches := [none, none, none, none],
                         rest := { x.t.rest with handler := none },
                         out := { s with net := { s.net with ops := s.net.ops.map (fun o => match o.dst with
                           | .scal i => if o.team = x.u && 64 ≤ i then { o with dst := .none } else o
                           | _ => o) } } }
      ∧ u.handler = none ∧ u.sregs = x.t.sregs
      ∧ ∀ i, u.sval i = (look i x.t.sregs).map (fun r => (r.val, r.poison))

/-- BKPT (R213): in a context in debug mode the team halts after it; in others it only passes. -/
def Obligations.Breakpoint : Prop :=
  ∀ (g : Guard) (s : State) (x : Iss), s.issuing = some x →
    ∃ t u, exec (.bkpt g) s = .next t
      ∧ x.endsIn s t u { us := [], vs := [], ss := [], p := none, flags := x.t.flags, path := x.past 1,
                         latches := (x.t.side x.off).latches,
                         rest := if x.act g ≠ 0 && (s.ctxAt x.c).debug then { x.t.rest with halted := true } else x.t.rest,
                         out := s }

/-- MFS and MTS (R207, R208): the destination takes the special register; LANEID gives each lane its number and FAULTREC lands
later. The value of CYCLE, whole budget periods with a free position in the period, is the model's choice (log 2). MTS gives FLAGS or FLAGEN the low six bits of the scalar; the other
special registers are no operand of it. -/
def Obligations.SpecialRegisters : Prop :=
  (∀ (g : Guard) (d : Dst) (r : SpecReg) (s : State) (x : Iss), s.issuing = some x →
    (r = .laneid → x.ready s (x.act g) [] (dstUses .v d) false = true →
      x.gaveV s (exec (.mfs g d r) s) [] d (x.act g) (x.act g) (lineOf (fun l => w32 (if x.l.compat16 then l % 16 else l))) none 0 1
        false)
    ∧ (∀ k, r = .faultrec k →
      let dst := if x.act g = 0 then LDst.none else .scal d.idx.toNat
      x.ready s (x.act g) [] dst.uses false = true →
      x.sent s (exec (.mfs g d r) s) [] (x.act g) dst false 0 1 x.t.rest
        (if x.act g = 0 then s else s.addOp (x.memOp s (.value [] (nth x.t.frec k.toNat 0)) dst (x.act g))))
    ∧ (r ≠ .laneid → (∀ k, r ≠ .faultrec k) → x.ready s (x.act g) [] (dstUses .s d) false = true →
      x.gaveS s (exec (.mfs g d r) s) [] d (x.act g) (x.special_ s r) 0 1 (if x.act g = 0 then s else s.readCycle r x.b.die)))
  ∧ ∀ (g : Guard) (r : SpecReg) (a : Sel) (s : State) (x : Iss), s.issuing = some x → r = .flags ∨ r = .flagen →
    x.ready s (x.act g) [src .s a] [] false = true → x.clean (x.act g) [src .s a] = true →
    let v : Fl := (x.wordVal (.s a)).setWidth 6
    ∃ t u, exec (.mts g r a) s = .next t
      ∧ x.endsIn s t u { us := [src .s a], vs := [], ss := [], p := none, path := x.past 1,
                         flags := if x.act g ≠ 0 ∧ r = .flags then v else x.t.flags,
                         latches := ((x.entered (x.act g) [src .s a] [] false).side x.off).latches,
                         rest := if x.act g ≠ 0 ∧ r = .flagen then { x.t.rest with flagen := v } else x.t.rest, out := s }

/-! ## Memory -/

/-- LD, LDC, LDB of global and private memory, PREF (R79, R256, R257, R260): the requests are on their way, the destination waits for them;
no memory and no block changes. The model's choices: which cached sectors a region's load drops (log 15), and that LDB's read set leaves out
the side-band (log 72). -/
def Obligations.Loads : Prop :=
  ∀ (i : Instr) (f : EffForm) (s : State) (x : Iss), s.issuing = some x → loadForm x s i = some f → x.able s f = true →
    x.did s (exec i s) f ∧ (∀ a, f.out.mem.byte a = s.mem.byte a) ∧ f.out.blocks = s.blocks

/-- Stores (R77, R81, R257 to R259): queued, buffered by the open region, or applied to scratchpad; memory itself changes only when a queued
store is applied, and no block changes but by a store to scratchpad outside a region. What such a store leaves there is the byte of the last
access that covers it, in the order of the lanes, and every other byte as before. Where the queue has no room for a store's entries, the
store does not issue: its team waits while the chute budget still covers the oldest entry; where it does not, the side blocks on
STORE_BUDGET, or the team enters its handler with cause 0x03 at the store (Table 03.7, Table 07.13), or is killed with 0x0309 where the
context has no handler (R209). How stores of lanes are buffered by a region is the model's choice (log 13). -/
def Obligations.Stores : Prop :=
  (∀ (i : Instr) (f : EffForm) (s : State) (x : Iss), s.issuing = some x → storeForm x s i = some f → x.able s f = true →
    x.queueFits f = true → x.did s (exec i s) f ∧ (∀ a, f.out.mem.byte a = s.mem.byte a))
  ∧ (∀ (i : Instr) (f : EffForm) (s : State) (x : Iss), s.issuing = some x → storeForm x s i = some f → x.able s f = true →
    x.queueFits f = false →
    let c := s.ctxAt (s.ctxOf x.t.block)
    let trap := c.sbmode = true ∧ x.t.handler = none
    (x.budgetSpent s = true → trap → c.handler = 0 → ∃ s1 : State, s1.teams = s.teams ∧ s1.blocks = s.blocks ∧ s1.mem = s.mem
      ∧ exec i s = .next ((s1.kill x.u x.off x.p.pc 0 (plainFault 0x0309 0x03)).unissue x.off x.u))
    ∧ ((x.budgetSpent s = true → trap → c.handler ≠ 0) → ∃ t u, exec i s = .next t ∧ t.teamAt x.u = some u
      ∧ u.vregs = x.t.vregs ∧ u.sregs = x.t.sregs ∧ u.preds = x.t.preds ∧ u.flags = x.t.flags ∧ u.queue = x.t.queue
      ∧ u.side (!x.off) = x.t.side (!x.off)
      ∧ t.blocks = s.blocks ∧ t.net = s.net ∧ (∀ a, t.mem.byte a = s.mem.byte a) ∧ (∀ v, v ≠ x.u → t.teamAt v = s.teamAt v)
      ∧ (x.budgetSpent s = false → u = x.t)
      ∧ (x.budgetSpent s = true → ¬ trap → u.side x.off = { (x.t.side x.off).clear with wait := .on .storeBudget 0 }
          ∧ u.rest = { x.t.rest with active := u.active })
      ∧ (x.budgetSpent s = true → trap → u.rest = { x.t.rest with handler := some x.off }
          ∧ (u.side x.off).path = x.at_ c.handler ∧ (u.side x.off).latches = [none, none, none, none]
          ∧ u.shadow = [w64 3, x.p.pc, 0, x.p.mask.setWidth 64, 0, 0, 0, 0].map SReg.plain)))
  ∧ ∀ (g : Guard) (a b : Sel) (w : StW) (scl : Bool) (f : EffForm) (s : State) (x : Iss), s.issuing = some x →
    storeForm x s (.sts g a b w scl { ann := .plain, scope := none }) = some f → x.able s f = true → x.t.region = none →
    ∀ b0, s.blockAt x.t.block = some b0 → ∀ o, (f.out.block x.t.block).byte o =
      (((x.addrs (x.act g) scl true a).zip (x.stored (x.act g) scl (stBytes w) b)).foldl
        (fun v (y : (Nat × Nat) × Nat × List Byte) => if y.1.2 ≤ o ∧ o < y.1.2 + stBytes w then nth y.2.2 (o - y.1.2) 0 else v)
        (b0.byte o))

/-- Atomics (R261 to R263, R389): the old values are on their way; memory itself changes only when the atomic is applied at its home. The
model's choices: what a region records of atomics (logs 13, 15) and fixed-order adds beyond this package (log 17). -/
def Obligations.Atomics : Prop :=
  ∀ (i : Instr) (f : EffForm) (s : State) (x : Iss), s.issuing = some x → atomForm x s i = some f → x.able s f = true →
    x.did s (exec i s) f ∧ (∀ a, f.out.mem.byte a = s.mem.byte a)

/-- Fences, barriers and watches once they wait for nothing (R117, R118, R270 to R277); TRY.T and TRY.L, which open a region and
change nothing else (R280); CPY, MMA, MZERO, MLOAD, MSTORE, ACTLD, UNHARN, SLOTW, COLL, PUTS, GETS and MIRW.WIN as they issue (R296 to
R326). -/
def Obligations.SyncAndEngineIssues : Prop :=
  ∀ (i : Instr) (f : EffForm) (s : State) (x : Iss), s.issuing = some x →
    syncForm x s i = some f ∨ tryForm x s i = some f ∨ engineForm x s i = some f → x.able s f = true → x.did s (exec i s) f

/-- LDS and LDB from scratchpad (R256, R257): the lanes take the bytes as the team sees them, at once; a group enters the latches once, with
its lowest register (log 16, the model's choice). SQOCC, SBGET, TSTAT, CBATCH, WATCH, MIRW.PORT, LDS of a scalar, and LNCH where it need not
wait (R205, R206, R275, R278, R288, R302, R327): one scalar, at once, and the effect the instruction has besides. TESTP (R274): the
predicate in the active lanes says whether the phase has passed. What a result's own K bit leaves in the latches is the model's choice too
(log 66). -/
def Obligations.AnswersAtOnce : Prop :=
  (∀ (i : Instr) (f : GroupForm) (s : State) (x : Iss), s.issuing = some x → groupForm x s i = some f → f.ok = true →
    x.ready s (x.act f.g) f.us (groupDst f.d f.n) false = true → x.cleanAll (x.act f.g) f.us = true →
    x.loaded s (exec i s) f ∧ (∀ a, f.out.mem.byte a = s.mem.byte a))
  ∧ (∀ (i : Instr) (f : ScalForm) (s : State) (x : Iss), s.issuing = some x → scalForm x s i = some f → f.ok = true →
    x.ready s (x.act f.g) f.us (dstUses .s f.d) f.static = true → x.cleanAll (x.act f.g) f.us = true → x.answered s (exec i s) f)
  ∧ ∀ (i : Instr) (f : PassForm) (s : State) (x : Iss), s.issuing = some x → passForm x s i = some f → f.ok = true →
    x.ready s (x.act f.g) f.us [] false = true → x.cleanAll (x.act f.g) f.us = true → x.tested s (exec i s) f

/-- COMMIT and COMMIT.SPLIT (R284, R285): a commit that nothing hinders begins; its release is done, and every part of it carries the stamp
of that moment; its sectors enter the queue as it has room; once they have been applied the region ends, without aborted lanes on the
issuing path, with aborted lanes diverging from it. The mask after COMMIT of a lane region, the issuing path's own, is the model's choice
(log 18). -/
def Obligations.Commits : Prop :=
  ∀ (g : Guard) (sc : Scope) (split : Bool) (s : State) (x : Iss) (r : Try), s.issuing = some x → x.act g ≠ 0 →
    x.t.region = some r →
    let o := exec (if split then .commitSplit g sc else .commit g sc) s
    let homes := sortNat (r.buf.map (s.bufHome x.b.die))
    let w := nth x.t.trystat 0 0
    let c := (((s.releaseAt x.b.die sc).die x.b.die).clock)
    let goesOn := fun (t : State) (u : Team) => o = .next t ∧ t.teamAt x.u = some u
      ∧ u.vregs = x.t.vregs ∧ u.sregs = x.t.sregs ∧ u.preds = x.t.preds ∧ u.flags = x.t.flags
      ∧ (u.side x.off).path = some x.p ∧ (u.side x.off).latches = [none, none, none, none]
      ∧ (∀ a, t.mem.byte a = s.mem.byte a) ∧ ∀ v, v ≠ x.u → t.teamAt v = s.teamAt v
    (r.begun = none → (x.t.side (!x.off)).path = none → x.unheld s = true → s.accessPending x.u = false →
      (r.lane = false ∨ r.aborted = 0 ∨ x.t.loftDepth < 64) → (homes.length ≤ 1 ∨ split = true) → s.otherCommit x.u x.t r = false →
      (∀ n ∈ s.net.conflicts, n.team ≠ x.u) →
      ∃ t u, goesOn t u ∧ t.blocks = s.blocks ∧ u.queue = x.t.queue
        ∧ u.region = some { r with begun := some ((s.commitBodies r x.b.die).flatMap commitEntries), scope := sc })
    ∧ (∀ es, r.begun = some es → r.released = none → x.mayRelease s sc = true →
      ∃ t u, goesOn t u ∧ u.queue = x.t.queue
        ∧ u.region = some { r with released := some c, begun := some (es.map (fun e => { e with stamp := some c })) }
        ∧ (s.commitOwn r x.b.die = true → t.blocks = s.blocks)
        ∧ (s.commitOwn r x.b.die = false → ∀ b0, s.blockAt x.t.block = some b0 → ∀ p, (t.block x.t.block).byte p =
            (bufByte r.buf .spad (p / 32) (p % 32)).getD (b0.byte p)))
    ∧ (∀ e es, r.begun = some (e :: es) → r.released ≠ none → x.t.queue.length < 32 →
      let n := 32 - x.t.queue.length
      ∃ t u, goesOn t u ∧ t.blocks = s.blocks ∧ u.queue = x.t.queue ++ (e :: es).take n
        ∧ u.region = some { r with begun := some ((e :: es).drop n) })
    ∧ (r.begun = some [] → r.released ≠ none → x.t.queue.any (·.commit) = false →
      s.net.writes.any (fun y => y.team = some x.u && y.commit) = false → (r.lane = false ∨ r.aborted = 0) →
      ∃ t u, o = .next t
        ∧ x.endsIn s t u { us := [], vs := [], ss := [], p := none, flags := x.t.flags, path := x.past 1,
                           latches := [none, none, none, none], out := s,
                           rest := { x.t.rest with region := none, slots := r.slots x.t.slots,
                                                   retst := x.t.retst + BitVec.ofNat 32 r.stores,
                                                   trystat := setAt 0 (w &&& ~~~ 0x8000#64) x.t.trystat } })
    ∧ (r.begun = some [] → r.released ≠ none → x.t.queue.any (·.commit) = false →
      s.net.writes.any (fun y => y.team = some x.u && y.commit) = false →
      r.lane = true → r.aborted ≠ 0 → x.t.loft.length < 4 →
      ∃ t u, o = .next t ∧ t.teamAt x.u = some u ∧ u.region = none
        ∧ u.near.path = some { pc := x.p.pc + 8, mask := x.p.mask, rpc := r.rpc }
        ∧ u.off.path = some { pc := r.target, mask := r.aborted, rpc := r.rpc }
        ∧ u.loft = { kind := .join, mask := x.p.mask ||| r.aborted, rpc := r.prpc, pc := r.rpc, ok := true } :: x.t.loft
        ∧ u.retst = x.t.retst + BitVec.ofNat 32 r.stores
        ∧ (∀ q, 0 < q → q < 16 → u.pred q = (x.t.pred q &&& ~~~ r.aborted) ||| (nth r.sPreds q 0 &&& r.aborted))
        ∧ (∀ a, t.mem.byte a = s.mem.byte a))

/-- ABORT, and ABORTL under TRY.T (R286, R288): registers, predicates, flags and the draw counter return to what TRY recorded, the path
goes on at TRY's target with TRY's mask. ABORTL under TRY.L with lanes left: they leave the path, and their buffered bytes go. -/
def Obligations.Aborts : Prop :=
  ∀ (g : Guard) (code : BitVec 8) (s : State) (x : Iss) (r : Try), s.issuing = some x → x.act g ≠ 0 → x.t.region = some r →
    (∀ i : Instr, i = .abort g code ∨ (i = .abortl g code ∧ r.lane = false) →
      ∃ t u, exec i s = .next t ∧ t.teamAt x.u = some u
        ∧ u.vregs.map (fun v => (v.1, v.2.data, v.2.sb, v.2.poison)) = r.sVregs.map (fun v => (v.1, v.2.data, v.2.sb, v.2.poison))
        ∧ u.sregs.map (fun v => (v.1, v.2.val, v.2.poison)) = r.sSregs.map (fun v => (v.1, v.2.val, v.2.poison))
        ∧ u.preds = r.sPreds ∧ u.flags = r.sFlags ∧ u.flagen = r.sFlagen ∧ u.draw = r.sDraw ∧ u.slots = r.sSlots
        ∧ u.region = none ∧ u.near.path = some { pc := r.target, mask := r.mask, rpc := r.prpc } ∧ u.off.path = none
        ∧ u.near.latches = [none, none, none, none] ∧ u.trystat = [tryWord r.mask code.toNat false r.lane 1, 0, 0]
        ∧ u.queue = x.t.queue ∧ (∀ a, t.mem.byte a = s.mem.byte a) ∧ t.blocks = s.blocks
        ∧ ∀ v, v ≠ x.u → t.teamAt v = s.teamAt v)
    ∧ (r.lane = true → x.p.mask &&& ~~~ (x.act g &&& r.mask) ≠ 0 → r.mask &&& ~~~ (r.aborted ||| (x.act g &&& r.mask)) ≠ 0 →
      let lanes := x.act g &&& r.mask
      ∃ t u, exec (.abortl g code) s = .next t
        ∧ x.endsIn s t u { us := [], vs := [], ss := [], p := none, flags := x.t.flags, latches := (x.t.side x.off).latches,
                           path := some { x.p with mask := x.p.mask &&& ~~~ lanes, pc := x.p.pc + 8 }, out := s,
                           rest := { x.t.rest with
                             trystat := [tryWord (r.aborted ||| lanes) code.toNat true true 1, 0, 0],
                             region := some { r with aborted := r.aborted ||| lanes,
                                                     buf := r.buf.map (fun b => { b with bytes := b.bytes.filter (fun y => !lanes.getLsbD y.2.1) }) } } })

/-! ## Engines -/

/-- HARN (R28, R303): the member that completes the harness goes on with the others; one that does not waits. -/
def Obligations.HarnessForming : Prop :=
  ∀ (g : Guard) (n : BitVec 4) (h : BitVec 3) (s : State) (x : Iss), s.issuing = some x → x.act g ≠ 0 →
    x.harnFits n.toNat h.toNat = true →
    let y := x.b.harness h.toNat
    (n.toNat ≤ y.members.length + 1 →
      ∃ t u, exec (.harn g n h) s = .next t ∧ t.teamAt x.u = some u
        ∧ u.vregs = x.t.vregs ∧ u.sregs = x.t.sregs ∧ u.preds = x.t.preds ∧ u.flags = x.t.flags
        ∧ (u.side x.off).path = x.past 1 ∧ u.side (!x.off) = x.t.side (!x.off)
        ∧ u.rest = { x.t.rest with harness := some (h.toNat, 0) }
        ∧ (∀ b, s.blockAt x.t.block = some b → (t.block x.t.block).harness h.toNat =
            { y with size := n.toNat, members := y.members ++ [x.u], convened := true, left := [], joints := [], done := 0,
                     slots := y.slots.map (fun z => { z with failed := false }) })
        ∧ (∀ v ∈ y.members, v ≠ x.u → t.teamAt v = (s.teamAt v).map (fun w => w.convene h.toNat))
        ∧ (∀ v, v ∉ y.members → v ≠ x.u → t.teamAt v = s.teamAt v) ∧ (∀ a, t.mem.byte a = s.mem.byte a))
    ∧ (y.members.length + 1 < n.toNat →
      ∃ t u, exec (.harn g n h) s = .next t ∧ t.teamAt x.u = some u
        ∧ u.vregs = x.t.vregs ∧ u.sregs = x.t.sregs ∧ u.preds = x.t.preds ∧ u.flags = x.t.flags
        ∧ u.side x.off = { (x.t.side x.off).clear with wait := .on .harness h.toNat }
        ∧ u.rest = { x.t.rest with harness := some (h.toNat, 0) }
        ∧ (∀ b, s.blockAt x.t.block = some b →
            (t.block x.t.block).harness h.toNat = { y with size := n.toNat, members := y.members ++ [x.u] })
        ∧ (∀ v, v ≠ x.u → t.teamAt v = s.teamAt v) ∧ (∀ a, t.mem.byte a = s.mem.byte a))

/-! ## Stores, loads and atomics on their way -/

/-- STORE_QUEUE_DRAIN (R93, R108, R129) and CHUTE_RESEND (R90): the oldest entry of a running team's queue leaves, charged to the chute budget
of its context on its die, and carries the stamp of its commit or else the die's clock; with too little budget left it stays, and a store to
the fabric window behind a PUTS that still has data to send stays too (R121, R329). A packet that is sent again changes nothing. -/
def Obligations.StoresLeave : Prop :=
  (∀ (u : Nat) (x : Team) (e : QEntry) (r : List QEntry) (s : State), s.teamAt u = some x → x.queue = e :: r →
    (s.block x.block).res = .core → (x.killed = false ∨ x.region = none) →
    let b := s.block x.block
    let c := s.ctxOf x.block
    let held := s.putsAhead u s.uid && (match e.send with | .write w => w.pieces.any (fun p => isFabric p.addr) | _ => false)
    (held = true → exec (.storeQueueDrain u) s = .next s)
    ∧ (held = false → (e.commit && e.stamp.isNone) = false → (s.budget b.die c).chute < e.charge → exec (.storeQueueDrain u) s = .next s)
    ∧ (held = false → (e.commit && e.stamp.isNone) = false → e.charge ≤ (s.budget b.die c).chute →
      ∃ t, exec (.storeQueueDrain u) s = .next t ∧ t.teamAt u = some { x with queue := r } ∧ t.calmBut s u ∧ t.mem = s.mem
        ∧ t.cores = s.cores ∧ t.sched = s.sched ∧ t.launches = s.launches
        ∧ (b.die < s.dies.length → (t.budget b.die c).chute = (s.budget b.die c).chute - e.charge)
        ∧ (e.send = .nothing → t.net = s.net)
        ∧ (∀ w, e.send = .write w →
            (∀ pkg off, regionOf w.start = .fabric pkg off → t.net.writes = s.net.writes
              ∧ t.net.out = s.net.out ++ [{ id := s.uid, pkg := pkg, cls := 1, team := some u, ctx := c, die := b.die, pc := 0,
                                            kind := .write w e.rel, waited := 0 }])
            ∧ ((∀ pkg off, regionOf w.start ≠ .fabric pkg off) → t.net.out = s.net.out
              ∧ t.net.writes = s.net.writes ++ [{ id := s.uid, src := b.die, home := s.homeOf w.start, team := some u, ctx := c,
                                                  stamp := e.stamp.getD (s.die b.die).clock, owner := s.tagOf c, body := w, commit := e.commit,
                                                  stream := none }]))
        ∧ (∀ y off mask data, e.send = .mirror y off mask data → ∃ ds : List Nat,
            (∀ i, i ∈ ds ↔ ∃ ent q, look y (s.launch b.launch).yards = some ent ∧ q ∈ s.blocks ∧ q.2.launch = b.launch
              ∧ yardHasBlock ent q.2.idx = true ∧ q.2.idx = i)
            ∧ t.net.writes = s.net.writes
            ∧ t.net.mirrors = s.net.mirrors ++ ds.map (fun i =>
                { launch := b.launch, yard := y, blockIdx := i, src := u, die := b.die, off := off, mask := mask, data := data,
                  stamp := e.stamp.getD (s.die b.die).clock }))))
  ∧ ∀ (w : Nat) (s : State), exec (.chuteResend w) s = .next s

/-- STORE_APPLY (R91, R108, R110, R424, R435): a store whose stamp the home covers and whose turn it is is applied, byte by byte; one
whose stamp is not covered stays. What it writes to an expander window that has failed is dropped and memory there stays; a team's store
that is dropped so is counted and reported with 0x0402, without its PC, side and lanes (log 24). -/
def Obligations.StoresApply : Prop :=
  ∀ (id : Nat) (w : NWrite) (s : State), first (fun (y : NWrite) => y.id = id) s.net.writes = some w →
    let live := w.body.part (fun a => !s.xFailed a)
    let lost := w.body.part s.xFailed
    (s.covers w.home w.src w.stamp = false → exec (.storeApply id) s = .next s)
    ∧ (s.mayApply w = true → (∀ x, s.teamAt (w.team.getD 0) = some x → x.killed = false ∨ x.region = none) →
      ∃ t, exec (.storeApply id) s = .next t ∧ t.teams = s.teams
        ∧ t.net.writes = s.net.writes.filter (fun y => y.id ≠ id)
        ∧ (lost.none? = true ∨ w.team = none →
            w.commit = false ∨ (∀ x, s.teamAt (w.team.getD 0) = some x → s.onCore x.block = true) →
            (∀ a, t.mem.byte a = live.byteAt a (s.mem.byte a)) ∧ ∀ l, t.mem.sb l = live.sbAt l (s.mem.sb l))
        ∧ (w.commit = false → t.blocks = s.blocks)
        ∧ (∀ u p, w.commit = false → w.team = some u → w.body.pieces.head? = some p → live.none? = true →
            let ws := setAt 0 (w64 (2 ^ 63 + accStore * 2 ^ 56 + 0x0402))
              (s.engineRecord u (s.teamKey u) false w.src (s.coreOfTeam u) w.ctx 0 0x0402 p.addr 0 false)
            t.rang s w.src (·.er) 256 (wordsBytes ws) ∧ (t.ctxAt w.ctx).sticky = true
              ∧ (8 < s.dies.length → (t.die 8).ctr.xfail = satInc (s.die 8).ctr.xfail)))

/-- LOAD_SERVICE (R111, R122, R435): a home whose applied clock covers the request's clock answers with the line as memory holds it,
its side-band, its poison and the home's applied clock; one that is behind does not answer; an access to an expander window that has
failed is answered with 0x0402; a line of another package is what that package answers, and one that the package's own window names is the
line of its own HBM (R76). No byte of memory and no register changes. -/
def Obligations.LoadsServed : Prop :=
  ∀ (op i : Nat) (o : MemOp) (p : LinePart) (reply : Option Reply) (s : State), s.opAt op = some o →
    (o.kind.lineParts.drop i).head? = some p → p.got = none →
    (p.pkg = none → s.xFailed (128 * p.line) = false → s.homeServes o.die p.clock o.id (128 * p.line) 128 = true →
      s.inTurn o p.line p.need p.home false = true →
      ∃ t, exec (.loadService op i reply) s = .next t
        ∧ t.opAt op = some (o.setLine i { p with got := some (s.mem.line p.line, s.mem.sb p.line, s.mem.linePoison p.line p.need,
            (s.die p.home).applied, s.lineStamps p.line p.need) })
        ∧ t.mem = s.mem ∧ t.blocks = s.blocks ∧ (o.kind.tryRead = false → t.teams = s.teams)
        ∧ ∀ v, (t.teamAt v).map Team.regs = (s.teamAt v).map Team.regs ∧ (t.teamAt v).map Team.stand = (s.teamAt v).map Team.stand)
    ∧ (p.pkg = none → s.xFailed (128 * p.line) = false → leClk p.clock (s.die (s.homeOf (128 * p.line))).applied = false →
      exec (.loadService op i reply) s = .next s)
    ∧ (p.pkg = none → s.xFailed (128 * p.line) = true →
      ∃ t, exec (.loadService op i reply) s = .next t ∧ t.calm s
        ∧ t.opAt op = some (o.setLine i { p with got := some (0, 0, 0x0402 + 65536 * p.need.toNat, .zero, []) }))
    ∧ (∀ k q s', p.pkg = some k → k = s.io.fabid.toNat → s.takeOut (.load op i) = some (q, s') →
      s.homeServes 8 (s.die 8).clock s.uid (ownPa (128 * p.line)) 128 = true → s.ownQuiet o.team (128 * p.line) 128 = true →
      s.ownAccessTurn o p.line p.need false = true →
      let pa := ownPa (128 * p.line)
      ∃ t, exec (.loadService op i reply) s = .next t ∧ t.calm s ∧ t.mem = s.mem
        ∧ (t.opAt op).map (fun y => (y.kind.lineParts.drop i).head?.bind (fun z => z.got.map (fun g => (g.1, g.2.1, g.2.2.1)))) =
            some (some (s.mem.line (pa / 128), s.mem.sb (pa / 128), s.mem.linePoison (pa / 128) p.need)))
    ∧ (∀ k r q s', p.pkg = some k → k ≠ s.io.fabid.toNat → reply = some r → s.takeOut (.load op i) = some (q, s') →
      ∃ t, exec (.loadService op i reply) s = .next t ∧ t.calm s
        ∧ t.net.out = s.net.out.filter (fun y => y.id ≠ q.id)
        ∧ t.opAt op = some (o.setLine i { p with got := some (r.data, r.side,
            if r.poison = 0 then 0 else r.poison % 65536 + 65536 * p.need.toNat, .zero, []) }))

/-- LONG_LATENCY_RESULT (R112, R256, R257, R262, R312, R345): the result of a team that runs lands in the lanes and registers the instruction
named, each lane with its own value: of a line the bytes as its home holds them under those of the team's own earlier stores, with the
side-band and a sector's poison, of MLOAD the accumulators its entry of the matrix queue has read; every other lane and register, memory and
the other teams are as before. -/
def Obligations.ResultsLand : Prop :=
  ∀ (op : Nat) (o : MemOp) (x : Team) (s : State), s.opAt op = some o → o.ready = true → o.isRecord = false →
    s.teamAt o.team = some x → x.killed = false →
    let m := x.landLanes o
    ∃ t u, exec (.longLatencyResult op) s = .next t ∧ t.teamAt o.team = some u ∧ t.opAt op = none ∧ t.calmBut s o.team
      ∧ u.stand = x.stand ∧ u.preds = x.preds ∧ u.flags = x.flags ∧ u.flagen = x.flagen ∧ u.queue = x.queue
      ∧ (∀ i, i ∉ o.landsV → u.vget i = x.vget i)
      ∧ (∀ i l, l < 32 → m.getLsbD l = false → (u.vget i).map (fun r => laneOf r.data l) = if i ∈ o.landsV
          then some (laneOf ((x.vget i).getD .zero).data l) else (x.vget i).map (fun r => laneOf r.data l))
      ∧ (∀ i, o.dst ≠ .scal i → look i u.sregs = look i x.sregs)
      ∧ (∀ i, o.dst = .scal i → i < 64 → (∀ n g, o.kind ≠ .mload n g) → (∀ a b c d, o.kind ≠ .line a b c d) →
          (look i u.sregs).map (·.val) = some o.scalarResult)
      ∧ (∀ d k n ext cst y ps ls, o.dst = .vec d k → o.kind = .load n ext cst y ps ls → ∀ j l, j < k → l < 32 → m.getLsbD l = true →
          ls.any (fun a => a.lane = l) = true →
          (u.vget (d + j)).map (fun r => laneOf r.data l) = some (if n < 4 then extend ext (o.laneBytes l) 32
            else BitVec.ofNat 32 (ofBytes (((o.laneBytes l).drop (4 * j)).take 4)))
          ∧ ((∃ r e, u.vget (d + j) = some r ∧ e ∈ r.poison ∧ e.lane = l) ↔ ∃ a ∈ ls, a.lane = l ∧ (a.poison ps n).isSome = true))
      ∧ (∀ d k f n ps, o.dst = .vec d k → o.kind = .atomic f n ps → ∀ j l, j < k → l < 32 → m.getLsbD l = true →
          (u.vget (d + j)).map (fun r => laneOf r.data l) = some ((o.laneOld l).extractLsb' (32 * j) 32))
      ∧ (∀ d k tr fwd fsb p v sb code st vals, o.dst = .vec d k → o.kind = .line tr fwd fsb p → p.got = some (v, sb, code, st, vals) →
          let y := fwd.foldl (fun a e => setField a (8 * e.1) 8 e.2.toNat) v
          ∃ r, u.vget d = some r ∧ r.sb = sbOut (fsb.getD sb) ∧ ∀ l, l < 32 → m.getLsbD l = true → laneOf r.data l = laneOf y l
            ∧ ((∃ e ∈ r.poison, e.lane = l) ↔ ∃ j, j < 4 ∧ (code / 65536).testBit j = true))
      ∧ (∀ d k n vs bad, o.dst = .vec d k → o.kind = .mload n (some (vs, bad)) → ∀ j, j < n →
          ∃ r, u.vget (d + j) = some r ∧ r.sb = 0 ∧ ∀ l, l < 32 → m.getLsbD l = true →
            laneOf r.data l = (match first (fun (e : Nat × Nat × W32) => e.1 = j && e.2.1 = l) vs with | some e => e.2.2 | none => 0)
            ∧ ((∃ e ∈ r.poison, e.lane = l) ↔ (j, l) ∈ bad))
      ∧ (∀ d k data v, o.dst = .vec d k → o.kind = .value data v → ∀ j l, j < k → l < 32 → m.getLsbD l = true →
          (u.vget (d + j)).map (fun r => laneOf r.data l) = some ((look l data).getD 0))

/-- ATOMIC_APPLY, POUND_REPLAY and ATOMIC_RESEND (R122, R262 to R264, R435): at its turn at its home an atomic of one address replaces
the value by the last lane's, and each lane is answered with the value it met; a poisoned sector and a failed window answer zeros with
the code and stay, and of a RED, which answers nobody, the poison is reported with the lanes that met it (R396). Where a write-back is
pending, a fence is armed or an earlier atomic of the sector is parked it is parked, so that its team stands at no wait for the I/O die, or
refused when the slice's pound is full; a parked one whose condition is over is replayed in the same way; one that was refused is sent
again; another package's answer ends the wait; one that names the package's own window is parked or applied at its own HBM (R76, R421). -/
def Obligations.AtomicsApplied : Prop :=
  ∀ (op i : Nat) (o : MemOp) (p : AtomPart) (f : Option AtomOp) (size : Nat) (ps : List AtomPart) (reply : Option Reply) (s : State),
    s.opAt op = some o → o.kind = .atomic f size ps → (ps.drop i).head? = some p → p.got = none →
    let pa := p.at_
    let own := p.dest.getD (ownPa p.addr)
    let olds := fun (a : Nat) => atomRun f size (w64 (ofBytes (s.mem.bytes a size))) p.lanes
    let new := fun (a : Nat) => toBytes size (atomLast (w64 (ofBytes (s.mem.bytes a size))) (olds a))
    let zeros := p.lanes.map (fun y => (y.1, 0#64))
    let answer := fun g => o.setAtom i { p with parked := false, refused := false, got := some g }
    let applied := fun (t : State) (a : Nat) => t.teams = s.teams ∧ t.blocks = s.blocks
      ∧ t.opAt op = some (answer ((olds a).map (fun y => (y.1, y.2.1)), 0, stampOf s.mem.stamps a size))
      ∧ ∀ b, t.mem.byte b = if a ≤ b ∧ b < a + size then nth (new a) (b - a) 0 else s.mem.byte b
    let reported := fun (t : State) => t.teams = s.teams ∧ t.blocks = s.blocks
      ∧ t.rang s o.die (·.er) 256 (wordsBytes (setAt 6 (w64 (p.addr / 32 * 32 % 2 ^ 52))
          (setAt 0 (w64 (2 ^ 63 + b1 o.off * 2 ^ 60 + accAtomic * 2 ^ 56 + 0x0401)) (s.engineRecord o.team (s.teamKey o.team) o.off o.die
            o.core o.ctx o.pc 0x0401 (p.addr / 32 * 32) 0 false (o.partLanes p)))))
    let stood := fun (t : State) => t.calmBut s o.team ∧ ∀ x, s.teamAt o.team = some x → ∃ u, t.teamAt o.team = some u
      ∧ u.regs = x.regs ∧ u.queue = x.queue ∧ u.region = x.region ∧ u.near.path = x.near.path ∧ u.off.path = x.off.path
      ∧ ∀ b n, (u.side b).wait ≠ .on .expander n ∧ (u.side b).wait ≠ .on .remoteLoad n
    let queued := fun (t : State) (home a : Nat) => home < s.dies.length → t.pound home (poundSlice a) =
      s.pound home (poundSlice a) ++ [{ op := op, part := i, sector := a / 32, fence := s.poundFence home a }]
    (p.pkg = none → p.parked = false → p.refused = false → s.atomTurn o size p = true → s.parks p.home p.addr = false →
      (s.xFailed pa = true → ∃ t, exec (.atomicApply op i reply) s = .next t ∧ t.calm s ∧ t.opAt op = some (answer (zeros, 0x0402, .zero)))
      ∧ (∀ c, s.xFailed pa = false → look (pa / 32) s.mem.poison = some c →
          ∃ t, exec (.atomicApply op i reply) s = .next t ∧ t.opAt op = some (answer (zeros, c, .zero))
            ∧ (o.dst ≠ .none → t.calm s) ∧ (o.dst = .none → reported t))
      ∧ (s.xFailed pa = false → look (pa / 32) s.mem.poison = none →
          ∃ t, exec (.atomicApply op i reply) s = .next t ∧ applied t pa))
    ∧ (p.pkg = none → p.parked = false → p.refused = false → s.atomTurn o size p = true → s.parks p.home p.addr = true →
      ∃ t, exec (.atomicApply op i reply) s = .next t
        ∧ ((s.pound p.home (poundSlice p.addr)).length < 256 → stood t ∧ queued t p.home p.addr
            ∧ t.opAt op = some (o.setAtom i { p with parked := true }))
        ∧ (256 ≤ (s.pound p.home (poundSlice p.addr)).length → t.calm s
            ∧ t.pound p.home (poundSlice p.addr) = s.pound p.home (poundSlice p.addr)
            ∧ t.opAt op = some (o.setAtom i { p with refused := true })))
    ∧ (∀ die slice y, s.replayable die [] (s.pound die slice) = some y → y.op = op → y.part = i →
      s.memLocked y.sector (if p.pkg.isSome then none else some o.team) = false → s.xFailed pa = false →
      look (pa / 32) s.mem.poison = none →
      ∃ t, exec (.poundReplay die slice) s = .next t ∧ applied t pa
        ∧ (die < s.dies.length → t.pound die slice = (s.pound die slice).filter (fun z => !(z.op = op && z.part = i))))
    ∧ (∃ t, exec (.atomicResend op i) s = .next t ∧ t.calm s ∧ t.opAt op = some (o.setAtom i { p with refused := false }))
    ∧ (∀ n, p.pkg = some n → n = s.io.fabid.toNat → p.parked = false → p.refused = false →
      (p.dest = none → (s.takeOut (.atomic op i)).isSome = true) →
      s.homeServes 8 (s.die 8).clock s.uid own size = true → s.ownQuiet o.team p.addr size = true →
      s.ownAccessTurn o (p.addr / 128) (secBit p.addr) true = true → s.memLocked (own / 32) none = false →
      (s.parks (s.homeOf own) own = false → s.xFailed own = false → look (own / 32) s.mem.poison = none →
        ∃ t, exec (.atomicApply op i reply) s = .next t ∧ applied t own)
      ∧ (s.parks (s.homeOf own) own = true →
        ∃ t, exec (.atomicApply op i reply) s = .next t
          ∧ ((s.pound (s.homeOf own) (poundSlice own)).length < 256 → stood t ∧ queued t (s.homeOf own) own
              ∧ ∃ c, t.opAt op = some (o.setAtom i { p with parked := true, dest := some own, stamp := c })
                ∧ (p.dest ≠ none → c = p.stamp) ∧ (p.dest = none → p.rel = false → c = (s.die 8).clock))
          ∧ (256 ≤ (s.pound (s.homeOf own) (poundSlice own)).length → t.calm s
              ∧ t.opAt op = some (o.setAtom i { p with refused := true }))))
    ∧ ∀ n r y s', p.pkg = some n → n ≠ s.io.fabid.toNat → p.parked = false → p.refused = false → reply = some r →
      s.takeOut (.atomic op i) = some (y, s') →
      ∃ t, exec (.atomicApply op i reply) s = .next t ∧ t.net.out = s.net.out.filter (fun z => z.id ≠ y.id)
        ∧ (r.poison = 0 ∨ o.dst ≠ .none → t.calm s) ∧ (r.poison ≠ 0 → o.dst = .none → reported t)
        ∧ t.opAt op = some (o.setAtom i { p with got := some (if r.poison = 0
            then (atomRun f size (w64 (ofBytes ((from_ (p.addr % 128) size).map (byteOf r.data)))) p.lanes).map (fun z => (z.1, z.2.1))
            else zeros, r.poison, .zero) })

/-- CLOCK_ANNOUNCEMENT, SC_FENCE_SEQUENCE, RDC_LINE_EXPIRY and WRITE_WINDOW_OPEN (R92, R110, R113, R118): an announcement that nothing sent
earlier precedes advances its source's entry of the home's applied clock; the fence at the head makes every die's clock cover every die's; a
cached line older than 65,536 core cycles goes; a controller's window takes at most 512 sectors. That the expiry is sixteen whole budget
periods is the model's choice (log 10). -/
def Obligations.Clocks : Prop :=
  (∀ (i : Nat) (a : Announce) (s : State), (s.net.anns.drop i).head? = some a →
    (s.announced a = false → exec (.clockAnnouncement i) s = .next s)
    ∧ (s.announced a = true →
      ∃ t, exec (.clockAnnouncement i) s = .next t ∧ t.calm s ∧ t.cores = s.cores ∧ t.net.anns = s.net.anns.take i ++ s.net.anns.drop (i + 1)
        ∧ (∀ d, d ≠ a.dst → t.die d = s.die d)
        ∧ (∀ j, j ≠ a.src → clk (t.die a.dst).applied j = clk (s.die a.dst).applied j)
        ∧ (a.dst < s.dies.length → a.src < (s.die a.dst).applied.length →
            clk (t.die a.dst).applied a.src = Nat.max a.val (clk (s.die a.dst).applied a.src))))
  ∧ (∀ (u : Nat) (r : List Nat) (s : State), s.net.scq = u :: r →
    ∃ t, exec .scFenceSequence s = .next t ∧ t.calmBut s u ∧ t.net.scq = r ∧ t.cores = s.cores
      ∧ t.teamAt u = (s.teamAt u).map (fun x => { x with scFence := x.scFence.map (fun f => { f with passed := true }) })
      ∧ (s.dies.length = 9 → (∀ d < 9, (s.die d).clock.length = 9) → ∀ d < 9, ∀ e < 9, ∀ j < 9,
          clk (s.die e).clock j + (if j = e then 1 else 0) ≤ clk (t.die d).clock j)
      ∧ (∀ d < 9, ∀ l ∈ (t.die d).rdc, leClk (t.die d).clock l.stamp = true ∧ l ∈ (s.die d).rdc))
  ∧ (∀ (d line : Nat) (s : State), d < s.dies.length →
    ∃ t, exec (.rdcLineExpiry d line) s = .next t ∧ t.calm s ∧ t.net = s.net ∧ t.cores = s.cores ∧ (∀ e, e ≠ d → t.die e = s.die e)
      ∧ t.die d = { s.die d with rdc := (t.die d).rdc }
      ∧ ∀ l, l ∈ (t.die d).rdc ↔ l ∈ (s.die d).rdc ∧ ¬ (l.line = line ∧ 65536 ≤ 4096 * ((s.die d).period - l.filled)))
  ∧ ∀ (d k : Nat) (s : State), d < s.dies.length → k < (s.die d).wq.length →
    let q := nth (s.die d).wq k ([], false)
    ∃ t, exec (.writeWindowOpen d k) s = .next t ∧ t.calm s ∧ t.net = s.net ∧ t.cores = s.cores ∧ (∀ e, e ≠ d → t.die e = s.die e)
      ∧ t.die d = { s.die d with wq := (t.die d).wq } ∧ (∀ j, j ≠ k → nth (t.die d).wq j ([], false) = nth (s.die d).wq j ([], false))
      ∧ nth (t.die d).wq k ([], false) = if q.1 = [] then ([], false) else if q.2 then (q.1.drop 512, false) else (q.1, true)

/-! ## Arrivals -/

/-- REMOTE_ARRIVAL (R267, R268, R271, R412): an arrival, after those of its team on its yard that were sent before it, counts at
the object of the yard's first block; one that exceeds PEND is discarded and sets OVER; one whose block has gone is dropped; one
for a block that is not on its core waits for it. MIRRORED_STORE_ARRIVAL (R81, R326): the bytes of a mirrored store appear in a
destination block, in its team's order, once that block's die has applied what its stamp covers (R110), those beyond its scratchpad dropped; a window that counts counts them at its object.
PUTS_SIGNAL_ARRIVAL (R128, R323): a signal waits until every write it follows is applied; then its bytes and one arrival count
at the object its port is bound to; one that exceeds PEND sets OVER, and one that no object takes is counted as dropped. -/
def Obligations.Arrivals : Prop :=
  (∀ (i : Nat) (a : Arrival) (s : State), (s.net.arrivals.drop i).head? = some a →
    let rest := s.net.arrivals.take i ++ s.net.arrivals.drop (i + 1)
    ((s.net.arrivals.take i).any (fun y => y.team = a.team && y.yard = a.yard) = true → exec (.remoteArrival i) s = .next s)
    ∧ ((s.net.arrivals.take i).any (fun y => y.team = a.team && y.yard = a.yard) = false →
      (s.arrivalAt a = none → ∃ t, exec (.remoteArrival i) s = .next t ∧ t.calm s ∧ t.net = { s.net with arrivals := rest })
      ∧ ∀ blk off b, s.arrivalAt a = some (blk, off) → s.blockAt blk = some b →
        (b.res ≠ .core → ∃ t, exec (.remoteArrival i) s = .next t ∧ t.calm s
          ∧ t.net = { s.net with arrivals := rest, lands := s.net.lands ++ [{ block := blk, kind := .arrival a, paused := none }] })
        ∧ (b.res = .core → s.spadLocked blk off 16 none = false → (s.barAt blk off).counts = true →
          (a.count ≤ (s.barAt blk off).pend →
            ∃ t, exec (.remoteArrival i) s = .next t ∧ t.barBecame s blk off ((s.barAt blk off).after (Bar.arrive a.count))
              ∧ t.net.arrivals = rest ∧ (s.flushes blk off = false → ∀ x, t.mem.byte x = s.mem.byte x)
              ∧ leClk a.stamp ((t.block blk).meta off).stamp = true)
          ∧ ((s.barAt blk off).pend < a.count →
            ∃ t, exec (.remoteArrival i) s = .next t ∧ t.barBecame s blk off (s.barAt blk off).over ∧ t.net.arrivals = rest))
        ∧ (b.res = .core → s.spadLocked blk off 16 none = false → (s.barAt blk off).counts = false →
          ∃ t, exec (.remoteArrival i) s = .next t ∧ t.teams = s.teams ∧ t.blocks = s.blocks ∧ t.net.arrivals = rest)))
  ∧ (∀ (i : Nat) (m : Mirror) (blk : Nat) (b : Block) (s : State), (s.net.mirrors.drop i).head? = some m →
    (s.net.mirrors.take i).any (fun y => y.src = m.src && y.launch = m.launch && y.blockIdx = m.blockIdx) = false →
    s.blockOf m.launch m.blockIdx = some blk → s.blockAt blk = some b →
    let is := (upTo 32).filter (fun i => m.mask.getLsbD i && m.off + i < (s.launchOf blk).spadBytes)
    let rest := s.net.mirrors.take i ++ s.net.mirrors.drop (i + 1)
    (s.covers b.die m.die m.stamp = false → exec (.mirroredStoreArrival i) s = .next s)
    ∧ (s.covers b.die m.die m.stamp = true → b.res ≠ .core → ∃ t, exec (.mirroredStoreArrival i) s = .next t ∧ t.calm s
      ∧ t.net = { s.net with mirrors := rest, lands := s.net.lands ++ [{ block := blk, kind := .mirror m, paused := none }] })
    ∧ (s.covers b.die m.die m.stamp = true → b.res = .core → s.spadLocked blk m.off 32 none = false → (∀ w, b.window m.yard = some w → w.cnt = false) →
      ∃ t, exec (.mirroredStoreArrival i) s = .next t ∧ t.teams = s.teams ∧ t.net.mirrors = rest
        ∧ (∀ a, t.mem.byte a = s.mem.byte a) ∧ (∀ k, k ≠ blk → t.blockAt k = s.blockAt k)
        ∧ ∀ o, (t.block blk).byte o = if m.off ≤ o ∧ o - m.off ∈ is then byteOf m.data (o - m.off) else b.byte o)
    ∧ ∀ w, s.covers b.die m.die m.stamp = true → b.res = .core → s.spadLocked blk m.off 32 none = false → b.window m.yard = some w →
      w.cnt = true → s.spadLocked blk w.bar 16 none = false →
      (m.off + 32 ≤ w.bar ∨ w.bar + 16 ≤ m.off) → (s.barAt blk w.bar).counts = true →
      ∃ t, exec (.mirroredStoreArrival i) s = .next t ∧ t.teams = s.teams ∧ t.net.mirrors = rest
        ∧ t.barAt blk w.bar = (s.barAt blk w.bar).after (Bar.land is.length)
        ∧ (s.flushes blk w.bar = false → ∀ a, t.mem.byte a = s.mem.byte a) ∧ (∀ k, k ≠ blk → t.blockAt k = s.blockAt k)
        ∧ ∀ o, o < w.bar ∨ w.bar + 16 ≤ o →
            (t.block blk).byte o = if m.off ≤ o ∧ o - m.off ∈ is then byteOf m.data (o - m.off) else b.byte o)
  ∧ ∀ (i : Nat) (g : Signal) (s : State), (s.net.signals.drop i).head? = some g →
    let rest := s.net.signals.take i ++ s.net.signals.drop (i + 1)
    (s.net.writes.any (fun w => g.after.contains w.id) = true → exec (.putsSignalArrival i) s = .next s)
    ∧ (s.net.writes.any (fun w => g.after.contains w.id) = false →
      (s.portAt g.die g.port = none → ∃ t, exec (.putsSignalArrival i) s = .next t ∧ t.calm s ∧ t.net = { s.net with signals := rest }
        ∧ (g.die < s.dies.length → (t.die g.die).ctr.sigdrop = satInc (s.die g.die).ctr.sigdrop))
      ∧ ∀ p b, s.portAt g.die g.port = some p → s.blockAt p.block = some b →
        (b.res ≠ .core → ∃ t, exec (.putsSignalArrival i) s = .next t ∧ t.calm s
          ∧ t.net = { s.net with signals := rest, lands := s.net.lands ++ [{ block := p.block, kind := .signal g, paused := none }] })
        ∧ (b.res = .core → s.spadLocked p.block p.off 16 none = false → (s.barAt p.block p.off).counts = true →
          ∃ t, exec (.putsSignalArrival i) s = .next t ∧ t.net.signals = rest
            ∧ t.barBecame s p.block p.off ((s.barAt p.block p.off).after (fun b =>
                if (s.barAt p.block p.off).pend = 0 then (b.land g.len).over else (b.land g.len).arrive 1))
            ∧ leClk g.stamp ((t.block p.block).meta p.off).stamp = true)
        ∧ (b.res = .core → s.spadLocked p.block p.off 16 none = false → (s.barAt p.block p.off).counts = false →
          ∃ t, exec (.putsSignalArrival i) s = .next t ∧ t.calm s ∧ t.net = { s.net with signals := rest }
            ∧ (g.die < s.dies.length → (t.die g.die).ctr.sigdrop = satInc (s.die g.die).ctr.sigdrop)))

/-- WATCH_EVENT, MONITOR_LOSS and CONFLICT_NOTICE (R276, R283, R286): the phase of a watch object advances by one for each write to the
watched sector, and once when the home drops the monitor of a block on its core (R290); an object that is no watch object any more does not,
nor does a monitor that has been released since; a conflict aborts the open region unless its COMMIT has begun. -/
def Obligations.WatchesAndConflicts : Prop :=
  (∀ (i : Nat) (w : WatchNote) (s : State), (s.net.notes.drop i).head? = some w → s.spadLocked w.block w.off 16 none = false →
    ∃ t, exec (.watchEvent i) s = .next t ∧ t.net.notes = s.net.notes.take i ++ s.net.notes.drop (i + 1)
      ∧ (∀ a, t.mem.byte a = s.mem.byte a)
      ∧ (s.noteLive w = false ∨ (s.barAt w.block w.off).kind ≠ 3 → t.calm s)
      ∧ (s.noteLive w = true → (s.barAt w.block w.off).kind = 3 → (s.blockAt w.block).isSome = true →
          t.barBecame s w.block w.off { s.barAt w.block w.off with phase := ((s.barAt w.block w.off).phase + 1) % 65536 }))
  ∧ (∀ (d c i : Nat) (m : Monitor) (s : State), ((s.coreAt d c).monitors.drop i).head? = some m → (s.blockAt m.block).isSome = true →
    (s.onCore m.block = false → exec (.monitorLoss d c i) s = .next s)
    ∧ (s.onCore m.block = true → s.spadLocked m.block m.off 16 none = false →
    ∃ t, exec (.monitorLoss d c i) s = .next t ∧ t.cores = s.cores ∧ (∀ a, t.mem.byte a = s.mem.byte a)
      ∧ ((s.barAt m.block m.off).kind ≠ 3 → t.calm s)
      ∧ ((s.barAt m.block m.off).kind = 3 →
          t.barBecame s m.block m.off { s.barAt m.block m.off with phase := ((s.barAt m.block m.off).phase + 1) % 65536 })))
  ∧ ∀ (i : Nat) (c : ConflictNote) (x : Team) (r : Try) (s : State), (s.net.conflicts.drop i).head? = some c → s.teamAt c.team = some x →
    x.region = some r →
    let rest := s.net.conflicts.take i ++ s.net.conflicts.drop (i + 1)
    ∃ t, exec (.conflictNotice i) s = .next t ∧ t.calmBut s c.team
      ∧ t.net.conflicts = (if r.begun = none then rest.filter (fun y => y.team ≠ c.team) else rest)
      ∧ (r.begun ≠ none → t.teamAt c.team = some x)
      ∧ (r.begun = none → ∃ u, t.teamAt c.team = some u ∧ u.backTo r 4 (w64 c.va) 0 ∧ u.queue = x.queue)

/-! ## Engines at work -/

/-- COPY_LANDING (R296 to R301, R387, R412): a unit of a copy whose sources and destination let it land is written whole, its bytes are
charged to the copy budget, which falls by what had not been paid of them before, and counted at the copy's object or batch; with its last unit
the copy is over, and its batch owes one copy less. A unit larger than what is left of the budget is paid for over several periods. What a
write leaves in scratchpad or memory. A copy of a block that is not on its core lands through its image. -/
def Obligations.CopyLandings : Prop :=
  (∀ (d core id n : Nat) (c : Copy) (sb0 : SideBand) (total : Nat) (u : CUnit) (s s1 s' s2 s3 : State), s.copyAt d core id = some c →
    (s.blockAt c.block).isSome = true → s.onCore c.block = true → c.paused = none → c.landed.contains n = false →
    let x : CAt := { die := d, core := core, c := c }
    let p := c.pb
    let f := sbFormat sb0
    let k := u.bytes.length
    (if cpyXform p ≤ 1 then sb0 = 0 ∧ s1 = s else x.side s 0 0 = .ok (sb0, s1)) → x.units s1 f = .ok (total, s') →
    n < (if cpyXform p = 2 then cpyRows p * cpyRowLines p f else total) →
    x.make s' { seed := (s.ctxAt c.ctx).seed, ctr := c.draw, key := c.key } n = .ok (u, s2) →
    x.barLocked s2 = false →
    let have_ := (s2.budget d c.ctx).copy
    (have_ + c.paid < k → have_ = 0 → exec (.copyLanding d core id n) s = .next s2 ∧ s2.calm s)
    ∧ (have_ + c.paid < k → have_ ≠ 0 → ∃ t, exec (.copyLanding d core id n) s = .next t ∧ t.calm s
      ∧ t.copyAt d core id = some { c with paid := c.paid + have_ } ∧ (d < s.dies.length → (t.budget d c.ctx).copy = 0))
    ∧ (k ≤ have_ + c.paid → x.write s2 u = .ok s3 → ∃ t, exec (.copyLanding d core id n) s = .next t
      ∧ (∀ v, (t.teamAt v).map Team.regs = (s.teamAt v).map Team.regs ∧ (t.teamAt v).map Team.stand = (s.teamAt v).map Team.stand)
      ∧ (∀ o, o < cpyBar p ∨ cpyBar p + 24 ≤ o → (t.block c.block).byte o = (s3.block c.block).byte o)
      ∧ (∀ b, b ≠ c.block → t.blockAt b = s.blockAt b)
      ∧ (cpyCens p = true → (t.block c.block).word (cpyBar p + 16) = censusAdd ((s3.block c.block).word (cpyBar p + 16)) u.sat u.under)
      ∧ (c.batch = none → (s3.barAt c.block (cpyBar p)).counts = true →
          t.barAt c.block (cpyBar p) = (s3.barAt c.block (cpyBar p)).after (Bar.land k)
          ∧ (s3.flushes c.block (cpyBar p) = false → ∀ a, t.mem.byte a = s3.mem.byte a))
      ∧ (c.batch ≠ none → ∀ a, t.mem.byte a = s3.mem.byte a)
      ∧ (d < s.dies.length → (t.budget d c.ctx).copy = have_ - (k - c.paid))
      ∧ (∀ b y, c.batch = some b → s3.teamAt c.team = some y → ∃ z st sc, t.teamAt c.team = some z
          ∧ z.batch = if total ≤ c.landed.length + 1
              then ({ y.batch with owed := modAt (b - y.batch.phase).toNat (· - 1) y.batch.owed, stamp := st, scope := sc } : Batch).settle
              else { y.batch with stamp := st, scope := sc })
      ∧ t.copyAt d core id = if total ≤ c.landed.length + 1 then none else some { c with landed := c.landed ++ [n], paid := 0 }))
  ∧ (∀ (x : CAt) (u : CUnit) (s s' : State), cpySpadDst x.c.pb = true → (s.blockAt x.c.block).isSome = true → x.write s u = .ok s' →
      u.at_ + u.bytes.length ≤ (s.launchOf x.c.block).spadBytes ∧ s'.mem = s.mem ∧ s'.teams = s.teams
        ∧ (∀ o, (s'.block x.c.block).byte o =
            if u.at_ ≤ o ∧ o < u.at_ + u.bytes.length then nth u.bytes (o - u.at_) 0 else (s.block x.c.block).byte o)
        ∧ ∀ v, u.side = some v → (s'.block x.c.block).sb (u.at_ / 128) = v)
  ∧ (∀ (x : CAt) (u : CUnit) (pa : Nat) (s s0 s' : State), cpySpadDst x.c.pb = false → x.pa s u.at_ .wr = .ok (pa, s0) →
      x.write s u = .ok s' → s.xFailed pa = false ∧ s'.blocks = s.blocks ∧ s'.teams = s.teams
        ∧ (∀ a, s'.mem.byte a = if pa ≤ a ∧ a < pa + u.bytes.length then nth u.bytes (a - pa) 0 else s.mem.byte a)
        ∧ ∀ v, u.side = some v → s'.mem.sb (pa / 128) = v)
  ∧ ∀ (d core id n : Nat) (c : Copy) (s : State), s.copyAt d core id = some c → s.onCore c.block = false → c.landed.contains n = false →
      (∀ l ∈ s.net.lands, l.kind ≠ .copy d core id n) →
      ∃ t, exec (.copyLanding d core id n) s = .next t ∧ t.calm s ∧ t.cores = s.cores
        ∧ t.net = { s.net with lands := s.net.lands ++ [{ block := c.block, kind := .copy d core id n, paused := none }] }

/-- MMA_EXECUTE (R64, R66, R67, R306, R309 to R311, R403): the joint instruction at the head of a core's queue adds its products to the
accumulators, element by element, raises its flags in every member that runs, writes its output rows and leaves the queue. It reads the
scratchpad as it stands, or, of what has landed there since it was issued, what stood there before (R330; Block.mixed, log 80). One whose
operands fail R51, FORMAT or LAYOUT or are poisoned leaves every accumulator and byte of its block and its slot is marked failed, those that
wait for it in the queue fail too, and its harness dissolves, every member owing the harness fault or, blocked at a slot wait on it, taking it;
where the harness is no longer that of its members, they owe the fault. -/
def Obligations.MatrixProducts : Prop :=
  ∀ (d core : Nat) (e : MqEntry) (ps : List JointPart) (q : JointPart) (b0 : Block) (s : State), s.mqHead d core = some e → e.op = .mma ps →
    ps.reverse.head? = some q → s.blockAt e.block = some b0 → s.mqHeld e = false →
    let b := b0.mixed s.run.free e.older
    let p := q.pb
    let us := ps.map (·.team)
    let w0 := mmaToff p / 4
    let good := b.linesOk (mmaA p) (mmaFmt p.w0) (mmaLay p.w0) && b.linesOk (mmaB p) (mmaFmt p.w1) (mmaLay p.w1)
      && !([mmaA p, mmaB p, mmaBias p].any b.spanPoison) && !(b.accPoison w0 (mmaM p * mmaN p))
    let fl := (b.products p).2
    let inOut := fun o => mmaEout p = true ∧ ∃ i, i < mmaM p ∧ mmaOoff p + 128 * mmaOpitch p * i ≤ o
      ∧ o < mmaOoff p + 128 * mmaOpitch p * i + 128 * mmaOutCount p
    (e.doomed = false → good = true → (mmaEqnt p = true → (elemOf (mmaOfmt p)).isSome = true) →
      ∃ t, exec (.mmaExecute d core) s = .next t ∧ t.leftQueue s d core e ∧ t.leftSlot s e false ∧ (∀ a, t.mem.byte a = s.mem.byte a)
        ∧ (∀ v, t.teamAt v = if v ∈ us then (s.teamAt v).map (fun x => if x.killed then x else x.raise fl) else s.teamAt v)
        ∧ (∀ k, k ≠ e.block → t.blockAt k = s.blockAt k)
        ∧ (∀ i j, i < mmaM p → j < mmaN p → (t.block e.block).acc (w0 + mmaN p * i + j) = (b.product p i j).1)
        ∧ (∀ w, w < w0 ∨ w0 + mmaM p * mmaN p ≤ w → (t.block e.block).acc w = b0.acc w)
        ∧ (∀ o, ¬ inOut o → (mmaCens p = true → o < mmaCensoff p ∨ mmaCensoff p + 8 ≤ o) → (t.block e.block).byte o = b0.byte o)
        ∧ (mmaEout p = true → mmaCens p = false → mmaOutCount p ≤ mmaOpitch p → ∀ i k, i < mmaM p → k < mmaOutCount p →
            let row := (outRow p (s.mmaDraws e ps) i (b.epilogue p (s.coreAt d core).bank (b.productRow p i))).1
            let l := mmaOoff p / 128 + mmaOpitch p * i + k
            (t.block e.block).line l = (nth row k (0, 0)).1 ∧ (t.block e.block).sb l = (nth row k (0, 0)).2))
    ∧ (e.doomed = true →
      ∃ t, exec (.mmaExecute d core) s = .next t ∧ t.leftSlot s e true ∧ (∀ a, t.mem.byte a = s.mem.byte a)
        ∧ (∀ w, (t.block e.block).acc w = b0.acc w) ∧ (∀ o, (t.block e.block).byte o = b0.byte o)
        ∧ (us.Nodup → ∀ v ∈ us,
            t.teamAt v = (s.teamAt v).map (fun x => if x.killed then x else { x with owedFaults := x.owedFaults ++ [(e.h, false)] })))
    ∧ (e.doomed = false → good = false →
      let y := b0.harness e.h
      let whole := y.convened && y.members.length = us.length && y.members.all us.contains
      let blocked := fun (x : Team) => ∃ f, (x.side f).path ≠ none ∧ (x.side f).slotWait e.h none = true
      let killed := whole = true ∧ ∃ v x, v ∈ y.members ∧ s.teamAt v = some x ∧ blocked x
      ∃ t, exec (.mmaExecute d core) s = .next t ∧ t.leftSlot s e true
        ∧ (∀ w, (t.block e.block).acc w = b0.acc w) ∧ (∀ o, (t.block e.block).byte o = b0.byte o)
        ∧ (t.coreAt d core).mq = ((s.coreAt d core).mq.filter (fun z => z.id ≠ e.id)).map (fun z =>
            if z.waits.contains e.id then { z with doomed := true } else z)
        ∧ (¬ killed → ∀ a, t.mem.byte a = s.mem.byte a)
        ∧ (whole = true → ((t.block e.block).harness e.h).convened = false ∧ ((t.block e.block).harness e.h).members = []
          ∧ ((t.block e.block).harness e.h).joints = []
          ∧ (y.members.Nodup → ∀ v ∈ y.members, v ∉ y.left → v ≠ s.uid → ∀ x, s.teamAt v = some x →
              (¬ blocked x → t.teamAt v = some { x with harness := none, owedFaults := x.owedFaults ++ [(e.h, true)] })
              ∧ (blocked x → ∃ z, t.teamAt v = some z ∧ z.killed = true)))
        ∧ (whole = false → us.Nodup → ∀ v, t.teamAt v = if v ∈ us
            then (s.teamAt v).map (fun x => if x.killed then x else { x with owedFaults := x.owedFaults ++ [(e.h, true)] }) else s.teamAt v))

/-- TILE_OP_EXECUTE and ACTLD_BANK_LOAD (R312, R313, R315): MZERO clears accumulators, MLOAD reads them, MSTORE writes lanes or copies
accumulators to raw lines, ACTLD fills the inactive bank and makes it the active one, or, with a reserved byte set or a poisoned image,
leaves both banks. What a poisoned activation image does is the model's choice (log 20). -/
def Obligations.TileMoves : Prop :=
  ∀ (d core : Nat) (e : MqEntry) (b : Block) (s : State), s.mqHead d core = some e → s.blockAt e.block = some b → s.mqHeld e = false →
    (∀ o n, e.op = .mzero o n →
      ∃ t, exec (.tileOpExecute d core) s = .next t ∧ t.leftQueue s d core e ∧ t.leftSlot s e false ∧ t.teams = s.teams ∧ t.mem = s.mem
        ∧ (∀ w, (t.block e.block).acc w = if o / 4 ≤ w ∧ w < o / 4 + n / 4 then 0 else b.acc w)
        ∧ ∀ a, (t.block e.block).byte a = b.byte a)
    ∧ (∀ u o n op, e.op = .mload u o n op →
      ∃ t, exec (.tileOpExecute d core) s = .next t ∧ t.leftQueue s d core e ∧ t.leftSlot s e false ∧ t.teams = s.teams ∧ t.mem = s.mem
        ∧ (∀ w, (t.block e.block).acc w = b.acc w) ∧ (∀ a, (t.block e.block).byte a = b.byte a)
        ∧ ∀ y ∈ t.net.ops, y.id = op → y.kind = .mload n (some (b.rows (o / 4) n, b.rowsPoison (o / 4) n)))
    ∧ (∀ o lanes v, e.op = .mstoreV o lanes v →
      ∃ t, exec (.tileOpExecute d core) s = .next t ∧ t.leftQueue s d core e ∧ t.leftSlot s e false ∧ t.teams = s.teams ∧ t.mem = s.mem
        ∧ (∀ w, (t.block e.block).acc w =
            if o / 4 ≤ w ∧ w < o / 4 + 32 ∧ lanes.getLsbD (w - o / 4) then laneOf v (w - o / 4) else b.acc w)
        ∧ ∀ a, (t.block e.block).byte a = b.byte a)
    ∧ (∀ o dst n, e.op = .mstoreS o dst n → dst % 128 = 0 →
      ∃ t, exec (.tileOpExecute d core) s = .next t ∧ t.leftQueue s d core e ∧ t.leftSlot s e false ∧ t.teams = s.teams ∧ t.mem = s.mem
        ∧ (∀ w, (t.block e.block).acc w = b.acc w)
        ∧ (∀ k, k < n / 128 → (t.block e.block).line (dst / 128 + k) = lineOf (fun l => b.acc (o / 4 + 32 * k + l))
            ∧ (t.block e.block).sb (dst / 128 + k) = rawSb)
        ∧ ∀ a, a < dst ∨ dst + n / 128 * 128 ≤ a → (t.block e.block).byte a = b.byte a)
    ∧ ∀ o, e.op = .actld o →
      let bad := (b.bytes (o + 8) 120).any (· ≠ 0) || (poisonIn b.spadPoison o (17 * 128)).isSome
      ∃ t, exec (.actldBankLoad d core) s = .next t ∧ t.leftSlot s e bad ∧ t.teams = s.teams ∧ t.mem = s.mem
        ∧ (∀ w, (t.block e.block).acc w = b.acc w) ∧ (∀ a, (t.block e.block).byte a = b.byte a)
        ∧ (t.coreAt d core).active = (if bad then (s.coreAt d core).active else !(s.coreAt d core).active)
        ∧ (bad = true → (t.coreAt d core).banks = (s.coreAt d core).banks)
        ∧ (bad = false → (t.coreAt d core).bank = b.table o
            ∧ (if (s.coreAt d core).active then (t.coreAt d core).banks.2 = (s.coreAt d core).banks.2
               else (t.coreAt d core).banks.1 = (s.coreAt d core).banks.1))

/-- COLL_DECLARATION (R317, R318, R320): a declaration reaches a participant that has formed and knows none: rank 0's own
judgement on rank 0's package, what came over the fabric elsewhere; where it finds the inputs good, the participant holds its
own value of every chunk; where not, the collective ends with STATUS 4, and where a source is poisoned by then, with STATUS 3 (R403). COLL_CREQ_RECEIVE, COLL_CRESULT_RECEIVE,
COLL_GRANT_RECEIVE, COLL_CLOSS_RECEIVE and COLL_CHUNK_TIMEOUT (R318, R321, R433, R439): a malformed message is discarded; a
node's value is held from its first arrival on; a grant is noted until the declaration; a lost chunk, and one that FABTO has
passed for, is rerun by the endpoints once and counted; a participant unreachable for FABTO ends the collective with STATUS 3, before the
declaration by the model's choice (log 22). -/
def Obligations.Collectives : Prop :=
  (∀ (id : Nat) (away : List CollReport) (decl : Option CollDecl) (c : Coll) (d : CollDecl) (s : State), s.collAt id = some c →
    c.formed = true → c.status = 0 → c.decl = none →
    ((s.collPlace c 0).1 ≠ s.io.fabid.toNat → decl = some d) →
    ((s.collPlace c 0).1 = s.io.fabid.toNat → c.rank = 0 ∧
      s.collJudge c (away.filter (fun r => c.count ≤ r.rank || (s.collPlace c r.rank).1 ≠ s.io.fabid.toNat)) = some d) →
    ∃ t e, exec (.collDeclaration id away decl) s = .next t ∧ t.collAt id = some e ∧ e.decl = some d
      ∧ (d.ok = false → e.status = 4) ∧ t.teams = s.teams
      ∧ (d.ok = true → (s.block c.block).sourcePoison c.pb = true → e.status = 3)
      ∧ (d.ok = true → (s.block c.block).sourcePoison c.pb = false → c.nodes = [] → ∀ i, i < ({ c with decl := some d } : Coll).chunks →
          e.node i c.rank c.rank = some ((s.block c.block).leaf c.pb i
            (chunkLen (if combines c.pb then d.lens.foldl Nat.max 0 else collLen c.pb) i))))
  ∧ (∀ (m : CollMsg) (ty : Nat) (ev : Instr) (s : State), (ty = 4 ∧ ev = .collCreqReceive m) ∨ (ty = 6 ∧ ev = .collCresultReceive m) →
    (extType m.ext ≠ ty ∨ extOk m.ext = false ∨ extChunk m.ext = 2 ^ 24 - 1 →
      exec ev s = .next { s with net := { s.net with collIn := dropMsg m s.net.collIn } })
    ∧ (∀ c d, extType m.ext = ty → extOk m.ext = true → extChunk m.ext ≠ 2 ^ 24 - 1 → s.collFor m = some c → s.collAt c.id = some c →
      c.decl = some d →
      ∃ t e, exec ev s = .next t ∧ t.collAt c.id = some e ∧ t.teams = s.teams
        ∧ (2 < c.status → t = { s with net := { s.net with collIn := dropMsg m s.net.collIn } })
        ∧ (c.status ≤ 2 → e.node (extChunk m.ext) (extLo m.ext) (extHi m.ext)
            = some ((c.node (extChunk m.ext) (extLo m.ext) (extHi m.ext)).getD m.val))))
  ∧ (∀ (m : CollMsg) (c : Coll) (s : State), extType m.ext = 5 → extOk m.ext = true → s.collFor m = some c → s.collAt c.id = some c → c.decl = none →
    ∃ t, exec (.collGrantReceive m) s = .next t ∧ t.calm s
      ∧ t.collAt c.id = some (if bitOf m.ext.d1 0 then { c with grants := c.grants ++ [bits m.ext.d1 16 16] } else { c with refusedGrant := true })
      ∧ ∀ x, x ≠ c.id → t.collAt x = s.collAt x)
  ∧ (∀ (m : CollMsg) (c : Coll) (s : State), extType m.ext = 7 → extOk m.ext = true → s.collFor m = some c → s.collAt c.id = some c → c.status = 0 →
    c.decl ≠ none → extChunk m.ext < c.chunks → c.node (extChunk m.ext) 0 (c.count - 1) = none → extLo m.ext ≤ c.rank → c.rank ≤ extHi m.ext →
    c.reruns.contains (extChunk m.ext) = false →
    ∃ t e, exec (.collClossReceive m) s = .next t ∧ t.collAt c.id = some e ∧ e.reruns = c.reruns ++ [extChunk m.ext] ∧ t.teams = s.teams
      ∧ (c.die < s.dies.length → (t.die c.die).ctr.collrerun = satInc (s.die c.die).ctr.collrerun))
  ∧ ∀ (id n : Nat) (c : Coll) (s : State), s.collAt id = some c → c.status = 0 → c.formed = true →
    (∀ q, s.io.fabto.toNat ≤ c.lost → s.collLost c = some q →
      ∃ t e, exec (.collChunkTimeout id n) s = .next t ∧ t.collAt id = some e ∧ t.teams = s.teams ∧ e.status = 3)
    ∧ ((c.lost < s.io.fabto.toNat ∨ s.collLost c = none) → c.decl ≠ none → s.io.fabto.toNat ≤ c.waited → n < c.chunks →
      c.node n 0 (c.count - 1) = none → c.reruns.contains n = false →
      ∃ t e, exec (.collChunkTimeout id n) s = .next t ∧ t.collAt id = some e ∧ t.teams = s.teams ∧ e.reruns = c.reruns ++ [n])

/-! ## The fabric -/

/-- FABRIC_INGRESS_WRITE (R120, R121, R431, R439): a write of another package is stamped with the I/O die's clock and sent to its home
with the bytes its mask names; a read and an atomic arrive with the I/O die's clock, an atomic that releases after its count, and are
answered, once their home serves that clock, with the line as it was, an atomic's new value standing in memory, at the place a migration
fence has moved it to (R421); a signal that a write carries covers the write's own data (R128); a request whose extension
block is malformed is discarded. -/
def Obligations.FabricRequests : Prop :=
  (∀ (src cls id line : Nat) (mask : BitVec 128) (data : Line) (rel : Bool) (ext : Option ExtBlock) (s : State),
    let r := FabReq.write src cls id line mask data rel ext
    (ingressOk line ext = false → exec (.fabricIngressWrite r) s = .next s)
    ∧ (ingressOk line ext = true → mask ≠ 0 → (∀ e, ext = some e → extType e ≠ 2) →
      ∃ t w, exec (.fabricIngressWrite r) s = .next t ∧ t.calm s ∧ t.cores = s.cores ∧ t.net.writes = s.net.writes ++ [w]
        ∧ w.src = 8 ∧ w.home = s.homeOf (128 * line) ∧ w.stamp = (t.die 8).clock ∧ w.team = none
        ∧ (rel = true → 8 < s.dies.length → 8 < (s.die 8).clock.length → clk w.stamp 8 = clk (s.die 8).clock 8 + 1)
        ∧ (rel = false → w.stamp = (s.die 8).clock)
        ∧ (∀ a v, w.body.byteAt a v =
            if 128 * line ≤ a ∧ a < 128 * line + 128 ∧ mask.getLsbD (a - 128 * line) then byteOf data (a - 128 * line) else v)
        ∧ (mask = BitVec.allOnes 128 → ∀ e, ext = some e → extType e = 1 →
            w.body.sides = [(line, sbOut (BitVec.ofNat 128 (e.d1.toNat + 2 ^ 64 * e.d2.toNat)))]))
    ∧ (∀ e, ingressOk line ext = true → ext = some e → extType e = 2 →
      ∃ t g, exec (.fabricIngressWrite r) s = .next t ∧ t.calm s ∧ t.net.signals = s.net.signals ++ [g]
        ∧ g.die = bits e.d0 40 3 ∧ g.port = bits e.d0 30 10 ∧ g.len = bits e.d1 0 32 ∧ g.stamp = (t.die 8).clock
        ∧ (8 < s.dies.length → 8 < (s.die 8).clock.length → ∀ w ∈ t.net.writes, w ∉ s.net.writes → clk w.stamp 8 < clk g.stamp 8)
        ∧ ∀ w ∈ t.net.writes, (∃ k, w.stream = some (4 * src + k) ∧ k < 4) → w.id ∈ g.after))
  ∧ (∀ (src id line : Nat) (need : BitVec 4) (s : State), ingressOk line none = true →
    (s.ingressAt (.read src id line need) = none →
      ∃ t g, exec (.fabricIngressWrite (.read src id line need)) s = .next t ∧ t.calm s ∧ t.cores = s.cores
        ∧ t.net = { s.net with ingress := s.net.ingress ++ [g] } ∧ g.req = .read src id line need ∧ g.clock = (s.die 8).clock)
    ∧ ∀ g, s.ingressAt (.read src id line need) = some g →
      (s.homeServes 8 g.clock g.uid (128 * line) 128 = false → exec (.fabricIngressWrite (.read src id line need)) s = .next s)
      ∧ (s.homeServes 8 g.clock g.uid (128 * line) 128 = true →
        ∃ t, exec (.fabricIngressWrite (.read src id line need)) s = .next t ∧ t.calm s ∧ t.cores = s.cores ∧ t.ingressAt (.read src id line need) = none
          ∧ t.net.out = s.net.out ++ [{ id := s.uid, pkg := src, cls := 1, team := none, ctx := 128, die := 8, pc := 0, waited := 0
                                        kind := .reply id { data := s.mem.line line, side := sbOut (s.mem.sb line),
                                                            poison := s.mem.linePoison line need % 65536 } }]))
  ∧ ∀ (src id pa size : Nat) (f : Option AtomOp) (v c : W64) (rel : Bool) (ext : Option ExtBlock) (r : FabReq) (s : State),
    (∃ op, f = some op ∧ c = 0 ∧ r = .atomic src id pa size op v rel ext ∧ fatomOk op ext = true)
      ∨ (f = none ∧ ext = none ∧ r = .cas src id pa size v c rel) →
    ingressOk (pa / 128) ext = true → pa % size = 0 →
    (s.ingressAt r = none → 8 < s.dies.length → 8 < (s.die 8).clock.length →
      ∃ t g, exec (.fabricIngressWrite r) s = .next t ∧ t.calm s ∧ t.cores = s.cores ∧ t.net.ingress = s.net.ingress ++ [g]
        ∧ g.req = r ∧ g.clock = (t.die 8).clock
        ∧ clk g.clock 8 = (if rel then clk (s.die 8).clock 8 + 1 else clk (s.die 8).clock 8)
        ∧ ∀ j, j ≠ 8 → clk g.clock j = clk (s.die 8).clock j)
    ∧ ∀ g, s.ingressAt r = some g →
      let at_ := ExtPark.at_ g.park pa
      s.extHeld (s.homeOf at_) at_ g.park = false → s.scrubbing (at_ / 32) = false →
      s.homeServes 8 g.clock g.uid at_ size = true → s.memLocked (at_ / 32) none = false →
      (s.pound (s.homeOf at_) (poundSlice at_)).any (fun y => y.sector = at_ / 32) = false → look (at_ / 32) s.mem.poison = none →
      let old := w64 (ofBytes (s.mem.bytes at_ size))
      ∃ t q, exec (.fabricIngressWrite r) s = .next t ∧ t.teams = s.teams ∧ t.blocks = s.blocks ∧ t.cores = s.cores
        ∧ (∀ a, t.mem.byte a = if at_ ≤ a ∧ a < at_ + size then nth (toBytes size (atomLast old (atomRun f size old [(0, v, c)]))) (a - at_) 0
            else s.mem.byte a)
        ∧ t.net.out = s.net.out ++ [q] ∧ q.pkg = src ∧ q.kind = .reply id { data := s.mem.line (at_ / 128), side := 0, poison := 0 }

/-- FABRIC_WRITE_COMPLETION, TRANSFER_FAILURE and FABRIC_TIMEOUT (R322, R323, R325, R432): a request that its package has taken is over,
and a PUTS with its last unit; a write to the package's own window goes to the homes of its lines through the I/O die, with that die's clock, and
leaves there the bytes it carries (R76, R120); a transfer that fails leaves nothing outstanding, adds what did not land, and counts its
requests that have waited FABTO; a request that has waited FABTO without a route is dropped and counted, a load's or an atomic's with poison
0x0404. -/
def Obligations.FabricEnds : Prop :=
  (∀ (id : Nat) (o : OutReq) (s : State), first (fun (q : OutReq) => q.id = id) s.net.out = some o →
    let rest := s.net.out.filter (fun q => q.id ≠ id)
    (s.unreachable o.pkg o.cls = true → exec (.fabricWriteCompletion id) s = .next s)
    ∧ (∀ w rel, o.pkg = s.io.fabid.toNat → s.ownTurn o = true → o.kind = .write w rel ∨ (rel = false ∧ ∃ x u, o.kind = .puts x u w) →
      ∃ t ws, exec (.fabricWriteCompletion id) s = .next t ∧ t.calm s ∧ t.net.out = rest ∧ t.net.writes = s.net.writes ++ ws
        ∧ (∀ y ∈ ws, y.src = 8 ∧ y.team = o.team ∧ y.ctx = o.ctx ∧ y.commit = false
            ∧ (∃ l, y.home = s.homeOf (128 * l) ∧ ∀ p ∈ y.body.pieces, p.addr / 128 = l)
            ∧ (rel = false → y.stamp = (s.die 8).clock)
            ∧ (rel = true → 8 < s.dies.length → 8 < (s.die 8).clock.length → clk (s.die 8).clock 8 < clk y.stamp 8))
        ∧ ∀ k, (∀ p ∈ w.pieces, p.addr % 32 = 0 ∧ p.addr / 2 ^ 41 = k) → ∀ a v, a < 2 ^ 41 →
            ws.foldl (fun z y => y.body.byteAt a z) v = w.byteAt (2 ^ 41 * k + a) v)
    ∧ (∀ x u w f, s.unreachable o.pkg o.cls = false → (o.pkg = s.io.fabid.toNat → s.ownTurn o = true) → o.kind = .puts x u w →
      s.xferAt x = some f →
      ∃ t, exec (.fabricWriteCompletion id) s = .next t ∧ t.calm s ∧ t.net.out = rest
        ∧ t.xferAt x = if f.units ≤ f.moved.length + 1 then none else some { f with moved := f.moved ++ [u] })
    ∧ (s.unreachable o.pkg o.cls = false → o.pkg ≠ s.io.fabid.toNat →
      ((∃ w rel, o.kind = .write w rel) ∨ (∃ n r, o.kind = .reply n r) ∨ (∃ m, o.kind = .coll m)
          ∨ (∃ f a n v c rel, o.kind = .host f a n v c rel) →
        exec (.fabricWriteCompletion id) s = .next { s with net := { s.net with out := rest } })
      ∧ ∀ x, o.kind = .signal x → exec (.fabricWriteCompletion id) s =
          .next { s with net := { s.net with out := rest, xfers := s.net.xfers.filter (fun f => f.id ≠ x) } })
    ∧ (o.waited < s.io.fabto.toNat ∨ s.unreachable o.pkg o.cls = false → exec (.fabricTimeout id) s = .next s)
    ∧ (s.io.fabto.toNat ≤ o.waited → s.unreachable o.pkg o.cls = true → 8 < s.dies.length →
      ∃ t, exec (.fabricTimeout id) s = .next t ∧ t.teams = s.teams
        ∧ (t.die 8).ctr.fabfail = satInc (s.die 8).ctr.fabfail ∧ (∀ q ∈ t.net.out, q.id ≠ id)
        ∧ (∀ op i m p, o.kind = .load op i → s.opAt op = some m → (m.kind.lineParts.drop i).head? = some p → p.got = none →
            t.calm s ∧ t.opAt op = some (m.setLine i { p with got := some (0, 0, 0x0404 + 65536 * p.need.toNat, .zero, []) }))
        ∧ (∀ op i m p, o.kind = .atomic op i → s.opAt op = some m → m.kind.lineParts = [] → (m.kind.atomParts.drop i).head? = some p →
            p.got = none → t.calm s ∧ t.opAt op = some (m.setAtom i { p with got := some (p.lanes.map (fun y => (y.1, 0#64)), 0x0404, .zero) }))
        ∧ (∀ x u w, o.kind = .puts x u w ∨ o.kind = .gets x u ∨ o.kind = .signal x → t.xferAt x = none)))
  ∧ ∀ (x code : Nat) (f : Xfer) (s : State), s.xferAt x = some f →
      let late := s.net.out.filter (fun q => (match q.kind with | .puts i _ _ | .gets i _ | .signal i => decide (i = x) | _ => false)
        && s.io.fabto.toNat ≤ q.waited && s.unreachable q.pkg q.cls)
      (code = 1 ∧ late ≠ [] ∨ code = 2 ∧ (f.gets = true ∨ ∃ q ∈ s.net.out, ∃ u, q.kind = .gets x u) →
        ∃ t, exec (.transferFailure x code) s = .next t ∧ t.teams = s.teams ∧ t.xferAt x = none
          ∧ (∀ q ∈ t.net.out, ∀ u w, q.kind ≠ .puts x u w ∧ q.kind ≠ .gets x u ∧ q.kind ≠ .signal x)
          ∧ (f.gets = false → t.blocks = s.blocks)
          ∧ (8 < s.dies.length → (t.die 8).ctr.fabfail =
              if code = 1 then late.foldl (fun n _ => satInc n) (s.die 8).ctr.fabfail else (s.die 8).ctr.fabfail)
          ∧ (f.gets = true → s.onCore f.block = true → s.spadLocked f.block f.bar 16 none = false → (s.blockAt f.block).isSome = true → (s.barAt f.block f.bar).counts = true →
              t.barAt f.block f.bar = (s.barAt f.block f.bar).after
                (Bar.land (f.len - f.moved.foldl (fun n u => n + f.unitLen u) 0))))

/-- GETS_LANDING (R76, R128, R324, R325): the bytes of a unit, answered by the remote package or, where its address names this package,
by this package's own HBM, appear at their place in scratchpad or memory and count at the object; with the last unit the transfer is
over; poisoned remote data end it. -/
def Obligations.GetsLandings : Prop :=
  (∀ (xfer n : Nat) (f : Xfer) (given : Option Reply) (r : Reply) (q : OutReq) (s s0 s1 s2 : State), s.xferAt xfer = some f → f.gets = true →
    f.moved.contains n = false → s.xferReply f (.gets xfer n) given = some (r, s0) → s0.takeOut (.gets xfer n) = some (q, s1) →
    (q.pkg ≠ s.io.fabid.toNat → given = some r)
    ∧ (r.poison ≠ 0 → ∃ t, exec (.getsLanding xfer n given) s = .next t ∧ t.xferAt xfer = none ∧ t.teams = s.teams)
    ∧ (r.poison = 0 →
      let bs := (from_ ((f.src + f.unitAt n) % 128) (f.unitLen n)).map (byteOf r.data)
      s1.getsWrite f n bs r.side = some s2 → s.onCore f.block = true → (s2.barAt f.block f.bar).counts = true → (s.blockAt f.block).isSome = true →
      ∃ t, exec (.getsLanding xfer n given) s = .next t ∧ t.teams = s.teams
        ∧ t.barAt f.block f.bar = (s2.barAt f.block f.bar).after (Bar.land bs.length)
        ∧ (∀ o, o < f.bar ∨ f.bar + 16 ≤ o → (t.block f.block).byte o = (s2.block f.block).byte o)
        ∧ (s2.flushes f.block f.bar = false → ∀ a, t.mem.byte a = s2.mem.byte a)
        ∧ t.xferAt xfer = if f.units ≤ f.moved.length + 1 then none else some { f with moved := f.moved ++ [n] }))
  ∧ ∀ (f : Xfer) (n : Nat) (bs : List Byte) (sb : SideBand) (s s2 : State), s.getsWrite f n bs sb = some s2 →
    let a := f.dst + f.unitAt n
    s2.teams = s.teams
    ∧ (f.spad = true → (s.blockAt f.block).isSome = true → s2.mem = s.mem ∧ (∀ b, b ≠ f.block → s2.blockAt b = s.blockAt b)
        ∧ ∀ o, (s2.block f.block).byte o = if a ≤ o ∧ o < a + bs.length then nth bs (o - a) 0 else (s.block f.block).byte o)
    ∧ (f.spad = false → (∀ i j, i < bs.length → j < bs.length → mapPa f.dstMap (a + i) = mapPa f.dstMap (a + j) → i = j) →
        s2.blocks = s.blocks ∧ (∀ i, i < bs.length → s2.mem.byte (mapPa f.dstMap (a + i)) = nth bs i 0)
        ∧ ∀ x, (∀ i, i < bs.length → x ≠ mapPa f.dstMap (a + i)) → s2.mem.byte x = s.mem.byte x)

/-! ## Launches and blocks -/

/-- BLOCK_ADMISSION, TEAM_RETIREMENT and BLOCK_RETIREMENT (R8, R17, R18, R26, R31, R32, R383, R388): the next block of a launch, with
all its teams, begins on a core that has room for it; a gang is admitted whole or not at all. A team that has finished and has nothing
left in its queue is gone; a block whose teams are gone and whose engines are done is gone and counted. -/
def Obligations.BlocksComeAndGo : Prop :=
  (∀ (lk : Nat) (l : Launch) (s : State), s.launchAt lk = some l → s.running (partOf l.ctx) = some l.ctx →
    (s.placing l.ctx).map Prod.fst = some lk →
    (∀ s', l.gang = false → s.placeOne (partOf l.ctx) lk = some s' →
      ∃ t b, exec (.blockAdmission lk) s = .next t ∧ s.fits l b.die b.core = true ∧ (l.fixed = false → b.idx = l.placed)
        ∧ (∀ a, t.mem.byte a = s.mem.byte a) ∧ (t.launch lk).placed = l.placed + 1 ∧ (t.launch lk).record = l.record
        ∧ t.blockAt s.uid = some b ∧ b.launch = lk ∧ b.begins l ∧ (∀ k, k ≠ s.uid → t.blockAt k = s.blockAt k)
        ∧ (∀ v, v ≤ s.uid ∨ s.uid + l.teams < v → t.teamAt v = s.teamAt v)
        ∧ ∀ j, j < l.teams → ∃ u, t.teamAt (s.uid + 1 + j) = some u ∧ u.block = s.uid ∧ u.idx = j ∧ u.begins l)
    ∧ (l.gang = true → l.placed ≤ l.blockCount → ∃ t, exec (.blockAdmission lk) s = .next t ∧ (t = s ∨ (t.launch lk).placed = l.blockCount)))
  ∧ (∀ (u : Nat) (x : Team) (s : State), s.teamAt u = some x → (s.block x.block).res = .core →
    (s.mayRetire u x = false → exec (.teamRetirement u) s = .next s)
    ∧ (s.mayRetire u x = true → ∃ t, exec (.teamRetirement u) s = .next t ∧ t.teamAt u = none
        ∧ (x.harness = none → (∀ c ∈ s.net.colls, c.block = x.block → c.formed = true) → t.calmBut s u
          ∧ (∀ m ∈ (t.coreAt (s.block x.block).die (s.block x.block).core).monitors, m.team ≠ u)
          ∧ ∀ l, s.launchAt (s.block x.block).launch = some l → (t.launch (s.block x.block).launch).finalSlots =
              if l.fixed then l.finalSlots ++ x.slots.map (fun (y : Nat × W32) => ((s.block x.block).idx, x.idx, y.1, y.2)) else l.finalSlots)))
  ∧ ∀ (k : Nat) (b : Block) (s : State), s.blockAt k = some b → b.res = .core →
    (s.teams.any (fun y => y.2.block = k) = true ∨ s.engineWork k = true → exec (.blockRetirement k) s = .next s)
    ∧ (s.teams.any (fun y => y.2.block = k) = false → s.engineWork k = false →
      ∃ t, exec (.blockRetirement k) s = .next t ∧ t.blockAt k = none ∧ (∀ j, j ≠ k → t.blockAt j = s.blockAt j) ∧ t.teams = s.teams
        ∧ (∀ a, t.mem.byte a = s.mem.byte a) ∧ (∀ d, ∀ p ∈ (t.die d).ports, p.block ≠ k)
        ∧ ∀ l, s.launchAt b.launch = some l → t.launchAt b.launch = some { l with retired := l.retired + 1 })

/-- LAUNCH_ACCEPT, LQPUSH and LNCH_DEFERRED_APPEND (R205, R206, R376, R378, R379, Tables 15.1, 15.2): the partition takes the head record of
the queue whose turn it is, with the status of its first failing check, once the context has a walk left, and a new SEED of its descriptor
counts from then on where no team of it is resident (R71); a record pushed to a queue with room stands in its ring, else FULLERR is set; a
waiting LNCH completes once its queue has room or refuses. LAUNCH_END (R131, R377, R381): a launch that was rejected, or whose blocks have
all retired and whose writes are all applied, ends with its status: the completion word stands at DONEADDR, DONE counts, the gate it names
has one arrival, the launch is gone. That a launch not yet covered leaves the state as it was is the model's choice (log 12). -/
def Obligations.Launches : Prop :=
  ((∀ (p q : Nat) (s : State), s.nextQueue p = some q →
    let c := 16 * p + (s.queueAt q).ctx
    (s.covered 8 = false ∨ (s.budget 8 c).walk = 0 → exec (.launchAccept p) s = .next s)
    ∧ (s.covered 8 = true → (s.budget 8 c).walk ≠ 0 →
    ∃ t l, exec (.launchAccept p) s = .next t ∧ t.calm s ∧ t.launchAt s.uid = some l ∧ (∀ k, k ≠ s.uid → t.launchAt k = s.launchAt k)
      ∧ (t.queueAt q).head = (s.queueAt q).head + 1 ∧ (∀ k, k ≠ q → t.queueAt k = s.queueAt k)
      ∧ l.ctx = c ∧ l.queue = q ∧ l.record = s.headRecord (s.queueAt q) ∧ l.placed = 0 ∧ l.retired = 0
      ∧ (recordOk l.record = false → l.status = 3) ∧ (recordOk l.record = true → headerOk l = false → l.status = 4)
      ∧ (recordOk l.record = true → headerOk l = true →
          (s.readYards c l.yardTab = none → l.status = 5)
          ∧ ∀ es, s.readYards c l.yardTab = some es →
            let ys := ((upTo es.length).zip es).filter (fun y => yardNblk y.2 ≠ 0)
            let gang := ys.any (fun y => yardNblk y.2 ≠ 1)
            (yardsOk l ys = false → l.status = 6)
            ∧ (yardsOk l ys = true →
              if gang = true ∧ Config.coresPerDie * (s.partAt p).dieList.length * l.perCore < l.blockCount then l.status = 7
              else l.status = 0 ∧ l.yards = ys ∧ l.gang = gang))
      ∧ (t.ctxAt c).seed = if s.teams.any (fun y => s.ctxOf y.2.block = c) then (s.ctxAt c).seed
          else s.mem.word (64 * (s.ctxAt c).desc.toNat + 8)))
  ∧ (∀ (q : Nat) (v : W64) (s : State), q < 131072 →
    let x := s.queueAt q
    let pa := 64 * bits v 6 46
    (x.en = false ∨ x.full = true → ∃ t, exec (.lqpush q v) s = .next t ∧ t.calm s ∧ t.queueAt q = { x with fullerr := true })
    ∧ (x.en = true → x.full = false → s.homeServes 8 (s.die 8).clock s.uid pa 64 = true →
      ∃ t, exec (.lqpush q v) s = .next t ∧ t.teams = s.teams ∧ t.blocks = s.blocks ∧ (t.queueAt q).tail = x.tail + 1
        ∧ (t.queueAt q).head = x.head
        ∧ (regionOf (x.slot x.tail.toNat) = .hbm ∨ regionOf (x.slot x.tail.toNat) = .expander →
            ∀ a, t.mem.byte a = if x.slot x.tail.toNat ≤ a ∧ a < x.slot x.tail.toNat + 64
              then s.mem.byte (pa + (a - x.slot x.tail.toNat)) else s.mem.byte a)))
  ∧ ∀ (u : Nat) (off : Bool) (x : Team) (w : LnchWait) (s : State), s.teamAt u = some x → (x.side off).lnch = some w → x.halted = false →
    x.park.fault = none → (s.block x.block).res = .core → (s.partAt (partOf (s.ctxOf x.block))).stopped = false →
    let refuses := s.refusesAppend w.queue (s.ctxOf x.block)
    let own := fun (z : Team) => if x.handler = some (!off) then { z with handler := none } else z
    (refuses = false → (s.queueAt w.queue).full = true → exec (.lnchDeferredAppend u off) s = .next s)
    ∧ (refuses = true ∨ (s.queueAt w.queue).full = false →
      let v : W64 := if refuses then 2 else 0
      ∃ t y, exec (.lnchDeferredAppend u off) s = .next t ∧ t.teamAt u = some y ∧ (∀ k, k ≠ u → t.teamAt k = s.teamAt k) ∧ t.blocks = s.blocks
        ∧ (y.side off).wait = .none ∧ (y.side off).lnch = none ∧ (y.side off).path = (x.side off).path.map (fun p => { p with pc := p.pc + 8 })
        ∧ (y.side (!off)) = x.side (!off) ∧ y.latch off 0 = some (latchS (v, none)) ∧ y.preds = x.preds ∧ y.flags = x.flags
        ∧ (w.dst.ws = false → (own y).sval w.dst.idx.toNat = some (v, none))
        ∧ (refuses = true → t.mem = s.mem ∧ t.sched = s.sched)
        ∧ (refuses = false → (t.queueAt w.queue).tail = (s.queueAt w.queue).tail + 1)))
  ∧ ∀ (lk : Nat) (l : Launch) (s : State), s.launchAt lk = some l → s.covered 8 = true → (s.ctxAt l.ctx).ending = false →
    (l.doneAddr ≠ 0 → (s.budget 8 l.ctx).walk ≠ 0) → (l.status ≠ 0 ∨ (l.blockCount ≤ l.retired ∧ s.ctxQuiet l.ctx = true)) →
    let st := if l.status ≠ 0 then l.status else if l.sticky then 2 else 1
    let w := w64 (bits (l.dw 6) 32 32 * 2 ^ 32 + st)
    ∃ t, exec (.launchEnd lk) s = .next t ∧ t.teams = s.teams ∧ t.blocks = s.blocks ∧ t.launchAt lk = none
      ∧ (∀ k, k ≠ lk → t.launchAt k = s.launchAt k)
      ∧ (t.queueAt l.queue).done = (s.queueAt l.queue).done + 1 ∧ (∀ k, k ≠ l.queue → t.queueAt k = s.queueAt k)
      ∧ t.sched.irqs = (if (s.queueAt l.queue).irq then s.sched.irqs ++ [l.queue] else s.sched.irqs)
      ∧ (st ≤ 2 → bitOf (l.dw 6) 15 = true → ∃ c, t.gateAt (bits (l.dw 6) 0 12) = (s.gateAt (bits (l.dw 6) 0 12)).arrive c)
      ∧ (¬ (st ≤ 2 ∧ bitOf (l.dw 6) 15 = true) → ∀ g, t.gateAt g = s.gateAt g)
      ∧ (l.finalSlots = [] → l.doneAddr = 0 → ∀ a, t.mem.byte a = s.mem.byte a)
      ∧ ∀ e lvl r, l.finalSlots = [] → l.doneAddr ≠ 0 → s.walk 8 l.ctx l.doneAddr = .ok (e, lvl, r) → Perm.wr.allows e = true →
          let pa := 4096 * bits e 12 40 + l.doneAddr % 2 ^ levelShift lvl
          s.paOk pa = true → (regionOf pa = .hbm ∨ regionOf pa = .expander) →
          ∀ a, t.mem.byte a = if pa ≤ a ∧ a < pa + 8 then byteOf w (a - pa) else s.mem.byte a

/-! ## Contexts and partitions -/

/-- The scheduler's steps (R384 to R386, R404 to R407): yield-due while another slot has work, else a new slice; GRACE; at an eviction the
cores first stop and then, once every register write has landed, the context goes to the shadows and the next one comes in; the start of an
idle partition and its relinquishing; VALID only for a descriptor that passes; END takes everything of its context, once what its teams have
stored has left; PARTDIES takes 1, 2, 4 or 8 aligned dies that no partition has; a debugger's halt and resume. That END leaves VALID set
while queued stores remain is the model's choice (log 31). -/
def Obligations.Scheduling : Prop :=
  (∀ (p c : Nat) (s : State), s.running p = some c → (s.partAt p).graceCount = none → (s.ctxAt c).slice ≤ (s.partAt p).sliceCount →
    p < s.sched.parts.length →
    ∃ t, exec (.timeSliceExpiry p) s = .next t ∧ t.blocks = s.blocks ∧ t.mem = s.mem
      ∧ ((s.nextWork p (s.partAt p).run).isSome = false → t.teams = s.teams ∧ (t.partAt p).sliceCount = 0)
      ∧ ((s.nextWork p (s.partAt p).run).isSome = true → (t.partAt p).graceCount = some 0
          ∧ ∀ v, t.teamAt v = (s.teamAt v).map (fun x => if s.ctxOf x.block = c then { x with yieldDue := true } else x)))
  ∧ (∀ (p c n : Nat) (s : State), s.running p = some c → (s.partAt p).graceCount = some n → p < s.sched.parts.length →
    ((s.nextWork p (s.partAt p).run).isSome = true → exec (.timeSliceExpiry p) s = .next s)
    ∧ ((s.nextWork p (s.partAt p).run).isSome = false →
      ∃ t, exec (.timeSliceExpiry p) s = .next t ∧ t.blocks = s.blocks ∧ t.mem = s.mem ∧ (t.partAt p).sliceCount = 0
        ∧ (t.partAt p).graceCount = none ∧ (t.partAt p).graced = false
        ∧ ∀ v, t.teamAt v = (s.teamAt v).map (fun x => if s.ctxOf x.block = c then { x with yieldDue := false } else x)))
  ∧ (∀ (p c n : Nat) (s : State), s.running p = some c → (s.partAt p).graceCount = some n → (s.partAt p).graced = false →
    (s.ctxAt c).grace ≤ n → p < s.sched.parts.length →
    (s.allBlocked c = true → exec (.graceExpiry p) s = .next s)
    ∧ (s.allBlocked c = false → ∃ t, exec (.graceExpiry p) s = .next t ∧ t.teams = s.teams ∧ t.blocks = s.blocks ∧ (t.partAt p).graced = true
        ∧ t.sched.graceIrqs = s.sched.graceIrqs ++ [p]))
  ∧ (∀ (p c : Nat) (s : State), s.running p = some c → (s.partAt p).graceCount.isSome = true → p < s.sched.parts.length →
    ((s.nextWork p (s.partAt p).run).isSome = false ∨ s.mayStop c = false → exec (.contextEviction p) s = .next s)
    ∧ ((s.nextWork p (s.partAt p).run).isSome = true → s.mayStop c = true →
      (s.partAt p).dieList.all s.covered = true → s.landed c = false → (∀ y ∈ s.ctxTeams c, y.2.region = none) →
      ∃ t, exec (.contextEviction p) s = .next t ∧ t.calm s ∧ (t.partAt p).stopped = true
        ∧ ∀ u x off, s.teamAt u = some x → s.ctxOf x.block = c → partOf c = p → t.canIssue u off = false))
  ∧ (∀ (p k : Nat) (y : Ctx) (s : State), let c := 16 * p + (s.partAt p).run
    (s.partAt p).stopped = true → s.landed c = true → (s.partAt p).halt = false → s.nextWork p (s.partAt p).run = some k → s.readDesc (16 * p + k) (s.ctxAt (16 * p + k)) = some y →
    s.noImages → (∀ n b, s.blockAt n = some b → s.ctxOf n = c → b.res = .core ∧ b.core < 512) → p < s.sched.parts.length →
    ∃ t, exec (.contextEviction p) s = .next t ∧ t.mem = s.mem ∧ t.running p = some (16 * p + k) ∧ (t.partAt p).stopped = false
      ∧ (∀ n b, s.blockAt n = some b → t.blockAt n = some (if s.ctxOf n = c then { b with res := .shadow } else b))
      ∧ ∀ v x, s.teamAt v = some x → t.teamAt v = some (if s.ctxOf x.block = c then x.putAway else x))
  ∧ (∀ (p k : Nat) (y : Ctx) (s : State), (s.partAt p).idle = true → (s.partAt p).switch = false → (s.partAt p).dieList.all s.covered = true →
    (upTo 16).find? (fun k => (s.ctxAt (16 * p + k)).valid && !(s.ctxAt (16 * p + k)).ending && s.queued p k) = some k → s.readDesc (16 * p + k) (s.ctxAt (16 * p + k)) = some y →
    s.noImages → p < s.sched.parts.length →
    ∃ t, exec (.contextStart p) s = .next t ∧ t.blocks = s.blocks ∧ t.mem = s.mem ∧ t.running p = some (16 * p + k)
      ∧ ((s.partAt p).halt = false → t.teams = s.teams)
      ∧ ((s.partAt p).halt = true → rising s.teams = true →
          ∀ u x, t.teamAt u = some x → s.ctxOf x.block = 16 * p + k → s.onCore x.block = true → x.halted = true))
  ∧ (∀ (p c : Nat) (s : State), s.running p = some c → (∀ y ∈ s.launches, y.2.ctx ≠ c) → s.queued p (c % 16) = false →
    s.nextWork p (s.partAt p).run = none → s.hasWork p (s.partAt p).run = false → s.noImages → p < s.sched.parts.length →
    ∃ t, exec (.partitionRelinquish p) s = .next t ∧ t.calm s ∧ (t.partAt p).idle = true ∧ t.running p = none)
  ∧ (∀ (p k : Nat) (v : W64) (s : State), p < 8 → k < 16 → (s.ctxAt (16 * p + k)).valid = false → bitOf v 0 = true →
    let x := { s.ctxAt (16 * p + k) with desc := v.extractLsb' 6 46 }
    ∃ t, exec (.contextValidate p k v) s = .next t ∧ t.calm s ∧ (∀ j, j ≠ 16 * p + k → t.ctxAt j = s.ctxAt j)
      ∧ (s.readDesc (16 * p + k) x = none → t.ctxAt (16 * p + k) = { x with err := true })
      ∧ (∀ y, s.readDesc (16 * p + k) x = some y → t.ctxAt (16 * p + k) =
          { y with valid := true, err := false, sticky := false, first := 0, count := 0, seq := 0, recorded := [], saved := false, ending := false }))
  ∧ (∀ (p k : Nat) (s : State), p < 8 → k < 16 → (s.ctxAt (16 * p + k)).valid = true → (s.ctxAt (16 * p + k)).ending = false →
    let owes := (s.endHalt (16 * p + k)).owes (16 * p + k) || !s.covered 8
    ∃ t, exec (.contextEnd p k) s = .next t
      ∧ (owes = true → (t.ctxAt (16 * p + k)).valid = true ∧ (t.ctxAt (16 * p + k)).ending = true ∧ t.running p ≠ some (16 * p + k)
          ∧ ∀ n x, s.teamAt n = some x → (s.blockAt x.block).isSome = true → s.ctxOf x.block = 16 * p + k →
              ∃ y, t.teamAt n = some y ∧ y.killed = true ∧ y.near.path = none ∧ y.off.path = none)
      ∧ (owes = false → (s.partAt p).switch = false → (s.partAt p).idle = true ∨ (s.partAt p).run ≠ k → rising s.teams = true →
          (∀ n x, s.teamAt n = some x → (s.blockAt x.block).isSome = true) →
          (∀ n b, t.blockAt n = some b → s.ctxOf n ≠ 16 * p + k) ∧ (∀ n x, t.teamAt n = some x → s.ctxOf x.block ≠ 16 * p + k)
          ∧ (rising s.launches = true → ((t.ctxAt (16 * p + k)).valid = false ↔ (∀ n l, t.launchAt n = some l → l.ctx ≠ 16 * p + k) ∧ t.queued p k = false))
          ∧ ((∀ n l, s.launchAt n = some l → l.ctx = 16 * p + k → l.doneAddr = 0) → s.queued p k = false → rising s.launches = true →
              (t.ctxAt (16 * p + k)).valid = false)
          ∧ (∀ n x, s.teamAt n = some x → s.ctxOf x.block ≠ 16 * p + k → t.teamAt n = some x)))
  ∧ (∀ (p : Nat) (v : W64) (s : State), p < s.sched.parts.length →
    let m : Byte := v.extractLsb' 0 8
    let fits := m.toNat ∈ [1, 2, 4, 8, 16, 32, 64, 128, 3, 12, 48, 192, 15, 240, 255]
      ∧ (∀ q, q < 8 → q ≠ p → (s.partAt q).dies &&& m = 0) ∧ (∀ k, k < 16 → (s.ctxAt (16 * p + k)).valid = false) ∧ (s.partAt p).switch = false
    ∃ t, exec (.partdiesWrite p v) s = .next t ∧ t.calm s ∧ (∀ q, q ≠ p → t.partAt q = s.partAt q)
      ∧ (fits → (t.partAt p).dies = m ∧ (t.partAt p).derr = false) ∧ (¬ fits → (t.partAt p).dies = (s.partAt p).dies ∧ (t.partAt p).derr = true))
  ∧ ∀ (p : Nat) (hlt : Bool) (s : State), p < s.sched.parts.length → rising s.teams = true →
    ∃ t, exec (if hlt then .debugHalt p else .debugResume p) s = .next t ∧ t.blocks = s.blocks ∧ t.mem = s.mem ∧ (t.partAt p).halt = hlt
      ∧ ∀ v, t.teamAt v = (s.teamAt v).map (fun x => if s.running p = some (s.ctxOf x.block) ∧ s.onCore x.block = true
          then { x with halted := hlt } else x)

/-! ## Parking, the watchdog, faults of translation -/

/-- SPILL_RETURN, REGS_DEADLOCK_PARK and WATCHDOG_LIMIT (R349, R350, R391): the oldest spilled team that the pools can hold returns; at a
register deadlock a victim is chosen, its open region aborts, and once its registers' writes have landed its registers above its floors are
written out; the last team that is not parked is reported instead, once; a blocked team whose count has passed its die's limit is reported and
its count restarts. Of a record for REGS the object is 0 and the file is the one named (log 49); counts pass in whole budget periods
(log 50): the model's choices. -/
def Obligations.Parking : Prop :=
  (∀ (die core u : Nat) (x : Team) (s : State),
    leastBy (fun (y : Nat × Team) => y.2.age) ((s.coreTeams die core).filter (fun y => s.mayReturn die core y.2)) = some (u, x) →
    ∃ t, exec (.spillReturn die core) s = .next t ∧ t.calmBut s u
      ∧ t.teamAt u = (s.teamAt u).map (fun y => { y with park := { y.park with spill := none } }))
  ∧ (∀ (die core u : Nat) (x : Team) (s : State), s.chosen die core = some (u, x) →
    let extra := fun (y : Team) (k : Kind) => y.footprint k - (s.launchOf y.block).floor k
    (s.writesAway u = true → exec (.regsDeadlockPark die core) s = .next s)
    ∧ (s.writesAway u = false → ∃ t, exec (.regsDeadlockPark die core) s = .next t ∧ t.calmBut s u
      ∧ t.teamAt u = (s.teamAt u).map (fun y => { y with park := { y.park with due := false, spill := some (extra y .v, extra y .s) } })))
  ∧ (∀ (die core u : Nat) (x : Team) (k : Kind) (s : State), s.chosen die core = none → s.regsDeadlock die core = some k →
    let live := (s.coreTeams die core).filter (fun y => !y.2.parked && y.2.hasPath)
    (live = [(u, x)] → x.told = false →
      ∃ t, exec (.regsDeadlockPark die core) s = .next t ∧ (∀ v, v ≠ u → t.teamAt v = s.teamAt v) ∧ t.blocks = s.blocks
        ∧ t.teamAt u = (s.teamAt u).map (fun y => { y with told := true })
        ∧ t.rang s die (·.wd) 256 (s.wdBytes 0 (s.ctxOf x.block) (s.block x.block).idx x.idx core 2 5))
    ∧ (live.length ≠ 1 → s.deadlockVictim die core k = some (u, x) → s.teamAt u = some x →
      let extra := fun (k : Kind) => x.footprint k - (s.launchOf x.block).floor k
      ∃ t y, exec (.regsDeadlockPark die core) s = .next t ∧ t.calmBut s u ∧ t.teamAt u = some y
        ∧ (x.region = none → s.writesAway u = true → y = { x with park := { x.park with due := true } })
        ∧ (x.region = none → s.writesAway u = false →
            y = { x with park := { x.park with due := false, spill := some (extra .v, extra .s) } })
        ∧ (∀ r, x.region = some r → r.begun = none → y.backTo r 7 0 0 ∧ y.queue = x.queue ∧ (y.park.due = true ∨ y.park.spill.isSome = true))))
  ∧ ∀ (u r obj : Nat) (x : Team) (s : State), s.teamAt u = some x → x.blockedOn = some (r, obj) → s.onCore x.block = true →
    x.halted = false →
    let b := s.block x.block
    let lim := (s.die b.die).wdLimit.toNat
    (lim = 0 ∨ x.waited ≤ lim → exec (.watchdogLimit u) s = .next s)
    ∧ (lim ≠ 0 → lim < x.waited →
      ∃ t, exec (.watchdogLimit u) s = .next t ∧ (∀ v, v ≠ u → t.teamAt v = s.teamAt v) ∧ t.blocks = s.blocks
        ∧ t.teamAt u = some { x with waited := 0 } ∧ t.rang s b.die (·.wd) 256 (s.wdBytes obj (s.ctxOf x.block) b.idx x.idx b.core 0 r))

/-- FAULT_ENTRY_DEFERRED, FAULT_RETRY, FAULT_KILL and IMAGE_LANDING (R399, R412, R418, R419): an entry that waited is written once the
queue has room; a retry lets everyone who joined the entry go on, a kill ends them; what waited for an image lands in it. -/
def Obligations.FaultAnswers : Prop :=
  (∀ (d : Nat) (e : FqEnt) (s : State), d < s.dies.length → first (fun (y : FqEnt) => y.seq.isNone) (s.die d).fqEnts = some e →
    let r := (s.die d).fq
    let e' := { e with seq := some r.tail, words := modAt 0 (fun w => w ||| (r.tail.setWidth 64 <<< 16)) e.words }
    let p := r.base.toNat + 32 * (r.tail.toNat % 1024)
    (1024 ≤ r.used → exec (.faultEntryDeferred d) s = .next s)
    ∧ (r.used < 1024 →
      ∃ t a b, exec (.faultEntryDeferred d) s = .next t ∧ t.teams = s.teams ∧ t.blocks = s.blocks
        ∧ (s.die d).fqEnts = a ++ e :: b ∧ (∀ y ∈ a, y.seq.isSome = true) ∧ (t.die d).fqEnts = a ++ b ++ [e']
        ∧ (t.die d).fq = { r with tail := r.tail + 1 } ∧ (t.die d).held = (s.die d).held - 1
        ∧ (e.words.length = 4 → regionOf p = .hbm ∨ regionOf p = .expander →
            ∀ x, t.mem.byte x = if p ≤ x ∧ x < p + 32 then nth (wordsBytes e'.words) (x - p) 0 else s.mem.byte x)))
  ∧ (∀ (d : Nat) (n : W16) (e : FqEnt) (s : State), d < s.dies.length → s.fqEntry d n = some e →
    ((∀ w ∈ e.who, ∃ u, w = .team u) →
      ∃ t, exec (.faultRetry d n) s = .next t ∧ t.blocks = s.blocks ∧ (∀ a, t.mem.byte a = s.mem.byte a) ∧ t.fqEntry d n = none
        ∧ ∀ u, t.teamAt u = (s.teamAt u).map (fun x => if .team u ∈ e.who then { x with park := { x.park with fault := none } } else x))
    ∧ (∀ u x, e.who = [.team u] → s.teamAt u = some x → x.park.fault.isSome = true → x.harness = none → (∀ r, x.region = some r → r.begun = none) →
      (∀ c ∈ s.net.colls, c.block = x.block → c.formed = true) →
      ∃ t y, exec (.faultKill d n) s = .next t ∧ t.blocks = s.blocks ∧ t.fqEntry d n = none ∧ (∀ v, v ≠ u → t.teamAt v = s.teamAt v)
        ∧ t.teamAt u = some y ∧ y.killed = true ∧ y.near.path = none ∧ y.off.path = none ∧ y.region = none ∧ y.park.fault = none
        ∧ bits (nth y.frec 0 0) 0 16 = bits (nth x.frec 0 0) 0 16 ∧ bitOf (nth y.frec 0 0) 61 = true
        ∧ (t.ctxAt (s.ctxOf x.block)).sticky = true))
  ∧ ∀ (i : Nat) (l : ImgLand) (s : State), (s.net.lands.drop i).head? = some l →
    let rest := s.net.lands.take i ++ s.net.lands.drop (i + 1)
    (l.paused.isSome = true ∨ s.landLocked l.block (s.landReads l) = true → exec (.imageLanding i) s = .next s)
    ∧ (∀ a blk off b, l.paused = none → s.landLocked l.block (s.landReads l) = false → ((s.block l.block).res = .core ∨ (s.block l.block).res = .shadow) → l.kind = .arrival a → s.arrivalAt a = some (blk, off) →
      s.blockAt blk = some b → (s.barAt blk off).counts = true → a.count ≤ (s.barAt blk off).pend →
      ∃ t, exec (.imageLanding i) s = .next t ∧ t.barBecame s blk off ((s.barAt blk off).after (Bar.arrive a.count)) ∧ t.net.lands = rest
        ∧ (s.flushes blk off = false → ∀ x, t.mem.byte x = s.mem.byte x))
    ∧ ∀ m b, l.paused = none → s.landLocked l.block (s.landReads l) = false → ((s.block l.block).res = .core ∨ (s.block l.block).res = .shadow) → l.kind = .mirror m → s.blockAt l.block = some b →
      (∀ w, b.window m.yard = some w → w.cnt = false) →
      ∃ t, exec (.imageLanding i) s = .next t ∧ t.teams = s.teams ∧ t.net.lands = rest ∧ (∀ a, t.mem.byte a = s.mem.byte a)
        ∧ (∀ k, k ≠ l.block → t.blockAt k = s.blockAt k)
        ∧ ∀ o, (t.block l.block).byte o = if m.off ≤ o ∧ o - m.off ∈ (upTo 32).filter (fun i => m.mask.getLsbD i && m.off + i < (s.launchOf l.block).spadBytes)
            then byteOf m.data (o - m.off) else b.byte o

/-! ## Invalidation and migration -/

/-- INVALIDATE_GO and INVALIDATION_COMPLETE (R420); MIGRATION_FENCE_ARM, MIGRATION_RELEASE, MIGRATION_MOVE and MIGRATION_DONE (R421):
no TLB keeps an entry of the range once GO is written, and BUSY stays until everything that was in flight is over (log 51: more than what
R420 names, the model's choice); a fence is armed and released, a release with MOVE copies the range line by line to its new address, and DONE
is set once a release holds nothing any more, of several of one fence with the last (log 90, the model's choice). -/
def Obligations.InvalidationAndMigration : Prop :=
  (∀ (v : W64) (s : State),
    let tag := bits v 56 8
    let lo := s.sched.inv.va.toNat
    let n := bits v 16 32
    ∃ t, exec (.invalidateGo v) s = .next t ∧ t.calm s ∧ t.sched.inv.tag.toNat = tag ∧ t.sched.inv.pages.toNat = n
      ∧ (bitOf v 0 = false → t.sched.inv.busy = s.sched.inv.busy ∧ t.cores = s.cores ∧ t.dies = s.dies)
      ∧ (bitOf v 0 = true → s.sched.inv.busy = true → t.sched.inv.err = true ∧ t.sched.inv.busy = true ∧ t.cores = s.cores ∧ t.dies = s.dies)
      ∧ (bitOf v 0 = true → s.sched.inv.busy = false → t.sched.inv.busy = true ∧ t.sched.inv.err = false
          ∧ (∀ y ∈ t.cores, ∀ e ∈ y.2.tlb, (tag = 0 ∨ e.tag = tag) → n ≠ 0 ∧ (65536 * (lo + n) ≤ e.va ∨ e.va + 2 ^ levelShift e.level ≤ 65536 * lo))
          ∧ (∀ d ∈ t.dies, ∀ e ∈ d.tlb, (tag = 0 ∨ e.tag = tag) → n ≠ 0 ∧ (65536 * (lo + n) ≤ e.va ∨ e.va + 2 ^ levelShift e.level ≤ 65536 * lo))))
  ∧ (∀ (s : State), s.sched.inv.busy = true →
    (s.invDone = false → exec .invalidationComplete s = .next s)
    ∧ (s.invDone = true → ∃ t, exec .invalidationComplete s = .next t ∧ t.calm s ∧ t.net = s.net ∧ t.dies = s.dies ∧ t.cores = s.cores
        ∧ t.sched.inv.busy = false ∧ t.sched.inv.err = s.sched.inv.err))
  ∧ ∀ (d n : Nat) (v : W64) (s : State), d < 8 → n < 8 → d < s.dies.length → n < (s.die d).mig.length →
    let f := (s.die d).fence n
    (f.en = false → bitOf v 0 = true →
      ∃ t, exec (.migrationFenceArm d n v) s = .next t ∧ t.calm s ∧ t.otherDies s d ∧ (∀ k, k ≠ n → (t.die d).fence k = (s.die d).fence k)
        ∧ (t.die d).fence n = { f with new := v.extractLsb' 16 36, size := v.extractLsb' 2 14, en := true, done := false }
        ∧ (t.die d).jobs = (s.die d).jobs)
    ∧ (f.en = true → bitOf v 0 = false →
      ∃ t, exec (.migrationRelease d n v) s = .next t ∧ t.calm s ∧ t.otherDies s d ∧ (∀ k, k ≠ n → (t.die d).fence k = (s.die d).fence k)
        ∧ (t.die d).fence n = { f with en := false }
        ∧ ∃ j ∈ (t.die d).jobs, j.fence = n ∧ j.old = f.old ∧ j.new = f.new ∧ j.move = bitOf v 1
            ∧ j.left = if bitOf v 1 then s.fenceLines d f else [])
    ∧ (∀ j l r, (s.die d).moves n = some j → j.left = l :: r →
      let a := j.there (128 * l)
      (∀ i, i < 4 → s.memLocked (a / 32 + i) none = false) → s.covers (s.homeOf a) d (s.die d).clock = true →
      (∀ w ∈ s.net.writes, w.src = d → bodyTouches w.body (a / 128) = false) → 65536 * j.old.toNat ≤ 128 * l → s.xFailed a = false →
      (regionOf a = .hbm ∨ (regionOf a = .expander ∧ (s.xwinAt a).en = true)) →
      ∃ t, exec (.migrationMove d n) s = .next t ∧ t.teams = s.teams ∧ t.blocks = s.blocks
        ∧ (∃ k ∈ (t.die d).jobs, k.id = j.id ∧ k.fence = n ∧ k.left = r)
        ∧ (∀ x, t.mem.byte x = if a ≤ x ∧ x < a + 128 then s.mem.byte (128 * l + (x - a)) else s.mem.byte x)
        ∧ ∀ k, t.mem.sb k = if k = a / 128 then s.mem.sb l else s.mem.sb k)
    ∧ ((∀ j ∈ (s.die d).jobs, j.fence = n → s.jobOpen d j = true) → exec (.migrationDone d n) s = .next s)
    ∧ ∀ j, first (fun (j : MigJob) => j.fence = n && !s.jobOpen d j) (s.die d).jobs = some j →
      ∃ t, exec (.migrationDone d n) s = .next t ∧ t.calm s ∧ t.net = s.net ∧ t.otherDies s d ∧ (∀ k, k ≠ n → (t.die d).fence k = (s.die d).fence k)
        ∧ (t.die d).jobs = (s.die d).jobs.filter (fun x => x.id ≠ j.id)
        ∧ (t.die d).fence n = if (t.die d).jobs.any (fun x => x.fence = n) then f else { f with done := true }

/-! ## The driver's registers -/

/-- PIN_WINDOW_ENABLE, HOMECFG_WRITE, XWIN_ENABLE, TELEMETRY_COUNTER_CLEAR and REGISTER_WRITE (R4, R87 to R89, R374, R427, R432, R434,
R443): a window is enabled unless FADE0 is zero or the die's windows exceed 96 MiB, and any other FADE0 sets FADE; a locked HOMECFG stays;
EN = 1 clears FAILED; a write clears a counter; a register that software owns reads back its fields as written, and a write that is not
aligned or of no control block does nothing. What a window counts on dies whose group holds its first or last byte is the model's choice
(log 60). -/
def Obligations.DriverRegisters : Prop :=
  (∀ (d n : Nat) (v : W64) (s : State), d < 8 → d < s.dies.length → n < (s.die d).pins.length →
    let x := nth (s.die d).pins n .reset
    let y : PinWin := { x with fade0 := v.extractLsb' 24 8, size := v.extractLsb' 8 16 }
    let lw := s.io.lw.toNat
    let others := ((upTo 16).zip (s.die d).pins).foldl (fun k (z : Nat × PinWin) => if z.1 ≠ n && z.2.en then k + z.2.counts lw d else k) 0
    ∃ t, exec (.pinWindowEnable d n v) s = .next t ∧ t.calm s ∧ t.otherDies s d
      ∧ (∀ k, k ≠ n → nth (t.die d).pins k .reset = nth (s.die d).pins k .reset)
      ∧ (bitOf v 0 = false → nth (t.die d).pins n .reset = { y with en := false, err := false })
      ∧ (bitOf v 0 = true → y.fade0 = 0 → nth (t.die d).pins n .reset = { y with en := false, err := true })
      ∧ (bitOf v 0 = true → y.fade0 ≠ 0 → 96 * 2 ^ 20 < others + y.counts lw d →
          nth (t.die d).pins n .reset = { y with en := false, err := true, fade := y.fade0 })
      ∧ (bitOf v 0 = true → y.fade0 ≠ 0 → others + y.counts lw d ≤ 96 * 2 ^ 20 →
          nth (t.die d).pins n .reset = { y with en := true, err := false, fade := y.fade0 }))
  ∧ (∀ (v : W64) (s : State), (s.io.lock = true → exec (.homecfgWrite v) s = .next s)
    ∧ (s.io.lock = false → ∃ t, exec (.homecfgWrite v) s = .next t ∧ t.teams = s.teams ∧ t.blocks = s.blocks ∧ t.io.lock = bitOf v 63
        ∧ t.io.lw = v.extractLsb' 0 2 ∧ (∀ a, 2 ^ 40 ≤ a → t.mem.byte a = s.mem.byte a)
        ∧ (v.extractLsb' 0 2 = s.io.lw → t.mem = s.mem)))
  ∧ (∀ (n : Nat) (v : W64) (x : XWin) (s : State), (s.io.xwins.drop n).head? = some x →
    ∃ t, exec (.xwinEnable n v) s = .next t ∧ t.calm s ∧ (∀ k, k ≠ n → (t.io.xwins.drop k).head? = (s.io.xwins.drop k).head?)
      ∧ (t.io.xwins.drop n).head? = some { port := v.extractLsb' 1 2, en := bitOf v 0, failed := x.failed && !bitOf v 0 })
  ∧ (∀ (d n : Nat) (s : State), d < s.dies.length → n < 10 → (n < 7 ∨ 8 ≤ d) →
    ∃ t, exec (.telemetryCounterClear d n) s = .next t ∧ t.calm s ∧ t.otherDies s d ∧ (t.die d).ctr.get n = 0
      ∧ ∀ k, k ≠ n → (t.die d).ctr.get k = (s.die d).ctr.get k)
  ∧ ∀ (v : W64) (s : State),
    (∀ pa, regionOf pa ≠ .control ∨ pa % 8 ≠ 0 → exec (.registerWrite pa v) s = .next s)
    ∧ (∀ d o m, d < 9 → d < s.dies.length → (o, m) ∈ [(0x3000, 0xFFFFFFFF#64), (0x3008, 0xFFFFFFFFFF000#64), (0x3100, 0xFFFFFFFFFC000#64)] →
      ∃ t, exec (.registerWrite (2 ^ 41 + d * 2 ^ 24 + o) v) s = .next t ∧ t.calm s ∧ t.otherDies s d
        ∧ t.regRead (2 ^ 41 + d * 2 ^ 24 + o) = v &&& m)
    ∧ (∀ o m, (o, m) ∈ [(0x410, 0x3FF#64), (0x418, 0xFFFFFFFF#64), (0x9100, 0xFFFFFFFF#64)] →
      ∃ t, exec (.registerWrite (2 ^ 41 + 8 * 2 ^ 24 + o) v) s = .next t ∧ t.calm s ∧ t.dies = s.dies
        ∧ t.regRead (2 ^ 41 + 8 * 2 ^ 24 + o) = v &&& m)
    ∧ (∀ g, g < 4096 →
      ∃ t, exec (.registerWrite (2 ^ 41 + 8 * 2 ^ 24 + 0x10000 + 8 * g) v) s = .next t ∧ t.calm s ∧ (∀ k, k ≠ g → t.gateAt k = s.gateAt k)
        ∧ t.regRead (2 ^ 41 + 8 * 2 ^ 24 + 0x10000 + 8 * g) = v &&& 0xFFFFFFFFFFFF#64)
    ∧ ∀ k, k < 4096 →
      ∃ t, exec (.registerWrite (2 ^ 41 + 8 * 2 ^ 24 + 0x100000 + 8 * k) v) s = .next t ∧ t.calm s
        ∧ t.regRead (2 ^ 41 + 8 * 2 ^ 24 + 0x100000 + 8 * k) = v &&& 0x800000000000000F#64

/-! ## Start, attestation, Solnal, power -/

/-- MEASUREMENT_EXTEND, BOOT_STAGE_MEASUREMENT, MAIN_POWER_UP, ATTESTATION_GO, ATTESTATION_DONE and SOLNAL_ATTESTATION_REQUEST (R428, R429,
R438): what extends a measurement, which image the main side starts, and where a report goes. The hash is the model's presumption (log 33);
which of two accepted copies runs, whether an update that was in progress is complete by the boot (R451; log 35), and the codes of events
(log 55) are its choices. -/
def Obligations.Attestation : Prop :=
  (∀ (v : W64) (s : State),
    let i := bits v 0 3
    ∃ t, exec (.measurementExtend v) s = .next t ∧ t.calm s ∧ (∀ k, k ≠ i → nth t.io.meas k 0 = nth s.io.meas k 0)
      ∧ (i < 4 → t.io.measErr = true ∧ t.io.meas = s.io.meas)
      ∧ (4 ≤ i → i < s.io.meas.length → t.io.measErr = false ∧ t.io.measData = [0, 0, 0, 0]
          ∧ nth t.io.meas i 0 = measOf (sha256 (measBytes (nth s.io.meas i 0) ++ wordsBytes s.io.measData))))
  ∧ (∀ (n : Nat) (img : BootImage) (s : State),
    let next := s.io.mainOn = true ∧ n = s.io.stage ∧ 1 ≤ n ∧ n ≤ 7 ∧ bootOk img = true
    (¬ next → exec (.bootStageMeasurement n img) s = .next s)
    ∧ (next → n < s.io.meas.length → ∃ t, exec (.bootStageMeasurement n img) s = .next t ∧ t.calm s ∧ (∀ k, k ≠ n → nth t.io.meas k 0 = nth s.io.meas k 0)
        ∧ nth t.io.meas n 0 = measOf (sha256 (measBytes (nth s.io.meas n 0) ++ sha256 (bootBytes img))) ∧ t.io.stage = n + 1))
  ∧ (∀ (s : State), s.io.mainOn = false → s.solnal.on = true → s.io.meas ≠ [] →
    (∀ k img, k < 2 → nth s.solnal.flash k none = some img → bootOk img = true → s.flashOk (1 - k) = false → s.solnal.writing ≠ some k →
      ∃ t, exec .mainPowerUp s = .next t ∧ t.calm s ∧ t.io.mainOn = true ∧ t.io.svn = bootSvn img ∧ t.io.bootCopy = some k ∧ t.solnal.accepted = some k
        ∧ t.io.stage = 1
        ∧ nth t.io.meas 0 0 = measOf (sha256 (measBytes (nth s.io.meas 0 0) ++ sha256 (bootBytes img))))
    ∧ (∀ k, k < 2 → s.solnal.writing = some k → s.flashOk (1 - k) = true →
      ∃ t, exec .mainPowerUp s = .next t ∧ t.calm s ∧ t.io.mainOn = true
        ∧ (t.io.bootCopy = some (1 - k) ∨ t.io.bootCopy = some k ∧ s.flashOk k = true ∧ t.solnal.writing = none))
    ∧ (s.flashOk 0 = true → s.flashOk 1 = true → s.solnal.writing = none →
      ∃ t k, exec .mainPowerUp s = .next t ∧ t.calm s ∧ t.io.mainOn = true ∧ k < 2 ∧ t.io.bootCopy = some k)
    ∧ (s.flashOk 0 = false → s.flashOk 1 = false →
      ∃ t, exec .mainPowerUp s = .next t ∧ t.calm s ∧ t.io = s.io
        ∧ Solnal.noted t.solnal s.solnal { time := 0, die := 8, code := Config.eventCode 1, tag := 0, addr := 0 }))
  ∧ (∀ (v : W64) (s : State), bitOf v 0 = true →
    let pa := 4096 * s.io.attBuf.toNat
    (s.io.attJob.isSome = true ∨ regionOf pa ≠ .hbm →
      ∃ t, exec (.attestationGo v) s = .next t ∧ t.calm s ∧ t.io = { s.io with attErr := true })
    ∧ (s.io.attJob = none → regionOf pa = .hbm →
      ∃ t, exec (.attestationGo v) s = .next t ∧ t.calm s
        ∧ t.io = { s.io with attErr := false, attDone := false, attJob := some (some pa, wordsBytes s.io.attNonce) }))
  ∧ (∀ (nonce : List Byte) (s : State),
    (∀ pa, s.io.attJob = some (some pa, nonce) → regionOf pa = .hbm →
      ∃ t, exec .attestationDone s = .next t ∧ t.teams = s.teams ∧ t.blocks = s.blocks ∧ t.io.attJob = none ∧ t.io.attDone = true
        ∧ ∀ a, t.mem.byte a = if pa ≤ a ∧ a < pa + (s.attReport nonce).length then nth (s.attReport nonce) (a - pa) 0 else s.mem.byte a)
    ∧ (s.io.attJob = some (none, nonce) →
      ∃ t, exec .attestationDone s = .next t ∧ t.calm s ∧ t.io.attJob = none ∧ t.solnal.report = s.attReport nonce))
  ∧ ∀ (nonce : List Byte) (s : State),
    let able := s.solnal.on = true ∧ s.io.mainOn = true ∧ s.io.attJob = none ∧ nonce.length = 32
    (¬ able → exec (.solnalAttestationRequest nonce) s = .next s)
    ∧ (able → ∃ t, exec (.solnalAttestationRequest nonce) s = .next t ∧ t.calm s ∧ t.io = { s.io with attJob := some (none, nonce) })

/-- PACKAGE_RESET, SUPPLY_UNDERVOLTAGE, STANDBY_POWER_UP, DATETIME_SET, TELEMETRY_INTERVAL_SET, TELEMETRY_SAMPLE, FIRMWARE_UPDATE,
POWER_CAP_SET, CLOCK_STEP_DOWN and CLOCK_STEP_UP (R5, R429, R440 to R445, R449). What HBM holds after a reset is a free value, and the
expander keeps its bytes (log 34, the model's choice). So are the copy a firmware update writes before any was accepted (log 35), Solnal's
clock, what a sample holds and which items a reset leaves unread (R451; log 36), the codes of events (log 55), and when PWRCAP.CLOCK changes (log 81). -/
def Obligations.SolnalAndPower : Prop :=
  (∀ (i : Instr) (s : State), i = .packageReset ∨ i = .supplyUndervoltage →
    ∃ t, exec i s = .next t ∧ t.teams = [] ∧ t.blocks = [] ∧ t.launches = [] ∧ t.cores = [] ∧ t.dies = State.reset.dies
      ∧ t.sched = State.reset.sched ∧ t.net = State.reset.net ∧ t.io = State.reset.io
      ∧ (i = .packageReset → ∃ us,
          let cut := s.solnal.on && s.solnal.reading
          t.solnal = { s.solnal with gap := s.solnal.gap || s.io.unsaid ≠ [], reading := s.solnal.reading && !s.solnal.on
                                     sample := s.solnal.sample.map (fun x => if cut then { x with unread := us } else x) })
      ∧ (s.io.unsaid ≠ [] → t.solnal.gap = true)
      ∧ (i = .supplyUndervoltage → Solnal.noted t.solnal s.solnal { time := 0, die := 8, code := Config.eventCode 3, tag := 0, addr := 0 })
      ∧ ∀ a, 2 ^ 40 ≤ a → t.mem.byte a = s.mem.byte a)
  ∧ (∀ (s : State), ∃ t, exec .standbyPowerUp s = .next t ∧ t.calm s ∧ t.io = s.io ∧ t.solnal = { s.solnal with on := true })
  ∧ (∀ (us ms power watts mean : Nat) (temps : List Nat) (img : BootImage) (i : Instr) (s : State), s.solnal.on = false →
    i ∈ [.datetimeSet us, .telemetryIntervalSet ms, .telemetrySample power temps, .firmwareUpdate img, .powerCapSet watts,
         .clockStepDown mean, .clockStepUp mean] → exec i s = .next s)
  ∧ ∀ (s : State), s.solnal.on = true →
    (∀ us, ∃ t, exec (.datetimeSet us) s = .next t ∧ t.calm s ∧ t.io = s.io ∧ t.solnal = { s.solnal with clock := us })
    ∧ (∀ ms,
      let fits := 10 ≤ ms ∧ ms ≤ 10000 ∧ ms % 10 = 0
      (¬ fits → exec (.telemetryIntervalSet ms) s = .next s)
      ∧ (fits → ∃ t, exec (.telemetryIntervalSet ms) s = .next t ∧ t.calm s ∧ t.io = s.io ∧ t.solnal = { s.solnal with interval := ms }))
    ∧ (∀ power temps, ∃ t x, exec (.telemetrySample power temps) s = .next t ∧ t.calm s ∧ t.io = s.io ∧ t.dies = s.dies
        ∧ t.solnal.sample = some x ∧ t.solnal.history = s.solnal.history ∧ t.solnal.clock = s.solnal.clock + 1000 * s.solnal.interval
        ∧ x.time = t.solnal.clock ∧ x.power = power ∧ x.temps = temps ∧ x.ends = s.solnal.ended ∧ x.offline = !s.io.mainOn
        ∧ x.unread = [] ∧ t.solnal.reading = s.io.mainOn
        ∧ (s.io.mainOn = true → x.mhz = some s.io.mhz ∧ x.ctrs = s.dies.map (·.ctr) ∧ x.ports = s.io.ports ∧ x.failed = s.io.xwins.map (·.failed))
        ∧ (s.io.mainOn = false → x.mhz = none ∧ x.ctrs = [] ∧ x.ports = [] ∧ x.failed = [] ∧ x.losts = []))
    ∧ (∀ img, s.solnal.flash.length = 2 →
      ∃ t k, exec (.firmwareUpdate img) s = .next t ∧ t.calm s ∧ t.io = s.io ∧ k < 2 ∧ (∀ n, s.solnal.accepted = some n → n ≠ k)
        ∧ nth t.solnal.flash k none = some img ∧ t.solnal.writing = some k ∧ ∀ j, j ≠ k → nth t.solnal.flash j none = nth s.solnal.flash j none)
    ∧ (∀ watts,
      (watts < 1500 ∨ 3400 < watts → exec (.powerCapSet watts) s = .next s)
      ∧ (1500 ≤ watts → watts ≤ 3400 → ∃ t, exec (.powerCapSet watts) s = .next t ∧ t.calm s ∧ t.io = { s.io with cap := BitVec.ofNat 16 watts }))
    ∧ ∀ mean,
      let mhz := s.io.mhz.toNat
      let cap := s.io.cap.toNat
      let took := fun (t : State) (m : Nat) => t.calm s ∧ t.net = s.net ∧ t.io.mhz = BitVec.ofNat 16 m ∧ t.io.throttled = decide (m < 2700)
        ∧ ∀ d, d < 8 → d < s.dies.length → t.die d = { s.die d with nextMHz := m }
      (mean ≤ cap → exec (.clockStepDown mean) s = .next s)
      ∧ (cap < mean → ∃ t, exec (.clockStepDown mean) s = .next t ∧ took t (Nat.max 1500 (mhz - 100)))
      ∧ (100 * mean < 95 * cap → ∃ t, exec (.clockStepUp mean) s = .next t ∧ took t (Nat.min 2700 (mhz + 100)))
      ∧ (95 * cap ≤ 100 * mean → ¬ (mhz = 1500 ∧ cap < mean) → exec (.clockStepUp mean) s = .next s)
      ∧ (95 * cap ≤ 100 * mean → mhz = 1500 → cap < mean →
          ∃ t, exec (.clockStepUp mean) s = .next t ∧ t.calm s ∧ t.io = s.io ∧ t.dies = s.dies
            ∧ t.solnal.events.length = s.solnal.events.length + 1)

/-! ## Links and errors -/

/-- FABRIC_LINK_UP, UALINK_LINK_FAILURE, CXL_LINK_FAILURE and CXL_COMPLETION_TIMEOUT (R432, R435, R439, R449, Table 18.5): the port's state
and its event; the windows of a failed CXL port fail, what was outstanding there is answered with poison 0x0402 or dropped, while the rest
of a write goes on, and no cache keeps a line of it; a request that has waited XTO is answered with 0x0403 or dropped, and a transfer that
waits for one ends. The model's choices: the count of a request's periods (log 53), that no cache answers for a failed window (log 54), the
codes of events (log 55), the count of retrains (log 56) and the port event (log 81). -/
def Obligations.Links : Prop :=
  (∀ (n : Nat) (caps : ExtBlock) (p : Port) (s : State), (s.io.ports.drop n).head? = some p →
    let good := extType caps = 8 && extOk caps
    (∃ t, exec (.fabricLinkUp n caps) s = .next t ∧ t.calm s ∧ (∀ k, k ≠ n → (t.io.ports.drop k).head? = (s.io.ports.drop k).head?)
      ∧ (t.io.ports.drop n).head? = some { up := true, retrains := p.retrains + b1 p.trained, combine := good && bitOf caps.d1 0,
                                           slots := if good then bits caps.d1 8 8 else 0, trained := true })
    ∧ ∃ t, exec (.ualinkLinkFailure n) s = .next t ∧ t.calm s ∧ (∀ k, k ≠ n → (t.io.ports.drop k).head? = (s.io.ports.drop k).head?)
      ∧ (t.io.ports.drop n).head? = some { p with up := false }
      ∧ t.io.unsaid = s.io.unsaid ++ [{ time := 0, die := 8, code := Config.eventCode 2, tag := 0, addr := 0 }]
      ∧ t.solnal.events = (if s.solnal.on then s.solnal.events ++ [portEvent s.solnal s.io.fabid] else s.solnal.events))
  ∧ (∀ (n : Nat) (s : State),
    let hit := fun (a : Nat) => inExpander a && decide ((s.xwinAt a).port.toNat = n)
    ∃ t, exec (.cxlLinkFailure n) s = .next t ∧ t.teams = s.teams ∧ t.blocks = s.blocks
      ∧ t.io.xwins = s.io.xwins.map (fun w => if w.port.toNat = n then { w with failed := true, en := false } else w)
      ∧ (∀ o ∈ t.net.ops, (∀ p ∈ o.kind.lineParts, p.atExpander = true → hit (128 * p.line) = false) ∧ ∀ p ∈ o.kind.atomParts, p.atExpander = true → hit p.addr = false)
      ∧ (∀ w ∈ t.net.writes, ∀ p ∈ w.body.pieces, hit p.addr = false)
      ∧ (∀ w ∈ s.net.writes, (∀ v ∈ s.net.writes, v.id = w.id → v = w) →
          let live := w.body.part (fun a => !hit a)
          if live.none? = true then w.body.none? = true ∨ ∀ v ∈ t.net.writes, v.id ≠ w.id else { w with body := live } ∈ t.net.writes)
      ∧ (∀ y ∈ t.cores, ∀ l ∈ y.2.l1, hit (128 * l.line) = false) ∧ (∀ d ∈ t.dies, ∀ l ∈ d.rdc, hit (128 * l.line) = false)
      ∧ t.io.unsaid = s.io.unsaid ++ [{ time := 0, die := 8, code := Config.eventCode 2, tag := 0, addr := 0 }]
      ∧ ((∀ w ∈ s.net.writes, w.team = none) → ∀ a, t.mem.byte a = s.mem.byte a))
  ∧ ∀ (id : Nat) (s : State),
    ((∀ k, look id s.net.xwait = some k → k < s.io.xto.toNat) → exec (.cxlCompletionTimeout id) s = .next s)
    ∧ ∀ k, look id s.net.xwait = some k → s.io.xto.toNat ≤ k →
      (∀ o, s.opAt id = some o →
        ∃ t o', exec (.cxlCompletionTimeout id) s = .next t ∧ t.calm s ∧ t.opAt id = some o'
          ∧ o'.kind.lineParts = o.kind.lineParts.map (fun p => if p.atExpander then
              { p with got := some (0, 0, 0x0403 + 65536 * p.need.toNat, .zero, []) } else p)
          ∧ o'.kind.atomParts = o.kind.atomParts.map (fun p => if p.atExpander then
              { p with got := some (p.lanes.map (fun y => (y.1, 0#64)), 0x0403, .zero), parked := false, refused := false } else p))
      ∧ (∀ w, s.opAt id = none → first (fun (y : NWrite) => y.id = id) s.net.writes = some w →
        ∃ t, exec (.cxlCompletionTimeout id) s = .next t ∧ t.teams = s.teams ∧ t.blocks = s.blocks
          ∧ (let live := w.body.part (fun a => !inExpander a)
             t.net.writes = if live.none? then s.net.writes.filter (fun y => y.id ≠ id)
               else s.net.writes.map (fun y => if y.id = id then { y with body := live } else y))
          ∧ (w.team = none → t.mem = s.mem))
      ∧ ∀ f, s.opAt id = none → (∀ w ∈ s.net.writes, w.id ≠ id) → look id s.xCopies = none → s.xferAt id = some f → f.gets = false →
        ∃ t, exec (.cxlCompletionTimeout id) s = .next t ∧ t.teams = s.teams ∧ t.blocks = s.blocks ∧ t.xferAt id = none

/-- UNCORRECTABLE_ERROR and DEMAND_SCRUB_WRITEBACK (R402, R423 to R425, Table 17.11): a clean copy is dropped; what cannot be dropped is
poisoned with the code of its kind; an error in a store queue, a try buffer, a pound or a dirty line whose owner has a context ends that
context: at once, or once what its teams have stored has left. A demand scrub's write-back changes no value. The model's choices: a demand
scrub in two steps (log 23), when the stores of an ended context have left (log 31), and which register errors are found (log 64). -/
def Obligations.MemoryErrors : Prop :=
  (∀ (s : State),
    let ends := fun (t : State) (c : Nat) => (t.ctxAt c).valid = false ∨ (t.ctxAt c).ending = true
    let code := fun (found : Bool) => if found then 0x0405 else latentError
    (∀ d c l, (s.coreAt d c).l1.any (fun x => x.line = l) = true →
      ∃ t, exec (.uncorrectableError (.l1 d c l)) s = .next t ∧ t.calm s ∧ t.net = s.net
        ∧ (t.coreAt d c).l1 = (s.coreAt d c).l1.filter (fun x => x.line ≠ l))
    ∧ (∀ d l, d < s.dies.length → d < 9 → (s.die d).rdc.any (fun x => x.line = l) = true →
      ∃ t, exec (.uncorrectableError (.rdc d l)) s = .next t ∧ t.calm s ∧ t.net = s.net ∧ t.otherDies s d
        ∧ (t.die d).rdc = (s.die d).rdc.filter (fun x => x.line ≠ l) ∧ (t.die d).ctr.uncorr = satInc (s.die d).ctr.uncorr)
    ∧ (∀ l x, first (fun (y : L2Line) => y.line = l) (s.die (s.homeOf (128 * l))).l2 = some x →
      (x.dirty = false → ∃ t, exec (.uncorrectableError (.l2 l)) s = .next t ∧ t.calm s ∧ t.mem = s.mem
        ∧ (s.homeOf (128 * l) < s.dies.length → ∀ y ∈ (t.die (s.homeOf (128 * l))).l2, y.line ≠ l))
      ∧ (x.dirty = true → s.ctxOfTag x.owner = none → (∀ y ∈ s.teams, ∀ i < 4, y.2.locks .mem (4 * l + i) = false) → (∀ y ∈ s.teams, y.2.locks .memSide l = false) →
        ∃ t, exec (.uncorrectableError (.l2 l)) s = .next t ∧ t.calm s ∧ ∀ k, look k t.mem.poison = if k / 4 = l then some 0x0401 else look k s.mem.poison)
      ∧ (∀ c, x.dirty = true → s.ctxOfTag x.owner = some c → (∀ y ∈ s.teams, ∀ i < 4, y.2.locks .mem (4 * l + i) = false) →
        (∀ y ∈ s.teams, y.2.locks .memSide l = false) → (s.ctxAt c).valid = true →
        ∃ t, exec (.uncorrectableError (.l2 l)) s = .next t ∧ ends t c))
    ∧ (∀ u x, s.teamAt u = some x → (s.ctxAt (s.ctxOf x.block)).valid = true →
      (∀ i, i < x.queue.length → ∃ t, exec (.uncorrectableError (.storeQueue u i)) s = .next t ∧ ends t (s.ctxOf x.block))
      ∧ (∀ r i, x.region = some r → i < r.buf.length → ∃ t, exec (.uncorrectableError (.tryBuffer u i)) s = .next t ∧ ends t (s.ctxOf x.block)))
    ∧ (∀ d k i y o, ((s.pound d k).drop i).head? = some y → s.opAt y.op = some o → (s.ctxAt o.ctx).valid = true →
      ∃ t, exec (.uncorrectableError (.pound d k i)) s = .next t ∧ ends t o.ctx)
    ∧ (∀ k b l, s.blockAt k = some b → ∃ t, exec (.uncorrectableError (.spad k l)) s = .next t ∧ t.teams = s.teams ∧ t.mem = s.mem
        ∧ (∀ j, j ≠ k → t.blockAt j = s.blockAt j) ∧ (∀ o, (t.block k).byte o = b.byte o)
        ∧ ∀ i, look i (t.block k).spadPoison = if i / 4 = l then some 0x0401 else look i b.spadPoison)
    ∧ (∀ k b w, s.blockAt k = some b → ∃ t, exec (.uncorrectableError (.tile k w)) s = .next t ∧ t.teams = s.teams ∧ t.mem = s.mem
        ∧ (∀ j, j ≠ k → t.blockAt j = s.blockAt j) ∧ (∀ i, i ∈ (t.block k).tilePoison ↔ i = w ∨ i ∈ b.tilePoison))
    ∧ (∀ u x i r l found, s.teamAt u = some x → look i x.vregs = some r → l < 32 →
      ∃ t y, exec (.uncorrectableError (.vreg u i l found)) s = .next t ∧ (found = false → t.mem = s.mem ∧ t.sched = s.sched ∧ t.dies = s.dies)
        ∧ (found = true → (t.ctxAt (s.ctxOf x.block)).sticky = true) ∧ t.blocks = s.blocks ∧ (∀ v, v ≠ u → t.teamAt v = s.teamAt v)
        ∧ t.teamAt u = some y ∧ y.stand = x.stand ∧ y.sregs = x.sregs ∧ y.preds = x.preds ∧ (∀ j, j ≠ i → look j y.vregs = look j x.vregs)
        ∧ ∃ r', look i y.vregs = some r' ∧ r'.data = r.data ∧ r'.sb = r.sb
            ∧ ∀ p, p ∈ r'.poison ↔ (p = ⟨l, code found, 0⟩ ∨ (p ∈ r.poison ∧ p.lane ≠ l)))
    ∧ (∀ u x i r found, s.teamAt u = some x → look i x.sregs = some r → r.snap = false →
      ∃ t, exec (.uncorrectableError (.sreg u i found)) s = .next t ∧ t.blocks = s.blocks ∧ (∀ v, v ≠ u → t.teamAt v = s.teamAt v)
        ∧ t.teamAt u = some { x with sregs := change i (fun r => { r with poison := some ⟨0, code found, 0⟩ }) x.sregs })
    ∧ (∀ u x i r g found, s.teamAt u = some x → x.region = some g → look i x.sregs = some r → r.snap = true →
      ∃ t y h, exec (.uncorrectableError (.sreg u i found)) s = .next t ∧ t.teamAt u = some y ∧ y.region = some h
        ∧ y.sregs = change i (fun r => { r with poison := some ⟨0, code found, 0⟩ }) x.sregs
        ∧ h.sSregs = change i (fun r => { r with poison := some ⟨0, code found, 0⟩ }) g.sSregs)
    ∧ ∀ k, 32 * k < 2 ^ 40 ∨ inExpander (32 * k) = true → ∃ t, exec (.uncorrectableError (.hbm k)) s = .next t ∧ t.calm s
        ∧ (∀ j, look j t.mem.poison = if j = k then some 0x0401 else look j s.mem.poison))
  ∧ ∀ (k : Nat) (s : State),
    (k ∉ s.mem.corr → 2 ^ 40 ≤ 32 * k → isExpander (32 * k) = false → exec (.demandScrubWriteback k) s = .next s)
    ∧ (k ∉ s.mem.corr → 32 * k < 2 ^ 40 ∨ isExpander (32 * k) = true →
      ∃ t, exec (.demandScrubWriteback k) s = .next t ∧ t.calm s ∧ t.dies = s.dies ∧ t.mem = { s.mem with corr := s.mem.corr ++ [k] })
    ∧ (k ∈ s.mem.corr → ∃ t, exec (.demandScrubWriteback k) s = .next t ∧ t.calm s ∧ t.mem = { s.mem with corr := s.mem.corr.filter (· ≠ k) }
        ∧ (2 ^ 40 ≤ 32 * k → t.dies = s.dies)
        ∧ (32 * k < 2 ^ 40 → s.homeOf (32 * k) < s.dies.length → (t.die (s.homeOf (32 * k))).ctr.memce = satInc (s.die (s.homeOf (32 * k))).ctr.memce))

/-! ## Hosts -/

/-- HOST_CORE_ACCESS and PCIE_INBOUND_REQUEST (R1, R76, R132, R374, R436, Table 04.7): a host core reads the bytes of memory that its caches
or their homes hold, writes them in order through die 8, reads and writes the registers; its accesses through the fabric window to its
own package go to their homes, uncached, its stores as fabric traffic; a PCIe request outside every window is refused and counted. That
an access where Table 03.2 has no address stops is the model's choice (log 91), as are a core above 63 that does nothing (log 79) and when an
atomic waits (log 37). -/
def Obligations.HostAccesses : Prop :=
  ∀ (k pa n : Nat) (v c : W64) (s : State),
    let h := s.hostAt k
    let home := s.homeOf pa
    let put := fun (stream : Nat) (clock : Clock) (uid : Nat) (w : NWrite) => w.id = uid ∧ w.src = 8 ∧ w.home = s.homeOf (128 * (pa / 128)) ∧ w.team = none
      ∧ w.stamp = clock ∧ w.stream = some stream ∧ w.commit = false ∧ w.body.sides = []
      ∧ ∀ a x, w.body.byteAt a x = if pa ≤ a ∧ a < pa + n then byteOf v (a - pa) else x
    let served := fun (x : Nat) => s.poisoned x n = false ∧ (∀ w ∈ s.net.writes, w.stream ≠ some (hostStream k)) ∧ s.hostOwnOut x n = false
      ∧ ∀ a ∈ from_ x n, s.homeServes 8 (s.die 8).clock s.uid a 1 = true
    (64 ≤ k → ∀ op, exec (.hostCoreAccess k op) s = .next s)
    ∧ (k < 64 → s.hostAtPa pa n = .mem → s.ownWindow pa = false → served pa →
      ((∀ a ∈ from_ pa n, s.hostLine a = none) →
        ∃ t, exec (.hostCoreAccess k (.load pa n)) s = .next t ∧ t.calm s ∧ t.net = s.net ∧ (t.hostAt k).last = w64 (ofBytes (s.mem.bytes pa n))
          ∧ ∀ j, j ≠ k → t.hostAt j = s.hostAt j)
      ∧ (∀ f, n ≠ 0 → pa % n = 0 → s.memLocked (pa / 32) none = false → s.poundHolds home pa = false →
        (s.pound home (poundSlice pa)).any (fun y => y.sector = pa / 32) = false → (s.hostAt k).amo = none →
        let old := w64 (ofBytes (s.mem.bytes pa n))
        let new := fun (g : Option AtomOp) => toBytes n (atomLast old (atomRun g n old [(0, v, c)]))
        let landed := fun (g : Option AtomOp) (t : State) => t.teams = s.teams ∧ t.blocks = s.blocks ∧ (t.hostAt k).last = old
          ∧ ∀ a, t.mem.byte a = if pa ≤ a ∧ a < pa + n then nth (new g) (a - pa) 0 else s.mem.byte a
        (c = 0 → ∃ t, exec (.hostCoreAccess k (.amo f pa n v false false)) s = .next t ∧ landed (some f) t)
        ∧ ∃ t, exec (.hostCoreAccess k (.cas pa n v c false false)) s = .next t ∧ landed none t))
    ∧ (k < 64 → s.hostAtPa pa n = .mem → s.ownWindow pa = false → s.poisoned pa n = false → (∀ w ∈ s.net.writes, w.stream ≠ some (hostStream k)) →
      s.hostOwnOut pa n = false → ∀ lines : Nat → RdcLine, (∀ a ∈ from_ pa n, s.hostLine a = some (lines a)) →
      ∃ t, exec (.hostCoreAccess k (.load pa n)) s = .next t ∧ t.calm s ∧ t.net = s.net ∧ t.dies = s.dies ∧ t.io.hostCache = s.io.hostCache
        ∧ (t.hostAt k).last = w64 (ofBytes ((from_ pa n).map (fun a => byteOf (lines a).data (a % 128))))
        ∧ ∀ j, j ≠ k → t.hostAt j = s.hostAt j)
    ∧ (k < 64 → s.ownWindow pa = true → s.hostAtPa (s.hostPa pa) n = .mem → 0 < n →
      let at_ := s.hostPa pa
      let gone := fun (t : State) => ∀ l ∈ t.io.hostCache, ∀ a, at_ ≤ a → a < at_ + n → l.line ≠ a / 128
      (served at_ → ∃ t, exec (.hostCoreAccess k (.load pa n)) s = .next t ∧ t.calm s ∧ t.net = s.net ∧ gone t
        ∧ (t.hostAt k).last = w64 (ofBytes (s.mem.bytes at_ n)))
      ∧ ∃ t q, exec (.hostCoreAccess k (.store pa n v)) s = .next t ∧ t.calm s ∧ t.dies = s.dies ∧ gone t ∧ t.net = { s.net with out := s.net.out ++ [q] }
        ∧ q.pkg = pkgOf pa ∧ q.team = none ∧ q.die = 8 ∧ q.waited = 0 ∧ q.kind = .write { pieces := piecesOf pa (toBytes n v), sides := [] } false)
    ∧ (s.hostAtPa pa n = .mem → s.ownWindow pa = false → 0 < n → pa % 128 + n ≤ 128 → n ≤ 8 →
      (k < 64 → ∃ t w, exec (.hostCoreAccess k (.store pa n v)) s = .next t ∧ t.calm s ∧ t.dies = s.dies ∧ t.net = { s.net with writes := s.net.writes ++ [w] }
        ∧ put (hostStream k) (s.die 8).clock s.uid w)
      ∧ (s.io.pcis.any (fun w => w.holds pa n) = true →
        ∃ t w, exec (.pcieInboundRequest true (.store pa n v)) s = .next t ∧ t.calm s ∧ t.dies = s.dies
          ∧ t.net = { s.net with writes := s.net.writes ++ [w] } ∧ put pcieStream (s.die 8).clock s.uid w))
    ∧ (k < 64 → s.hostAtPa pa 8 = .control →
      (∃ t, exec (.hostCoreAccess k (.load pa 8)) s = .next t ∧ t.calm s ∧ t.dies = s.dies ∧ t.sched = s.sched ∧ (t.hostAt k).last = s.regRead pa)
      ∧ exec (.hostCoreAccess k (.store pa 8 v)) s = exec (.registerWrite pa v) s)
    ∧ (k < 64 → s.hostAtPa (s.hostPa pa) n = .missing → exec (.hostCoreAccess k (.load pa n)) s = .fault (.unmappedHostAccess (s.hostPa pa))
        ∧ exec (.hostCoreAccess k (.store pa n v)) s = .fault (.unmappedHostAccess (s.hostPa pa)))
    ∧ (k < 64 → 8 < s.dies.length → 8 < (s.die 8).clock.length →
      ∃ t, exec (.hostCoreAccess k .fenceRwW) s = .next t ∧ t.calm s ∧ t.io = s.io ∧ clk (t.die 8).clock 8 = clk (s.die 8).clock 8 + 1
        ∧ ∀ j, j ≠ 8 → clk (t.die 8).clock j = clk (s.die 8).clock j)
    ∧ (k < 64 → 8 < s.dies.length →
      ∃ t, exec (.hostCoreAccess k .fenceRRw) s = .next t ∧ t.calm s ∧ t.net = s.net ∧ (t.hostAt k).seen = .zero ∧ (t.die 8).clock = joinClk (s.die 8).clock h.seen
        ∧ ∀ l, l ∈ t.io.hostCache ↔ l ∈ s.io.hostCache ∧ leClk (t.die 8).clock l.stamp = true)
    ∧ (∀ op r, op = .load pa n ∨ op = .store pa n v → s.io.pcis.any (fun w => w.holds pa n) = false →
      ∃ t, exec (.pcieInboundRequest r op) s = .next t ∧ t.calm s ∧ t.net = s.net ∧ t.io.pcieOut = none :: s.io.pcieOut
        ∧ (8 < s.dies.length → (t.die 8).ctr.pcieur = satInc (s.die 8).ctr.pcieur))
    ∧ (s.hostAtPa pa n = .mem → s.ownWindow pa = false → s.io.pcis.any (fun w => w.holds pa n) = true → s.poisoned pa n = false → s.hostOwnOut pa n = false →
      (∀ w ∈ s.net.writes, w.stream ≠ some pcieStream) → (∀ a ∈ from_ pa n, s.homeServes 8 (s.die 8).clock s.uid a 1 = true) →
      ∃ t, exec (.pcieInboundRequest false (.load pa n)) s = .next t ∧ t.calm s ∧ t.net = s.net
        ∧ t.io.pcieOut = some (w64 (ofBytes (s.mem.bytes pa n))) :: s.io.pcieOut)

/-! ## Time -/

/-- BUDGET_PERIOD (R88, R385, R387, R391, R445) on a die where no transfer and no collective is in progress and no image waits for its
walks: its budgets are full again, its windows fade, its clock step takes effect, and the count of each of its blocked teams grows unless an
awaited peer is away. That a count rises by one with a period is the model's choice (log 50); so is that C0OVER and ARRCE grow by free
numbers then (log 59). -/
def Obligations.BudgetPeriods : Prop :=
  ∀ (d : Nat) (s : State), d < s.dies.length → (∀ f ∈ s.net.xfers, f.die ≠ d) → (∀ c ∈ s.net.colls, c.die ≠ d) →
    (∀ y ∈ s.cores, y.1 / 512 = d → ∀ i ∈ y.2.images, i.pend ≠ some 3 ∧ i.pend ≠ some 4 ∧ i.pend ≠ some 5) →
    ∃ t, exec (.budgetPeriod d) s = .next t ∧ t.blocks = s.blocks ∧ t.mem = s.mem ∧ t.cores = s.cores ∧ t.otherDies s d
      ∧ (t.die d).period = (s.die d).period + 1 ∧ (t.die d).budgets = [] ∧ (t.die d).clockMHz = (s.die d).nextMHz ∧ (t.die d).clock = (s.die d).clock
      ∧ (d < 8 → (t.die d).pins = (s.die d).pins.map PinWin.fadeStep) ∧ (d ≠ 8 → t.net = s.net ∧ t.io = s.io)
      ∧ (∀ p, ((s.partAt p).dieList.head? = some d ∧ (s.partAt p).idle = false ∧ (s.partAt p).switch = false ∧ (s.partAt p).stopped = false →
          (t.partAt p).sliceCount = (s.partAt p).sliceCount + 1))
      ∧ (d = 8 → t.io.unsaid = [] ∧ t.solnal.reading = false)
      ∧ (∃ c0 ce, (t.die d).ctr = (s.die d).ctr.pass c0 ce)
      ∧ ∀ u x, s.teamAt u = some x → ∃ n, t.teamAt u = some { x with waited := n }
          ∧ ((s.block x.block).die ≠ d ∨ s.onCore x.block = false ∨ x.halted = true ∨ x.blockedOn = none → n = x.waited)
          ∧ ((s.block x.block).die = d → s.onCore x.block = true → x.halted = false → x.blockedOn.isSome = true →
              (x.parked = true ∨ ∀ off r obj, (x.side off).waitsFor = some (r, obj) → s.peerAway u x r obj = false) → n = x.waited + 1)

/-! ## The machine as a whole -/

/-- The round trip (R135 to R140, R152, R154, R157, R160): the words that encode a well-formed instruction, of every form the tables admit,
decode to that instruction, with every operand at every value. -/
def Obligations.EncodeDecode : Prop := ∀ (i : Instr), i.wf = true → decodeWords (encode i) = .ok i

/-- The words of the spec's worked examples (05, 06, 07, 08, 09, 10) decode to the instructions they stand for. -/
def Obligations.WorkedWords : Prop :=
  let g : Guard := { p := 0, neg := false }
  let v := fun (i : BitVec 8) => Sel.reg i false
  let k := fun (i : BitVec 8) => Sel.reg i true
  decode 0x0103000000000000 [] = .ok (.nop g)
  ∧ decode 0x82088480820C0100 [] = .ok (.pair { op := .iadd, d := 4, a := k 9, p := 0, neg := false } { op := .iadd, d := 6, a := v 2, p := 0, neg := false } true)
  ∧ decode 0x3E80052120000050 [] = .ok (.rcp { p := 2, neg := true } .vec { idx := 5, ws := false } (k 9) true)
  ∧ decode 0x3000034008200020 [] = .ok (.fadd { p := 1, neg := false } .vec { idx := 3, ws := false } (.latch 0) (.sel (k 4)) 0)
  ∧ decode 0x1214008040200000 [] = .ok (.iaddc g .vec { idx := 0, ws := true } (v 2) (.sel (v 4)) (.imm 0) true)
  ∧ decode 0x12000B00602C0200 [] = .ok (.iaddc g .vec { idx := 11, ws := false } (v 3) (.sel (v 5)) (.sel (.latch 1)) false)
  ∧ decode 0x0303000080000620 [] = .ok (.brc { p := 1, neg := false } 3 4)
  ∧ decode 0x0203000000000400 [] = .ok (.bra g 2 .uniform)
  ∧ decode 0x3F90042120000000 [] = .ok (.cvt g .vec { idx := 4, ws := false } (k 9) (.elem .e4m3) .f32 .sat 0)
  ∧ decode 0x4204052080000000 [] = .ok (.bscale g { idx := 5, ws := false } (k 4) .e4m3)
  ∧ decode 0x4B08030020080E02 [] = .ok (.shflDown g .vec { idx := 3, ws := false } (v 1) (.imm 1) (v 7))
  ∧ decode 0x5927090040280000 [] = .ok (.atom g 9 (v 2) (v 5) .fadd false false { ann := .rlx, scope := none })
  ∧ decode 0x5AC30A0080404800 [] = .ok (.cas g 10 (v 4) (v 8) true true { ann := .ar, scope := some .dev })
  ∧ decode 0x51130000C8604600 [] = .ok (.st g (v 6) (k 12) .b32 false false { ann := .rel, scope := some .dev })
  ∧ decode 0x6807000140001000 [] = .ok (.tryL g 8 10)
  ∧ decode 0x7003000000000001 [0xFFFFFFFFFFFFFF14, 0x10000, 0x0000020000400004, 0x000400010000A021] =
      .ok (.cpy g { w0 := 0xFFFFFFFFFFFFFF14, w1 := 0x10000, w2 := 0x0000020000400004, w3 := 0x000400010000A021 })

/-- A step runs the decoded instruction (R135, R152, R160, R162, R393): when the move is to issue a side, and the word at its pc with the
words that follow it decode to i, the step is i's meaning, after which no path stays chosen; a team that is not in its pipe's active set
enters it first, or does not issue (R346), and one that is to be parked for registers issues nothing (R349); a named event is its meaning,
but for what the main side would do while it is off (log 79) and a register deadlock's while a team of the core is ready (R349); the words
are the bytes at the translated addresses. The order of moves (log 3), the fetch without a cache (log 39) and what being ready means (log
77) are the model's choices too. -/
def Obligations.StepRuns : Prop :=
  (∀ (u : Nat) (off : Bool) (r : List Move) (i : Instr) (w : W64) (ext : List W64) (y : Team) (x : Iss) (s s1 s2 : State),
    s.run.agenda = .issue u off :: r →
    let s0 : State := { s with run := { s.run with agenda := r } }
    let sa : State := if y.active then s0 else s0.modTeam u (fun t => { t with active := true })
    let sc : State := { sa with run := { sa.run with cur := some (u, off) } }
    s.teamAt u = some y → y.park.due = false → (y.active = true ∨ s0.mayEnter u y = true) → sa.canIssue u off = true → sc.issuing = some x →
    sc.fetchWord x.b.die x.b.core x.c x.p.pc.toNat = (.ok w, s1) →
    State.fetchWords x.b.die x.b.core x.c (extWords w) (x.p.pc.toNat + 8) s1 = (.ok ext, s2) → decode w ext = .ok i →
    let run := exec i { s2 with run := { s2.run with word := w } }
    (∀ t, run = .next t → y.active = true ∨ t.run.cur = none → step s = .next { t with run := { t.run with cur := none, word := 0 } })
    ∧ (∀ f, run = .fault f → step s = .fault f) ∧ (∀ f, run = .refused f → step s = .refused f))
  ∧ (∀ (u : Nat) (off : Bool) (r : List Move) (y : Team) (s : State), s.run.agenda = .issue u off :: r → s.teamAt u = some y →
    let s0 : State := { s with run := { s.run with agenda := r } }
    y.active = false → s0.mayEnter u y = false → step s = .next { s0 with run := { s0.run with cur := none, word := 0 } })
  ∧ (∀ (i : Instr) (r : List Move) (s : State), s.run.agenda = .event i :: r →
    let s0 : State := { s with run := { s.run with agenda := r } }
    (¬ (∃ d k, i = .regsDeadlockPark d k) → step s = if s.io.mainOn = true ∨ standbyMove i = true then exec i s0 else .next s0)
    ∧ ∀ d k, i = .regsDeadlockPark d k → step s = if s.io.mainOn = true ∧ s0.mayPark d k = true then exec i s0 else .next s0)
  ∧ ∀ (d c k va pa : Nat) (s t : State), va < 2 ^ 57 → s.translate d c k va .ex = .ok pa t → t.paOk pa = true → t.xFailed pa = false →
    (∀ pkg off, regionOf pa ≠ .fabric pkg off) → look (pa / 32) t.mem.poison = none →
    ∃ t' : State, s.fetchWord d c k va = (.ok (w64 (ofBytes ((from_ pa 8).map t.mem.byte))), t') ∧ t'.teams = t.teams ∧ t'.blocks = t.blocks ∧ t'.mem = t.mem

/-- Every step keeps the canonical form of memory: addresses strictly rising, none listed that reads as an unlisted one (the model's form
of R76 and R427's contents, logs 6 and 34), whatever the state, the instruction or the event. -/
def Obligations.MemoryStaysCanonical : Prop := ∀ (s t : State), s.memWf → step s = .next t → t.memWf

/-- Memory in its canonical form is determined by the bytes read from it; a word written reads back, little-endian, and every other
byte as before (R2, R76). -/
def Obligations.MemoryWords : Prop :=
  (∀ (m n : Mem), m.wf = true → n.wf = true → m.rehomed = n.rehomed → m.loose = n.loose → (∀ a, m.byte a = n.byte a) → m.cells = n.cells)
  ∧ (∀ (m : Mem) (a : Nat) (v : W64), (m.setBytes a (toBytes 8 v)).word a = v
      ∧ (∀ x, x < a ∨ a + 8 ≤ x → (m.setBytes a (toBytes 8 v)).byte x = m.byte x)
      ∧ (m.setBytes a (toBytes 8 v)).byte a = v.setWidth 8)
  ∧ ∀ (m : Mem) (a : Nat), m.wf = true → m.setBytes a (m.bytes a 8) = m

/-- The machine after package reset: the values the spec gives (R5, R8, R107, R384, R426, R432, R435, R443 to R445, Tables 03.4, 15.3 to
15.5, 16.4, 17.5, 17.12, 17.14), no team, block or launch, nothing on its way, and memory in its canonical form. -/
def Obligations.ResetState : Prop :=
  let s := State.reset
  s.memWf ∧ s.teams = [] ∧ s.blocks = [] ∧ s.launches = [] ∧ s.net = Net.reset ∧ s.dies.length = 9
    ∧ (∀ d, d < 9 → ∀ j, j < 9 → clk (s.die d).clock j = 0 ∧ clk (s.die d).applied j = 0)
    ∧ (∀ d, d < 9 → (s.die d).wdLimit = 0 ∧ (s.die d).scrubEn = true ∧ (s.die d).scrubLines = 4096 ∧ (s.die d).clockMHz = 2700
        ∧ (∀ p ∈ (s.die d).pins, p.en = false) ∧ (∀ f ∈ (s.die d).mig, f.en = false) ∧ (s.die d).jobs = [])
    ∧ s.io.lock = false ∧ s.io.lw = 3 ∧ s.io.fabto = 1024 ∧ s.io.xto = 64 ∧ s.io.cap = 3400 ∧ s.io.mhz = 2700 ∧ (∀ m ∈ s.io.meas, m = 0)
    ∧ (s.partAt 0).dies = 0xFF ∧ (∀ p, 0 < p → p < 8 → (s.partAt p).dies = 0) ∧ (∀ q, (s.queueAt q).en = false)
    ∧ (∀ c, (s.ctxAt c).valid = false) ∧ ∀ g, (s.gateAt g).phase = 0 ∧ (s.gateAt g).arr = 0 ∧ (s.gateAt g).pend = 0

/-! ## Rules as they stand -/

/-- The guard of an instruction, lane by lane (R141): bit l of p[G], inverted by GN; p0 reads all ones; G = 0 with GN = 1 decodes and issues
with no active lane. The rule of the scalar type, and the K bits of an instruction with no active lane, are said where the computations are
(ScalarComputations, VectorComputations). -/
def Obligations.Guards : Prop :=
  (∀ (x : Iss) (g : Guard) (l : Nat), l < 32 →
    (x.t.guardLanes g).getLsbD l = ((x.t.pred g.p.toNat).getLsbD l != g.neg))
  ∧ (∀ (t : Team) (l : Nat), l < 32 → (t.pred 0).getLsbD l = true)
  ∧ (∀ (x : Iss), x.t.guardLanes { p := 0, neg := false } = allLanes ∧ x.act { p := 0, neg := false } = x.p.mask)
  ∧ ∀ (s : State) (x : Iss), s.issuing = some x → x.act { p := 0, neg := true } = 0
      ∧ (∃ t, exec (.nop { p := 0, neg := true }) s = .next t) ∧ decode 0x0103000000000010 [] = .ok (.nop { p := 0, neg := true })

/-- R189, whole: the exact sum or difference, taken modulo 2^w, clamped to the signed range, or clamped to the unsigned one; ST where
clamping changed the value; M = 3 to 7 reserved; the pair forms are those of M = 0. -/
def Obligations.IntegerSums : Prop :=
  (∀ (g : Guard) (ty : Ty) (d : Dst) (a : Sel) (b : Opnd) (m : SatMode) (sub : Bool) (f : CalcForm) (w : Nat) (v : Nat → BitVec w),
    w = 32 ∨ w = 64 → calcForm (if sub then .isub g ty d a b m else .iadd g ty d a b m) = some f →
    let si := if sub then (v 0).toInt - (v 1).toInt else (v 0).toInt + (v 1).toInt
    let ui : Int := if sub then ((v 0).toNat : Int) - (v 1).toNat else (v 0).toNat + (v 1).toNat
    let r := f.fn w v
    (m = .wrap → r = (BitVec.ofInt w si, 0))
    ∧ (m = .sat → r.1.toInt = max (-(2 ^ (w - 1) : Int)) (min si (2 ^ (w - 1) - 1)) ∧ r.2 = if r.1.toInt = si then 0 else flST)
    ∧ (m = .usat → (r.1.toNat : Int) = max 0 (min ui (2 ^ w - 1)) ∧ r.2 = if (r.1.toNat : Int) = ui then 0 else flST))
  ∧ (∀ (w : W64) (ext : List W64), w.getLsbD 63 = false → (unpack w).op = 0x10 ∨ (unpack w).op = 0x11 → 3 ≤ (unpack w).m.toNat →
    ∃ e, decode w ext = .error e)
  ∧ ∀ (x : Iss) (h : Half) (l : Nat),
    (h.op = .iadd → x.halfLane h l = (x.laneVal (.v (.reg h.d false)) l + x.laneVal (.v h.a) l, 0)
      ∧ x.halfWord h = (x.wordVal (.s (.reg h.d false)) + x.wordVal (.s h.a), 0))
    ∧ (h.op = .isub → x.halfLane h l = (x.laneVal (.v (.reg h.d false)) l - x.laneVal (.v h.a) l, 0)
      ∧ x.halfWord h = (x.wordVal (.s (.reg h.d false)) - x.wordVal (.s h.a), 0))
end

