-- ==== Sys2Proof/Laws/Maps.lean ====
section
/-! SUPPORT. The finite maps of Maps.lean: what a key holds after an insertion, a removal or a change, the rising form, and the
numbered lists. -/

namespace Sys2Proof.Machine

variable {α : Type}

/-! ## Keyed values -/

@[simp] theorem look_place_same (k : Nat) (v : α) (l : List (Nat × α)) : look k (place k v l) = some v := by
  induction l with
  | nil => simp [place, look]
  | cons c r ih =>
    obtain ⟨i, w⟩ := c
    unfold place
    by_cases h : k < i
    · simp [h, look]
    · by_cases e : k = i
      · simp [e, look]
      · simp [h, e, look, ih, Ne.symm e]

theorem look_place_other {j k : Nat} (h : j ≠ k) (v : α) (l : List (Nat × α)) : look j (place k v l) = look j l := by
  induction l with
  | nil => simp [place, look, Ne.symm h]
  | cons c r ih =>
    obtain ⟨i, w⟩ := c
    unfold place
    by_cases a : k < i
    · simp [a, look, Ne.symm h]
    · by_cases e : k = i
      · subst e; simp [look, Ne.symm h]
      · simp [a, e, look, ih]

theorem look_place (j k : Nat) (v : α) (l : List (Nat × α)) :
    look j (place k v l) = if j = k then some v else look j l := by
  by_cases h : j = k
  · simp [h]
  · simp [h, look_place_other h]

@[simp] theorem look_drop_same (k : Nat) (l : List (Nat × α)) : look k (drop k l) = none := by
  induction l with
  | nil => simp [drop, look]
  | cons c r ih =>
    obtain ⟨i, w⟩ := c
    by_cases e : i = k
    · simp [drop, e, ih]
    · simp [drop, e, look, ih]

theorem look_drop_other {j k : Nat} (h : j ≠ k) (l : List (Nat × α)) : look j (drop k l) = look j l := by
  induction l with
  | nil => simp [drop]
  | cons c r ih =>
    obtain ⟨i, w⟩ := c
    by_cases e : i = k
    · subst e; simp [drop, look, ih, Ne.symm h]
    · simp [drop, e, look, ih]

theorem look_drop (j k : Nat) (l : List (Nat × α)) : look j (drop k l) = if j = k then none else look j l := by
  by_cases h : j = k
  · simp [h]
  · simp [h, look_drop_other h]

theorem look_change (j k : Nat) (f : α → α) (l : List (Nat × α)) :
    look j (change k f l) = if j = k then (look k l).map f else look j l := by
  induction l with
  | nil => simp [change, look]
  | cons c r ih =>
    obtain ⟨i, w⟩ := c
    by_cases e : i = k
    · subst e
      by_cases h : j = i
      · simp [change, look, h]
      · simp [change, look, h, Ne.symm h]
    · by_cases h : j = k
      · subst h; simp [change, look, e, ih]
      · simp [change, look, e, ih, h]

@[simp] theorem look_change_same (k : Nat) (f : α → α) (l : List (Nat × α)) : look k (change k f l) = (look k l).map f := by
  simp [look_change]
theorem look_change_other {j k : Nat} (h : j ≠ k) (f : α → α) (l : List (Nat × α)) : look j (change k f l) = look j l := by
  simp [look_change, h]

theorem change_place (k : Nat) (v : α) (f : α → α) (l : List (Nat × α)) : change k f (place k v l) = place k (f v) l := by
  induction l with
  | nil => simp [place, change]
  | cons c r ih =>
    obtain ⟨i, w⟩ := c
    unfold place
    split
    · simp [change]
    · split
      · simp [change]
      · rename_i a b; simp [change, Ne.symm b, ih]

/-! ## The rising form -/

/-- Every key of a list is above k. -/
def above (k : Nat) (l : List (Nat × α)) : Bool := l.all (fun c => decide (k < c.1))

theorem rising_cons (c : Nat × α) (l : List (Nat × α)) : rising (c :: l) = true ↔ above c.1 l = true ∧ rising l = true := by
  induction l generalizing c with
  | nil => simp [rising, above]
  | cons d r ih =>
    obtain ⟨i, v⟩ := c
    obtain ⟨j, w⟩ := d
    simp only [rising, Bool.and_eq_true, decide_eq_true_eq, ih, above, List.all_cons]
    constructor
    · rintro ⟨h, h1, h2⟩
      refine ⟨⟨h, ?_⟩, h1, h2⟩
      simp only [List.all_eq_true, decide_eq_true_eq] at *
      exact fun x hx => Nat.lt_trans h (h1 x hx)
    · rintro ⟨⟨h, -⟩, h1, h2⟩
      exact ⟨h, h1, h2⟩

theorem above_place {i k : Nat} (v : α) {l : List (Nat × α)} (h : i < k) (hl : above i l = true) : above i (place k v l) = true := by
  induction l with
  | nil => simp [place, above, h]
  | cons c r ih =>
    obtain ⟨j, w⟩ := c
    simp only [above, List.all_cons, Bool.and_eq_true, decide_eq_true_eq] at hl ih
    unfold place
    split
    · simp [above, h, hl.1]; simpa [above] using hl.2
    · split
      · simp [above, h]; simpa [above] using hl.2
      · simp only [above, List.all_cons, Bool.and_eq_true, decide_eq_true_eq]; exact ⟨hl.1, ih hl.2⟩

theorem above_drop {i k : Nat} {l : List (Nat × α)} (hl : above i l = true) : above i (drop k l) = true := by
  induction l with
  | nil => simp [drop, above]
  | cons c r ih =>
    obtain ⟨j, w⟩ := c
    simp only [above, List.all_cons, Bool.and_eq_true, decide_eq_true_eq] at hl ih
    unfold drop
    split
    · exact ih hl.2
    · simp only [above, List.all_cons, Bool.and_eq_true, decide_eq_true_eq]; exact ⟨hl.1, ih hl.2⟩

theorem rising_place (k : Nat) (v : α) {l : List (Nat × α)} (h : rising l = true) : rising (place k v l) = true := by
  induction l with
  | nil => simp [place, rising]
  | cons c r ih =>
    obtain ⟨i, w⟩ := c
    obtain ⟨h1, h2⟩ := (rising_cons _ _).1 h
    unfold place
    split
    · rename_i hk
      refine (rising_cons _ _).2 ⟨?_, h⟩
      simp only [above, List.all_cons, Bool.and_eq_true, decide_eq_true_eq, List.all_eq_true] at *
      exact ⟨hk, fun x hx => Nat.lt_trans hk (h1 x hx)⟩
    · split
      · rename_i _ e; subst e; exact (rising_cons _ _).2 ⟨h1, h2⟩
      · rename_i a b
        exact (rising_cons _ _).2 ⟨above_place v (by simp; omega) h1, ih h2⟩

theorem rising_drop (k : Nat) {l : List (Nat × α)} (h : rising l = true) : rising (drop k l) = true := by
  induction l with
  | nil => simp [drop, rising]
  | cons c r ih =>
    obtain ⟨i, w⟩ := c
    obtain ⟨h1, h2⟩ := (rising_cons _ _).1 h
    unfold drop
    split
    · exact ih h2
    · exact (rising_cons _ _).2 ⟨above_drop h1, ih h2⟩

/-- What holds of every entry holds after an insertion of an entry it holds of. -/
theorem all_place (p : Nat × α → Bool) (k : Nat) (v : α) {l : List (Nat × α)} (hk : p (k, v) = true) (h : l.all p = true) :
    (place k v l).all p = true := by
  induction l with
  | nil => simp [place, hk]
  | cons c r ih =>
    obtain ⟨i, w⟩ := c
    simp only [List.all_cons, Bool.and_eq_true] at h
    unfold place
    split
    · simp [hk, h.1]; simpa using h.2
    · split
      · simp [hk]; simpa using h.2
      · simp only [List.all_cons, Bool.and_eq_true]; exact ⟨h.1, ih h.2⟩

theorem all_drop (p : Nat × α → Bool) (k : Nat) {l : List (Nat × α)} (h : l.all p = true) : (drop k l).all p = true := by
  induction l with
  | nil => simp [drop]
  | cons c r ih =>
    obtain ⟨i, w⟩ := c
    simp only [List.all_cons, Bool.and_eq_true] at h
    unfold drop
    split
    · exact ih h.2
    · simp only [List.all_cons, Bool.and_eq_true]; exact ⟨h.1, ih h.2⟩

/-- A filtered rising list is rising. -/
theorem rising_filter (p : Nat × α → Bool) {l : List (Nat × α)} (h : rising l = true) : rising (l.filter p) = true := by
  induction l with
  | nil => simp [rising]
  | cons c r ih =>
    obtain ⟨h1, h2⟩ := (rising_cons _ _).1 h
    by_cases e : p c = true
    · rw [List.filter_cons_of_pos e]
      refine (rising_cons _ _).2 ⟨?_, ih h2⟩
      simp only [above, List.all_eq_true] at *
      exact fun x hx => h1 x (List.mem_filter.1 hx).1
    · rw [List.filter_cons_of_neg e]; exact ih h2

/-! ## Numbered lists -/

@[simp] theorem nth_nil (n : Nat) (d : α) : nth [] n d = d := by cases n <;> rfl
@[simp] theorem nth_zero (x : α) (r : List α) (d : α) : nth (x :: r) 0 d = x := rfl
@[simp] theorem nth_succ (x : α) (r : List α) (n : Nat) (d : α) : nth (x :: r) (n + 1) d = nth r n d := rfl

theorem nth_putAt (m n : Nat) (v d : α) (l : List α) : nth (putAt n v d l) m d = if m = n then v else nth l m d := by
  induction n generalizing m l with
  | zero => cases l <;> cases m <;> simp [putAt]
  | succ n ih => cases l <;> cases m <;> simp [putAt, ih]
@[simp] theorem nth_putAt_same (n : Nat) (v d : α) (l : List α) : nth (putAt n v d l) n d = v := by simp [nth_putAt]

theorem nth_modAt (m n : Nat) (f : α → α) (l : List α) (d : α) :
    nth (modAt n f l) m d = if m = n ∧ n < l.length then f (nth l n d) else nth l m d := by
  induction l generalizing m n with
  | nil => simp [modAt]
  | cons x r ih => cases n <;> cases m <;> simp [modAt, ih]
@[simp] theorem length_modAt (n : Nat) (f : α → α) (l : List α) : (modAt n f l).length = l.length := by
  induction l generalizing n with
  | nil => simp [modAt]
  | cons x r ih => cases n <;> simp [modAt, ih]

@[simp] theorem length_from (lo n : Nat) : (from_ lo n).length = n := by
  induction n generalizing lo with
  | zero => rfl
  | succ n ih => simp [from_, ih]
theorem mem_from (lo n k : Nat) : k ∈ from_ lo n ↔ lo ≤ k ∧ k < lo + n := by
  induction n generalizing lo with
  | zero => simp [from_] <;> omega
  | succ n ih => simp [from_, ih]; omega
@[simp] theorem mem_upTo (n k : Nat) : k ∈ upTo n ↔ k < n := by simp [upTo, mem_from]

end Sys2Proof.Machine
end

