-- ==== Sys2Proof/Laws/Issue.lean ====
section
/-! SUPPORT. What the shared course of an instruction does once its operands stand ready: entry, values read, results written,
and what stays. -/

namespace Sys2Proof.Machine

/-! ## Checks of lists -/

theorem forM_ok {α : Type} (f : α → Except Halt Unit) : ∀ l : List α, (∀ a ∈ l, f a = .ok ()) → l.forM f = .ok ()
  | [], _ => rfl
  | a :: r, h => by
    have h1 : f a = .ok () := h a (by simp)
    have h2 := forM_ok f r (fun b hb => h b (by simp [hb]))
    show (f a >>= fun _ => r.forM f) = .ok ()
    rw [h1]; exact h2

theorem waitsFor_false {x : Iss} {s : State} {us : List SrcUse} {sw : Bool} (h : us.all (x.readable s sw) = true) :
    x.waitsFor s us = false := by
  simp only [Iss.waitsFor, List.any_eq_false, List.all_eq_true] at *
  intro a ha
  have := h a ha
  unfold Iss.readable at this
  unfold SrcUse.regs
  cases e : a.sel with
  | reg i l =>
    simp only [e, List.all_eq_true, Bool.and_eq_true, Option.isNone_iff_eq_none] at this
    simp only [List.any_eq_true, not_exists, not_and]
    intro j hj
    simp [(this j hj).2]
  | latch n => simp

theorem checkSrc_ok {x : Iss} {s : State} {sw : Bool} {a : SrcUse} (h : x.readable s sw a = true) : x.checkSrc sw a = .ok () := by
  unfold Iss.readable at h
  unfold Iss.checkSrc
  cases e : a.sel with
  | reg i l =>
    simp only [e, List.all_eq_true, Bool.and_eq_true] at h
    have : (from_ i.toNat a.n).all (x.t.mapped a.k) = true := by
      simp only [List.all_eq_true]; exact fun j hj => (h j hj).1
    simp [need, this]
  | latch n =>
    simp only [e, Bool.and_eq_true, Bool.not_eq_true'] at h
    obtain ⟨h1, h2⟩ := h
    subst h1
    revert h2
    cases hk : a.k <;> cases hl : nth (x.t.side x.off).latches n.toNat none with
    | none => simp
    | some y => cases y <;> simp [need, hl]

theorem landed_ok {x : Iss} {s : State} {us : List SrcUse} (h : x.waitsFor s us = false) : us.forM (x.landed s) = .ok () := by
  refine forM_ok _ _ (fun a ha => forM_ok _ _ (fun i hi => ?_))
  have := List.any_eq_false.1 h a ha
  simp only [List.any_eq_true, not_exists, not_and] at this
  have := this i hi
  cases e : s.pending x.u x.t a.k i with
  | none => rfl
  | some o => simp [e] at this

theorem pool_ok {x : Iss} {s : State} {us : List SrcUse} {ds : List DstUse} {k : Kind} (h : x.roomFor s us ds k = true) :
    x.checkPool s us ds k = .ok () := by
  unfold Iss.roomFor at h
  unfold Iss.checkPool
  by_cases r : x.raises us ds k = true
  · simp only [r, Bool.not_true, Bool.false_or] at h
    simp [r, h]
  · simp [r]

theorem operandFirst_ok {α : Type} {x : Iss} {s : State} {us : List SrcUse} {c : Except Halt α} {v : α} (h : c = .ok v) :
    x.operandFirst s us c = .ok () := by
  subst h
  simp [Iss.operandFirst]

/-- Entry, once the operands stand ready and their values pass the instruction's own tests. -/
theorem enterC_ready {α : Type} {x : Iss} {s : State} {act : Lanes} {us : List SrcUse} {ds : List DstUse} {static : Bool} {c : Except Halt α}
    {v : α} (hc : c = .ok v) (h : x.ready s act us ds static = true) :
    x.enterC s act us ds static c = .ok (x.entered act us ds static) := by
  have e0 : x.operandFirst s us c = .ok () := operandFirst_ok hc
  unfold Iss.ready at h
  simp only [Bool.and_eq_true, Bool.or_eq_true, decide_eq_true_eq] at h
  obtain ⟨hs, hd⟩ := h
  have hp := waitsFor_false hs
  have e1 : us.forM (x.checkSrc (x.switches act us ds static)) = .ok () :=
    forM_ok _ _ (fun a ha => checkSrc_ok (List.all_eq_true.1 hs a ha))
  have e2 := landed_ok hp
  unfold Iss.enterC Iss.entered
  by_cases ha : act = 0
  · subst ha
    simp only [hp, Bool.or_false, e1, e0, ne_eq, not_true_eq_false, ↓reduceIte, e2, bind, Except.bind, pure]
  · obtain hd | ⟨⟨hd, hv⟩, hk⟩ := hd
    · exact absurd hd ha
    have e3 : ds.forM (x.leaseFree s us) = .ok () := by
      refine forM_ok _ _ (fun d hm => forM_ok _ _ (fun i hi => ?_))
      have := List.all_eq_true.1 (List.all_eq_true.1 hd d hm) i hi
      simp only [Option.isNone_iff_eq_none] at this
      rw [this]
    have e4 : ds.forM (fun d => d.regs.forM (x.checkDst s d.k)) = .ok () := by
      refine forM_ok _ _ (fun d hm => forM_ok _ _ (fun i hi => ?_))
      have := List.all_eq_true.1 (List.all_eq_true.1 hd d hm) i hi
      simp only [Option.isNone_iff_eq_none] at this
      simp [Iss.checkDst, this]
    simp only [hp, Bool.or_false, e1, e0, ne_eq, ha, not_false_eq_true, ↓reduceIte, e2, e3, e4, pool_ok hv, pool_ok hk, bind,
      Except.bind]

/-- Entry, once the operands stand ready. -/
theorem enter_ready {x : Iss} {s : State} {act : Lanes} {us : List SrcUse} {ds : List DstUse} {static : Bool}
    (h : x.ready s act us ds static = true) : x.enter s act us ds static = .ok (x.entered act us ds static) :=
  enterC_ready rfl h

end Sys2Proof.Machine
end

