-- ==== Sys2Proof/Laws/Team.lean ====
section
/-! SUPPORT. What the operations on a team do to each of its parts, as a program reads them: registers, predicates, latches,
flags, the two paths, and all the rest. -/

namespace Sys2Proof.Machine

/-! ## Sides -/

@[simp] theorem Team.setSide_side (t : Team) (off : Bool) (x : Side) : (t.setSide off x).side off = x := by
  cases off <;> rfl
@[simp] theorem Team.setSide_other (t : Team) (off : Bool) (x : Side) : (t.setSide off x).side (!off) = t.side (!off) := by
  cases off <;> rfl
@[simp] theorem Team.setSide_vregs (t : Team) (off : Bool) (x : Side) : (t.setSide off x).vregs = t.vregs := by cases off <;> rfl
@[simp] theorem Team.setSide_sregs (t : Team) (off : Bool) (x : Side) : (t.setSide off x).sregs = t.sregs := by cases off <;> rfl
@[simp] theorem Team.setSide_preds (t : Team) (off : Bool) (x : Side) : (t.setSide off x).preds = t.preds := by cases off <;> rfl
@[simp] theorem Team.setSide_flags (t : Team) (off : Bool) (x : Side) : (t.setSide off x).flags = t.flags := by cases off <;> rfl
@[simp] theorem Team.setSide_shadow (t : Team) (off : Bool) (x : Side) : (t.setSide off x).shadow = t.shadow := by cases off <;> rfl
@[simp] theorem Team.setSide_handler (t : Team) (off : Bool) (x : Side) : (t.setSide off x).handler = t.handler := by
  cases off <;> rfl
@[simp] theorem Team.setSide_rest (t : Team) (off : Bool) (x : Side) : (t.setSide off x).rest = t.rest := by cases off <;> rfl
@[simp] theorem Team.setSide_vval (t : Team) (off : Bool) (x : Side) (i : Nat) : (t.setSide off x).vval i = t.vval i := by
  simp [Team.vval, Team.vget]
theorem Team.sget_congr {a b : Team} (h1 : a.sregs = b.sregs) (h2 : a.shadow = b.shadow) (h3 : a.handler = b.handler) (i : Nat) :
    a.sget i = b.sget i := by simp [Team.sget, Team.shadowed, h1, h2, h3]
@[simp] theorem Team.setSide_sget (t : Team) (off : Bool) (x : Side) (i : Nat) : (t.setSide off x).sget i = t.sget i :=
  Team.sget_congr (by simp) (by simp) (by simp) i
@[simp] theorem Team.setSide_sval (t : Team) (off : Bool) (x : Side) (i : Nat) : (t.setSide off x).sval i = t.sval i := by
  simp [Team.sval]
@[simp] theorem Team.setSide_pred (t : Team) (off : Bool) (x : Side) (p : Nat) : (t.setSide off x).pred p = t.pred p := by
  simp [Team.pred]
@[simp] theorem Team.setSide_shadowed (t : Team) (off : Bool) (x : Side) (i : Nat) :
    (t.setSide off x).shadowed i = t.shadowed i := by simp [Team.shadowed]

/-! ## Reading: marks and K bits -/

/-- A mark stands in the register files only. -/
theorem Team.unfresh_eq (t : Team) (k : Kind) (i : Nat) :
    ∃ vs ss sh, t.unfresh k i = { t with vregs := vs, sregs := ss, shadow := sh } := by
  unfold Team.unfresh
  cases k <;> simp only
  · split <;> exact ⟨_, _, _, rfl⟩
  · split
    · exact ⟨_, _, _, rfl⟩
    · split <;> exact ⟨_, _, _, rfl⟩
@[simp] theorem Team.unfresh_vval (t : Team) (k : Kind) (i j : Nat) : (t.unfresh k i).vval j = t.vval j := by
  unfold Team.unfresh Team.vval Team.vget
  cases k <;> simp only <;> split <;> try rfl
  · simp only [look_change]
    split
    · rename_i h; subst h; cases look j t.vregs <;> rfl
    · rfl
  · split <;> rfl
@[simp] theorem Team.unfresh_sval (t : Team) (k : Kind) (i j : Nat) : (t.unfresh k i).sval j = t.sval j := by
  unfold Team.unfresh Team.sval Team.sget
  cases k <;> simp only <;> split <;> try rfl
  split
  · have e : ∀ l, Team.shadowed { t with shadow := l } j = t.shadowed j := fun _ => rfl
    rw [e]
    split
    · simp only [nth_modAt, Option.map_some]
      split
      · rename_i c; rw [c.1]
      · rfl
    · rfl
  · have e : ∀ l, Team.shadowed { t with sregs := l } j = t.shadowed j := fun _ => rfl
    rw [e]
    simp only [look_change]
    split
    · rfl
    · split
      · rename_i h; subst h; cases look j t.sregs <;> rfl
      · rfl
@[simp] theorem Team.unfresh_handler (t : Team) (k : Kind) (i : Nat) : (t.unfresh k i).handler = t.handler := by
  obtain ⟨_, _, _, h⟩ := t.unfresh_eq k i; rw [h]
@[simp] theorem Team.unfresh_preds (t : Team) (k : Kind) (i : Nat) : (t.unfresh k i).preds = t.preds := by
  obtain ⟨_, _, _, h⟩ := t.unfresh_eq k i; rw [h]
@[simp] theorem Team.unfresh_flags (t : Team) (k : Kind) (i : Nat) : (t.unfresh k i).flags = t.flags := by
  obtain ⟨_, _, _, h⟩ := t.unfresh_eq k i; rw [h]
@[simp] theorem Team.unfresh_rest (t : Team) (k : Kind) (i : Nat) : (t.unfresh k i).rest = t.rest := by
  obtain ⟨_, _, _, h⟩ := t.unfresh_eq k i; rw [h]; rfl
@[simp] theorem Team.unfresh_side (t : Team) (k : Kind) (i : Nat) (off : Bool) : (t.unfresh k i).side off = t.side off := by
  obtain ⟨_, _, _, h⟩ := t.unfresh_eq k i; rw [h]; cases off <;> rfl

@[simp] theorem Team.free_handler (t : Team) (k : Kind) (i : Nat) : (t.free k i).handler = t.handler := by
  unfold Team.free; cases k <;> simp only; split <;> rfl
@[simp] theorem Team.free_preds (t : Team) (k : Kind) (i : Nat) : (t.free k i).preds = t.preds := by
  unfold Team.free; cases k <;> simp only; split <;> rfl
@[simp] theorem Team.free_flags (t : Team) (k : Kind) (i : Nat) : (t.free k i).flags = t.flags := by
  unfold Team.free; cases k <;> simp only; split <;> rfl
@[simp] theorem Team.free_rest (t : Team) (k : Kind) (i : Nat) : (t.free k i).rest = t.rest := by
  unfold Team.free; cases k <;> simp only; · rfl
  split <;> rfl
@[simp] theorem Team.free_side (t : Team) (k : Kind) (i : Nat) (off : Bool) : (t.free k i).side off = t.side off := by
  unfold Team.free; cases k <;> simp only; · rfl
  split <;> rfl
theorem Team.free_vval (t : Team) (k : Kind) (i j : Nat) :
    (t.free k i).vval j = if k = .v ∧ j = i then none else t.vval j := by
  unfold Team.free Team.vval Team.vget
  cases k
  · simp only [look_drop, true_and]; split <;> simp_all
  · simp only; split <;> simp
theorem Team.free_sval (t : Team) (k : Kind) (i j : Nat) :
    (t.free k i).sval j = if k = .s ∧ j = i ∧ t.shadowed i = false then none else t.sval j := by
  unfold Team.free Team.sval Team.sget
  cases k
  · simp [Team.shadowed]
  · simp only
    by_cases h : t.shadowed i = true
    · simp [h]
    · simp only [h, Bool.false_eq_true, ↓reduceIte, look_drop, true_and, and_true]
      by_cases e : j = i
      · subst e
        have : Team.shadowed { t with sregs := drop j t.sregs } j = t.shadowed j := rfl
        simp [this, h]
      · have : Team.shadowed { t with sregs := drop i t.sregs } j = t.shadowed j := rfl
        simp [this, e]

/-- Marks off and names freed, over the registers of one source. -/
theorem foldl_same {α β γ : Type} (P : β → γ) (f : β → α → β) (h : ∀ b a, P (f b a) = P b) (l : List α) (b : β) :
    P (l.foldl f b) = P b := by
  induction l generalizing b with
  | nil => rfl
  | cons a r ih => simp [List.foldl_cons, ih, h]

/-- The marks of a list of sources. -/
def Team.unmark (t : Team) (us : List SrcUse) : Team := us.foldl (fun t a => a.regs.foldl (fun t i => t.unfresh a.k i) t) t
/-- The K bits of a list of sources. -/
def Team.freeK (t : Team) (us : List SrcUse) : Team :=
  us.foldl (fun t a => if a.isLast then a.regs.foldl (fun t i => t.free a.k i) t else t) t
theorem Team.useSrcs_eq (t : Team) (us : List SrcUse) : t.useSrcs us = (t.unmark us).freeK us := rfl

theorem Team.unmark_same {γ : Type} (P : Team → γ) (h : ∀ t k i, P (Team.unfresh t k i) = P t) (t : Team) (us : List SrcUse) :
    P (t.unmark us) = P t := by
  unfold Team.unmark
  exact foldl_same P _ (fun b a => foldl_same P _ (fun c i => h c a.k i) a.regs b) us t
theorem Team.freeK_same {γ : Type} (P : Team → γ) (h : ∀ t k i, P (Team.free t k i) = P t) (t : Team) (us : List SrcUse) :
    P (t.freeK us) = P t := by
  unfold Team.freeK
  refine foldl_same P _ (fun b a => ?_) us t
  split
  · exact foldl_same P _ (fun c i => h c a.k i) a.regs b
  · rfl
theorem Team.useSrcs_same {γ : Type} (P : Team → γ) (h1 : ∀ t k i, P (Team.unfresh t k i) = P t)
    (h2 : ∀ t k i, P (Team.free t k i) = P t) (t : Team) (us : List SrcUse) : P (t.useSrcs us) = P t := by
  rw [Team.useSrcs_eq, Team.freeK_same P h2, Team.unmark_same P h1]

@[simp] theorem Team.useSrcs_handler (t : Team) (us : List SrcUse) : (t.useSrcs us).handler = t.handler :=
  Team.useSrcs_same (·.handler) (by simp) (by simp) t us
@[simp] theorem Team.useSrcs_preds (t : Team) (us : List SrcUse) : (t.useSrcs us).preds = t.preds :=
  Team.useSrcs_same (·.preds) (by simp) (by simp) t us
@[simp] theorem Team.useSrcs_flags (t : Team) (us : List SrcUse) : (t.useSrcs us).flags = t.flags :=
  Team.useSrcs_same (·.flags) (by simp) (by simp) t us
@[simp] theorem Team.useSrcs_rest (t : Team) (us : List SrcUse) : (t.useSrcs us).rest = t.rest :=
  Team.useSrcs_same Team.rest (by simp) (by simp) t us
@[simp] theorem Team.useSrcs_side (t : Team) (us : List SrcUse) (off : Bool) : (t.useSrcs us).side off = t.side off :=
  Team.useSrcs_same (fun t => t.side off) (by simp) (by simp) t us
@[simp] theorem Team.useSrcs_pred (t : Team) (us : List SrcUse) (p : Nat) : (t.useSrcs us).pred p = t.pred p := by
  simp [Team.pred]
@[simp] theorem Team.useSrcs_shadowed (t : Team) (us : List SrcUse) (i : Nat) : (t.useSrcs us).shadowed i = t.shadowed i := by
  simp [Team.shadowed]

@[simp] theorem Team.useSrcs_keepsS (t : Team) (us : List SrcUse) (i : Nat) (v : W64) : (t.useSrcs us).keepsS i v = t.keepsS i v := by
  simp [Team.keepsS]

theorem Team.freeRegs_vval (t : Team) (k : Kind) (l : List Nat) (j : Nat) :
    (l.foldl (fun t i => t.free k i) t).vval j = if k = .v ∧ j ∈ l then none else t.vval j := by
  induction l generalizing t with
  | nil => simp
  | cons i r ih =>
    rw [List.foldl_cons, ih, Team.free_vval]
    by_cases a : k = .v <;> by_cases b : j ∈ r <;> by_cases c : j = i <;> simp [a, b, c]
theorem Team.freeRegs_sval (t : Team) (k : Kind) (l : List Nat) (j : Nat) :
    (l.foldl (fun t i => t.free k i) t).sval j = if k = .s ∧ j ∈ l ∧ t.shadowed j = false then none else t.sval j := by
  induction l generalizing t with
  | nil => simp
  | cons i r ih =>
    rw [List.foldl_cons, ih, Team.free_sval]
    have e : (t.free k i).shadowed j = t.shadowed j := by simp [Team.shadowed]
    rw [e]
    by_cases a : k = .s <;> by_cases b : j ∈ r <;> by_cases c : j = i <;> by_cases d : t.shadowed j <;>
      simp_all

theorem Team.lastRead_cons (t : Team) (a : SrcUse) (us : List SrcUse) (k : Kind) (i : Nat) :
    t.lastRead (a :: us) k i = (t.lastRead [a] k i || t.lastRead us k i) := by
  simp only [Team.lastRead, List.any_cons, List.any_nil, Bool.or_false]
  cases (decide (a.k = k) && a.isLast && a.regs.contains i) <;>
    cases (us.any fun a => decide (a.k = k) && a.isLast && a.regs.contains i) <;>
    cases (!(decide (k = Kind.s) && t.shadowed i)) <;> rfl

theorem Team.freeK_vval (t : Team) (us : List SrcUse) (j : Nat) :
    (t.freeK us).vval j = if t.lastRead us .v j then none else t.vval j := by
  induction us generalizing t with
  | nil => simp [Team.freeK, Team.lastRead]
  | cons a r ih =>
    have e : (t.freeK (a :: r)) = (if a.isLast then a.regs.foldl (fun t i => t.free a.k i) t else t).freeK r := rfl
    rw [e, ih, Team.lastRead_cons]
    have l : ∀ (b : Team), b.lastRead r .v j = t.lastRead r .v j := by intro b; simp [Team.lastRead]
    rw [l]
    by_cases h : a.isLast = true
    · simp only [h, ↓reduceIte, Team.freeRegs_vval, Team.lastRead, List.any_cons, List.any_nil, Bool.or_false, Bool.and_true]
      by_cases c : a.k = .v <;> by_cases d : j ∈ a.regs <;> simp [c, d]
    · simp [h, Team.lastRead]
theorem Team.freeK_sval (t : Team) (us : List SrcUse) (j : Nat) :
    (t.freeK us).sval j = if t.lastRead us .s j then none else t.sval j := by
  induction us generalizing t with
  | nil => simp [Team.freeK, Team.lastRead]
  | cons a r ih =>
    have e : (t.freeK (a :: r)) = (if a.isLast then a.regs.foldl (fun t i => t.free a.k i) t else t).freeK r := rfl
    rw [e, ih, Team.lastRead_cons]
    have hh : (if a.isLast then a.regs.foldl (fun t i => t.free a.k i) t else t).handler = t.handler := by
      split
      · exact foldl_same (·.handler) _ (fun b i => Team.free_handler b a.k i) a.regs t
      · rfl
    have l : (if a.isLast then a.regs.foldl (fun t i => t.free a.k i) t else t).lastRead r .s j = t.lastRead r .s j := by
      simp [Team.lastRead, Team.shadowed, hh]
    rw [l]
    by_cases h : a.isLast = true
    · simp only [h, ↓reduceIte, Team.freeRegs_sval, Team.lastRead, List.any_cons, List.any_nil, Bool.or_false, Bool.and_true]
      by_cases c : a.k = .s <;> by_cases d : j ∈ a.regs <;> by_cases e : t.shadowed j <;> simp [c, d, e]
    · simp [h, Team.lastRead]

/-- Vector registers after the sources are read: those that K bits name are unmapped, the others are as before. -/
theorem Team.useSrcs_vval (t : Team) (us : List SrcUse) (j : Nat) :
    (t.useSrcs us).vval j = if t.lastRead us .v j then none else t.vval j := by
  rw [Team.useSrcs_eq, Team.freeK_vval, Team.unmark_same (fun t => t.vval j) (by simp)]
  have : (t.unmark us).lastRead us .v j = t.lastRead us .v j := by simp [Team.lastRead]
  rw [this]
/-- Scalar registers after the sources are read. -/
theorem Team.useSrcs_sval (t : Team) (us : List SrcUse) (j : Nat) :
    (t.useSrcs us).sval j = if t.lastRead us .s j then none else t.sval j := by
  rw [Team.useSrcs_eq, Team.freeK_sval, Team.unmark_same (fun t => t.sval j) (by simp)]
  have : (t.unmark us).lastRead us .s j = t.lastRead us .s j := by
    simp [Team.lastRead, Team.shadowed, Team.unmark_same (·.handler) (by simp) t us]
  rw [this]

/-! ## Writing results -/

@[simp] theorem Team.putV_sval (t : Team) (d : Nat) (m : Lanes) (x : Line) (sb : Option SideBand) (po : List Poison) (i : Nat) :
    (t.putV d m x sb po).sval i = t.sval i := rfl
@[simp] theorem Team.putV_side (t : Team) (d : Nat) (m : Lanes) (x : Line) (sb : Option SideBand) (po : List Poison) (o : Bool) :
    (t.putV d m x sb po).side o = t.side o := by cases o <;> rfl
@[simp] theorem Team.putV_rest (t : Team) (d : Nat) (m : Lanes) (x : Line) (sb : Option SideBand) (po : List Poison) :
    (t.putV d m x sb po).rest = t.rest := rfl
@[simp] theorem Team.putV_flags (t : Team) (d : Nat) (m : Lanes) (x : Line) (sb : Option SideBand) (po : List Poison) :
    (t.putV d m x sb po).flags = t.flags := rfl
@[simp] theorem Team.putV_pred (t : Team) (d : Nat) (m : Lanes) (x : Line) (sb : Option SideBand) (po : List Poison) (p : Nat) :
    (t.putV d m x sb po).pred p = t.pred p := rfl
/-- What register d of a team holds once the lanes of m are written. -/
def Team.merged (t : Team) (d : Nat) (m : Lanes) (x : Line) (sb : Option SideBand) (po : List Poison) :
    Line × SideBand × List Poison :=
  let o := (t.vget d).getD .zero
  (mergeLanes m x o.data, sb.getD o.sb, o.poison.filter (fun p => !m.getLsbD p.lane) ++ po.filter (fun p => m.getLsbD p.lane))
theorem Team.putV_vval (t : Team) (d : Nat) (m : Lanes) (x : Line) (sb : Option SideBand) (po : List Poison) (i : Nat) :
    (t.putV d m x sb po).vval i = if i = d then some (t.merged d m x sb po) else t.vval i := by
  unfold Team.putV Team.vval Team.vget Team.merged
  simp only [look_place]
  split <;> rfl

@[simp] theorem Team.putS_vval (t : Team) (d : Nat) (v : W64) (po : Option Poison) (i : Nat) : (t.putS d v po).vval i = t.vval i := by
  unfold Team.putS; split <;> rfl
@[simp] theorem Team.putS_side (t : Team) (d : Nat) (v : W64) (po : Option Poison) (o : Bool) :
    (t.putS d v po).side o = t.side o := by unfold Team.putS; split <;> rfl
@[simp] theorem Team.putS_rest (t : Team) (d : Nat) (v : W64) (po : Option Poison) : (t.putS d v po).rest = t.rest := by
  unfold Team.putS; split <;> rfl
@[simp] theorem Team.putS_flags (t : Team) (d : Nat) (v : W64) (po : Option Poison) : (t.putS d v po).flags = t.flags := by
  unfold Team.putS; split <;> rfl
@[simp] theorem Team.putS_pred (t : Team) (d : Nat) (v : W64) (po : Option Poison) (p : Nat) : (t.putS d v po).pred p = t.pred p := by
  unfold Team.putS; split <;> rfl
/-- A scalar register, or the shadow register it names, takes the value with its poison. -/
theorem Team.putS_sval (t : Team) (d : Nat) (v : W64) (po : Option Poison) (i : Nat) :
    (t.putS d v po).sval i = if i = d then some (t.keepsS d v, po) else t.sval i := by
  unfold Team.putS Team.keepsS
  by_cases h : t.shadowed d = true
  · simp only [h, ↓reduceIte]
    have h1 : (t.handler.isSome = true ∧ 56 ≤ d) ∧ d < 64 := by simpa [Team.shadowed] using h
    unfold Team.putShadow Team.sval Team.sget
    have e : ∀ l j, Team.shadowed { t with shadow := l } j = t.shadowed j := fun _ _ => rfl
    rw [e]
    by_cases c : i = d
    · subst c; simp [h]
    · simp only [c, ↓reduceIte]
      by_cases a : t.shadowed i = true
      · have h2 : 56 ≤ i := by simp [Team.shadowed] at a; exact a.1.2
        simp only [a, ↓reduceIte, nth_putAt]
        have : ¬(i - 56 = d - 56) := by omega
        simp [this]
      · simp [a]
  · simp only [h, Bool.false_eq_true, ↓reduceIte]
    unfold Team.sval Team.sget
    have e : ∀ (l : List (Nat × SReg)) j, Team.shadowed { t with sregs := l } j = t.shadowed j := fun _ _ => rfl
    rw [e]
    by_cases c : i = d
    · subst c; simp [h]
    · simp only [c, ↓reduceIte, look_place]

/-! ## The end of an instruction -/

@[simp] theorem Team.raise_vval (t : Team) (f : Fl) (i : Nat) : (t.raise f).vval i = t.vval i := rfl
@[simp] theorem Team.raise_sval (t : Team) (f : Fl) (i : Nat) : (t.raise f).sval i = t.sval i := rfl
@[simp] theorem Team.raise_pred (t : Team) (f : Fl) (p : Nat) : (t.raise f).pred p = t.pred p := rfl
@[simp] theorem Team.raise_flags (t : Team) (f : Fl) : (t.raise f).flags = t.flags ||| f := rfl
@[simp] theorem Team.raise_rest (t : Team) (f : Fl) : (t.raise f).rest = t.rest := rfl
@[simp] theorem Team.raise_side (t : Team) (f : Fl) (o : Bool) : (t.raise f).side o = t.side o := by cases o <;> rfl
@[simp] theorem Team.advance_vval (t : Team) (o : Bool) (n i : Nat) : (t.advance o n).vval i = t.vval i := by simp [Team.advance]
@[simp] theorem Team.advance_sval (t : Team) (o : Bool) (n i : Nat) : (t.advance o n).sval i = t.sval i := by simp [Team.advance]
@[simp] theorem Team.advance_pred (t : Team) (o : Bool) (n p : Nat) : (t.advance o n).pred p = t.pred p := by simp [Team.advance]
@[simp] theorem Team.advance_flags (t : Team) (o : Bool) (n : Nat) : (t.advance o n).flags = t.flags := by simp [Team.advance]
@[simp] theorem Team.advance_rest (t : Team) (o : Bool) (n : Nat) : (t.advance o n).rest = t.rest := by simp [Team.advance]
@[simp] theorem Team.advance_other (t : Team) (o : Bool) (n : Nat) : (t.advance o n).side (!o) = t.side (!o) := by
  simp [Team.advance]
@[simp] theorem Team.advance_path (t : Team) (o : Bool) (n : Nat) :
    ((t.advance o n).side o).path = (t.side o).path.map (fun p => { p with pc := p.pc + w64 (8 * n) }) := by simp [Team.advance]
@[simp] theorem Team.advance_latches (t : Team) (o : Bool) (n : Nat) : ((t.advance o n).side o).latches = (t.side o).latches := by
  simp [Team.advance]

@[simp] theorem Team.put_vec_sval (t : Team) (o : Bool) (d : Nat) (ws : Bool) (m : Lanes) (x : Line) (sb : Option SideBand)
    (po : List Poison) (i : Nat) : (t.put o (.vec d ws m x sb po)).sval i = t.sval i := by
  unfold Team.put; simp only; split <;> simp
theorem Team.put_vec_vval (t : Team) (o : Bool) (d : Nat) (ws : Bool) (m : Lanes) (x : Line) (sb : Option SideBand)
    (po : List Poison) (i : Nat) : (t.put o (.vec d ws m x sb po)).vval i
      = if i = d ∧ ws = false ∧ m ≠ 0 then some (t.merged d m x sb po) else t.vval i := by
  unfold Team.put
  by_cases a : ws <;> by_cases b : m = 0#32 <;> simp [a, b, Team.putV_vval]
@[simp] theorem Team.put_scal_vval (t : Team) (o : Bool) (d : Nat) (ws perf : Bool) (v : W64) (po : Option Poison) (i : Nat) :
    (t.put o (.scal d ws perf v po)).vval i = t.vval i := by
  unfold Team.put; simp only; split <;> simp
theorem Team.put_scal_sval (t : Team) (o : Bool) (d : Nat) (ws perf : Bool) (v : W64) (po : Option Poison) (i : Nat) :
    (t.put o (.scal d ws perf v po)).sval i
      = if i = d ∧ ws = false ∧ perf = true then some (t.keepsS d v, po) else t.sval i := by
  unfold Team.put
  by_cases a : ws <;> by_cases b : perf <;> simp [a, b, Team.putS_sval]
@[simp] theorem Team.put_pred_vval (t : Team) (o : Bool) (p : Nat) (m v : Lanes) (i : Nat) :
    (t.put o (.pred p m v)).vval i = t.vval i := rfl
@[simp] theorem Team.put_pred_sval (t : Team) (o : Bool) (p : Nat) (m v : Lanes) (i : Nat) :
    (t.put o (.pred p m v)).sval i = t.sval i := rfl
/-- Predicate bits of the lanes of m; p0 discards writes (R141). -/
theorem Team.put_pred_pred (t : Team) (o : Bool) (p : Nat) (m v : Lanes) (q : Nat) :
    (t.put o (.pred p m v)).pred q = if q = p ∧ p ≠ 0 then (t.pred p &&& ~~~ m) ||| (v &&& m) else t.pred q := by
  unfold Team.put
  simp only
  by_cases a : p = 0
  · simp [a]
  · simp only [a, ↓reduceIte, ne_eq, not_false_eq_true, and_true]
    by_cases b : q = p
    · subst b; simp [Team.pred, a]
    · simp [Team.pred, b, nth_putAt]
@[simp] theorem Team.put_pred_side (t : Team) (o : Bool) (p : Nat) (m v : Lanes) (q : Bool) :
    (t.put o (.pred p m v)).side q = t.side q := by cases q <;> rfl
@[simp] theorem Team.put_rest (t : Team) (o : Bool) (w : Write) : (t.put o w).rest = t.rest := by
  unfold Team.put; cases w <;> simp only
  · split <;> simp
  · split <;> simp
  · split <;> simp
  · rfl
@[simp] theorem Team.put_flags (t : Team) (o : Bool) (w : Write) : (t.put o w).flags = t.flags := by
  unfold Team.put; cases w <;> simp only
  · split <;> simp
  · split <;> simp
  · split <;> simp
@[simp] theorem Team.put_other (t : Team) (o : Bool) (w : Write) : (t.put o w).side (!o) = t.side (!o) := by
  unfold Team.put; cases w <;> simp only
  · split <;> simp
  · split <;> simp
  · split <;> simp
  · cases o <;> rfl
@[simp] theorem Team.put_path (t : Team) (o : Bool) (w : Write) : ((t.put o w).side o).path = (t.side o).path := by
  unfold Team.put; cases w <;> simp only
  · split <;> simp [Side.push]
  · split <;> simp [Side.push]
  · split <;> simp
  · cases o <;> rfl
@[simp] theorem Team.put_vec_pred (t : Team) (o : Bool) (d : Nat) (ws : Bool) (m : Lanes) (x : Line) (sb : Option SideBand)
    (po : List Poison) (p : Nat) : (t.put o (.vec d ws m x sb po)).pred p = t.pred p := by
  unfold Team.put; simp only; split <;> simp
@[simp] theorem Team.put_scal_pred (t : Team) (o : Bool) (d : Nat) (ws perf : Bool) (v : W64) (po : Option Poison) (p : Nat) :
    (t.put o (.scal d ws perf v po)).pred p = t.pred p := by
  unfold Team.put; simp only; split <;> simp
/-- The result stands in h0. -/
theorem Team.put_scal_latch (t : Team) (o : Bool) (d : Nat) (ws : Bool) (v : W64) (po : Option Poison) :
    (t.put o (.scal d ws true v po)).latch o 0 = some (.scal v po) := by
  unfold Team.put Team.latch; simp [Side.push]

/-- The team once its instruction has issued: the side waits for nothing and the other is next. -/
def Team.issuedOn (t : Team) (off : Bool) : Team :=
  { t.setSide off { t.side off with wait := .none, lnch := none } with turn := !off, waited := 0, told := false }
@[simp] theorem Team.issuedOn_vval (t : Team) (o : Bool) (i : Nat) : (t.issuedOn o).vval i = t.vval i := by cases o <;> rfl
@[simp] theorem Team.issuedOn_sval (t : Team) (o : Bool) (i : Nat) : (t.issuedOn o).sval i = t.sval i := by cases o <;> rfl
@[simp] theorem Team.issuedOn_pred (t : Team) (o : Bool) (p : Nat) : (t.issuedOn o).pred p = t.pred p := by cases o <;> rfl
@[simp] theorem Team.issuedOn_flags (t : Team) (o : Bool) : (t.issuedOn o).flags = t.flags := by cases o <;> rfl
@[simp] theorem Team.issuedOn_rest (t : Team) (o : Bool) : (t.issuedOn o).rest = t.rest := by cases o <;> rfl
@[simp] theorem Team.issuedOn_other (t : Team) (o : Bool) : (t.issuedOn o).side (!o) = t.side (!o) := by cases o <;> rfl
@[simp] theorem Team.issuedOn_path (t : Team) (o : Bool) : ((t.issuedOn o).side o).path = (t.side o).path := by cases o <;> rfl
@[simp] theorem Team.issuedOn_latch (t : Team) (o : Bool) (n : Nat) : (t.issuedOn o).latch o n = t.latch o n := by
  cases o <;> rfl

end Sys2Proof.Machine
end

