-- ==== Sys2Proof/Laws/Ends.lean ====
section
/-! SUPPORT. The end of an instruction of fixed latency with one result: what it leaves, by kind of result. -/

namespace Sys2Proof.Machine

/-! ## The machine around the team -/

@[simp] theorem State.setTeam_teamAt (s : State) (u v : Nat) (t : Team) :
    (s.setTeam u t).teamAt v = if v = u then some t else s.teamAt v := by simp [State.setTeam, State.teamAt, look_place]
@[simp] theorem State.modTeam_teamAt (s : State) (u v : Nat) (f : Team → Team) :
    (s.modTeam u f).teamAt v = if v = u then (s.teamAt u).map f else s.teamAt v := by
  simp [State.modTeam, State.teamAt, look_change]
/-- The team of the issuing path stands in State. -/
theorem State.issuing_team {s : State} {x : Iss} (h : s.issuing = some x) : s.teamAt x.u = some x.t := by
  unfold State.issuing at h
  split at h
  · cases h
  · split at h
    · cases h
    · split at h
      · cases h
      · cases h; assumption

/-- A team written back and issued: nothing else changes. -/
theorem State.written_issued (s : State) (u : Nat) (o : Bool) (T : Team) :
    ((s.setTeam u T).issued u o).teamAt u = some (T.issuedOn o) ∧ ((s.setTeam u T).issued u o).outside = s.outside
      ∧ (∀ a, ((s.setTeam u T).issued u o).mem.byte a = s.mem.byte a)
      ∧ ∀ v, v ≠ u → ((s.setTeam u T).issued u o).teamAt v = s.teamAt v := by
  refine ⟨?_, rfl, fun a => rfl, fun v hv => ?_⟩
  · simp [State.issued, State.setTeam, State.teamAt, State.modTeam, Team.issuedOn]
  · simp [State.issued, State.setTeam, State.teamAt, State.modTeam, look_change, look_place, hv]

/-! ## Parts that every ending keeps -/

@[simp] theorem Team.issuedOn_latches (t : Team) (o : Bool) : ((t.issuedOn o).side o).latches = (t.side o).latches := by
  cases o <;> rfl
@[simp] theorem Team.raise_path (t : Team) (f : Fl) (o : Bool) : ((t.raise f).side o).path = (t.side o).path := by simp

/-- The end of a list of results: what does not depend on them. -/
theorem Team.puts_same {γ : Type} (P : Team → γ) (h : ∀ t o w, P (Team.put t o w) = P t) (o : Bool) (ws : List Write) (t : Team) :
    P (ws.foldl (fun t w => t.put o w) t) = P t := foldl_same P _ (fun b a => h b o a) ws t

/-- Two teams that a program tells apart by latches and by the rest of the team alone. -/
structure Team.like (a b : Team) (o : Bool) : Prop where
  vval : ∀ i, a.vval i = b.vval i
  sval : ∀ i, a.sval i = b.sval i
  pred : ∀ p, a.pred p = b.pred p
  flags : a.flags = b.flags
  path : (a.side o).path = (b.side o).path
  other : a.side (!o) = b.side (!o)
  hand : a.handler = b.handler
theorem Team.like.last {a b : Team} {o : Bool} (h : a.like b o) (us : List SrcUse) (k : Kind) (i : Nat) :
    a.lastRead us k i = b.lastRead us k i := by simp [Team.lastRead, Team.shadowed, h.hand]
theorem Team.like.shadowed {a b : Team} {o : Bool} (h : a.like b o) (i : Nat) : a.shadowed i = b.shadowed i := by
  simp [Team.shadowed, h.hand]
theorem Team.like.keepsS {a b : Team} {o : Bool} (h : a.like b o) (i : Nat) (v : W64) : a.keepsS i v = b.keepsS i v := by
  simp [Team.keepsS, h.shadowed]
theorem Team.like.prior {a b : Team} {o : Bool} (h : a.like b o) (us : List SrcUse) (i : Nat) : a.prior us i = b.prior us i := by
  simp [Team.prior, h.last, h.vval]
/-- Entering changes nothing but the latches. -/
theorem Iss.entered_like (x : Iss) (act : Lanes) (us : List SrcUse) (ds : List DstUse) (st : Bool) :
    (x.entered act us ds st).like x.t x.off := by
  unfold Iss.entered
  split
  · exact ⟨by simp, by simp, by simp, by simp, by simp [Side.clear], by simp, by simp⟩
  · exact ⟨by simp, by simp, by simp, by simp, by simp, by simp, by simp⟩
@[simp] theorem Iss.entered_rest (x : Iss) (act : Lanes) (us : List SrcUse) (ds : List DstUse) (st : Bool) :
    (x.entered act us ds st).rest = x.t.rest := by
  unfold Iss.entered; split <;> simp

/-- What the end of an instruction keeps, whatever its results. -/
theorem Team.finish_keeps (t : Team) (o : Bool) (us : List SrcUse) (ws : List Write) (fl : Fl) (n : Nat) :
    (t.finish o us ws fl n).flags = t.flags ||| fl
      ∧ (t.finish o us ws fl n).rest = t.rest
      ∧ ((t.finish o us ws fl n).side o).path = (t.side o).path.map (fun p => { p with pc := p.pc + w64 (8 * n) })
      ∧ (t.finish o us ws fl n).side (!o) = t.side (!o) := by
  unfold Team.finish
  refine ⟨?_, ?_, ?_, ?_⟩
  · simp [Team.puts_same (fun t => t.flags) (fun t o w => Team.put_flags t o w)]
  · simp [Team.puts_same (fun t => t.rest) (fun t o w => Team.put_rest t o w)]
  · simp only [Team.advance_path, Team.raise_path]
    rw [foldl_same (fun t : Team => (t.side o).path) _ (fun b a => Team.put_path b o a) ws, Team.useSrcs_side]
  · simp only [Team.advance_other, Team.raise_side]
    rw [foldl_same (fun t : Team => t.side (!o)) _ (fun b a => Team.put_other b o a) ws, Team.useSrcs_side]
/-- The path that issues is the one in its team's slot. -/
theorem State.issuing_path {s : State} {x : Iss} (h : s.issuing = some x) : (x.t.side x.off).path = some x.p := by
  unfold State.issuing at h
  split at h
  · cases h
  · split at h
    · cases h
    · split at h
      · cases h
      · cases h; assumption
/-- A path that has moved past n words. -/
theorem Iss.past_of {s : State} {x : Iss} {t T : Team} {n : Nat} (hx : s.issuing = some x) (k : t.like x.t x.off)
    (m : (T.side x.off).path = (t.side x.off).path.map (fun p => { p with pc := p.pc + w64 (8 * n) })) :
    (T.side x.off).path = x.past n := by
  rw [m, k.path, State.issuing_path hx]; rfl

/-- An ending from what the instruction made of its team and of the machine. -/
theorem Iss.endsIn_of {s s' : State} {x : Iss} (e : Ending) {t : Team} (T : Team) (k : t.like x.t x.off)
    (hl : (T.side x.off).latches = e.latches) (hf : T.flags = e.flags) (hm : (T.side x.off).path = e.path)
    (hw : T.side (!x.off) = t.side (!x.off))
    (hv : ∀ i, !e.vs.contains i → T.vval i = (t.useSrcs e.us).vval i)
    (hs : ∀ i, !e.ss.contains i → T.sval i = (t.useSrcs e.us).sval i)
    (hp : ∀ q, some q ≠ e.p → T.pred q = t.pred q) (hr : T.rest = e.rest)
    (ho : s'.outside = e.out.outside) (ht : ∀ v, v ≠ x.u → s'.teamAt v = s.teamAt v) :
    x.endsIn s ((s'.setTeam x.u T).issued x.u x.off) (T.issuedOn x.off) e := by
  have w := State.written_issued s' x.u x.off T
  have hb : s'.mem = e.out.mem := (congrArg State.mem ho : s'.outside.mem = e.out.outside.mem)
  refine ⟨w.1, ?_, ?_, ?_, ?_, ⟨fun i hi => ?_, fun i hi => ?_⟩, fun q hq => ?_, ?_, ?_, ?_, ?_⟩
  · rw [Team.issuedOn_latches]; exact hl
  · rw [Team.issuedOn_flags, hf]
  · rw [Team.issuedOn_path, hm]
  · rw [Team.issuedOn_other, hw, k.other]
  · rw [Team.issuedOn_vval, hv i hi, Team.useSrcs_vval, k.last, k.vval]
  · rw [Team.issuedOn_sval, hs i hi, Team.useSrcs_sval, k.last, k.sval]
  · rw [Team.issuedOn_pred, hp q hq, k.pred]
  · rw [Team.issuedOn_rest, hr]
  · rw [w.2.1, ho]
  · intro a; rw [w.2.2.1, hb]
  · intro v hv'; rw [w.2.2.2 v hv', ht v hv']

/-! ## One result -/

theorem mem_dstRegs {d : Dst} {i : Nat} (h : (!(dstRegs d).contains i) = true) : d.ws = true ∨ i ≠ d.idx.toNat := by
  unfold dstRegs at h
  by_cases w : d.ws = true
  · exact .inl w
  · exact .inr (by simpa [w] using h)

/-- The team part of an ending: what finish does to a team whose latches alone differ from those at the start. -/
theorem Team.finish_vec (t : Team) (o : Bool) (us : List SrcUse) (d : Nat) (ws : Bool) (m : Lanes) (y : Line)
    (sb : Option SideBand) (fl : Fl) (n : Nat) :
    (∀ i, ((t.finish o us [.vec d ws m y sb []] fl n).issuedOn o).vval i
        = if i = d ∧ ws = false ∧ m ≠ 0 then some ((t.useSrcs us).merged d m y sb []) else (t.useSrcs us).vval i)
      ∧ (∀ i, ((t.finish o us [.vec d ws m y sb []] fl n).issuedOn o).sval i = (t.useSrcs us).sval i)
      ∧ (∀ p, ((t.finish o us [.vec d ws m y sb []] fl n).issuedOn o).pred p = t.pred p)
      ∧ (((t.finish o us [.vec d ws m y sb []] fl n).issuedOn o).side o).latches
        = some (let r := if ws then VReg.zero else ((t.useSrcs us).vget d).getD .zero
                .vec (mergeLanes m y r.data) (if m = 0 then r.sb else sb.getD r.sb)
                  (r.poison.filter (fun p => !m.getLsbD p.lane))) :: (t.side o).latches.take 3 := by
  unfold Team.finish
  simp only [List.foldl_cons, List.foldl_nil, Team.issuedOn_vval, Team.advance_vval, Team.raise_vval, Team.put_vec_vval,
    Team.issuedOn_sval, Team.advance_sval, Team.raise_sval, Team.put_vec_sval, Team.issuedOn_pred, Team.advance_pred,
    Team.raise_pred, Team.put_vec_pred, Team.useSrcs_pred, implies_true, true_and, Team.issuedOn_latches, Team.advance_latches,
    Team.raise_side]
  unfold Team.put
  simp only [Team.setSide_side, Side.push, List.filter_nil, List.append_nil]
  split <;> split <;> simp_all

theorem Team.prior_merged (t : Team) (us : List SrcUse) (d : Nat) (m : Lanes) (y : Line) (sb : Option SideBand) :
    (t.useSrcs us).merged d m y sb [] = (mergeLanes m y (t.prior us d).1, sb.getD (t.prior us d).2.1,
      (t.prior us d).2.2.filter (fun p => !m.getLsbD p.lane)) := by
  have h := Team.useSrcs_vval t us d
  unfold Team.merged Team.prior
  unfold Team.vval at h ⊢
  by_cases l : t.lastRead us .v d = true
  · simp only [l, ↓reduceIte, Option.map_eq_none_iff] at h
    simp [l, h, VReg.zero]
  · simp only [l, Bool.false_eq_true, ↓reduceIte] at h
    simp only [l, Bool.false_eq_true, ↓reduceIte, List.filter_nil, List.append_nil]
    revert h
    cases (t.useSrcs us).vget d <;> cases t.vget d <;> simp [VReg.zero]
    rintro e1 e2 e3; simp [e1, e2, e3]

/-- The destination as the latch of an instruction that no lane performs takes it. -/
theorem Team.prior_get (t : Team) (us : List SrcUse) (d : Nat) :
    (((t.useSrcs us).vget d).getD .zero).data = (t.prior us d).1 ∧ (((t.useSrcs us).vget d).getD .zero).sb = (t.prior us d).2.1
      ∧ (((t.useSrcs us).vget d).getD .zero).poison = (t.prior us d).2.2 := by
  have h := Team.useSrcs_vval t us d
  unfold Team.prior
  unfold Team.vval at h ⊢
  by_cases l : t.lastRead us .v d = true
  · simp only [l, ↓reduceIte, Option.map_eq_none_iff] at h
    simp [l, h, VReg.zero]
  · simp only [l, Bool.false_eq_true, ↓reduceIte] at h
    simp only [l, Bool.false_eq_true, ↓reduceIte]
    revert h
    cases (t.useSrcs us).vget d <;> cases t.vget d <;> simp [VReg.zero]
theorem Team.prior_sget (t : Team) (us : List SrcUse) (d : Nat) :
    latchOf ((t.useSrcs us).sget d)
      = let r := (if t.lastRead us .s d then (0, none) else (t.sval d).getD (0, none))
        Latch.scal r.1 r.2 := by
  have h := Team.useSrcs_sval t us d
  unfold Team.sval at h ⊢
  by_cases l : t.lastRead us .s d = true
  · simp only [l, ↓reduceIte, Option.map_eq_none_iff] at h
    simp [l, h, latchOf]
  · simp only [l, Bool.false_eq_true, ↓reduceIte] at h
    simp only [l, Bool.false_eq_true, ↓reduceIte]
    revert h
    cases (t.useSrcs us).sget d <;> cases t.sget d <;> simp [latchOf]

@[simp] theorem Team.drew_vval (t : Team) (i : Nat) : t.drew.vval i = t.vval i := rfl
@[simp] theorem Team.drew_sval (t : Team) (i : Nat) : t.drew.sval i = t.sval i := rfl
@[simp] theorem Team.drew_pred (t : Team) (i : Nat) : t.drew.pred i = t.pred i := rfl
@[simp] theorem Team.drew_flags (t : Team) : t.drew.flags = t.flags := rfl
@[simp] theorem Team.drew_side (t : Team) (o : Bool) : t.drew.side o = t.side o := by cases o <;> rfl
@[simp] theorem Team.drew_rest (t : Team) : t.drew.rest = t.rest.drew := rfl
theorem Team.drew_issuedOn (t : Team) (o : Bool) : t.drew.issuedOn o = (t.issuedOn o).drew := by cases o <;> rfl
theorem State.setTeam_drew (s : State) (u : Nat) (T : Team) : (s.setTeam u T).modTeam u Team.drew = s.setTeam u T.drew := by
  unfold State.setTeam State.modTeam
  simp only [change_place]

/-- A vector result in the lanes of m. -/
theorem Iss.gaveV_end {s : State} {x : Iss} (hx : s.issuing = some x) (act m : Lanes) (us : List SrcUse) (d : Dst) (y : Line)
    (sb : Option SideBand) (fl : Fl) (n : Nat) (dr : Bool) :
    x.gaveV s (.next ((s.setTeam x.u (if dr then ((x.entered act us (dstUses .v d) false).finish x.off us
      [.vec d.idx.toNat d.ws m y sb []] fl n).drew else (x.entered act us (dstUses .v d) false).finish x.off us
      [.vec d.idx.toNat d.ws m y sb []] fl n)).issued x.u x.off)) us d act m y sb fl n dr := by
  have k := x.entered_like act us (dstUses .v d) false
  have r := x.entered_rest act us (dstUses .v d) false
  have h := Team.prior_merged (x.entered act us (dstUses .v d) false) us d.idx.toNat m y sb
  have ho := Team.prior_get (x.entered act us (dstUses .v d) false) us d.idx.toNat
  rw [k.prior] at h ho
  unfold Iss.gaveV Iss.latched
  generalize x.entered act us (dstUses .v d) false = t at *
  obtain ⟨f1, f2, f3, f4⟩ := Team.finish_keeps t x.off us [.vec d.idx.toNat d.ws m y sb []] fl n
  obtain ⟨g1, g2, g3, g4⟩ := Team.finish_vec t x.off us d.idx.toNat d.ws m y sb fl n
  simp only [Team.issuedOn_vval, Team.issuedOn_sval, Team.issuedOn_pred, Team.issuedOn_latches] at g1 g2 g3 g4
  generalize t.finish x.off us [.vec d.idx.toNat d.ws m y sb []] fl n = F at *
  have c : ∀ {γ : Type} (P : Team → γ), (∀ t : Team, P t.drew = P t) → P (if dr = true then F.drew else F) = P F := by
    intro γ P h1; split
    · exact h1 F
    · rfl
  refine ⟨_, _, rfl, Iss.endsIn_of _ _ k ?_ ?_ ?_ ?_ (fun i hi => ?_) (fun i _ => ?_) (fun q _ => ?_) ?_ rfl (fun _ _ => rfl), ?_⟩
  · rw [c (fun t => (t.side x.off).latches) (by simp), g4]
    unfold Iss.resultV
    simp only [List.cons.injEq, Option.some.injEq, and_true]
    by_cases w : d.ws = true
    · simp [w, VReg.zero]
    · simp only [w, Bool.false_eq_true, ↓reduceIte, ho]
  · rw [c (fun t => t.flags) (by simp), f1, k.flags]
  · rw [c (fun t => (t.side x.off).path) (by simp)]; exact Iss.past_of hx k f3
  · rw [c (fun t => t.side (!x.off)) (by simp)]; exact f4
  · rw [c (fun t => t.vval i) (by simp), g1]
    obtain w | w := mem_dstRegs hi <;> simp [w]
  · rw [c (fun t => t.sval i) (by simp), g2]
  · rw [c (fun t => t.pred q) (by simp), g3]
  · cases dr <;> simp [f2, r]
  · intro w
    rw [Team.issuedOn_vval, c (fun t => t.vval d.idx.toNat) (by simp), g1]
    unfold Team.afterV
    by_cases hm : m = 0
    · rw [if_neg (fun c => c.2.2 hm), if_pos hm, Team.useSrcs_vval, k.last, k.vval]
    · rw [if_pos ⟨rfl, w, hm⟩, if_neg hm, h]
      unfold Iss.resultV
      simp only [w, Bool.false_eq_true, ↓reduceIte, if_neg hm]

/-- A scalar result. -/
theorem Iss.gaveS_end {s s' : State} {x : Iss} (hx : s.issuing = some x) (act : Lanes) (us : List SrcUse) (d : Dst) (v : W64) (fl : Fl) (n : Nat) (out : State)
    (hout : s'.outside = out.outside) (ht : ∀ v, v ≠ x.u → s'.teamAt v = s.teamAt v) :
    x.gaveS s (.next ((s'.setTeam x.u ((x.entered act us (dstUses .s d) false).finish x.off us
      [.scal d.idx.toNat d.ws (act ≠ 0) v none] (if act ≠ 0 then fl else 0) n)).issued x.u x.off)) us d act v fl n out := by
  have k := x.entered_like act us (dstUses .s d) false
  have r := x.entered_rest act us (dstUses .s d) false
  have hf : (if act ≠ 0 then fl else 0) = if act = 0 then 0 else fl := by split <;> simp_all
  have ho := Team.prior_sget (x.entered act us (dstUses .s d) false) us d.idx.toNat
  rw [k.last, k.sval] at ho
  rw [hf]
  unfold Iss.gaveS Iss.latched
  generalize x.entered act us (dstUses .s d) false = t at *
  obtain ⟨f1, f2, f3, f4⟩ := Team.finish_keeps t x.off us [.scal d.idx.toNat d.ws (act ≠ 0) v none] (if act = 0 then 0 else fl) n
  refine ⟨_, _, rfl, Iss.endsIn_of _ _ k ?_ (by rw [f1, k.flags]) (Iss.past_of hx k f3) f4 (fun i hi => ?_) (fun i hi => ?_) (fun q _ => ?_) ?_ hout ht, ?_⟩
  · unfold Team.finish Team.put Iss.resultS
    simp only [List.foldl_cons, List.foldl_nil, Team.advance_latches, Team.raise_side, Team.setSide_side, Side.push]
    by_cases w : d.ws = true <;> by_cases a : act = 0#32 <;> by_cases l : x.t.lastRead us .s d.idx.toNat = true <;>
      simp_all [latchOf]
  · simp [Team.finish]
  · simp only [Team.finish, List.foldl_cons, List.foldl_nil, Team.advance_sval, Team.raise_sval, Team.put_scal_sval]
    obtain w | w := mem_dstRegs hi <;> simp [w]
  · simp [Team.finish]
  · rw [f2, r]
  · intro w
    simp only [Team.issuedOn_sval]
    simp only [Team.finish, List.foldl_cons, List.foldl_nil, Team.advance_sval, Team.raise_sval, Team.put_scal_sval,
      Team.useSrcs_sval, k.last, k.sval, Team.afterS]
    by_cases a : act = 0#32 <;> simp [w, a, k.keepsS]

/-- Predicate bits. -/
theorem Iss.gaveP_end {s : State} {x : Iss} (hx : s.issuing = some x) (act : Lanes) (us : List SrcUse) (p : Nat) (v : Lanes) (fl : Fl) (n : Nat) :
    x.gaveP s (.next ((s.setTeam x.u ((x.entered act us [] false).finish x.off us [.pred p act v] fl n)).issued x.u x.off))
      us p act v fl n := by
  have k := x.entered_like act us [] false
  have r := x.entered_rest act us [] false
  unfold Iss.gaveP
  generalize x.entered act us [] false = t at *
  obtain ⟨f1, f2, f3, f4⟩ := Team.finish_keeps t x.off us [.pred p act v] fl n
  have hp : ∀ q, (t.finish x.off us [.pred p act v] fl n).pred q
      = if q = p ∧ p ≠ 0 then (x.t.pred p &&& ~~~ act) ||| (v &&& act) else x.t.pred q := by
    intro q
    simp only [Team.finish, List.foldl_cons, List.foldl_nil, Team.advance_pred, Team.raise_pred, Team.put_pred_pred,
      Team.useSrcs_pred, k.pred]
  refine ⟨_, _, rfl, Iss.endsIn_of _ _ k ?_ (by rw [f1, k.flags]) (Iss.past_of hx k f3) f4 (fun i hi => ?_) (fun i hi => ?_) (fun q hq => ?_) ?_ rfl (fun _ _ => rfl), ?_⟩
  · simp only [Team.finish, List.foldl_cons, List.foldl_nil, Team.advance_latches, Team.raise_side, Team.put_pred_side,
      Team.useSrcs_side]
  · simp [Team.finish]
  · simp [Team.finish]
  · rw [hp, k.pred]
    have : ¬(q = p ∧ p ≠ 0) := fun h => hq (by rw [h.1])
    rw [if_neg this]
  · rw [f2, r]
  · simp only [Team.issuedOn_pred, hp]
    by_cases h : p = 0
    · simp [h, Team.pred]
    · simp [h]

end Sys2Proof.Machine
end

