-- ==== Sys2Proof/Laws/Calc.lean ====
section
/-! SUPPORT. Operand values once no lane read is poisoned, and the shared courses of Alu.lean: what each answers, once. -/

namespace Sys2Proof.Machine

/-! ## Operand values -/

theorem State.issue_ok {s s' : State} {x : Iss} {f : Iss → Except Halt State} (h : s.issuing = some x) (e : f x = .ok s') :
    s.issue f = .next (s'.issued x.u x.off) := by
  unfold State.issue; rw [h]; simp only [e]

/-- Sources are clean one by one. -/
@[simp] theorem Iss.clean_nil (x : Iss) (m : Lanes) : x.clean m [] = true := rfl
theorem Iss.clean_append (x : Iss) (m : Lanes) (a b : List SrcUse) : x.clean m (a ++ b) = (x.clean m a && x.clean m b) := by
  simp [Iss.clean, List.all_append]
theorem Iss.clean_cons (x : Iss) (m : Lanes) (a : SrcUse) (b : List SrcUse) :
    x.clean m (a :: b) = (x.clean m [a] && x.clean m b) := x.clean_append m [a] b

theorem Iss.vec_clean {x : Iss} {m : Lanes} {a : Sel} {n : Nat} {old : Bool} (h : x.clean m [⟨.v, a, n, old⟩] = true) :
    x.vec m a = .ok (x.t.readV x.off a) := by
  simp only [Iss.clean, List.all_cons, List.all_nil, Bool.and_true, List.all_eq_true, Bool.not_eq_true'] at h
  have e : (x.t.readV x.off a).poison.filter (fun p => m.getLsbD p.lane) = [] := by
    rw [List.filter_eq_nil_iff]; intro p hp; simp [h p hp]
  unfold Iss.vec Iss.poisoned
  simp only [e, poisonFault]
  rfl
theorem Iss.scal_clean {x : Iss} {m : Lanes} {a : Sel} {n : Nat} {old : Bool} (h : x.clean m [⟨.s, a, n, old⟩] = true) :
    x.scal (m ≠ 0) a = .ok (x.t.readS x.off a).v := by
  simp only [Iss.clean, List.all_cons, List.all_nil, Bool.and_true, Bool.or_eq_true, decide_eq_true_eq,
    Option.isNone_iff_eq_none] at h
  unfold Iss.scal
  by_cases hm : m = 0
  · simp only [hm, ne_eq, not_true_eq_false, decide_false, Bool.false_eq_true, ↓reduceIte]; split <;> rfl
  · simp only [h.resolve_left hm]

theorem Iss.lanes_clean {x : Iss} {m : Lanes} {a : Arg} (h : x.clean m a.uses = true) : x.lanes m a = .ok (x.laneVal a) := by
  cases a with
  | v a => simp only [Iss.lanes]; rw [Iss.vec_clean h]; rfl
  | s a => simp only [Iss.lanes]; rw [Iss.scal_clean h]; rfl
  | imm v => rfl
theorem Iss.word_clean {x : Iss} {m : Lanes} {a : Arg} (h : x.clean m a.uses = true) :
    x.word (m ≠ 0) a = .ok (x.wordVal a) := by
  cases a with
  | v a => rfl
  | s a => simp only [Iss.word]; rw [Iss.scal_clean h]; rfl
  | imm v => rfl
theorem Iss.lanesL_clean {x : Iss} {m : Lanes} : ∀ {l : List Arg}, x.clean m (argUses l) = true →
    x.lanesL m l = .ok (l.map x.laneVal)
  | [], _ => rfl
  | a :: r, h => by
    have h' : x.clean m a.uses = true ∧ x.clean m (argUses r) = true := by
      have : argUses (a :: r) = a.uses ++ argUses r := by simp [argUses]
      rw [this, Iss.clean_append, Bool.and_eq_true] at h; exact h
    unfold Iss.lanesL
    rw [Iss.lanes_clean h'.1, Iss.lanesL_clean h'.2]; rfl
theorem Iss.wordL_clean {x : Iss} {m : Lanes} : ∀ {l : List Arg}, x.clean m (argUses l) = true →
    x.wordL (m ≠ 0) l = .ok (l.map x.wordVal)
  | [], _ => rfl
  | a :: r, h => by
    have h' : x.clean m a.uses = true ∧ x.clean m (argUses r) = true := by
      have : argUses (a :: r) = a.uses ++ argUses r := by simp [argUses]
      rw [this, Iss.clean_append, Bool.and_eq_true] at h; exact h
    unfold Iss.wordL
    rw [Iss.word_clean h'.1, Iss.wordL_clean h'.2]; rfl

/-! ## Computations -/

section
variable {s : State} {x : Iss} {g : Guard} {ty : Ty} {d : Dst} {args : List Arg} {n : Nat}

theorem Iss.calc_vec {f : Calc} (hx : s.issuing = some x) (hk : ty.kind = .v)
    (hr : x.ready s (x.act g) (argUses args) (dstUses .v d) false = true) (hc : x.clean (x.act g) (argUses args) = true) :
    x.gaveV s (s.issue (fun x => x.calc s g ty d args n f)) (argUses args) d (x.act g) (x.act g)
      (lineOf (fun l => (f 32 (x.laneVals args l)).1)) none (raisedIn (x.act g) (fun l => (f 32 (x.laneVals args l)).2)) n
      false := by
  have e : x.calc s g ty d args n f = .ok (s.setTeam x.u ((x.entered (x.act g) (argUses args) (dstUses .v d) false).finish x.off
      (argUses args) [.vec d.idx.toNat d.ws (x.act g) (lineOf (fun l => (f 32 (x.laneVals args l)).1)) none []]
      (raisedIn (x.act g) (fun l => (f 32 (x.laneVals args l)).2)) n)) := by
    unfold Iss.calc
    simp only [hk, enter_ready hr, Iss.lanesL_clean hc, bind, Except.bind]
    rfl
  rw [State.issue_ok hx e]
  exact Iss.gaveV_end hx (x.act g) (x.act g) (argUses args) d _ none _ n false

theorem Iss.calc_scal {f : Calc} (hx : s.issuing = some x) (hk : ty.kind = .s)
    (hr : x.ready s (x.act g) (argUses args) (dstUses .s d) false = true) (hc : x.clean (x.act g) (argUses args) = true) :
    x.gaveS s (s.issue (fun x => x.calc s g ty d args n f)) (argUses args) d (x.act g)
      (f 64 (x.wordVals args)).1 (f 64 (x.wordVals args)).2 n s := by
  have e : x.calc s g ty d args n f = .ok (s.setTeam x.u ((x.entered (x.act g) (argUses args) (dstUses .s d) false).finish x.off
      (argUses args) [.scal d.idx.toNat d.ws (x.act g ≠ 0) (f 64 (x.wordVals args)).1 none]
      (if x.act g ≠ 0 then (f 64 (x.wordVals args)).2 else 0) n)) := by
    unfold Iss.calc
    simp only [hk, enter_ready hr, Iss.wordL_clean hc, bind, Except.bind]
    rfl
  rw [State.issue_ok hx e]
  exact Iss.gaveS_end hx (x.act g) (argUses args) d _ _ n s rfl (fun _ _ => rfl)

theorem Iss.compare_vec {f : Test} {p : BitVec 4} {m : Comb} (hx : s.issuing = some x) (hk : ty.kind = .v)
    (hr : x.ready s (x.act g) (argUses args) [] false = true) (hc : x.clean (x.act g) (argUses args) = true) :
    x.gaveP s (s.issue (fun x => x.compare s g ty p m args n f)) (argUses args) p.toNat (x.act g)
      (combine m (x.t.pred p.toNat) (laneMask ((upTo 32).filter (fun l => (f 32 (x.laneVals args l)).1))))
      (raisedIn (x.act g) (fun l => (f 32 (x.laneVals args l)).2)) n := by
  have e : x.compare s g ty p m args n f = .ok (s.setTeam x.u ((x.entered (x.act g) (argUses args) [] false).finish x.off
      (argUses args) [.pred p.toNat (x.act g) (combine m (x.t.pred p.toNat)
        (laneMask ((upTo 32).filter (fun l => (f 32 (x.laneVals args l)).1))))]
      (raisedIn (x.act g) (fun l => (f 32 (x.laneVals args l)).2)) n)) := by
    unfold Iss.compare
    simp only [hk, enter_ready hr, Iss.lanesL_clean hc, bind, Except.bind]
    rfl
  rw [State.issue_ok hx e]
  exact Iss.gaveP_end hx (x.act g) (argUses args) p.toNat _ _ n

theorem Iss.compare_scal {f : Test} {p : BitVec 4} {m : Comb} (hx : s.issuing = some x) (hk : ty.kind = .s)
    (hr : x.ready s (x.act g) (argUses args) [] false = true) (hc : x.clean (x.act g) (argUses args) = true) :
    x.gaveP s (s.issue (fun x => x.compare s g ty p m args n f)) (argUses args) p.toNat (x.act g)
      (combine m (x.t.pred p.toNat) (if (f 64 (x.wordVals args)).1 then allLanes else 0))
      (if x.act g = 0 then 0 else (f 64 (x.wordVals args)).2) n := by
  have e : x.compare s g ty p m args n f = .ok (s.setTeam x.u ((x.entered (x.act g) (argUses args) [] false).finish x.off
      (argUses args) [.pred p.toNat (x.act g) (combine m (x.t.pred p.toNat)
        (if (f 64 (x.wordVals args)).1 then allLanes else 0))]
      (if x.act g ≠ 0 then (f 64 (x.wordVals args)).2 else 0) n)) := by
    unfold Iss.compare
    simp only [hk, enter_ready hr, Iss.wordL_clean hc, bind, Except.bind]
    rfl
  have hf : (if x.act g = 0 then 0 else (f 64 (x.wordVals args)).2) = if x.act g ≠ 0 then (f 64 (x.wordVals args)).2 else 0 := by
    split <;> simp_all
  rw [State.issue_ok hx e, hf]
  exact Iss.gaveP_end hx (x.act g) (argUses args) p.toNat _ _ n

end

/-- With nothing read or written there is no switch point. -/
@[simp] theorem Iss.entered_nothing (x : Iss) (act : Lanes) : x.entered act [] [] false = x.t := by
  have e : x.switches act [] [] false = false := by
    simp [Iss.switches, Iss.raises, Team.frees, Team.takes, sortNat]
  simp [Iss.entered, e]
theorem Iss.gaveP_issue {s : State} {x : Iss} {f : Iss → Except Halt State} (act : Lanes) (us : List SrcUse) (p : Nat) (v : Lanes)
    (fl : Fl) (n : Nat) (hx : s.issuing = some x)
    (e : f x = .ok (s.setTeam x.u ((x.entered act us [] false).finish x.off us [.pred p act v] fl n))) :
    x.gaveP s (s.issue f) us p act v fl n := by
  rw [State.issue_ok hx e]; exact Iss.gaveP_end hx act us p v fl n
theorem Iss.gaveS_issue {s : State} {x : Iss} {f : Iss → Except Halt State} (act : Lanes) (us : List SrcUse) (d : Dst) (v : W64)
    (fl : Fl) (n : Nat) (hx : s.issuing = some x)
    (e : f x = .ok (s.setTeam x.u ((x.entered act us (dstUses .s d) false).finish x.off us
      [.scal d.idx.toNat d.ws (act ≠ 0) v none] (if act ≠ 0 then fl else 0) n))) :
    x.gaveS s (s.issue f) us d act v fl n s := by
  rw [State.issue_ok hx e]; exact Iss.gaveS_end hx act us d v fl n s rfl (fun _ _ => rfl)

end Sys2Proof.Machine
end

