-- ==== Sys2Proof/Laws/Lines.lean ====
section
/-! SUPPORT. The lanes of a line: what a line built from lanes reads as, and that lanes determine the line. -/

namespace Sys2Proof.Machine

/-- The number that lanes k, k + 1, … make. -/
theorem lanes_div (f : Nat → W32) (n k i : Nat) (h : i < n) :
    (from_ k n).foldr (fun l acc => acc * 2 ^ 32 + (f l).toNat) 0 / 2 ^ (32 * i) % 2 ^ 32 = (f (k + i)).toNat := by
  induction n generalizing k i with
  | zero => omega
  | succ n ih =>
    have e : from_ k (n + 1) = k :: from_ (k + 1) n := rfl
    rw [e, List.foldr_cons]
    generalize hA : (from_ (k + 1) n).foldr (fun l acc => acc * 2 ^ 32 + (f l).toNat) 0 = A
    have hlt : (f k).toNat < 2 ^ 32 := (f k).isLt
    cases i with
    | zero => simp only [Nat.mul_zero, Nat.pow_zero, Nat.div_one, Nat.add_zero]; omega
    | succ i =>
      have e2 : 2 ^ (32 * (i + 1)) = 2 ^ 32 * 2 ^ (32 * i) := by rw [Nat.mul_add, Nat.pow_add, Nat.mul_comm]
      rw [e2, ← Nat.div_div_eq_div_mul]
      have e3 : (A * 2 ^ 32 + (f k).toNat) / 2 ^ 32 = A := by omega
      rw [e3, ← hA, ih (k + 1) i (by omega), show k + 1 + i = k + (i + 1) by omega]
theorem lanes_lt (f : Nat → W32) (n k : Nat) :
    (from_ k n).foldr (fun l acc => acc * 2 ^ 32 + (f l).toNat) 0 < 2 ^ (32 * n) := by
  induction n generalizing k with
  | zero => simp [from_]
  | succ n ih =>
    have e : from_ k (n + 1) = k :: from_ (k + 1) n := rfl
    rw [e, List.foldr_cons]
    have h1 := ih (k + 1)
    have hlt : (f k).toNat < 2 ^ 32 := (f k).isLt
    have e2 : 2 ^ (32 * (n + 1)) = 2 ^ (32 * n) * 2 ^ 32 := by rw [Nat.mul_add, Nat.pow_add]
    rw [e2]
    generalize (from_ (k + 1) n).foldr (fun l acc => acc * 2 ^ 32 + (f l).toNat) 0 = A at *
    generalize 2 ^ (32 * n) = B at *
    omega

/-- A line built from lanes has them. -/
theorem laneOf_lineOf (f : Nat → W32) {l : Nat} (h : l < 32) : laneOf (lineOf f) l = f l := by
  apply BitVec.eq_of_toNat_eq
  unfold laneOf lineOf
  have hb : (upTo 32).foldr (fun l acc => acc * 2 ^ 32 + (f l).toNat) 0 < 2 ^ 1024 := lanes_lt f 32 0
  rw [BitVec.extractLsb'_toNat, BitVec.toNat_ofNat, Nat.mod_eq_of_lt hb, Nat.shiftRight_eq_div_pow]
  have := lanes_div f 32 0 l h
  rw [Nat.zero_add] at this
  exact this
/-- Lanes determine the line. -/
theorem line_ext {x y : Line} (h : ∀ l, l < 32 → laneOf x l = laneOf y l) : x = y := by
  apply BitVec.eq_of_getLsbD_eq
  intro i hi
  have e := congrArg (fun z : W32 => z.getLsbD (i % 32)) (h (i / 32) (by omega))
  simp only [laneOf, BitVec.getLsbD_extractLsb'] at e
  have h1 : i % 32 < 32 := Nat.mod_lt _ (by omega)
  have h2 : 32 * (i / 32) + i % 32 = i := Nat.div_add_mod i 32
  simpa [h1, h2] using e
@[simp] theorem lineOf_laneOf (x : Line) : lineOf (laneOf x) = x := line_ext (fun _ h => laneOf_lineOf _ h)
theorem laneOf_merge (m : Lanes) (a b : Line) {l : Nat} (h : l < 32) :
    laneOf (mergeLanes m a b) l = if m.getLsbD l then laneOf a l else laneOf b l := laneOf_lineOf _ h
@[simp] theorem merge_none (a b : Line) : mergeLanes 0 a b = b :=
  line_ext (fun l h => by rw [laneOf_merge _ _ _ h]; simp)
@[simp] theorem merge_none' (a b : Line) : mergeLanes 0#32 a b = b := merge_none a b

end Sys2Proof.Machine
end

