-- ==== Sys2Proof/Laws/Blocks.lean ====
section
/-! SUPPORT. Operands of the cross-lane and block-aware instructions, once they are clean and well-formed. -/

namespace Sys2Proof.Machine

@[simp] theorem Iss.lineOf_laneVal (x : Iss) (a : Sel) : lineOf (x.laneVal (.v a)) = (x.t.readV x.off a).data :=
  lineOf_laneOf _

/-- With no lane the result is the register as it was, whatever the value. -/
theorem Iss.gaveV_none {x : Iss} {s : State} {o : Host.Outcome State Fault Refusal} {us : List SrcUse} {d : Dst} {act : Lanes}
    {y : Line} {sb : Option SideBand} {fl : Fl} {n : Nat} {dr : Bool} (y' : Line) (sb' : Option SideBand)
    (h : x.gaveV s o us d act 0#32 y sb fl n dr) : x.gaveV s o us d act 0#32 y' sb' fl n dr := by
  have e : x.resultV us d 0#32 y sb = x.resultV us d 0#32 y' sb' := by
    unfold Iss.resultV
    have : (0#32 : Lanes) = 0 := rfl
    simp only [merge_none', if_pos this]
  unfold Iss.gaveV at h ⊢
  rw [← e]; exact h

theorem lineCheck_ok {v : VVal} {sel : Nat} {block : Bool} {j : Option Nat} (h : lineOk v block j = true) :
    lineCheck v sel block j = .ok () := by
  unfold lineOk at h
  simp only [Bool.and_eq_true] at h
  obtain ⟨⟨h1, h2⟩, h3⟩ := h
  unfold lineCheck
  simp only [need, h1, h2, h3, ↓reduceIte, bind, Except.bind]

theorem Iss.amounts_clean {x : Iss} {act : Lanes} {ty : Ty} {b : ShAmt} (h : x.clean act (shAmtUses ty b) = true) :
    x.amounts act ty b = .ok (x.amount ty b) := by
  cases b with
  | imm n => rfl
  | sel b => simp only [Iss.amounts]; rw [Iss.lanes_clean h]; rfl

/-- One vector result of an instruction whose meaning ends so. -/
theorem Iss.gaveV_issue {s : State} {x : Iss} {f : Iss → Except Halt State} (act m : Lanes) (us : List SrcUse) (d : Dst) (y : Line)
    (sb : Option SideBand) (fl : Fl) (n : Nat) (hx : s.issuing = some x)
    (e : f x = .ok (s.setTeam x.u ((x.entered act us (dstUses .v d) false).finish x.off us
      [.vec d.idx.toNat d.ws m y sb []] fl n))) :
    x.gaveV s (s.issue f) us d act m y sb fl n false := by
  rw [State.issue_ok hx e]; exact Iss.gaveV_end hx act m us d y sb fl n false
theorem Iss.gaveV_issue_drew {s : State} {x : Iss} {f : Iss → Except Halt State} (act m : Lanes) (us : List SrcUse) (d : Dst)
    (y : Line) (sb : Option SideBand) (fl : Fl) (n : Nat) (hx : s.issuing = some x)
    (e : f x = .ok (s.setTeam x.u ((x.entered act us (dstUses .v d) false).finish x.off us
      [.vec d.idx.toNat d.ws m y sb []] fl n).drew)) :
    x.gaveV s (s.issue f) us d act m y sb fl n true := by
  rw [State.issue_ok hx e]; exact Iss.gaveV_end hx act m us d y sb fl n true

theorem Iss.shfl_gave {s : State} {x : Iss} {form : ShflForm} {g : Guard} {ty : Ty} {d : Dst} {a c : Sel} {b : ShAmt} {f : LaneForm}
    (hx : s.issuing = some x) (hf : x.shflForm form g ty d a b c = some f) (ho : f.ok = true)
    (hr : x.ready s (x.act f.g) f.us (dstUses .v f.d) false = true) :
    x.gaveV s (s.issue (fun x => x.shfl s form g ty d a b c)) f.us f.d (x.act f.g) f.m (lineOf f.y) f.sb f.fl f.words f.drew := by
  simp only [Iss.shflForm, Iss.laneForm, Option.some.injEq] at hf
  subst hf
  simp only [Bool.and_eq_true] at ho
  obtain ⟨⟨h1, h2⟩, h3⟩ := ho
  refine Iss.gaveV_issue _ _ _ _ _ _ _ _ hx ?_
  unfold Iss.shfl
  simp only [enter_ready hr, Iss.amounts_clean h1, bind, Except.bind]
  rw [Iss.vec_clean h2]
  simp only
  rw [Iss.vec_clean h3]
  rfl

theorem Iss.combine_gave {s : State} {x : Iss} {g : Guard} {d : Dst} {a : Sel} {op : LaneOp} {r : BitVec 2} {sc ex : Bool} {f : LaneForm}
    (hx : s.issuing = some x) (hf : x.combineForm g d a op r sc ex = some f) (ho : f.ok = true)
    (hr : x.ready s (x.act f.g) f.us (dstUses .v f.d) false = true) :
    x.gaveV s (s.issue (fun x => x.combineLanes s g d a op r sc ex)) f.us f.d (x.act f.g) f.m (lineOf f.y) f.sb f.fl f.words
      f.drew := by
  simp only [Iss.combineForm, Iss.laneForm, Option.some.injEq] at hf
  subst hf
  refine Iss.gaveV_issue _ _ _ _ _ _ _ _ hx ?_
  unfold Iss.combineLanes
  simp only [enter_ready hr, bind, Except.bind]
  rw [Iss.vec_clean ho]
  rfl

/-- A lane result of a whole line. -/
theorem Iss.line_gave {s : State} {x : Iss} {fx : Iss → Except Halt State} {g : Guard} {d : Dst} {a : Sel} {block : Bool} {j : Option Nat}
    {y : VVal → Nat → W32} {fl : VVal → Fl} {f : LaneForm}
    (hx : s.issuing = some x) (hf : x.lineForm g d a block j y fl = some f) (ho : f.ok = true)
    (hr : x.ready s (x.act f.g) f.us (dstUses .v f.d) false = true)
    (h : fx x = (do
      let t ← x.enter s (x.act g) [src .v a] (dstUses .v d) false
      if x.act g = 0 then x.laneResult s (x.act g) t d [src .v a] (fun _ => 0) 0
      else
        let v ← x.lineSrc a
        lineCheck v (encSel a).toNat block j
        x.laneResult s (x.act g) t d [src .v a] (y v) (fl v))) :
    x.gaveV s (s.issue fx) f.us f.d (x.act f.g) f.m (lineOf f.y) f.sb f.fl f.words f.drew := by
  simp only [Iss.lineForm, Iss.laneForm, Option.some.injEq] at hf
  subst hf
  simp only [enter_ready hr, bind, Except.bind] at h
  by_cases ha : x.act g = 0#32
  · have ha' : x.act g = 0 := ha
    simp only [if_pos ha'] at h ⊢
    rw [ha] at h ⊢
    exact Iss.gaveV_none _ none (Iss.gaveV_issue 0#32 0#32 _ d (lineOf (fun _ => 0)) none 0 1 hx h)
  · have ha' : ¬x.act g = 0 := ha
    simp only [Bool.or_eq_true, decide_eq_true_eq, ha', false_or, Bool.and_eq_true] at ho
    simp only [if_neg ha', Iss.lineSrc, Iss.vec_clean ho.1, lineCheck_ok ho.2] at h ⊢
    exact Iss.gaveV_issue _ _ _ d _ none _ 1 hx h

theorem Iss.scaleOp_clean {x : Iss} {act : Lanes} {ty : Ty} {b : Sel} (ha : act ≠ 0) (h : x.scaleClean act ty b = true) :
    x.scaleOp act ty b = .ok (x.scaleVal act ty b) := by
  unfold Iss.scaleOp
  cases ty with
  | vec => simp only [Iss.scaleClean, lowLane] at h; simp only [Iss.vec_clean h, bind, Except.bind]; rfl
  | scal =>
    simp only [Iss.scaleClean] at h
    simp only [Iss.scal_clean h, bind, Except.bind]; rfl
  | mix =>
    simp only [Iss.scaleClean] at h
    simp only [Iss.scal_clean h, bind, Except.bind]; rfl

theorem Iss.brscShift_clean {x : Iss} {act : Lanes} {mode : BrscMode} (ha : act ≠ 0) (h : x.shiftClean act mode = true) :
    x.brscShift mode = .ok (x.shiftVal mode) := by
  cases mode with
  | shift q =>
    have := Iss.scal_clean (m := act) h
    simp only [ha, ne_eq, not_false_eq_true, decide_true] at this
    exact this
  | _ => rfl

theorem drewIf_setTeam (c : Bool) (s : State) (u : Nat) (T : Team) :
    drewIf c (s.setTeam u T) u = s.setTeam u (if c then T.drew else T) := by
  unfold drewIf; cases c
  · rfl
  · simp only [↓reduceIte]; exact State.setTeam_drew s u T

/-- A line written whole, or nothing. -/
theorem Iss.writer_gave {s : State} {x : Iss} {fx : Iss → Except Halt State} {g : Guard} {us : List SrcUse} {d : Dst} {ok dr : Bool}
    {y : Line} {sb : SideBand} {fl : Fl} {f : LaneForm}
    (hx : s.issuing = some x) (hf : x.writerForm g us d ok y sb fl dr = some f) (ho : f.ok = true)
    (hr : x.ready s (x.act f.g) f.us (dstUses .v f.d) false = true)
    (h0 : x.act g = 0 → fx x = (do
      let t ← x.enter s (x.act g) us (dstUses .v d) false
      (x.lineResult s (x.act g) t d us 0 0 0).map (fun s => drewIf dr s x.u)))
    (h1 : x.act g ≠ 0 → ok = true → fx x = (do
      let t ← x.enter s (x.act g) us (dstUses .v d) false
      (x.lineResult s (x.act g) t d us y sb fl).map (fun s => drewIf dr s x.u))) :
    x.gaveV s (s.issue fx) f.us f.d (x.act f.g) f.m (lineOf f.y) f.sb f.fl f.words f.drew := by
  simp only [Iss.writerForm, Option.some.injEq] at hf
  subst hf
  simp only at hr ho ⊢
  have fin : ∀ (m : Lanes) (y : Line) (sb : SideBand) (fl : Fl), fx x = .ok (s.setTeam x.u (if dr = true then
      ((x.entered (x.act g) us (dstUses .v d) false).finish x.off us [.vec d.idx.toNat d.ws m y (some sb) []] fl 1).drew else
      (x.entered (x.act g) us (dstUses .v d) false).finish x.off us [.vec d.idx.toNat d.ws m y (some sb) []] fl 1)) →
      x.gaveV s (s.issue fx) us d (x.act g) m y (some sb) fl 1 dr := by
    intro m y sb fl h
    rw [State.issue_ok hx h]
    exact Iss.gaveV_end hx (x.act g) m us d y (some sb) fl 1 dr
  by_cases ha : x.act g = 0
  · have h := h0 ha
    simp only [enter_ready hr, bind, Except.bind, Iss.lineResult, if_pos ha, Except.map, drewIf_setTeam] at h
    simp only [if_pos ha]
    exact Iss.gaveV_none _ _ (fin 0 0 0 0 h)
  · have hk : ok = true := by
      simp only [Bool.or_eq_true, decide_eq_true_eq] at ho; exact ho.resolve_left ha
    have h := h1 ha hk
    simp only [enter_ready hr, bind, Except.bind, Iss.lineResult, if_neg ha, Except.map, drewIf_setTeam] at h
    simp only [if_neg ha, lineOf_laneOf]
    exact fin allLanes y sb fl h

end Sys2Proof.Machine
end

