-- ==== Sys2Proof/Laws/Long.lean ====
section
/-! SUPPORT. The issue of an operation whose result lands later: the team it leaves and the machine around it. -/

namespace Sys2Proof.Machine

/-! ## The machine around the team -/

theorem State.addOut_setTeam (s : State) (o : OutReq) (u : Nat) (T : Team) :
    (s.setTeam u T).addOut o = (s.addOut o).setTeam u T := rfl
/-- The class of a load does not depend on the teams, and charging it changes none. -/
theorem State.takeClass_setTeam (s : State) (o : MemOp) (u : Nat) (T : Team) :
    (s.setTeam u T).takeClass o = ((s.takeClass o).1, (s.takeClass o).2.setTeam u T) := by
  unfold State.takeClass
  have e1 : (s.setTeam u T).ctxAt o.ctx = s.ctxAt o.ctx := rfl
  have e2 : (s.setTeam u T).budget o.die o.ctx = s.budget o.die o.ctx := rfl
  simp only [e1, e2]
  split <;> rfl
@[simp] theorem State.takeClass_teams (s : State) (o : MemOp) : (s.takeClass o).2.teams = s.teams := by
  unfold State.takeClass
  simp only
  split <;> rfl
theorem State.addOp_setTeam (s : State) (o : MemOp) (u : Nat) (T : Team) : (s.setTeam u T).addOp o = (s.addOp o).setTeam u T := by
  unfold State.addOp
  simp only [State.takeClass_setTeam]
  generalize o.kind.remote o.id = l
  generalize (s.takeClass o).1 = c
  have h : ∀ (l : List (Nat × OutKind)) (b : State),
      l.foldl (fun (s : State) (q : Nat × OutKind) => s.addOut { id := 0, pkg := q.1, cls := c, team := some o.team, ctx := o.ctx,
                                                                 die := o.die, pc := o.pc, kind := q.2, waited := 0 })
        (b.setTeam u T)
      = (l.foldl (fun (s : State) (q : Nat × OutKind) => s.addOut { id := 0, pkg := q.1, cls := c, team := some o.team, ctx := o.ctx,
                                                                    die := o.die, pc := o.pc, kind := q.2, waited := 0 }) b).setTeam u T := by
    intro l
    induction l with
    | nil => intro b; rfl
    | cons a r ih => intro b; simp only [List.foldl_cons, State.addOut_setTeam, ih]
  exact h l (((s.takeClass o).2.setNet (fun n => { n with ops := n.ops ++ [o] })).bump)
@[simp] theorem State.addOp_teams (s : State) (o : MemOp) : (s.addOp o).teams = s.teams := by
  unfold State.addOp
  simp only
  rw [foldl_same (fun s : State => s.teams) (fun (b : State) (q : Nat × OutKind) => b.addOut
    { id := 0, pkg := q.1, cls := (s.takeClass o).1, team := some o.team, ctx := o.ctx, die := o.die, pc := o.pc, kind := q.2, waited := 0 })
    (fun _ _ => rfl) (o.kind.remote o.id)]
  exact s.takeClass_teams o
@[simp] theorem State.addOp_teamAt (s : State) (o : MemOp) (u : Nat) : (s.addOp o).teamAt u = s.teamAt u := by
  simp [State.teamAt]

/-! ## Registers that wait for a result -/

theorem Team.awaitV_vval (t : Team) (i j : Nat) :
    (t.awaitV i).vval j = if j = i then some ((t.vval i).getD (0, 0, [])) else t.vval j := by
  unfold Team.awaitV Team.vval Team.vget Team.putV
  simp only [look_change, look_place]
  by_cases h : j = i
  · subst h
    simp only [↓reduceIte, Option.map_map, Option.getD_none, List.filter_nil, List.append_nil, merge_none]
    have e : ∀ y : Option VReg, (y.getD VReg.zero).poison.filter (fun p => !(0 : Lanes).getLsbD p.lane)
        = (y.getD VReg.zero).poison := by
      intro y; rw [List.filter_eq_self]; intro p _; simp
    simp only [e, Option.map_some, Team.vget]
    cases look j t.vregs <;> rfl
  · simp [h]
@[simp] theorem Team.awaitV_sval (t : Team) (i j : Nat) : (t.awaitV i).sval j = t.sval j := rfl
@[simp] theorem Team.awaitV_side (t : Team) (i : Nat) (o : Bool) : (t.awaitV i).side o = t.side o := by cases o <;> rfl
@[simp] theorem Team.awaitV_pred (t : Team) (i p : Nat) : (t.awaitV i).pred p = t.pred p := rfl
@[simp] theorem Team.awaitV_flags (t : Team) (i : Nat) : (t.awaitV i).flags = t.flags := rfl
@[simp] theorem Team.awaitV_rest (t : Team) (i : Nat) : (t.awaitV i).rest = t.rest := rfl
@[simp] theorem Team.awaitS_vval (t : Team) (i j : Nat) : (t.awaitS i).vval j = t.vval j := by unfold Team.awaitS; split <;> rfl
@[simp] theorem Team.awaitS_side (t : Team) (i : Nat) (o : Bool) : (t.awaitS i).side o = t.side o := by
  unfold Team.awaitS; split <;> rfl
@[simp] theorem Team.awaitS_pred (t : Team) (i p : Nat) : (t.awaitS i).pred p = t.pred p := by unfold Team.awaitS; split <;> rfl
@[simp] theorem Team.awaitS_flags (t : Team) (i : Nat) : (t.awaitS i).flags = t.flags := by unfold Team.awaitS; split <;> rfl
@[simp] theorem Team.awaitS_rest (t : Team) (i : Nat) : (t.awaitS i).rest = t.rest := by unfold Team.awaitS; split <;> rfl
theorem Team.awaitS_sval (t : Team) (i j : Nat) :
    (t.awaitS i).sval j = if j = i then some ((t.sval i).getD (0, none)) else t.sval j := by
  unfold Team.awaitS
  by_cases h : t.shadowed i = true
  · simp only [h, ↓reduceIte]
    unfold Team.sval Team.sget
    have q : ∀ l k, Team.shadowed { t with shadow := l } k = t.shadowed k := fun _ _ => rfl
    rw [q]
    simp only [nth_modAt]
    by_cases e : j = i
    · subst e
      simp only [h, ↓reduceIte]
      split <;> rfl
    · simp only [e, ↓reduceIte]
      split
      · split
        · rename_i a b
          have h1 : 56 ≤ i := by simp [Team.shadowed] at h; exact h.1.2
          have h2 : 56 ≤ j := by simp [Team.shadowed] at a; exact a.1.2
          omega
        · rfl
      · rfl
  · simp only [h, Bool.false_eq_true, ↓reduceIte]
    unfold Team.sval Team.sget
    have q : ∀ (l : List (Nat × SReg)) k, Team.shadowed { t with sregs := l } k = t.shadowed k := fun _ _ => rfl
    rw [q]
    by_cases e : j = i
    · subst e
      simp only [h, Bool.false_eq_true, ↓reduceIte, look_place_same]
      cases look j t.sregs <;> simp
    · simp only [e, ↓reduceIte, look_place]

theorem Team.awaitVs_vval (t : Team) (l : List Nat) (j : Nat) :
    (l.foldl Team.awaitV t).vval j = if j ∈ l then some ((t.vval j).getD (0, 0, [])) else t.vval j := by
  induction l generalizing t with
  | nil => simp
  | cons i r ih =>
    rw [List.foldl_cons, ih, Team.awaitV_vval]
    by_cases a : j ∈ r <;> by_cases b : j = i <;> simp [a, b]

/-- What waiting for a result does to a team. -/
theorem Team.await_all (t : Team) (d : LDst) :
    (∀ j, (t.await d).vval j = if j ∈ d.vregs then some ((t.vval j).getD (0, 0, [])) else t.vval j)
      ∧ (∀ j, (t.await d).sval j = if j ∈ d.sregs then some ((t.sval j).getD (0, none)) else t.sval j)
      ∧ (∀ p, (t.await d).pred p = t.pred p) ∧ (t.await d).flags = t.flags ∧ (t.await d).rest = t.rest
      ∧ (∀ o, (t.await d).side o = t.side o) := by
  cases d with
  | none => simp [Team.await, LDst.vregs, LDst.sregs]
  | scal i =>
    refine ⟨?_, ?_, ?_, ?_, ?_, ?_⟩ <;> simp [Team.await, LDst.vregs, LDst.sregs, Team.awaitS_sval]
    intro j; by_cases h : j = i <;> simp [h]
  | vec i n =>
    simp only [Team.await, LDst.vregs, LDst.sregs]
    refine ⟨fun j => Team.awaitVs_vval t _ j, fun j => ?_, fun p => ?_, ?_, ?_, fun o => ?_⟩
    · simp [foldl_same (fun t : Team => t.sval j) Team.awaitV (fun b a => Team.awaitV_sval b a j)]
    · exact foldl_same (fun t : Team => t.pred p) Team.awaitV (fun b a => Team.awaitV_pred b a p) _ t
    · exact foldl_same (fun t : Team => t.flags) Team.awaitV (fun b a => Team.awaitV_flags b a) _ t
    · exact foldl_same (fun t : Team => t.rest) Team.awaitV (fun b a => Team.awaitV_rest b a) _ t
    · exact foldl_same (fun t : Team => t.side o) Team.awaitV (fun b a => Team.awaitV_side b a o) _ t

/-- An instruction that has issued an operation: t is its team but for the rest and the latches. -/
theorem Iss.sent_end {s s' : State} {x : Iss} {t : Team} (hx : s.issuing = some x) (us : List SrcUse) (act : Lanes) (dst : LDst) (static : Bool) (fl : Fl)
    (n : Nat) (out : State) (k : t.like x.t x.off)
    (hl : (t.side x.off).latches = ((x.entered act us dst.uses static).side x.off).latches)
    (ho : s'.outside = out.outside) (ht : ∀ v, v ≠ x.u → s'.teamAt v = s.teamAt v) :
    x.sent s (.next ((s'.setTeam x.u (t.finishLong x.off us dst fl n)).issued x.u x.off)) us act dst static fl n t.rest out := by
  obtain ⟨a1, a2, a3, a4, a5, a6⟩ := Team.await_all (t.useSrcs us) dst
  refine ⟨_, _, rfl, Iss.endsIn_of _ _ k ?_ ?_ (Iss.past_of hx k ?_) ?_ (fun i hi => ?_) (fun i hi => ?_) (fun q _ => ?_) ?_ ho ht, fun i hi => ?_,
    fun i hi => ?_⟩
  · unfold Team.finishLong; simp [a6, hl]
  · unfold Team.finishLong; simp [a4, k.flags]
  · unfold Team.finishLong; simp [a6]
  · unfold Team.finishLong; simp [a6]
  · have : i ∉ dst.vregs := by simpa using hi
    unfold Team.finishLong; simp [a1, this]
  · have : i ∉ dst.sregs := by simpa using hi
    unfold Team.finishLong; simp [a2, this]
  · unfold Team.finishLong; simp [a3]
  · unfold Team.finishLong; simp [a5]
  · unfold Team.finishLong Team.prior
    simp only [Team.issuedOn_vval, Team.advance_vval, Team.raise_vval, a1, hi, ↓reduceIte, Team.useSrcs_vval, k.last, k.vval]
    split <;> simp
  · unfold Team.finishLong Team.priorS
    simp only [Team.issuedOn_sval, Team.advance_sval, Team.raise_sval, a2, hi, ↓reduceIte, Team.useSrcs_sval, k.last, k.sval]
    split <;> simp

/-! ## Computations whose result lands later -/

theorem Iss.calcLong_sent {s : State} {x : Iss} {g : Guard} {ty : Ty} {d : Nat} {args : List Arg} {n : Nat} {f : Calc}
    (hx : s.issuing = some x)
    (hr : x.ready s (x.act g) (argUses args) (longDst (x.act g) ty d).uses false = true)
    (hc : x.clean (x.act g) (argUses args) = true) :
    x.sent s (s.issue (fun x => x.calcLong s g ty d args n f)) (argUses args) (x.act g) (longDst (x.act g) ty d) false
      (x.longFlags (x.act g) ty args f) n x.t.rest
      (if x.act g = 0 then s else s.addOp (x.memOp s (x.longKind (x.act g) ty args f) (longDst (x.act g) ty d) (x.act g))) := by
  have e : x.calcLong s g ty d args n f = .ok (
      (if x.act g = 0 then s else s.addOp (x.memOp s (x.longKind (x.act g) ty args f) (longDst (x.act g) ty d) (x.act g))).setTeam x.u
        ((x.entered (x.act g) (argUses args) (longDst (x.act g) ty d).uses false).finishLong x.off (argUses args)
          (longDst (x.act g) ty d) (x.longFlags (x.act g) ty args f) n)) := by
    have hd : (if x.act g = 0 then LDst.none else match ty.kind with | .v => .vec d 1 | .s => .scal d) = longDst (x.act g) ty d := rfl
    unfold Iss.calcLong
    cases hk : ty.kind with
    | s =>
      simp only [longDst, hk, Iss.longFlags, Iss.longKind] at *
      simp only [enter_ready hr, Iss.wordL_clean hc, bind, Except.bind]
      by_cases ha : x.act g = 0
      · simp only [ha, ↓reduceIte, ne_eq, not_true_eq_false]
      · simp only [ha, ↓reduceIte, ne_eq, not_false_eq_true]
        rw [State.addOp_setTeam]; rfl
    | v =>
      simp only [longDst, hk, Iss.longFlags, Iss.longKind] at *
      simp only [enter_ready hr, Iss.lanesL_clean hc, bind, Except.bind]
      by_cases ha : x.act g = 0
      · simp only [ha, ↓reduceIte]; rfl
      · simp only [ha, ↓reduceIte]
        rw [State.addOp_setTeam]; rfl
  rw [State.issue_ok hx e]
  have k := x.entered_like (x.act g) (argUses args) (longDst (x.act g) ty d).uses false
  have h := Iss.sent_end (s := s) hx (s' := if x.act g = 0 then s else
    s.addOp (x.memOp s (x.longKind (x.act g) ty args f) (longDst (x.act g) ty d) (x.act g))) (argUses args) (x.act g)
    (longDst (x.act g) ty d) false (x.longFlags (x.act g) ty args f) n _ k rfl rfl (by intro v _; split <;> simp)
  rw [Iss.entered_rest] at h
  exact h

end Sys2Proof.Machine
end

