-- ==== Sys2Proof/Laws/State.lean ====
section
/-! SUPPORT. What each update of the machine leaves alone, field by field, so that no proof unfolds a record update. -/

namespace Sys2Proof.Machine

/-! ## Updates of the machine -/

@[simp] theorem State.setTeam_mem (s : State) (u : Nat) (t : Team) : (s.setTeam u t).mem = s.mem := rfl
@[simp] theorem State.setTeam_blocks (s : State) (u : Nat) (t : Team) : (s.setTeam u t).blocks = s.blocks := rfl
@[simp] theorem State.setTeam_launches (s : State) (u : Nat) (t : Team) : (s.setTeam u t).launches = s.launches := rfl
@[simp] theorem State.setTeam_cores (s : State) (u : Nat) (t : Team) : (s.setTeam u t).cores = s.cores := rfl
@[simp] theorem State.setTeam_dies (s : State) (u : Nat) (t : Team) : (s.setTeam u t).dies = s.dies := rfl
@[simp] theorem State.setTeam_sched (s : State) (u : Nat) (t : Team) : (s.setTeam u t).sched = s.sched := rfl
@[simp] theorem State.setTeam_net (s : State) (u : Nat) (t : Team) : (s.setTeam u t).net = s.net := rfl
@[simp] theorem State.setTeam_io (s : State) (u : Nat) (t : Team) : (s.setTeam u t).io = s.io := rfl
@[simp] theorem State.setTeam_solnal (s : State) (u : Nat) (t : Team) : (s.setTeam u t).solnal = s.solnal := rfl
@[simp] theorem State.setTeam_run (s : State) (u : Nat) (t : Team) : (s.setTeam u t).run = s.run := rfl

@[simp] theorem State.modTeam_mem (s : State) (u : Nat) (f : Team → Team) : (s.modTeam u f).mem = s.mem := rfl
@[simp] theorem State.modTeam_blocks (s : State) (u : Nat) (f : Team → Team) : (s.modTeam u f).blocks = s.blocks := rfl
@[simp] theorem State.modTeam_launches (s : State) (u : Nat) (f : Team → Team) : (s.modTeam u f).launches = s.launches := rfl
@[simp] theorem State.modTeam_cores (s : State) (u : Nat) (f : Team → Team) : (s.modTeam u f).cores = s.cores := rfl
@[simp] theorem State.modTeam_dies (s : State) (u : Nat) (f : Team → Team) : (s.modTeam u f).dies = s.dies := rfl
@[simp] theorem State.modTeam_sched (s : State) (u : Nat) (f : Team → Team) : (s.modTeam u f).sched = s.sched := rfl
@[simp] theorem State.modTeam_net (s : State) (u : Nat) (f : Team → Team) : (s.modTeam u f).net = s.net := rfl
@[simp] theorem State.modTeam_io (s : State) (u : Nat) (f : Team → Team) : (s.modTeam u f).io = s.io := rfl
@[simp] theorem State.modTeam_solnal (s : State) (u : Nat) (f : Team → Team) : (s.modTeam u f).solnal = s.solnal := rfl
@[simp] theorem State.modTeam_run (s : State) (u : Nat) (f : Team → Team) : (s.modTeam u f).run = s.run := rfl

@[simp] theorem State.setBlock_mem (s : State) (b : Nat) (x : Block) : (s.setBlock b x).mem = s.mem := rfl
@[simp] theorem State.setBlock_teams (s : State) (b : Nat) (x : Block) : (s.setBlock b x).teams = s.teams := rfl
@[simp] theorem State.setBlock_launches (s : State) (b : Nat) (x : Block) : (s.setBlock b x).launches = s.launches := rfl
@[simp] theorem State.setBlock_cores (s : State) (b : Nat) (x : Block) : (s.setBlock b x).cores = s.cores := rfl
@[simp] theorem State.setBlock_dies (s : State) (b : Nat) (x : Block) : (s.setBlock b x).dies = s.dies := rfl
@[simp] theorem State.setBlock_sched (s : State) (b : Nat) (x : Block) : (s.setBlock b x).sched = s.sched := rfl
@[simp] theorem State.setBlock_net (s : State) (b : Nat) (x : Block) : (s.setBlock b x).net = s.net := rfl
@[simp] theorem State.setBlock_io (s : State) (b : Nat) (x : Block) : (s.setBlock b x).io = s.io := rfl
@[simp] theorem State.setBlock_solnal (s : State) (b : Nat) (x : Block) : (s.setBlock b x).solnal = s.solnal := rfl
@[simp] theorem State.setBlock_run (s : State) (b : Nat) (x : Block) : (s.setBlock b x).run = s.run := rfl

@[simp] theorem State.modBlock_mem (s : State) (b : Nat) (f : Block → Block) : (s.modBlock b f).mem = s.mem := rfl
@[simp] theorem State.modBlock_teams (s : State) (b : Nat) (f : Block → Block) : (s.modBlock b f).teams = s.teams := rfl
@[simp] theorem State.modBlock_launches (s : State) (b : Nat) (f : Block → Block) : (s.modBlock b f).launches = s.launches := rfl
@[simp] theorem State.modBlock_cores (s : State) (b : Nat) (f : Block → Block) : (s.modBlock b f).cores = s.cores := rfl
@[simp] theorem State.modBlock_dies (s : State) (b : Nat) (f : Block → Block) : (s.modBlock b f).dies = s.dies := rfl
@[simp] theorem State.modBlock_sched (s : State) (b : Nat) (f : Block → Block) : (s.modBlock b f).sched = s.sched := rfl
@[simp] theorem State.modBlock_net (s : State) (b : Nat) (f : Block → Block) : (s.modBlock b f).net = s.net := rfl
@[simp] theorem State.modBlock_io (s : State) (b : Nat) (f : Block → Block) : (s.modBlock b f).io = s.io := rfl
@[simp] theorem State.modBlock_solnal (s : State) (b : Nat) (f : Block → Block) : (s.modBlock b f).solnal = s.solnal := rfl
@[simp] theorem State.modBlock_run (s : State) (b : Nat) (f : Block → Block) : (s.modBlock b f).run = s.run := rfl

@[simp] theorem State.modLaunch_mem (s : State) (l : Nat) (f : Launch → Launch) : (s.modLaunch l f).mem = s.mem := rfl
@[simp] theorem State.modLaunch_teams (s : State) (l : Nat) (f : Launch → Launch) : (s.modLaunch l f).teams = s.teams := rfl
@[simp] theorem State.modLaunch_blocks (s : State) (l : Nat) (f : Launch → Launch) : (s.modLaunch l f).blocks = s.blocks := rfl
@[simp] theorem State.modLaunch_cores (s : State) (l : Nat) (f : Launch → Launch) : (s.modLaunch l f).cores = s.cores := rfl
@[simp] theorem State.modLaunch_dies (s : State) (l : Nat) (f : Launch → Launch) : (s.modLaunch l f).dies = s.dies := rfl
@[simp] theorem State.modLaunch_sched (s : State) (l : Nat) (f : Launch → Launch) : (s.modLaunch l f).sched = s.sched := rfl
@[simp] theorem State.modLaunch_net (s : State) (l : Nat) (f : Launch → Launch) : (s.modLaunch l f).net = s.net := rfl
@[simp] theorem State.modLaunch_io (s : State) (l : Nat) (f : Launch → Launch) : (s.modLaunch l f).io = s.io := rfl
@[simp] theorem State.modLaunch_solnal (s : State) (l : Nat) (f : Launch → Launch) : (s.modLaunch l f).solnal = s.solnal := rfl
@[simp] theorem State.modLaunch_run (s : State) (l : Nat) (f : Launch → Launch) : (s.modLaunch l f).run = s.run := rfl

@[simp] theorem State.modCore_mem (s : State) (d c : Nat) (f : Core → Core) : (s.modCore d c f).mem = s.mem := rfl
@[simp] theorem State.modCore_teams (s : State) (d c : Nat) (f : Core → Core) : (s.modCore d c f).teams = s.teams := rfl
@[simp] theorem State.modCore_blocks (s : State) (d c : Nat) (f : Core → Core) : (s.modCore d c f).blocks = s.blocks := rfl
@[simp] theorem State.modCore_launches (s : State) (d c : Nat) (f : Core → Core) : (s.modCore d c f).launches = s.launches := rfl
@[simp] theorem State.modCore_dies (s : State) (d c : Nat) (f : Core → Core) : (s.modCore d c f).dies = s.dies := rfl
@[simp] theorem State.modCore_sched (s : State) (d c : Nat) (f : Core → Core) : (s.modCore d c f).sched = s.sched := rfl
@[simp] theorem State.modCore_net (s : State) (d c : Nat) (f : Core → Core) : (s.modCore d c f).net = s.net := rfl
@[simp] theorem State.modCore_io (s : State) (d c : Nat) (f : Core → Core) : (s.modCore d c f).io = s.io := rfl
@[simp] theorem State.modCore_solnal (s : State) (d c : Nat) (f : Core → Core) : (s.modCore d c f).solnal = s.solnal := rfl
@[simp] theorem State.modCore_run (s : State) (d c : Nat) (f : Core → Core) : (s.modCore d c f).run = s.run := rfl

@[simp] theorem State.modDie_mem (s : State) (d : Nat) (f : Die → Die) : (s.modDie d f).mem = s.mem := rfl
@[simp] theorem State.modDie_teams (s : State) (d : Nat) (f : Die → Die) : (s.modDie d f).teams = s.teams := rfl
@[simp] theorem State.modDie_blocks (s : State) (d : Nat) (f : Die → Die) : (s.modDie d f).blocks = s.blocks := rfl
@[simp] theorem State.modDie_launches (s : State) (d : Nat) (f : Die → Die) : (s.modDie d f).launches = s.launches := rfl
@[simp] theorem State.modDie_cores (s : State) (d : Nat) (f : Die → Die) : (s.modDie d f).cores = s.cores := rfl
@[simp] theorem State.modDie_sched (s : State) (d : Nat) (f : Die → Die) : (s.modDie d f).sched = s.sched := rfl
@[simp] theorem State.modDie_net (s : State) (d : Nat) (f : Die → Die) : (s.modDie d f).net = s.net := rfl
@[simp] theorem State.modDie_io (s : State) (d : Nat) (f : Die → Die) : (s.modDie d f).io = s.io := rfl
@[simp] theorem State.modDie_solnal (s : State) (d : Nat) (f : Die → Die) : (s.modDie d f).solnal = s.solnal := rfl
@[simp] theorem State.modDie_run (s : State) (d : Nat) (f : Die → Die) : (s.modDie d f).run = s.run := rfl

@[simp] theorem State.modCtx_mem (s : State) (c : Nat) (f : Ctx → Ctx) : (s.modCtx c f).mem = s.mem := rfl
@[simp] theorem State.modCtx_teams (s : State) (c : Nat) (f : Ctx → Ctx) : (s.modCtx c f).teams = s.teams := rfl
@[simp] theorem State.modCtx_blocks (s : State) (c : Nat) (f : Ctx → Ctx) : (s.modCtx c f).blocks = s.blocks := rfl
@[simp] theorem State.modCtx_launches (s : State) (c : Nat) (f : Ctx → Ctx) : (s.modCtx c f).launches = s.launches := rfl
@[simp] theorem State.modCtx_cores (s : State) (c : Nat) (f : Ctx → Ctx) : (s.modCtx c f).cores = s.cores := rfl
@[simp] theorem State.modCtx_dies (s : State) (c : Nat) (f : Ctx → Ctx) : (s.modCtx c f).dies = s.dies := rfl
@[simp] theorem State.modCtx_net (s : State) (c : Nat) (f : Ctx → Ctx) : (s.modCtx c f).net = s.net := rfl
@[simp] theorem State.modCtx_io (s : State) (c : Nat) (f : Ctx → Ctx) : (s.modCtx c f).io = s.io := rfl
@[simp] theorem State.modCtx_solnal (s : State) (c : Nat) (f : Ctx → Ctx) : (s.modCtx c f).solnal = s.solnal := rfl
@[simp] theorem State.modCtx_run (s : State) (c : Nat) (f : Ctx → Ctx) : (s.modCtx c f).run = s.run := rfl

@[simp] theorem State.modQueue_mem (s : State) (q : Nat) (f : Queue → Queue) : (s.modQueue q f).mem = s.mem := rfl
@[simp] theorem State.modQueue_teams (s : State) (q : Nat) (f : Queue → Queue) : (s.modQueue q f).teams = s.teams := rfl
@[simp] theorem State.modQueue_blocks (s : State) (q : Nat) (f : Queue → Queue) : (s.modQueue q f).blocks = s.blocks := rfl
@[simp] theorem State.modQueue_launches (s : State) (q : Nat) (f : Queue → Queue) : (s.modQueue q f).launches = s.launches := rfl
@[simp] theorem State.modQueue_cores (s : State) (q : Nat) (f : Queue → Queue) : (s.modQueue q f).cores = s.cores := rfl
@[simp] theorem State.modQueue_dies (s : State) (q : Nat) (f : Queue → Queue) : (s.modQueue q f).dies = s.dies := rfl
@[simp] theorem State.modQueue_net (s : State) (q : Nat) (f : Queue → Queue) : (s.modQueue q f).net = s.net := rfl
@[simp] theorem State.modQueue_io (s : State) (q : Nat) (f : Queue → Queue) : (s.modQueue q f).io = s.io := rfl
@[simp] theorem State.modQueue_solnal (s : State) (q : Nat) (f : Queue → Queue) : (s.modQueue q f).solnal = s.solnal := rfl
@[simp] theorem State.modQueue_run (s : State) (q : Nat) (f : Queue → Queue) : (s.modQueue q f).run = s.run := rfl

@[simp] theorem State.modPart_mem (s : State) (p : Nat) (f : Part → Part) : (s.modPart p f).mem = s.mem := rfl
@[simp] theorem State.modPart_teams (s : State) (p : Nat) (f : Part → Part) : (s.modPart p f).teams = s.teams := rfl
@[simp] theorem State.modPart_blocks (s : State) (p : Nat) (f : Part → Part) : (s.modPart p f).blocks = s.blocks := rfl
@[simp] theorem State.modPart_launches (s : State) (p : Nat) (f : Part → Part) : (s.modPart p f).launches = s.launches := rfl
@[simp] theorem State.modPart_cores (s : State) (p : Nat) (f : Part → Part) : (s.modPart p f).cores = s.cores := rfl
@[simp] theorem State.modPart_dies (s : State) (p : Nat) (f : Part → Part) : (s.modPart p f).dies = s.dies := rfl
@[simp] theorem State.modPart_net (s : State) (p : Nat) (f : Part → Part) : (s.modPart p f).net = s.net := rfl
@[simp] theorem State.modPart_io (s : State) (p : Nat) (f : Part → Part) : (s.modPart p f).io = s.io := rfl
@[simp] theorem State.modPart_solnal (s : State) (p : Nat) (f : Part → Part) : (s.modPart p f).solnal = s.solnal := rfl
@[simp] theorem State.modPart_run (s : State) (p : Nat) (f : Part → Part) : (s.modPart p f).run = s.run := rfl

@[simp] theorem State.setNet_mem (s : State) (f : Net → Net) : (s.setNet f).mem = s.mem := rfl
@[simp] theorem State.setNet_teams (s : State) (f : Net → Net) : (s.setNet f).teams = s.teams := rfl
@[simp] theorem State.setNet_blocks (s : State) (f : Net → Net) : (s.setNet f).blocks = s.blocks := rfl
@[simp] theorem State.setNet_launches (s : State) (f : Net → Net) : (s.setNet f).launches = s.launches := rfl
@[simp] theorem State.setNet_cores (s : State) (f : Net → Net) : (s.setNet f).cores = s.cores := rfl
@[simp] theorem State.setNet_dies (s : State) (f : Net → Net) : (s.setNet f).dies = s.dies := rfl
@[simp] theorem State.setNet_sched (s : State) (f : Net → Net) : (s.setNet f).sched = s.sched := rfl
@[simp] theorem State.setNet_io (s : State) (f : Net → Net) : (s.setNet f).io = s.io := rfl
@[simp] theorem State.setNet_solnal (s : State) (f : Net → Net) : (s.setNet f).solnal = s.solnal := rfl
@[simp] theorem State.setNet_run (s : State) (f : Net → Net) : (s.setNet f).run = s.run := rfl

@[simp] theorem State.bump_mem (s : State) : (s.bump).mem = s.mem := rfl
@[simp] theorem State.bump_teams (s : State) : (s.bump).teams = s.teams := rfl
@[simp] theorem State.bump_blocks (s : State) : (s.bump).blocks = s.blocks := rfl
@[simp] theorem State.bump_launches (s : State) : (s.bump).launches = s.launches := rfl
@[simp] theorem State.bump_cores (s : State) : (s.bump).cores = s.cores := rfl
@[simp] theorem State.bump_dies (s : State) : (s.bump).dies = s.dies := rfl
@[simp] theorem State.bump_sched (s : State) : (s.bump).sched = s.sched := rfl
@[simp] theorem State.bump_io (s : State) : (s.bump).io = s.io := rfl
@[simp] theorem State.bump_solnal (s : State) : (s.bump).solnal = s.solnal := rfl

@[simp] theorem State.setOp_mem (s : State) (o : MemOp) : (s.setOp o).mem = s.mem := rfl
@[simp] theorem State.setOp_teams (s : State) (o : MemOp) : (s.setOp o).teams = s.teams := rfl
@[simp] theorem State.setOp_blocks (s : State) (o : MemOp) : (s.setOp o).blocks = s.blocks := rfl
@[simp] theorem State.setOp_launches (s : State) (o : MemOp) : (s.setOp o).launches = s.launches := rfl
@[simp] theorem State.setOp_cores (s : State) (o : MemOp) : (s.setOp o).cores = s.cores := rfl
@[simp] theorem State.setOp_dies (s : State) (o : MemOp) : (s.setOp o).dies = s.dies := rfl
@[simp] theorem State.setOp_sched (s : State) (o : MemOp) : (s.setOp o).sched = s.sched := rfl
@[simp] theorem State.setOp_io (s : State) (o : MemOp) : (s.setOp o).io = s.io := rfl
@[simp] theorem State.setOp_solnal (s : State) (o : MemOp) : (s.setOp o).solnal = s.solnal := rfl
@[simp] theorem State.setOp_run (s : State) (o : MemOp) : (s.setOp o).run = s.run := rfl

@[simp] theorem State.removeOp_mem (s : State) (i : Nat) : (s.removeOp i).mem = s.mem := rfl
@[simp] theorem State.removeOp_teams (s : State) (i : Nat) : (s.removeOp i).teams = s.teams := rfl
@[simp] theorem State.removeOp_blocks (s : State) (i : Nat) : (s.removeOp i).blocks = s.blocks := rfl
@[simp] theorem State.removeOp_launches (s : State) (i : Nat) : (s.removeOp i).launches = s.launches := rfl
@[simp] theorem State.removeOp_cores (s : State) (i : Nat) : (s.removeOp i).cores = s.cores := rfl
@[simp] theorem State.removeOp_dies (s : State) (i : Nat) : (s.removeOp i).dies = s.dies := rfl
@[simp] theorem State.removeOp_sched (s : State) (i : Nat) : (s.removeOp i).sched = s.sched := rfl
@[simp] theorem State.removeOp_io (s : State) (i : Nat) : (s.removeOp i).io = s.io := rfl
@[simp] theorem State.removeOp_solnal (s : State) (i : Nat) : (s.removeOp i).solnal = s.solnal := rfl
@[simp] theorem State.removeOp_run (s : State) (i : Nat) : (s.removeOp i).run = s.run := rfl

@[simp] theorem State.modColl_mem (s : State) (i : Nat) (f : Coll → Coll) : (s.modColl i f).mem = s.mem := rfl
@[simp] theorem State.modColl_teams (s : State) (i : Nat) (f : Coll → Coll) : (s.modColl i f).teams = s.teams := rfl
@[simp] theorem State.modColl_blocks (s : State) (i : Nat) (f : Coll → Coll) : (s.modColl i f).blocks = s.blocks := rfl
@[simp] theorem State.modColl_launches (s : State) (i : Nat) (f : Coll → Coll) : (s.modColl i f).launches = s.launches := rfl
@[simp] theorem State.modColl_cores (s : State) (i : Nat) (f : Coll → Coll) : (s.modColl i f).cores = s.cores := rfl
@[simp] theorem State.modColl_dies (s : State) (i : Nat) (f : Coll → Coll) : (s.modColl i f).dies = s.dies := rfl
@[simp] theorem State.modColl_sched (s : State) (i : Nat) (f : Coll → Coll) : (s.modColl i f).sched = s.sched := rfl
@[simp] theorem State.modColl_io (s : State) (i : Nat) (f : Coll → Coll) : (s.modColl i f).io = s.io := rfl
@[simp] theorem State.modColl_solnal (s : State) (i : Nat) (f : Coll → Coll) : (s.modColl i f).solnal = s.solnal := rfl
@[simp] theorem State.modColl_run (s : State) (i : Nat) (f : Coll → Coll) : (s.modColl i f).run = s.run := rfl

@[simp] theorem State.modXfer_mem (s : State) (i : Nat) (f : Xfer → Xfer) : (s.modXfer i f).mem = s.mem := rfl
@[simp] theorem State.modXfer_teams (s : State) (i : Nat) (f : Xfer → Xfer) : (s.modXfer i f).teams = s.teams := rfl
@[simp] theorem State.modXfer_blocks (s : State) (i : Nat) (f : Xfer → Xfer) : (s.modXfer i f).blocks = s.blocks := rfl
@[simp] theorem State.modXfer_launches (s : State) (i : Nat) (f : Xfer → Xfer) : (s.modXfer i f).launches = s.launches := rfl
@[simp] theorem State.modXfer_cores (s : State) (i : Nat) (f : Xfer → Xfer) : (s.modXfer i f).cores = s.cores := rfl
@[simp] theorem State.modXfer_dies (s : State) (i : Nat) (f : Xfer → Xfer) : (s.modXfer i f).dies = s.dies := rfl
@[simp] theorem State.modXfer_sched (s : State) (i : Nat) (f : Xfer → Xfer) : (s.modXfer i f).sched = s.sched := rfl
@[simp] theorem State.modXfer_io (s : State) (i : Nat) (f : Xfer → Xfer) : (s.modXfer i f).io = s.io := rfl
@[simp] theorem State.modXfer_solnal (s : State) (i : Nat) (f : Xfer → Xfer) : (s.modXfer i f).solnal = s.solnal := rfl
@[simp] theorem State.modXfer_run (s : State) (i : Nat) (f : Xfer → Xfer) : (s.modXfer i f).run = s.run := rfl

@[simp] theorem State.setBudget_mem (s : State) (d c : Nat) (f : Budget → Budget) : (s.setBudget d c f).mem = s.mem := rfl
@[simp] theorem State.setBudget_teams (s : State) (d c : Nat) (f : Budget → Budget) : (s.setBudget d c f).teams = s.teams := rfl
@[simp] theorem State.setBudget_blocks (s : State) (d c : Nat) (f : Budget → Budget) : (s.setBudget d c f).blocks = s.blocks := rfl
@[simp] theorem State.setBudget_launches (s : State) (d c : Nat) (f : Budget → Budget) : (s.setBudget d c f).launches = s.launches := rfl
@[simp] theorem State.setBudget_cores (s : State) (d c : Nat) (f : Budget → Budget) : (s.setBudget d c f).cores = s.cores := rfl
@[simp] theorem State.setBudget_sched (s : State) (d c : Nat) (f : Budget → Budget) : (s.setBudget d c f).sched = s.sched := rfl
@[simp] theorem State.setBudget_io (s : State) (d c : Nat) (f : Budget → Budget) : (s.setBudget d c f).io = s.io := rfl
@[simp] theorem State.setBudget_solnal (s : State) (d c : Nat) (f : Budget → Budget) : (s.setBudget d c f).solnal = s.solnal := rfl
@[simp] theorem State.setBudget_run (s : State) (d c : Nat) (f : Budget → Budget) : (s.setBudget d c f).run = s.run := rfl

/-! ## A side of a team -/

@[simp] theorem Team.setSide_block (t : Team) (o : Bool) (x : Side) : (t.setSide o x).block = t.block := by cases o <;> rfl
@[simp] theorem Team.setSide_idx (t : Team) (o : Bool) (x : Side) : (t.setSide o x).idx = t.idx := by cases o <;> rfl
@[simp] theorem Team.setSide_pipe (t : Team) (o : Bool) (x : Side) : (t.setSide o x).pipe = t.pipe := by cases o <;> rfl
@[simp] theorem Team.setSide_age (t : Team) (o : Bool) (x : Side) : (t.setSide o x).age = t.age := by cases o <;> rfl
@[simp] theorem Team.setSide_turn (t : Team) (o : Bool) (x : Side) : (t.setSide o x).turn = t.turn := by cases o <;> rfl
@[simp] theorem Team.setSide_loft (t : Team) (o : Bool) (x : Side) : (t.setSide o x).loft = t.loft := by cases o <;> rfl
@[simp] theorem Team.setSide_loftDepth (t : Team) (o : Bool) (x : Side) : (t.setSide o x).loftDepth = t.loftDepth := by cases o <;> rfl
@[simp] theorem Team.setSide_exited (t : Team) (o : Bool) (x : Side) : (t.setSide o x).exited = t.exited := by cases o <;> rfl
@[simp] theorem Team.setSide_flagen (t : Team) (o : Bool) (x : Side) : (t.setSide o x).flagen = t.flagen := by cases o <;> rfl
@[simp] theorem Team.setSide_draw (t : Team) (o : Bool) (x : Side) : (t.setSide o x).draw = t.draw := by cases o <;> rfl
@[simp] theorem Team.setSide_frec (t : Team) (o : Bool) (x : Side) : (t.setSide o x).frec = t.frec := by cases o <;> rfl
@[simp] theorem Team.setSide_retst (t : Team) (o : Bool) (x : Side) : (t.setSide o x).retst = t.retst := by cases o <;> rfl
@[simp] theorem Team.setSide_region (t : Team) (o : Bool) (x : Side) : (t.setSide o x).region = t.region := by cases o <;> rfl
@[simp] theorem Team.setSide_trystat (t : Team) (o : Bool) (x : Side) : (t.setSide o x).trystat = t.trystat := by cases o <;> rfl
@[simp] theorem Team.setSide_batch (t : Team) (o : Bool) (x : Side) : (t.setSide o x).batch = t.batch := by cases o <;> rfl
@[simp] theorem Team.setSide_queue (t : Team) (o : Bool) (x : Side) : (t.setSide o x).queue = t.queue := by cases o <;> rfl
@[simp] theorem Team.setSide_slots (t : Team) (o : Bool) (x : Side) : (t.setSide o x).slots = t.slots := by cases o <;> rfl
@[simp] theorem Team.setSide_harness (t : Team) (o : Bool) (x : Side) : (t.setSide o x).harness = t.harness := by cases o <;> rfl
@[simp] theorem Team.setSide_owedFaults (t : Team) (o : Bool) (x : Side) : (t.setSide o x).owedFaults = t.owedFaults := by cases o <;> rfl
@[simp] theorem Team.setSide_yieldDue (t : Team) (o : Bool) (x : Side) : (t.setSide o x).yieldDue = t.yieldDue := by cases o <;> rfl
@[simp] theorem Team.setSide_halted (t : Team) (o : Bool) (x : Side) : (t.setSide o x).halted = t.halted := by cases o <;> rfl
@[simp] theorem Team.setSide_killed (t : Team) (o : Bool) (x : Side) : (t.setSide o x).killed = t.killed := by cases o <;> rfl
@[simp] theorem Team.setSide_park (t : Team) (o : Bool) (x : Side) : (t.setSide o x).park = t.park := by cases o <;> rfl
@[simp] theorem Team.setSide_waited (t : Team) (o : Bool) (x : Side) : (t.setSide o x).waited = t.waited := by cases o <;> rfl
@[simp] theorem Team.setSide_told (t : Team) (o : Bool) (x : Side) : (t.setSide o x).told = t.told := by cases o <;> rfl
@[simp] theorem Team.setSide_seen (t : Team) (o : Bool) (x : Side) : (t.setSide o x).seen = t.seen := by cases o <;> rfl
@[simp] theorem Team.setSide_colls (t : Team) (o : Bool) (x : Side) : (t.setSide o x).colls = t.colls := by cases o <;> rfl
@[simp] theorem Team.setSide_scFence (t : Team) (o : Bool) (x : Side) : (t.setSide o x).scFence = t.scFence := by cases o <;> rfl
@[simp] theorem Team.setSide_slotw (t : Team) (o : Bool) (x : Side) : (t.setSide o x).slotw = t.slotw := by cases o <;> rfl

end Sys2Proof.Machine
end

