-- ==== Sys2Proof/Laws/Quiet.lean ====
section
/-! SUPPORT. What the shared operations leave alone: the teams, and memory where they do not write it. -/

namespace Sys2Proof.Machine

/-! ## Operations that leave the teams -/

/-- What neither the budgets, nor the traffic, nor the counter of names hold is as before an operation is added. -/
theorem State.addOp_same {γ : Type} (P : State → γ) (hb : ∀ s d c f, P (State.setBudget s d c f) = P s) (hn : ∀ s f, P (State.setNet s f) = P s)
    (hu : ∀ s, P (State.bump s) = P s) (s : State) (o : MemOp) : P (s.addOp o) = P s := by
  have ht : P (s.takeClass o).2 = P s := by
    unfold State.takeClass
    simp only
    split
    · simp only [hb]
    · rfl
  unfold State.addOp
  simp only
  rw [foldl_same P (fun (b : State) (q : Nat × OutKind) => b.addOut
    { id := 0, pkg := q.1, cls := (s.takeClass o).1, team := some o.team, ctx := o.ctx, die := o.die, pc := o.pc, kind := q.2, waited := 0 })
    (fun b _ => by unfold State.addOut; rw [hu, hn]) (o.kind.remote o.id), hu, hn, ht]
@[simp] theorem State.addOp_mem (s : State) (o : MemOp) : (s.addOp o).mem = s.mem :=
  State.addOp_same (·.mem) (fun _ _ _ _ => rfl) (fun _ _ => rfl) (fun _ => rfl) s o
@[simp] theorem State.addOp_blocks (s : State) (o : MemOp) : (s.addOp o).blocks = s.blocks :=
  State.addOp_same (·.blocks) (fun _ _ _ _ => rfl) (fun _ _ => rfl) (fun _ => rfl) s o
@[simp] theorem State.addOp_launches (s : State) (o : MemOp) : (s.addOp o).launches = s.launches :=
  State.addOp_same (·.launches) (fun _ _ _ _ => rfl) (fun _ _ => rfl) (fun _ => rfl) s o
@[simp] theorem State.addOp_cores (s : State) (o : MemOp) : (s.addOp o).cores = s.cores :=
  State.addOp_same (·.cores) (fun _ _ _ _ => rfl) (fun _ _ => rfl) (fun _ => rfl) s o
@[simp] theorem State.addOp_sched (s : State) (o : MemOp) : (s.addOp o).sched = s.sched :=
  State.addOp_same (·.sched) (fun _ _ _ _ => rfl) (fun _ _ => rfl) (fun _ => rfl) s o
@[simp] theorem State.addOp_io (s : State) (o : MemOp) : (s.addOp o).io = s.io :=
  State.addOp_same (·.io) (fun _ _ _ _ => rfl) (fun _ _ => rfl) (fun _ => rfl) s o
@[simp] theorem State.addOp_solnal (s : State) (o : MemOp) : (s.addOp o).solnal = s.solnal :=
  State.addOp_same (·.solnal) (fun _ _ _ _ => rfl) (fun _ _ => rfl) (fun _ => rfl) s o

@[simp] theorem State.increment_teams (s : State) (d : Nat) : (s.increment d).teams = s.teams := rfl
@[simp] theorem State.releaseAt_teams (s : State) (d : Nat) (c : Scope) : (s.releaseAt d c).teams = s.teams := by
  unfold State.releaseAt; split <;> rfl
@[simp] theorem State.merge_teams (s : State) (d : Nat) (c : Clock) : (s.merge d c).teams = s.teams := rfl
@[simp] theorem State.discardRdc_teams (s : State) (d : Nat) : (s.discardRdc d).teams = s.teams := by
  unfold State.discardRdc; split <;> rfl
@[simp] theorem State.discardL1_teams (s : State) (d c : Nat) : (s.discardL1 d c).teams = s.teams := rfl
@[simp] theorem State.acquireAt_teams (s : State) (d c : Nat) (sc : Scope) (k : Clock) : (s.acquireAt d c sc k).teams = s.teams := by
  unfold State.acquireAt; split
  · split <;> simp
  · rfl
@[simp] theorem State.barForget_teams (s : State) (b o : Nat) : (s.barForget b o).teams = s.teams := rfl
@[simp] theorem State.barNote_teams (s : State) (b o : Nat) (c : Clock) (sc : Scope) : (s.barNote b o c sc).teams = s.teams := rfl
@[simp] theorem State.spadWrite_teams (s : State) (b o : Nat) (bs : List Byte) (c : Clock) (w : Option Nat) :
    (s.spadWrite b o bs c w).teams = s.teams := rfl
@[simp] theorem State.spadWriteLine_teams (s : State) (b l : Nat) (v : Line) (sb : SideBand) (c : Clock) (w : Option Nat) :
    (s.spadWriteLine b l v sb c w).teams = s.teams := rfl
@[simp] theorem State.barPut_teams (s : State) (b o : Nat) (x : Bar) (w : Option Nat) : (s.barPut b o x w).teams = s.teams := rfl
@[simp] theorem State.touchL2_teams (s : State) (p o : Nat) (w : Bool) : (s.touchL2 p o w).teams = s.teams := by
  unfold State.touchL2; split <;> rfl
@[simp] theorem State.applyPiece_teams (s : State) (p : Piece) (c : Clock) (o : Nat) (w : Option Nat) :
    (s.applyPiece p c o w).teams = s.teams := by
  unfold State.applyPiece; split
  · rfl
  · unfold State.afterWrite; simp
@[simp] theorem State.applyBody_teams (s : State) (w : WBody) (c : Clock) (o : Nat) (u : Option Nat) :
    (s.applyBody w c o u).teams = s.teams := by
  unfold State.applyBody
  rw [foldl_same (fun s : State => s.teams) _ (fun b a => by rfl) w.sides,
    foldl_same (fun s : State => s.teams) _ (fun b a => by simp) w.pieces]
@[simp] theorem State.flushAdd_teams (s : State) (d c a : Nat) (v : W32) : (s.flushAdd d c a v).teams = s.teams := by
  unfold State.flushAdd; simp
@[simp] theorem State.flushYard_teams (s : State) (l y p d : Nat) : (s.flushYard l y p d).teams = s.teams := by
  unfold State.flushYard
  simp only [State.modLaunch_teams]
  rw [foldl_same (fun s : State => s.teams) _ (fun b a => by simp)]
@[simp] theorem State.barChange_teams (s : State) (b o : Nat) (w : Option Nat) (f : Bar → Bar) :
    (s.barChange b o w f).teams = s.teams := by
  unfold State.barChange; dsimp only
  split
  · split <;> simp
  · simp
@[simp] theorem State.storeL1_teams (s : State) (d c l : Nat) (m : BitVec 4) : (s.storeL1 d c l m).teams = s.teams := rfl
@[simp] theorem State.storedL1_teams (s : State) (d c : Nat) (es : List QEntry) : (s.storedL1 d c es).teams = s.teams := by
  unfold State.storedL1
  rw [foldl_same (fun s : State => s.teams) _ (fun b a => by split <;> rfl)]
@[simp] theorem State.dropRdc_teams (s : State) (d l : Nat) : (s.dropRdc d l).teams = s.teams := rfl
@[simp] theorem State.dropHome_teams (s : State) (d c : Nat) (ls : List (Nat × BitVec 4)) : (s.dropHome d c ls).teams = s.teams := by
  unfold State.dropHome
  rw [foldl_same (fun s : State => s.teams) _ (fun b a => by rfl)]
@[simp] theorem State.dropLines_teams (s : State) (d c : Nat) (ls : List (Nat × BitVec 4)) : (s.dropLines d c ls).teams = s.teams := by
  unfold State.dropLines
  rw [foldl_same (fun s : State => s.teams) _ (fun b a => by rfl)]
@[simp] theorem State.spadWrites_teams (s : State) (u b : Nat) (c : Clock) (ws : List (Nat × List Byte)) :
    (s.spadWrites u b c ws).teams = s.teams := by
  unfold State.spadWrites
  exact foldl_same (fun s : State => s.teams) (fun (s : State) (q : Nat × List Byte) => s.spadWrite b q.1 q.2 c (some u)) (fun _ _ => rfl) ws s
@[simp] theorem State.spadAtoms_teams (s : State) (u b : Nat) (k : Block) (f : Option AtomOp) (n : Nat) (c : Clock)
    (gs : List (Nat × List (Nat × W64 × W64))) : (s.spadAtoms u b k f n c gs).teams = s.teams := by
  unfold State.spadAtoms
  rw [foldl_same (fun s : State => s.teams) _ (fun b a => by split <;> rfl)]
@[simp] theorem State.barAcquire_teams (s : State) (x : Iss) (p : BarLoc) : (s.barAcquire x p).teams = s.teams := by
  unfold State.barAcquire; simp
@[simp] theorem State.batchAcquire_teams (s : State) (x : Iss) : (s.batchAcquire x).teams = s.teams := by
  unfold State.batchAcquire; simp

/-! ## Translation leaves them too -/

@[simp] theorem walkedBy_ok {α : Type} (vas : List Nat) (r : Except Halt α) (y : α) : walkedBy vas r = .ok y ↔ r = .ok y := by
  cases r <;> simp [walkedBy]
@[simp] theorem State.walkPaid_teams (s : State) (d c va n l t : Nat) : (s.walkPaid d c va n l t).teams = s.teams := by
  unfold State.walkPaid
  simp only [State.setBudget, State.modDie]
  exact foldl_same (fun s : State => s.teams) (fun (s : State) (p : Nat) => s.touchL2 p (s.tagOf c) false) (fun b a => b.touchL2_teams a _ false) _ s
theorem State.leafOf_teams {s s' : State} {d c k va : Nat} {e : W64} {l : Nat} (h : s.leafOf d c k va = .ok (e, l, s')) :
    s'.teams = s.teams := by
  unfold State.leafOf at h
  dsimp only at h
  split at h
  · cases h; rfl
  · split at h
    · cases h; rfl
    · split at h
      · cases h
      · split at h
        · cases h
        · cases h; split <;> simp [State.modDie, State.modCore]
@[simp] theorem State.walkAt_teams (s : State) (d c k va : Nat) : (s.walkAt d c k va).teams = s.teams := by
  unfold State.walkAt
  split
  · exact State.leafOf_teams (by assumption)
  · simp
  · rfl
theorem State.translate_teams {s s' : State} {d c k va pa : Nat} {p : Perm} (h : s.translate d c k va p = .ok pa s') :
    s'.teams = s.teams := by
  unfold State.translate at h
  split at h
  · cases h
  · cases h
  · rename_i e l s1 he
    split at h
    · cases h; exact State.leafOf_teams he
    · cases h
theorem State.transLanes_teams {d c k : Nat} {p : Perm} : ∀ {ls : List (Nat × Nat)} {s s' : State} {as : List Acc}
    {bad bad' : List (Nat × Nat × Nat × Nat)}, s.transLanes d c k p ls bad = .ok (s', as, bad') → s'.teams = s.teams
  | [], s, s', as, bad, bad', h => by cases h; rfl
  | (l, va) :: r, s, s', as, bad, bad', h => by
    unfold State.transLanes at h
    split at h
    · exact State.transLanes_teams h
    · split at h
      · split at h <;> cases h; rfl
      · rename_i pa s1 ht
        split at h
        · rename_i y e
          cases h; rw [State.transLanes_teams e, State.translate_teams ht]
        · cases h
      · rw [State.transLanes_teams h, State.walkAt_teams]
theorem Iss.globalAccs_teams {x : Iss} {s s' : State} {acc : Nat} {once : Bool} {p : Perm} {n : Nat} {ls : List (Nat × Nat)}
    {as : List Acc} (h : x.globalAccs s acc once p n ls = .ok (s', as)) : s'.teams = s.teams := by
  unfold Iss.globalAccs at h
  simp only [bind, Except.bind] at h
  split at h
  · cases h
  · split at h
    · cases h
    · rename_i y e
      split at h
      · cases h
      · split at h
        · cases h
        · split at h
          · cases h; exact State.transLanes_teams e
          · cases h
theorem Iss.checkOffs_bind {α : Type} {x : Iss} {acc n m code : Nat} {once : Bool} {ls : List (Nat × Nat)} {k : Except Halt α} {y : α}
    (h : (do x.checkOffs acc once n m code ls; k) = .ok y) : x.checkOffs acc once n m code ls = .ok () ∧ k = .ok y := by
  simp only [bind, Except.bind] at h
  split at h
  · cases h
  · exact ⟨by assumption, h⟩
theorem Iss.privAccs_teams {x : Iss} {s s' : State} {acc : Nat} {once : Bool} {p : Perm} {n : Nat} {ls : List (Nat × Nat)}
    {as : List Acc} (h : x.privAccs s acc once p n ls = .ok (s', as)) : s'.teams = s.teams := by
  unfold Iss.privAccs at h
  exact Iss.globalAccs_teams (Iss.checkOffs_bind h).2
theorem State.prefAddrs_teams {d c k : Nat} : ∀ {ls : List Nat} {s s' : State} {as : List Nat},
    s.prefAddrs d c k ls = .ok (s', as) → s'.teams = s.teams
  | [], s, s', as, h => by cases h; rfl
  | va :: r, s, s', as, h => by
    unfold State.prefAddrs at h
    split at h
    · exact State.prefAddrs_teams h
    · split at h
      · cases h
      · rw [State.prefAddrs_teams ((walkedBy_ok _ _ _).1 h), State.walkAt_teams]
      · rename_i pa s1 ht
        cases e : s1.prefAddrs d c k r with
        | error x => rw [e] at h; cases h
        | ok y => rw [e] at h; cases h; rw [State.prefAddrs_teams e, State.translate_teams ht]

end Sys2Proof.Machine
end

