-- ==== Sys2Proof/Laws/Memory.lean ====
section
/-! SUPPORT. Memory: what every operation over it leaves, byte by byte, and the canonical form that each of them keeps. -/

namespace Sys2Proof.Machine

/-! ## Bytes after a write -/

theorem Mem.setByte_byte (m : Mem) (a : Nat) (b : Byte) (x : Nat) : (m.setByte a b).byte x = if x = a then b else m.byte x := by
  unfold Mem.setByte Mem.byte
  have u : ({ m with cells := if b = m.unlisted a then drop a m.cells else place a b m.cells } : Mem).unlisted x = m.unlisted x := rfl
  rw [u]
  by_cases h : b = m.unlisted a
  · simp only [if_pos h, look_drop]
    by_cases e : x = a
    · simp [e, h]
    · simp [e]
  · simp only [if_neg h, look_place]
    by_cases e : x = a <;> simp [e]
@[simp] theorem Mem.setByte_unlisted (m : Mem) (a : Nat) (b : Byte) (x : Nat) : (m.setByte a b).unlisted x = m.unlisted x := rfl

theorem Mem.setBytes_byte (bs : List Byte) : ∀ (m : Mem) (a x : Nat),
    (m.setBytes a bs).byte x = if a ≤ x ∧ x < a + bs.length then nth bs (x - a) 0 else m.byte x := by
  induction bs with
  | nil => intro m a x; rw [if_neg (fun h => by have := h.1; have := h.2; simp at *; omega)]; rfl
  | cons b r ih =>
    intro m a x
    rw [Mem.setBytes, ih, Mem.setByte_byte]
    by_cases e : x = a
    · subst e
      rw [if_neg (by omega), if_pos rfl, if_pos (by simp)]; simp [nth]
    · by_cases h : a + 1 ≤ x ∧ x < a + 1 + r.length
      · rw [if_pos h, if_pos (by simp; omega), show x - a = (x - (a + 1)) + 1 by omega]
        simp [nth]
      · rw [if_neg h, if_neg e, if_neg (by simp; omega)]

/-- A fold of masked byte writes below a bound. -/
theorem Mem.maskFold_byte (mask : BitVec 32) (data : Sector) (a x : Nat) : ∀ (l : List Nat) (m : Mem), l.Nodup → (∀ i ∈ l, i < 32) →
    (l.foldl (fun m i => if mask.getLsbD i then m.setByte (a + i) (byteOf data i) else m) m).byte x
      = if a ≤ x ∧ x - a ∈ l ∧ mask.getLsbD (x - a) then byteOf data (x - a) else m.byte x := by
  intro l
  induction l with
  | nil => intro m _ _; simp
  | cons i r ih =>
    intro m hn hl
    obtain ⟨hi, hr⟩ := List.nodup_cons.1 hn
    rw [List.foldl_cons, ih _ hr (fun j hj => hl j (List.mem_cons_of_mem _ hj))]
    by_cases hx : a ≤ x ∧ x - a ∈ r ∧ mask.getLsbD (x - a) = true
    · rw [if_pos hx, if_pos ⟨hx.1, List.mem_cons_of_mem _ hx.2.1, hx.2.2⟩]
    · rw [if_neg hx]
      by_cases hm : mask.getLsbD i = true
      · rw [if_pos hm, Mem.setByte_byte]
        by_cases e : x = a + i
        · subst e
          rw [if_pos rfl, if_pos (by simp [hm])]; simp
        · rw [if_neg e, if_neg ?_]
          rintro ⟨h1, h2, h3⟩
          rcases List.mem_cons.1 h2 with h | h
          · omega
          · exact hx ⟨h1, h, h3⟩
      · rw [if_neg hm, if_neg ?_]
        rintro ⟨h1, h2, h3⟩
        rcases List.mem_cons.1 h2 with h | h
        · rw [h] at h3; exact hm h3
        · exact hx ⟨h1, h, h3⟩
theorem from_nodup (n : Nat) : ∀ lo, (from_ lo n).Nodup := by
  induction n with
  | zero => intro lo; exact List.nodup_nil
  | succ n ih =>
    intro lo
    refine List.nodup_cons.2 ⟨fun h => ?_, ih (lo + 1)⟩
    have := (mem_from (lo + 1) n lo).1 h
    omega
theorem Mem.setMasked_byte (m : Mem) (a : Nat) (mask : BitVec 32) (data : Sector) (x : Nat) :
    (m.setMasked a mask data).byte x
      = if a ≤ x ∧ x < a + 32 ∧ mask.getLsbD (x - a) then byteOf data (x - a) else m.byte x := by
  unfold Mem.setMasked
  rw [Mem.maskFold_byte mask data a x (upTo 32) m (from_nodup 32 0) (fun i hi => by simpa using (mem_upTo 32 i).1 hi)]
  by_cases h : a ≤ x ∧ x < a + 32 ∧ mask.getLsbD (x - a) = true
  · rw [if_pos h, if_pos ⟨h.1, (mem_upTo 32 _).2 (by omega), h.2.2⟩]
  · rw [if_neg h, if_neg ?_]
    rintro ⟨h1, h2, h3⟩
    exact h ⟨h1, by have := (mem_upTo 32 _).1 h2; omega, h3⟩
@[simp] theorem Mem.setSb_byte (m : Mem) (l : Nat) (v : SideBand) (x : Nat) : (m.setSb l v).byte x = m.byte x := rfl
theorem Mem.setSb_sb (m : Mem) (l : Nat) (v : SideBand) (x : Nat) : (m.setSb l v).sb x = if x = l then v else m.sb x := by
  unfold Mem.setSb Mem.sb
  have u : ({ m with side := if v = m.unlistedSb l then drop l m.side else place l v m.side } : Mem).unlistedSb x = m.unlistedSb x := rfl
  rw [u]
  by_cases h : v = m.unlistedSb l
  · simp only [if_pos h, look_drop]
    by_cases e : x = l
    · simp [e, h]
    · simp [e]
  · simp only [if_neg h, look_place]
    by_cases e : x = l <;> simp [e]

/-! ## The canonical form -/

theorem Mem.wf_iff (m : Mem) : m.wf = true ↔ rising m.cells = true ∧ m.cells.all (fun c => c.2 ≠ m.unlisted c.1) = true := by
  unfold Mem.wf; simp
/-- The form depends on the bytes and on what an unlisted address reads as alone. -/
theorem Mem.wf_congr {m n : Mem} (hc : n.cells = m.cells) (hr : n.rehomed = m.rehomed) (hl : n.loose = m.loose) : n.wf = m.wf := by
  unfold Mem.wf Mem.unlisted; rw [hc, hr, hl]
/-- The number of the free values at an unlisted address, where it has some. -/
def Mem.looseAt (m : Mem) (x : Nat) : Option Nat := (first (inRange x) m.loose).map (·.2.2)
theorem Mem.unlisted_eq (m : Mem) (x : Nat) : m.unlisted x = match m.looseAt x with
    | some k => Config.freeByte k x
    | none => match m.rehomed with
      | none => 0
      | some c => if x < 2 ^ 40 then Config.freeByte c x else 0 := by
  unfold Mem.unlisted Mem.looseAt
  cases first (inRange x) m.loose <;> rfl
theorem first_append {α : Type} (p : α → Bool) (l r : List α) : first p (l ++ r) = match first p l with | some y => some y | none => first p r := by
  induction l with
  | nil => rfl
  | cons y l ih => simp only [List.cons_append, first]; split <;> simp_all
/-- Taking addresses out of ranges leaves the other addresses in them. -/
theorem first_cut (a n x : Nat) (hx : x < a ∨ a + n ≤ x) : ∀ l : List (Nat × Nat × Nat),
    (first (inRange x) (l.flatMap (cutRange a n))).map (·.2.2) = (first (inRange x) l).map (·.2.2)
  | [] => rfl
  | r :: l => by
    have low : r.1 < a → inRange x (r.1, Nat.min r.2.1 (a - r.1), r.2.2) = (inRange x r && decide (x < a)) := by
      intro h
      rw [Bool.eq_iff_iff]; simp only [inRange, Bool.and_eq_true, decide_eq_true_eq]
      show (r.1 ≤ x ∧ x < r.1 + min r.2.1 (a - r.1)) ↔ _
      omega
    have high : inRange x (Nat.max r.1 (a + n), r.1 + r.2.1 - Nat.max r.1 (a + n), r.2.2) = (inRange x r && decide (a + n ≤ x)) := by
      rw [Bool.eq_iff_iff]; simp only [inRange, Bool.and_eq_true, decide_eq_true_eq]
      show (max r.1 (a + n) ≤ x ∧ x < max r.1 (a + n) + (r.1 + r.2.1 - max r.1 (a + n))) ↔ _
      omega
    have one : (first (inRange x) (cutRange a n r)).map (·.2.2) = if inRange x r then some r.2.2 else none := by
      unfold cutRange
      rw [first_append]
      by_cases h1 : r.1 < a
      · rw [if_pos h1]
        simp only [first, low h1]
        by_cases h2 : a + n < r.1 + r.2.1
        · rw [if_pos h2]; simp only [first, high]
          rcases hx with h | h
          · cases inRange x r <;> simp [h, show ¬ a + n ≤ x by omega]
          · cases inRange x r <;> simp [h, show ¬ x < a by omega]
        · rw [if_neg h2]; simp only [first]
          have : inRange x r = true → x < a := by simp only [inRange, Bool.and_eq_true, decide_eq_true_eq]; omega
          cases e : inRange x r <;> simp_all
      · rw [if_neg h1]
        simp only [first]
        by_cases h2 : a + n < r.1 + r.2.1
        · rw [if_pos h2]; simp only [first, high]
          have : inRange x r = true → a + n ≤ x := by simp only [inRange, Bool.and_eq_true, decide_eq_true_eq]; omega
          cases e : inRange x r <;> simp_all
        · rw [if_neg h2]; simp only [first]
          have : inRange x r = false := by
            rw [Bool.eq_false_iff]; simp only [inRange, ne_eq, Bool.and_eq_true, decide_eq_true_eq]; omega
          simp [this]
    rw [List.flatMap_cons, first_append]
    simp only [first]
    cases e : first (inRange x) (cutRange a n r) with
    | some y => rw [e] at one; by_cases hr : inRange x r = true <;> simp_all
    | none => rw [e] at one; by_cases hr : inRange x r = true <;> simp_all [first_cut a n x hx l]
/-- A range cleared: what other unlisted addresses read as stays. -/
theorem Mem.clearRange_unlisted {m : Mem} {a n x : Nat} (hx : x < a ∨ a + n ≤ x) {new : List (Nat × Nat × Nat)}
    (hn : first (inRange x) new = none) : (m.clearRange a n new).unlisted x = m.unlisted x := by
  rw [Mem.unlisted_eq, Mem.unlisted_eq]
  have : (m.clearRange a n new).looseAt x = m.looseAt x := by
    unfold Mem.looseAt Mem.clearRange
    dsimp only
    rw [first_append, hn]
    exact first_cut a n x hx m.loose
  rw [this]; rfl
theorem Mem.clearRange_wf {m : Mem} (h : m.wf = true) (a n : Nat) (new : List (Nat × Nat × Nat))
    (hn : ∀ x, (x < a ∨ a + n ≤ x) → first (inRange x) new = none) : (m.clearRange a n new).wf = true := by
  obtain ⟨h1, h2⟩ := (Mem.wf_iff m).1 h
  rw [Mem.wf_iff]
  refine ⟨rising_filter _ h1, ?_⟩
  rw [List.all_eq_true] at h2 ⊢
  intro c hc
  obtain ⟨h3, h4⟩ := List.mem_filter.1 hc
  have hx : c.1 < a ∨ a + n ≤ c.1 := by
    simp only [Bool.not_eq_true', Bool.and_eq_false_iff, decide_eq_false_iff_not] at h4; omega
  rw [Mem.clearRange_unlisted hx (hn c.1 hx)]
  exact h2 c h3
theorem Mem.setByte_wf {m : Mem} (h : m.wf = true) (a : Nat) (b : Byte) : (m.setByte a b).wf = true := by
  obtain ⟨h1, h2⟩ := (Mem.wf_iff m).1 h
  rw [Mem.wf_iff]
  unfold Mem.setByte
  by_cases e : b = m.unlisted a
  · simp only [if_pos e]
    exact ⟨rising_drop _ h1, all_drop _ _ h2⟩
  · simp only [if_neg e]
    exact ⟨rising_place _ _ h1, all_place _ _ _ (decide_eq_true e) h2⟩
theorem Mem.setBytes_wf (bs : List Byte) : ∀ {m : Mem} (_ : m.wf = true) (a : Nat), (m.setBytes a bs).wf = true := by
  induction bs with
  | nil => intro m h a; exact h
  | cons b r ih => intro m h a; exact ih (Mem.setByte_wf h a b) (a + 1)
/-- A fold of operations that keep the form keeps it. -/
theorem foldl_wf {α : Type} (f : Mem → α → Mem) (hf : ∀ m x, m.wf = true → (f m x).wf = true) (l : List α) :
    ∀ {m : Mem}, m.wf = true → (l.foldl f m).wf = true := by
  induction l with
  | nil => intro m h; exact h
  | cons x r ih => intro m h; exact ih (hf m x h)
theorem Mem.setMasked_wf {m : Mem} (h : m.wf = true) (a : Nat) (mask : BitVec 32) (data : Sector) :
    (m.setMasked a mask data).wf = true :=
  foldl_wf _ (fun m i hm => by
    split
    · exact Mem.setByte_wf hm _ _
    · exact hm) (upTo 32) h
@[simp] theorem Mem.setSb_wf (m : Mem) (l : Nat) (v : SideBand) : (m.setSb l v).wf = m.wf := Mem.wf_congr rfl rfl rfl
theorem Mem.zeroRange_wf {m : Mem} (h : m.wf = true) (a n : Nat) : (m.zeroRange a n).wf = true := by
  have w := Mem.clearRange_wf h a n [] (fun _ _ => rfl)
  unfold Mem.zeroRange
  dsimp only
  split
  · exact w
  · exact Mem.setBytes_wf _ w a
theorem Mem.putPart_wf {m : Mem} (h : m.wf = true) (ok : Nat → Bool) (pas : List Nat) (p : ImgPart) : (m.putPart ok pas p).wf = true :=
  foldl_wf _ (fun m y hm => by
    split
    · exact Mem.setByte_wf hm _ _
    · exact hm) _ (foldl_wf _ (fun m r hm => by
      split
      · exact Mem.zeroRange_wf hm _ _
      · exact hm) _ h)
/-- Writing an image, or parts of one, keeps the form. -/
theorem Mem.putParts_wf {m : Mem} (h : m.wf = true) (ok : Nat → Bool) (pas : List Nat) (ps : List ImgPart) :
    (m.putParts ok pas ps).wf = true := foldl_wf _ (fun _ p hm => Mem.putPart_wf hm ok pas p) ps h
theorem Mem.putDevice_wf {m : Mem} (h : m.wf = true) (ok : Nat → Bool) (pas : List Nat) (c : Nat) : (m.putDevice ok pas c).wf = true :=
  foldl_wf _ (fun m r hm => by
    split
    · exact Mem.clearRange_wf hm _ _ _ (fun x hx => by simp [first, inRange]; omega)
    · exact hm) _ h
@[simp] theorem Mem.poisonLine_wf (m : Mem) (l : Nat) : (m.poisonLine l).wf = m.wf := Mem.wf_congr rfl rfl rfl
theorem Mem.afterReset_wf {m : Mem} (h : m.wf = true) (free : Nat) : (m.afterReset free).wf = true := by
  obtain ⟨h1, h2⟩ := (Mem.wf_iff m).1 h
  rw [Mem.wf_iff]
  refine ⟨rising_filter _ h1, ?_⟩
  rw [List.all_eq_true] at h2 ⊢
  intro c hc
  obtain ⟨h3, h4⟩ := List.mem_filter.1 hc
  have h5 := h2 c h3
  have h6 : ¬ c.1 < 2 ^ 40 := by simpa using h4
  have h7 : (m.afterReset free).looseAt c.1 = m.looseAt c.1 := first_cut 0 (2 ^ 40) c.1 (by omega) m.loose
  have h8 : (m.afterReset free).unlisted c.1 = m.unlisted c.1 := by
    rw [Mem.unlisted_eq, Mem.unlisted_eq, h7]
    cases m.looseAt c.1 with
    | some k => rfl
    | none => cases hr : m.rehomed <;> simp only [Mem.afterReset, h6, if_false, hr]
  rw [h8]; exact h5

/-! ## Writes of the device -/

@[simp] theorem State.touchL2_mem (s : State) (pa o : Nat) (w : Bool) : (s.touchL2 pa o w).mem = s.mem := by
  unfold State.touchL2; split <;> rfl
@[simp] theorem State.afterWrite_mem (s : State) (pa : Nat) (b : Option Nat) : (s.afterWrite pa b).mem = s.mem := rfl
@[simp] theorem State.touchL2_blocks (s : State) (pa o : Nat) (w : Bool) : (s.touchL2 pa o w).blocks = s.blocks := by
  unfold State.touchL2; split <;> rfl
@[simp] theorem State.afterWrite_blocks (s : State) (pa : Nat) (b : Option Nat) : (s.afterWrite pa b).blocks = s.blocks := rfl
theorem State.applyPiece_byte (s : State) (p : Piece) (c : Clock) (o : Nat) (b : Option Nat) (x : Nat) :
    (s.applyPiece p c o b).mem.byte x
      = if p.addr ≤ x ∧ x < p.addr + 32 ∧ p.mask.getLsbD (x - p.addr) then byteOf p.data (x - p.addr) else s.mem.byte x := by
  unfold State.applyPiece
  split
  · rename_i h; rw [if_neg ?_]; simp [h]
  · rw [← Mem.setMasked_byte]
    simp only [State.afterWrite_mem, State.touchL2_mem]
    split <;> rfl
theorem State.applyPiece_wf {s : State} (h : s.mem.wf = true) (p : Piece) (c : Clock) (o : Nat) (b : Option Nat) :
    (s.applyPiece p c o b).mem.wf = true := by
  unfold State.applyPiece
  split
  · exact h
  · simp only [State.afterWrite_mem, State.touchL2_mem]
    have w := Mem.setMasked_wf h p.addr p.mask p.data
    split <;> exact (Mem.wf_congr rfl rfl rfl).trans w
@[simp] theorem State.applyPiece_blocks (s : State) (p : Piece) (c : Clock) (o : Nat) (b : Option Nat) :
    (s.applyPiece p c o b).blocks = s.blocks := by
  unfold State.applyPiece; split <;> simp
/-- The byte a write body leaves at an address. -/
theorem State.applyBody_byte (s : State) (w : WBody) (c : Clock) (o : Nat) (b : Option Nat) (x : Nat) :
    (s.applyBody w c o b).mem.byte x = w.pieces.foldl (fun v p =>
      if p.addr ≤ x ∧ x < p.addr + 32 ∧ p.mask.getLsbD (x - p.addr) then byteOf p.data (x - p.addr) else v) (s.mem.byte x) := by
  unfold State.applyBody
  rw [foldl_same (fun s : State => s.mem.byte x) _ (fun _ _ => by simp) w.sides]
  induction w.pieces generalizing s with
  | nil => rfl
  | cons p r ih => rw [List.foldl_cons, List.foldl_cons, ih, State.applyPiece_byte]
theorem State.applyBody_wf {s : State} (h : s.mem.wf = true) (w : WBody) (c : Clock) (o : Nat) (b : Option Nat) :
    (s.applyBody w c o b).mem.wf = true := by
  unfold State.applyBody
  rw [foldl_same (fun s : State => s.mem.wf) _ (fun _ _ => by simp) w.sides]
  induction w.pieces generalizing s with
  | nil => exact h
  | cons p r ih => exact ih (State.applyPiece_wf h p c o b)
@[simp] theorem State.applyBody_blocks (s : State) (w : WBody) (c : Clock) (o : Nat) (b : Option Nat) :
    (s.applyBody w c o b).blocks = s.blocks := by
  unfold State.applyBody
  rw [foldl_same (fun s : State => s.blocks) _ (fun b a => by rfl) w.sides,
    foldl_same (fun s : State => s.blocks) _ (fun b a => by simp) w.pieces]
theorem State.devWrite_wf {s : State} (h : s.mem.wf = true) (d pa : Nat) (bs : List Byte) : (s.devWrite d pa bs).mem.wf = true := by
  unfold State.devWrite
  split
  · exact State.applyBody_wf h ..
  · exact State.applyBody_wf h ..
  · exact h
theorem reset_memWf : State.reset.mem.wf = true := rfl

end Sys2Proof.Machine
end

