-- ==== Sys2Proof/Laws/Bytes.lean ====
section
/-! SUPPORT. Bytes of a word, a word of bytes, and the bytes that the pieces of a run leave. -/

namespace Sys2Proof.Machine

theorem ofBytes_cons (b : Byte) (l : List Byte) : ofBytes (b :: l) = ofBytes l * 256 + b.toNat := rfl
theorem ofBytes_lt (l : List Byte) : ofBytes l < 256 ^ l.length := by
  induction l with
  | nil => simp [ofBytes]
  | cons b r ih =>
    rw [ofBytes_cons, List.length_cons, Nat.pow_succ]
    have := b.isLt
    omega
theorem ofBytes_div (l : List Byte) : ∀ i, ofBytes l / 256 ^ i % 256 = (nth l i 0).toNat := by
  induction l with
  | nil => intro i; simp [ofBytes]
  | cons b r ih =>
    intro i
    rw [ofBytes_cons]
    have hb : b.toNat < 256 := b.isLt
    cases i with
    | zero => simp only [Nat.pow_zero, Nat.div_one, nth_zero]; omega
    | succ i =>
      rw [Nat.pow_succ, Nat.mul_comm (256 ^ i) 256, ← Nat.div_div_eq_div_mul, nth_succ, ← ih i]
      have : (ofBytes r * 256 + b.toNat) / 256 = ofBytes r := by omega
      rw [this]
theorem byteOf_toNat {w : Nat} (v : BitVec w) (i : Nat) : (byteOf v i).toNat = v.toNat / 256 ^ i % 256 := by
  unfold byteOf
  rw [BitVec.extractLsb'_toNat, Nat.shiftRight_eq_div_pow, Nat.pow_mul]
/-- Byte i of a word made of enough bits is byte i of the list. -/
theorem byteOf_ofBytes (w : Nat) (l : List Byte) (i : Nat) (h : 8 * l.length ≤ w) : byteOf (BitVec.ofNat w (ofBytes l)) i = nth l i 0 := by
  apply BitVec.eq_of_toNat_eq
  have hl : ofBytes l < 2 ^ w := by
    refine Nat.lt_of_lt_of_le (ofBytes_lt l) ?_
    rw [show (256 : Nat) = 2 ^ 8 by rfl, ← Nat.pow_mul]
    exact Nat.pow_le_pow_right (by omega) h
  rw [byteOf_toNat, BitVec.toNat_ofNat, Nat.mod_eq_of_lt hl, ofBytes_div]
theorem nth_map_from {α : Type} (f : Nat → α) (d : α) (n : Nat) : ∀ lo i, nth ((from_ lo n).map f) i d = if i < n then f (lo + i) else d := by
  induction n with
  | zero => intro lo i; rw [if_neg (by omega)]; simp [from_]
  | succ n ih =>
    intro lo i
    show nth (f lo :: (from_ (lo + 1) n).map f) i d = _
    cases i with
    | zero => simp
    | succ i =>
      rw [nth_succ, ih]
      by_cases h : i < n
      · rw [if_pos h, if_pos (by omega)]; congr 1; omega
      · rw [if_neg h, if_neg (by omega)]
theorem nth_toBytes {w : Nat} (n : Nat) (v : BitVec w) (i : Nat) : nth (toBytes n v) i 0 = if i < n then byteOf v i else 0 := by
  unfold toBytes upTo
  rw [nth_map_from]; simp
@[simp] theorem length_toBytes {w : Nat} (n : Nat) (v : BitVec w) : (toBytes n v).length = n := by simp [toBytes, upTo]
theorem ofBytes_append (a b : List Byte) : ofBytes (a ++ b) = ofBytes a + 256 ^ a.length * ofBytes b := by
  induction a with
  | nil => simp [ofBytes]
  | cons x r ih =>
    rw [List.cons_append, ofBytes_cons, ofBytes_cons, ih, List.length_cons, Nat.pow_succ, Nat.add_mul, Nat.mul_assoc, Nat.mul_assoc,
      Nat.mul_comm (ofBytes b) 256]
    omega
/-- n bytes of a word make its low 8 n bits. -/
theorem ofBytes_toBytes {w : Nat} (n : Nat) (v : BitVec w) : ofBytes (toBytes n v) = v.toNat % 256 ^ n := by
  induction n with
  | zero => simp [toBytes, upTo, from_, ofBytes, Nat.mod_one]
  | succ n ih =>
    have e : toBytes (n + 1) v = toBytes n v ++ [byteOf v n] := by
      unfold toBytes upTo
      have : ∀ lo k, from_ lo (k + 1) = from_ lo k ++ [lo + k] := by
        intro lo k
        induction k generalizing lo with
        | zero => rfl
        | succ k ih =>
          show lo :: from_ (lo + 1) (k + 1) = lo :: (from_ (lo + 1) k ++ [lo + (k + 1)])
          rw [ih, show lo + 1 + k = lo + (k + 1) by omega]
      rw [this, List.map_append]; simp
    rw [e, ofBytes_append, ih, length_toBytes, ofBytes_cons, byteOf_toNat]
    have h2 := Nat.mod_mul (x := v.toNat) (a := 256 ^ n) (b := 256)
    rw [Nat.pow_succ, h2]
    simp [ofBytes]

/-! ## The pieces of a run -/

theorem maskBits (p : Nat → Bool) (n : Nat) : ∀ k i, i < n →
    ((from_ k n).foldr (fun i acc => 2 * acc + b1 (p i)) 0).testBit i = p (k + i) := by
  induction n with
  | zero => intro k i h; omega
  | succ n ih =>
    intro k i h
    show (2 * (from_ (k + 1) n).foldr (fun i acc => 2 * acc + b1 (p i)) 0 + b1 (p k)).testBit i = _
    generalize hA : (from_ (k + 1) n).foldr (fun i acc => 2 * acc + b1 (p i)) 0 = A
    cases i with
    | zero =>
      rw [Nat.testBit_zero, Nat.add_zero]
      cases p k <;> simp [b1] <;> omega
    | succ i =>
      rw [Nat.testBit_succ]
      have : (2 * A + b1 (p k)) / 2 = A := by cases p k <;> simp [b1] <;> omega
      rw [this, ← hA, ih (k + 1) i (by omega), show k + 1 + i = k + (i + 1) by omega]
/-- The pieces of a run leave its bytes and no others. -/
theorem piecesOf_byte (pa : Nat) (bs : List Byte) (x : Nat) (v : Byte) :
    (piecesOf pa bs).foldl (fun v (p : Piece) =>
      if p.addr ≤ x ∧ x < p.addr + 32 ∧ p.mask.getLsbD (x - p.addr) then byteOf p.data (x - p.addr) else v) v
      = if pa ≤ x ∧ x < pa + bs.length then nth bs (x - pa) 0 else v := by
  unfold piecesOf
  dsimp only
  by_cases h0 : bs.length = 0
  · rw [if_pos h0, if_neg (by omega)]; rfl
  rw [if_neg h0, List.foldl_map]
  have key : ∀ (l : List Nat) (w : Byte), l.foldl (fun v sec =>
      if 32 * sec ≤ x ∧ x < 32 * sec + 32 ∧ (BitVec.ofNat 32 ((upTo 32).foldr (fun i acc => 2 * acc + b1
        (if (decide (pa ≤ 32 * sec + i) && decide (32 * sec + i < pa + bs.length)) = true then some (nth bs (32 * sec + i - pa) 0) else none).isSome)
          0)).getLsbD (x - 32 * sec) = true
      then byteOf (BitVec.ofNat 256 (ofBytes ((upTo 32).map (fun i =>
        (if (decide (pa ≤ 32 * sec + i) && decide (32 * sec + i < pa + bs.length)) = true then some (nth bs (32 * sec + i - pa) 0) else none).getD 0))))
          (x - 32 * sec) else v) w
      = if x / 32 ∈ l ∧ pa ≤ x ∧ x < pa + bs.length then nth bs (x - pa) 0 else w := by
    intro l
    induction l with
    | nil => intro w; simp
    | cons sec r ih =>
      intro w
      rw [List.foldl_cons, ih]
      by_cases hr : x / 32 ∈ r ∧ pa ≤ x ∧ x < pa + bs.length
      · rw [if_pos hr, if_pos ⟨List.mem_cons_of_mem _ hr.1, hr.2⟩]
      · rw [if_neg hr]
        by_cases hs : x / 32 = sec
        · have hx : 32 * sec + (x - 32 * sec) = x := by omega
          have hi : x - 32 * sec < 32 := by omega
          have hm := maskBits (fun i => (if (decide (pa ≤ 32 * sec + i) && decide (32 * sec + i < pa + bs.length)) = true
            then some (nth bs (32 * sec + i - pa) 0) else none).isSome) 32 0 (x - 32 * sec) hi
          rw [Nat.zero_add, hx] at hm
          rw [BitVec.getLsbD_ofNat, byteOf_ofBytes _ _ _ (by simp [upTo]), upTo, nth_map_from, hm, if_pos hi, Nat.zero_add, hx]
          by_cases hc : pa ≤ x ∧ x < pa + bs.length
          · rw [if_pos ⟨by omega, by omega, by simp [hc, hi]⟩, if_pos (c := x / 32 ∈ sec :: r ∧ pa ≤ x ∧ x < pa + bs.length) ⟨by simp [hs], hc⟩]; simp [hc]
          · rw [if_neg ?_, if_neg (fun h => hc h.2)]
            rintro ⟨-, -, h⟩
            rw [Bool.and_eq_true] at h
            have := h.2
            rw [if_neg (by simpa using fun a => Nat.not_lt.1 (fun b => hc ⟨a, b⟩))] at this
            simp at this
        · rw [if_neg (by omega), if_neg ?_]
          rintro ⟨h1, h2⟩
          rcases List.mem_cons.1 h1 with h | h
          · exact hs h
          · exact hr ⟨h, h2⟩
  rw [key]
  by_cases hc : pa ≤ x ∧ x < pa + bs.length
  · rw [if_pos hc, if_pos ⟨(mem_from _ _ _).2 (by omega), hc⟩]
  · rw [if_neg hc, if_neg (fun h => hc h.2)]
/-- A write the device makes by itself to memory leaves its bytes and no others. -/
theorem State.devWrite_byte (s : State) (d pa : Nat) (bs : List Byte) (h : regionOf pa = .hbm ∨ regionOf pa = .expander) (x : Nat) :
    (s.devWrite d pa bs).mem.byte x = if pa ≤ x ∧ x < pa + bs.length then nth bs (x - pa) 0 else s.mem.byte x := by
  unfold State.devWrite
  rcases h with h | h <;> rw [h] <;> dsimp only <;> rw [State.applyBody_byte] <;> exact piecesOf_byte ..

end Sys2Proof.Machine
end

