-- ==== Sys2Proof/Laws/Control.lean ====
section
/-! SUPPORT. Paths that go on elsewhere, paths that end, and the entry into the trap handler and the return from it. -/

namespace Sys2Proof.Machine

/-! ## Jumps -/

@[simp] theorem Team.jump_vval (t : Team) (o : Bool) (a : W64) (i : Nat) : (t.jump o a).vval i = t.vval i := by simp [Team.jump]
@[simp] theorem Team.jump_sval (t : Team) (o : Bool) (a : W64) (i : Nat) : (t.jump o a).sval i = t.sval i := by simp [Team.jump]
@[simp] theorem Team.jump_pred (t : Team) (o : Bool) (a : W64) (p : Nat) : (t.jump o a).pred p = t.pred p := by simp [Team.jump]
@[simp] theorem Team.jump_flags (t : Team) (o : Bool) (a : W64) : (t.jump o a).flags = t.flags := by simp [Team.jump]
@[simp] theorem Team.jump_rest (t : Team) (o : Bool) (a : W64) : (t.jump o a).rest = t.rest := by simp [Team.jump]
@[simp] theorem Team.jump_other (t : Team) (o : Bool) (a : W64) : (t.jump o a).side (!o) = t.side (!o) := by simp [Team.jump]
@[simp] theorem Team.jump_path (t : Team) (o : Bool) (a : W64) :
    ((t.jump o a).side o).path = (t.side o).path.map (fun p => { p with pc := a }) := by simp [Team.jump]
@[simp] theorem Team.jump_latches (t : Team) (o : Bool) (a : W64) : ((t.jump o a).side o).latches = (t.side o).latches := by
  simp [Team.jump]
theorem Iss.at_of {s : State} {x : Iss} {t T : Team} {a : W64} (hx : s.issuing = some x) (k : t.like x.t x.off)
    (m : (T.side x.off).path = (t.side x.off).path.map (fun p => { p with pc := a })) : (T.side x.off).path = x.at_ a := by
  rw [m, k.path, State.issuing_path hx]; rfl

theorem Team.like_refl (t : Team) (o : Bool) : t.like t o := ⟨fun _ => rfl, fun _ => rfl, fun _ => rfl, rfl, rfl, rfl, rfl⟩
theorem Iss.cleared_like (x : Iss) : (x.t.setSide x.off (x.t.side x.off).clear).like x.t x.off :=
  ⟨by simp, by simp, by simp, by simp, by simp [Side.clear], by simp, by simp⟩

/-- A path that goes on past its word, and one that goes on at an address. -/
theorem Iss.passed {s : State} {x : Iss} {t : Team} (hx : s.issuing = some x) (us : List SrcUse) (k : t.like x.t x.off)
    (ls : List (Option Latch)) (hl : (t.side x.off).latches = ls) :
    x.endsIn s ((s.setTeam x.u ((t.useSrcs us).advance x.off 1)).issued x.u x.off) (((t.useSrcs us).advance x.off 1).issuedOn x.off)
      { us := us, vs := [], ss := [], p := none, flags := x.t.flags, path := x.past 1, latches := ls, rest := t.rest, out := s } :=
  Iss.endsIn_of _ _ k (by simp [hl]) (by simp [k.flags]) (Iss.past_of hx k (by simp)) (by simp) (by simp) (by simp) (by simp)
    (by simp) rfl (fun _ _ => rfl)
theorem Iss.jumped {s : State} {x : Iss} {t : Team} (hx : s.issuing = some x) (us : List SrcUse) (a : W64) (k : t.like x.t x.off)
    (ls : List (Option Latch)) (hl : (t.side x.off).latches = ls) :
    x.endsIn s ((s.setTeam x.u ((t.useSrcs us).jump x.off a)).issued x.u x.off) (((t.useSrcs us).jump x.off a).issuedOn x.off)
      { us := us, vs := [], ss := [], p := none, flags := x.t.flags, path := x.at_ a, latches := ls, rest := t.rest, out := s } :=
  Iss.endsIn_of _ _ k (by simp [hl]) (by simp [k.flags]) (Iss.at_of hx k (by simp)) (by simp) (by simp) (by simp) (by simp)
    (by simp) rfl (fun _ _ => rfl)

/-- Whether a branch is performed, once its guard decides it. -/
theorem Iss.branch_ok {x : Iss} {g : Guard} {m : BrMode} (h : x.decided g m = true) : x.branch g m = .ok (x.taken g m) := by
  cases m with
  | any => rfl
  | all => rfl
  | uniform =>
    simp only [Iss.decided, ne_eq, not_true_eq_false, decide_false, Bool.false_or, Bool.or_eq_true, decide_eq_true_eq] at h
    unfold Iss.branch Iss.taken
    by_cases a : x.act g = x.p.mask
    · simp [a]
    · have b := h.resolve_left a
      have c : ¬(0 : Lanes) = x.p.mask := fun e => a (b.trans e)
      simp only [b, c, ↓reduceIte, decide_false]

end Sys2Proof.Machine
end

