-- ==== Sys2Proof/Laws/Effects.lean ====
section
/-! SUPPORT. Addresses and data read from clean groups of registers, and the end of an instruction that leaves no register
result at once. -/

namespace Sys2Proof.Machine

/-! ## Groups -/

theorem Iss.cleanAll_append (x : Iss) (m : Lanes) (us vs : List SrcUse) :
    x.cleanAll m (us ++ vs) = (x.cleanAll m us && x.cleanAll m vs) := by
  simp [Iss.cleanAll, Iss.clean_append]
theorem nextSel_zero (a : Sel) : nextSel a 0 = a := by cases a <;> simp [nextSel]
theorem each_src (k : Kind) (a : Sel) : (src k a).each = [src k a] := by
  simp [SrcUse.each, src, upTo, from_, nextSel_zero]
theorem Iss.cleanAll_src (x : Iss) (m : Lanes) (k : Kind) (a : Sel) : x.cleanAll m [src k a] = x.clean m [src k a] := by
  simp [Iss.cleanAll, each_src]
theorem Iss.clean_mem {x : Iss} {m : Lanes} {us : List SrcUse} (h : x.clean m us = true) {a : SrcUse} (ha : a ∈ us) :
    x.clean m [a] = true := by
  unfold Iss.clean at *
  simpa using List.all_eq_true.1 h a ha
/-- Register i of a clean group. -/
theorem Iss.cleanAll_each {x : Iss} {m : Lanes} {k : Kind} {n i : Nat} {a : Sel} (h : x.cleanAll m [srcN k n a] = true) (hi : i < n) :
    x.clean m [src k (nextSel a i)] = true := by
  refine Iss.clean_mem (us := (srcN k n a).each) (by simpa [Iss.cleanAll] using h) ?_
  simp only [SrcUse.each, srcN, List.mem_map, mem_upTo]
  exact ⟨i, hi, rfl⟩

/-! ## Addresses and data -/

theorem Iss.addresses_clean {x : Iss} {act : Lanes} {scl prv : Bool} {a : Sel} (h : x.cleanAll act (addrUses scl prv a) = true) :
    x.addresses act scl prv a = .ok (x.addrs act scl prv a) := by
  unfold Iss.addresses Iss.addrs addrUses at *
  cases scl
  · cases prv
    · simp only [Bool.false_eq_true, ↓reduceIte] at h ⊢
      have h0 := Iss.cleanAll_each (i := 0) h (by omega)
      have h1 := Iss.cleanAll_each (i := 1) h (by omega)
      rw [nextSel_zero] at h0
      rw [show x.vec act a = _ from Iss.vec_clean h0, show x.vec act (nextSel a 1) = _ from Iss.vec_clean h1]
      rfl
    · simp only [Bool.false_eq_true, ↓reduceIte, Iss.cleanAll_src] at h ⊢
      rw [show x.vec act a = _ from Iss.vec_clean h]
      simp only [bind, Except.bind, Nat.zero_add]
      rfl
  · simp only [↓reduceIte, Iss.cleanAll_src] at h ⊢
    rw [show x.scal (act ≠ 0) a = _ from Iss.scal_clean h]
    rfl

theorem Iss.dataBytes_clean {x : Iss} {act : Lanes} {scl : Bool} {size : Nat} {b : Sel}
    (hn : size = 1 ∨ size = 2 ∨ size = 4 ∨ size = 8 ∨ size = 16)
    (h : x.cleanAll act (dataUses scl (groupOf size) b) = true) :
    x.dataBytes act scl size b = .ok (x.stored act scl size b) := by
  unfold Iss.dataBytes Iss.stored dataUses at *
  cases scl
  · simp only [Bool.false_eq_true, ↓reduceIte] at h ⊢
    have hv : ∀ i, i < groupOf size → x.vec act (nextSel b i) = .ok (x.t.readV x.off (nextSel b i)) :=
      fun i hi => Iss.vec_clean (Iss.cleanAll_each h hi)
    have v0 : 0 < groupOf size → x.vec act b = .ok (x.t.readV x.off b) := fun hi => by simpa [nextSel_zero] using hv 0 hi
    rcases hn with rfl | rfl | rfl | rfl | rfl <;>
      simp [bind, Except.bind, v0, hv, groupOf, upTo, from_, Iss.laneVal, nextSel_zero, List.take_append, toBytes]
  · simp only [↓reduceIte, Iss.cleanAll_src] at h ⊢
    rw [show x.scal (act ≠ 0) b = _ from Iss.scal_clean h]
    rfl

/-! ## The end -/

theorem Iss.did_of {s s' : State} {x : Iss} {f : EffForm} {fn : Iss → Except Halt State} {T : Team} (hx : s.issuing = some x)
    (e : fn x = .ok (s'.setTeam x.u (T.finishLong x.off f.us f.dst 0 f.words))) (k : T.like x.t x.off)
    (hl : (T.side x.off).latches = ((x.entered (x.act f.g) f.us f.dst.uses f.static).side x.off).latches)
    (hr : T.rest = f.rest) (ho : s'.outside = f.out.outside) (ht : s'.teams = s.teams) : x.did s (s.issue fn) f := by
  rw [State.issue_ok hx e]
  unfold Iss.did
  rw [← hr]
  exact Iss.sent_end hx f.us (x.act f.g) f.dst f.static 0 f.words f.out k hl ho (fun v _ => by simp [State.teamAt, ht])
/-- The same where the team is as it entered. -/
theorem Iss.did_entered {s s' : State} {x : Iss} {f : EffForm} {fn : Iss → Except Halt State} (hx : s.issuing = some x)
    (e : fn x = .ok (s'.setTeam x.u ((x.entered (x.act f.g) f.us f.dst.uses f.static).finishLong x.off f.us f.dst 0 f.words)))
    (hr : x.t.rest = f.rest) (ho : s'.outside = f.out.outside) (ht : s'.teams = s.teams) : x.did s (s.issue fn) f :=
  Iss.did_of hx e (Iss.entered_like ..) rfl (by rw [Iss.entered_rest, hr]) ho ht

end Sys2Proof.Machine
end

