-- ==== Sys2Proof/Laws/Pairs.lean ====
section
/-! SUPPORT. The halves of a pair, once their operands are clean, and the two results they write. -/

namespace Sys2Proof.Machine

theorem pairOp_unary {h : Half} (u : pairUnary h.op = true) {w : Nat} (d d' a : BitVec w) :
    pairOpVal h.op w d a = pairOpVal h.op w d' a := by
  revert u; cases h.op <;> simp [pairUnary, pairOpVal]

theorem Iss.half_vec {x : Iss} {act : Lanes} {h : Half} (hc : x.clean act (halfUses h .v) = true) :
    x.half act .v h = .ok (.vec h.d.toNat false act (lineOf (fun l => (x.halfLane h l).1)) (x.halfSb h) [],
      raisedIn act (fun l => (x.halfLane h l).2)) := by
  unfold halfUses at hc
  rw [Iss.clean_append, Bool.and_eq_true] at hc
  have ha := Iss.vec_clean hc.2
  unfold Iss.half
  by_cases u : pairUnary h.op = true
  · have e : ∀ l, pairOpVal h.op 32 (laneOf 0#1024 l) (laneOf (x.t.readV x.off h.a).data l) = x.halfLane h l :=
      fun l => pairOp_unary u _ _ _
    simp only [u, ↓reduceIte, ha, bind, Except.bind]
    refine congrArg Except.ok (Prod.ext ?_ ?_)
    · exact congrArg (fun y => Write.vec h.d.toNat false act (lineOf y) (x.halfSb h) []) (funext fun l => congrArg Prod.fst (e l))
    · exact congrArg (raisedIn act) (funext fun l => congrArg Prod.snd (e l))
  · have hd := hc.1
    simp only [u, Bool.false_eq_true, ↓reduceIte] at hd
    simp only [u, Bool.false_eq_true, ↓reduceIte, Iss.vec_clean hd, ha, bind, Except.bind]
    rfl
theorem Iss.half_scal {x : Iss} {act : Lanes} {h : Half} (hc : x.clean act (halfUses h .s) = true) :
    x.half act .s h = .ok (.scal h.d.toNat false (act ≠ 0) (x.halfWord h).1 none, if act ≠ 0 then (x.halfWord h).2 else 0) := by
  unfold halfUses at hc
  rw [Iss.clean_append, Bool.and_eq_true] at hc
  have ha := Iss.scal_clean hc.2
  unfold Iss.half
  by_cases u : pairUnary h.op = true
  · have e : pairOpVal h.op 64 0 (x.t.readS x.off h.a).v = x.halfWord h := pairOp_unary u _ _ _
    simp only [u, ↓reduceIte, ha, bind, Except.bind, e]
  · have hd := hc.1
    simp only [u, Bool.false_eq_true, ↓reduceIte] at hd
    simp only [u, Bool.false_eq_true, ↓reduceIte, Iss.scal_clean hd, ha, bind, Except.bind]
    rfl

/-! ## Results as a program reads them -/

/-- A register as the team reads it, empty where it is unmapped. -/
theorem Team.vget_getD (t : Team) (d : Nat) :
    ((t.vget d).getD .zero).data = ((t.vval d).getD (0, 0, [])).1 ∧ ((t.vget d).getD .zero).sb = ((t.vval d).getD (0, 0, [])).2.1
      ∧ ((t.vget d).getD .zero).poison = ((t.vval d).getD (0, 0, [])).2.2 := by
  unfold Team.vval
  cases t.vget d <;> exact ⟨rfl, rfl, rfl⟩
/-- A result over what a register held. -/
def mergedOn (o : Line × SideBand × List Poison) (m : Lanes) (y : Line) (sb : Option SideBand) : Line × SideBand × List Poison :=
  (mergeLanes m y o.1, if m = 0 then o.2.1 else sb.getD o.2.1, o.2.2.filter (fun p => !m.getLsbD p.lane))
theorem Team.put_vec_on (t : Team) (o : Bool) (d : Nat) (m : Lanes) (y : Line) (sb : Option SideBand) (i : Nat) :
    (t.put o (.vec d false m y sb [])).vval i
      = if i = d ∧ m ≠ 0 then some (mergedOn ((t.vval d).getD (0, 0, [])) m y sb) else t.vval i := by
  rw [Team.put_vec_vval]
  obtain ⟨e1, e2, e3⟩ := t.vget_getD d
  by_cases h : i = d ∧ m ≠ 0
  · rw [if_pos ⟨h.1, rfl, h.2⟩, if_pos h]
    unfold Team.merged mergedOn
    simp only [e1, e2, e3, List.filter_nil, List.append_nil, if_neg h.2]
  · rw [if_neg (fun c => h ⟨c.1, c.2.2⟩), if_neg h]
theorem Team.put_vec_latches (t : Team) (o : Bool) (d : Nat) (m : Lanes) (y : Line) (sb : Option SideBand) :
    ((t.put o (.vec d false m y sb [])).side o).latches
      = some (let r := mergedOn ((t.vval d).getD (0, 0, [])) m y sb
              .vec r.1 r.2.1 r.2.2) :: (t.side o).latches.take 3 := by
  obtain ⟨e1, e2, e3⟩ := t.vget_getD d
  unfold Team.put mergedOn
  simp only [Team.setSide_side, Side.push, List.filter_nil, List.append_nil, e1, e2, e3, Bool.false_eq_true, ↓reduceIte, Bool.false_or]
  split <;> split <;> simp_all
theorem Team.put_scal_latches (t : Team) (o : Bool) (d : Nat) (p : Bool) (v : W64) :
    ((t.put o (.scal d false p v none)).side o).latches
      = some (if p then .scal v none else latchOf (t.sget d)) :: (t.side o).latches.take 3 := by
  unfold Team.put
  simp only [Team.setSide_side, Side.push, Bool.false_eq_true, ↓reduceIte, Bool.false_or]
  cases p <;> simp
theorem Team.useSrcs_prior (t : Team) (us : List SrcUse) (i : Nat) : ((t.useSrcs us).vval i).getD (0, 0, []) = t.prior us i := by
  rw [Team.useSrcs_vval]; unfold Team.prior; split <;> rfl
theorem Iss.resultV_on (x : Iss) (us : List SrcUse) (h : Half) (m : Lanes) (y : Line) (sb : Option SideBand) :
    x.resultV us (halfTo h) m y sb = mergedOn (x.t.prior us h.d.toNat) m y sb := rfl

end Sys2Proof.Machine
end

