-- ==== Sys2Proof/Tests/Slice0.lean ====
section
/-! SUPPORT. Tests: words of the spec decoded, ill-formed terms refused, one step of instructions on small states, and states that meet
the hypotheses of the statements. -/

namespace Sys2Proof.Tests

open Sys2Proof Sys2Proof.Machine

set_option Elab.async false

/-! ## Words -/

def g0 : Guard := { p := 0, neg := false }
def v (i : BitVec 8) : Sel := .reg i false
def k (i : BitVec 8) : Sel := .reg i true
def dst (i : BitVec 8) : Dst := { idx := i, ws := false }
def dec (w : W64) (ext : List W64) (i : Instr) : Bool := match decode w ext with | .ok j => i = j | .error _ => false

/-- 05, worked example of a pair. -/
theorem test_decode_pair : dec 0x82088480820C0100 [] (.pair { op := .iadd, d := 4, a := k 9, p := 0, neg := false }
    { op := .iadd, d := 6, a := v 2, p := 0, neg := false } true) = true := by decide +kernel
/-- 05, worked example of a full word. -/
theorem test_decode_rcp : dec 0x3E80052120000050 [] (.rcp { p := 2, neg := true } .vec (dst 5) (k 9) true) = true := by decide +kernel
/-- 06: the NOP word of padding. -/
theorem test_decode_nop : dec 0x0103000000000000 [] (.nop g0) = true := by decide +kernel
/-- 06: `(p1) fadd v3, h0, v4^`. -/
theorem test_decode_fadd : dec 0x3000034008200020 [] (.fadd { p := 1, neg := false } .vec (dst 3) (.latch 0) (.sel (k 4)) 0) = true := by
  decide +kernel
/-- 07, Table 07.6. -/
theorem test_decode_iaddc : dec 0x1214008040200000 [] (.iaddc g0 .vec { idx := 0, ws := true } (v 2) (.sel (v 4)) (.imm 0) true) = true := by
  decide +kernel
theorem test_decode_iaddc_latch : dec 0x12000B00602C0200 [] (.iaddc g0 .vec (dst 11) (v 3) (.sel (v 5)) (.sel (.latch 1)) false) = true := by
  decide +kernel
/-- 07: BRC and BRA of the divergence example. -/
theorem test_decode_brc : dec 0x0303000080000620 [] (.brc { p := 1, neg := false } 3 4) = true := by decide +kernel
theorem test_decode_bra : dec 0x0203000000000400 [] (.bra g0 2 .uniform) = true := by decide +kernel
/-- 08, Tables 08.8 and 08.11, and the shuffle example. -/
theorem test_decode_cvt : dec 0x3F90042120000000 [] (.cvt g0 .vec (dst 4) (k 9) (.elem .e4m3) .f32 .sat 0) = true := by decide +kernel
theorem test_decode_bscale : dec 0x4204052080000000 [] (.bscale g0 (dst 5) (k 4) .e4m3) = true := by decide +kernel
theorem test_decode_bqnt : dec 0x4304080048280000 [] (.bqnt g0 .vec 8 (v 2) (k 5) .e4m3 0 false .sat .rn) = true := by decide +kernel
theorem test_decode_shfl : dec 0x4B08030020080E02 [] (.shflDown g0 .vec (dst 3) (v 1) (.imm 1) (v 7)) = true := by decide +kernel
/-- 09, Table 09.6 and the TRY of the list example. -/
theorem test_decode_atom : dec 0x5927090040280000 [] (.atom g0 9 (v 2) (v 5) .fadd false false { ann := .rlx, scope := none }) = true := by
  decide +kernel
theorem test_decode_cas : dec 0x5AC30A0080404800 [] (.cas g0 10 (v 4) (v 8) true true { ann := .ar, scope := some .dev }) = true := by
  decide +kernel
theorem test_decode_st : dec 0x51130000C8604600 [] (.st g0 (v 6) (k 12) .b32 false false { ann := .rel, scope := some .dev }) = true := by
  decide +kernel
theorem test_decode_try : dec 0x6807000140001000 [] (.tryL g0 8 10) = true := by decide +kernel
/-- 10: the CPY of the staging example, with its four extension words. -/
theorem test_decode_cpy : dec 0x7003000000000001 [0xFFFFFFFFFFFFFF14, 0x10000, 0x0000020000400004, 0x000400010000A021]
    (.cpy g0 { w0 := 0xFFFFFFFFFFFFFF14, w1 := 0x10000, w2 := 0x0000020000400004, w3 := 0x000400010000A021 }) = true := by decide +kernel
/-- R160: a reserved OP, a non-zero unused field, a reserved M, a scalar index of 64, a marker that names no scalar. -/
theorem test_decode_refuses : [0x7F03000000000000#64, 0x0103000000000008#64, 0x1000000000000003#64, 0x1001400000000000#64].all
    (fun w => match decode w [] with | .ok _ => false | .error _ => true) = true
  ∧ (match decode 0x7003000000000001 [0xFFFFFFFFFFFFFF40, 0, 0, 0] with | .error (.badMarker 1) => true | _ => false) = true := by
  decide +kernel
/-- The table's numbering of bits: the second word of CPY is bits 127 to 64. -/
theorem test_table_word : (match decodeTableWord 320 (0x7003000000000001 + 5 * 2 ^ 64) with
    | some (.cpy g pb) => g = g0 && pb.w0 = 5 && pb.w1 = 0 | _ => false) = true := by decide +kernel

/-! ## Ill-formed terms -/

def plain : Ord := { ann := .plain, scope := none }
/-- One ill-formed term for each check of WellFormed. -/
theorem test_wf_registers : ([.iadd g0 .scal (dst 64) (v 1) (.sel (v 2)) .wrap, .iadd g0 .scal (dst 1) (v 64) (.sel (v 2)) .wrap,
    .iadd g0 .scal (dst 1) (v 1) (.sel (v 64)) .wrap, .iadd g0 .vec { idx := 3, ws := true } (v 1) (.sel (v 2)) .wrap,
    .iadd g0 .mix (dst 1) (v 1) (.imm 5) .wrap, .iadd g0 .mix (dst 1) (v 1) (.lit 5) .wrap, .imad g0 .vec (dst 1) (v 1) (.imm 5) (v 2),
    .iaddc g0 .vec (dst 1) (v 1) (.lit 5) (.imm 1) false, .iaddc g0 .vec (dst 1) (v 1) (.sel (v 2)) (.lit 1) false,
    .fma g0 .mix (dst 1) (v 1) (.imm 5) (v 2) false false 0, .call g0 64 0, .callx g0 1 (v 64), .loop g0 64 0, .brx g0 (v 64) .any, .ret g0 (v 64),
    .idiv g0 .scal 64 (v 1) (.sel (v 2)) false, .shf g0 .vec (dst 1) (v 1) (v 2) (.lit 0) false, .bfi g0 .vec (dst 1) (v 1) (.imm 0) (.imm 0),
    .lea g0 .vec (dst 1) (v 1) (.sel (v 2)) 5 false, .lea g0 .vec (dst 1) (v 1) (.sel (v 2)) 1 true, .movi g0 .scal (dst 64) 0,
    .movl g0 .scal (dst 64) 0, .mov g0 .mix (dst 1) (v 64), .isel g0 .vec (dst 1) (v 1) (.imm 0) 1] : List Instr).all (fun i => !i.wf) = true := by
  decide +kernel
theorem test_wf_forms : ([.lnch g0 (dst 64) (v 1) (v 2) false, .mfs g0 (dst 64) .teamid, .mfs g0 { idx := 0, ws := true } (.faultrec 0),
    .mts g0 (.faultrec 3) (v 1), .icmp g0 .vec 0 (v 1) (.sel (v 2)) .eq .set, .fclass g0 .mix 1 (v 1) 0 .set, .pand g0 0 1 2, .pnot g0 0 1,
    .pset g0 0 (v 1) true, .pset g0 1 (v 64) false, .pget g0 (dst 64) 1 false, .fcmp g0 .vec 0 (v 1) (.sel (v 2)) .eq .set, .frnd g0 .mix (dst 1) (v 1) 0,
    .fdiv g0 .scal 64 (v 1) (.sel (v 2)) 0, .h2add g0 .vec (dst 1) (v 1) (.imm 0) false 0, .rcp g0 .vec { idx := 0, ws := true } (v 1) true,
    .rcp g0 .mix (dst 1) (v 1) false, .cvt g0 .vec (dst 1) (v 1) .f32 .f32 .sat 0, .cvt g0 .vec (dst 1) (v 1) (.elem .e4m3) .f16 .sat 0,
    .cvts g0 (dst 1) (v 1) .f32 .sat, .bqnt g0 .scal 1 (v 1) (v 2) .e4m3 0 false .sat .rn, .bqnt g0 .vec 1 (v 1) (v 2) .e4m3 4 false .sat .rn,
    .brsc g0 (dst 1) (v 1) (.shift (v 64)) .sat .rn, .bsum g0 (dst 1) (v 1) 1 true 0, .sget g0 (dst 1) (v 1) 1 true, .sset g0 .scal (dst 1) (v 1) (v 2) 0 false,
    .shflIdx g0 .scal (dst 1) (v 1) (.sel (v 2)) (v 3), .shflIdx g0 .mix (dst 1) (v 1) (.imm 2) (v 3), .lred g0 (dst 1) (v 1) .iadd 1,
    .lscan g0 (dst 1) (v 1) .and true 1, .vote g0 { idx := 1, ws := true } 1 .mask, .bmax g0 { idx := 1, ws := true } (v 1)] : List Instr).all (fun i => !i.wf) = true := by
  decide +kernel
theorem test_wf_memory : ([.ld g0 1 (v 1) .b32 false false plain, .ld g0 1 (v 2) .b64 false false plain, .ld g0 1 (v 1) .b128 false true plain,
    .ld g0 64 (v 1) .b32 false true plain, .ld g0 1 (v 2) .b32 false false { ann := .rel, scope := none },
    .ld g0 4 (v 2) .b128 false false { ann := .rlx, scope := none }, .ld g0 1 (v 2) .b32 false false { ann := .plain, scope := some .die },
    .st g0 (v 2) (v 1) .b64 false false plain, .st g0 (v 2) (v 1) .b32 false false { ann := .acq, scope := none }, .lds g0 { idx := 1, ws := true } (v 1) .b32 false plain,
    .sts g0 (v 64) (v 1) .b32 true plain, .ldc g0 1 (v 1) .b64 false, .ldb g0 { idx := 0, ws := true } (v 1) .g, .ldb g0 (dst 1) (v 64) .g, .stb g0 (v 64) (v 1) .g,
    .pref g0 (v 1) false false, .stm g0 (v 1) (v 1) .b64 0, .atom g0 1 (v 2) (v 3) .add false false plain, .atom g0 2 (v 2) (v 4) .fadd true false { ann := .rlx, scope := none },
    .atom g0 1 (v 2) (v 4) .add true false { ann := .rlx, scope := none }, .cas g0 1 (v 1) (v 3) false false { ann := .rlx, scope := none },
    .red g0 (v 2) (v 3) .add false false plain, .atoms g0 64 (v 1) (v 2) .add false true { ann := .rlx, scope := none },
    .cass g0 1 (v 1) (v 2) true false { ann := .rlx, scope := none }] : List Instr).all (fun i => !i.wf) = true := by decide +kernel
theorem test_wf_sync : ([.binit g0 (v 64) (.imm 1), .binit g0 (v 1) (.sel (v 64)), .arrive g0 (v 64) none none, .arrive g0 (v 1) (some (v 64)) none,
    .arriveYard g0 0 (some (v 64)) false, .expect g0 (.local (v 64)) (v 1), .wait g0 (.local (v 1)) (v 64), .waitBatch g0 (v 64), .testp g0 0 .batch (v 1),
    .testp g0 1 (.bar (.local (v 64))) (v 1), .watch g0 (dst 64) (v 1) (v 2), .unwatch g0 (v 64), .commit g0 .team, .commitSplit g0 .team, .tstat g0 (dst 1) 3,
    .sqocc g0 (dst 64), .cbatch g0 (dst 64)] : List Instr).all (fun i => !i.wf) = true := by decide +kernel
theorem test_wf_engines : ([.cpy g0 { w0 := 0xFFFFFFFFFFFFFF40, w1 := 0, w2 := 0, w3 := 0 }, .cpy g0 { w0 := 0, w1 := 0, w2 := 0xFF40, w3 := 0 },
    .mma g0 { w0 := 0xFFFFFF4000000000, w1 := 0, w2 := 0, w3 := 0 }, .coll g0 { w0 := 0, w1 := 0, w2 := 0xFFFFFFFFFFFFFF50, w3 := 0 }, .mzero g0 (v 64) (v 1),
    .mload g0 1 (v 1) .x2, .mload g0 0 (v 64) .x1, .mstoreV g0 (v 64) (v 1), .mstoreS g0 none (v 1) (v 2) (v 64), .actld g0 none (v 64), .slotw g0 0 0,
    .puts g0 (v 64) (v 1) (v 2) false, .gets g0 (v 1) (v 64) (v 2) false, .mirwWin g0 (v 1) (v 64) 0, .mirwPort g0 (dst 64) (v 1) (v 2),
    .pair { op := .iadd, d := 4, a := v 9, p := 0, neg := false } { op := .iadd, d := 8, a := v 2, p := 0, neg := false } false,
    .pair { op := .iadd, d := 4, a := v 9, p := 0, neg := false } { op := .iadd, d := 5, a := v 1, p := 0, neg := false } false,
    .pair { op := .iadd, d := 4, a := v 5, p := 0, neg := false } { op := .iadd, d := 5, a := v 2, p := 0, neg := false } false,
    .pair { op := .iadd, d := 4, a := v 9, p := 0, neg := false } { op := .fadd 0, d := 5, a := v 2, p := 0, neg := false } true] : List Instr).all
    (fun i => !i.wf) = true := by decide +kernel

/-! ## Small states -/

/-- A launch of one block of one team with 1 KiB of scratchpad, 64 KiB of tile store and 4 KiB of private area at 2^24, whose header
word is built from 01's field positions; constant space is 4 KiB at 2^25. -/
def testLaunch : Launch :=
  { placedLaunch with record := [w64 (2 ^ 28 + 2 ^ 22 + 2 ^ 14 + 1), w64 placedAt, 0, w64 (2 ^ 25), w64 (2 ^ 24), w64 4096, 0, 0] }
def vreg (f : Nat → W32) : VReg := { data := lineOf f, sb := 0, poison := [], fresh := false, snap := false }
def sreg (x : W64) : SReg := { val := x, poison := none, fresh := false, snap := false }
/-- Context slot 0 runs on partition 0; team 2 of block 1 of launch 0 stands on core 0 of die 0 with v0 to v7 and s0 to s7 mapped. -/
def base : State :=
  let s := State.reset.place 64 0x0103000000000000
  let s : State := { s with launches := [(0, testLaunch)], run := { s.run with agenda := [], cur := some (2, false), uid := 3 } }
  s.modTeam 2 (fun t => { t with
    vregs := (upTo 8).map (fun i => (i, vreg (fun l => w32 (16 * i + l))))
    sregs := (upTo 8).map (fun i => (i, sreg (w64 (128 * i))))
    preds := setAt 1 0xFFFF#32 t.preds })
def rig (f : Team → Team) : State := base.modTeam 2 f
def rigBlock (f : Block → Block) : State := base.modBlock 1 f
/-- A test of the path that is chosen, in a state. -/
def on (s : State) (f : Iss → Bool) : Bool := match s.issuing with | some x => f x | none => false
/-- A test of the next state. -/
def after (o : Host.Outcome State Fault Refusal) (f : State → Bool) : Bool := match o with | .next t => f t | _ => false
def team2 (t : State) (f : Team → Bool) : Bool := match t.teamAt 2 with | some u => f u | none => false
def vlane (t : State) (i l : Nat) : Option W32 := (t.teamAt 2).bind (fun u => (u.vget i).map (fun r => laneOf r.data l))
def sval (t : State) (i : Nat) : Option W64 := (t.teamAt 2).bind (fun u => (u.sget i).map (·.val))

/-! ## States that meet the hypotheses of the statements about instructions -/

def ofCalc (s : State) (i : Instr) (kind : Kind) : Bool :=
  on s (fun x => match calcForm i with
    | some f => f.ty.kind = kind && x.ready s (x.act f.g) (argUses f.args) (dstUses kind f.d) false && x.clean (x.act f.g) (argUses f.args)
    | none => false)
theorem wit_VectorComputations : ofCalc base (.iadd g0 .vec (dst 3) (v 1) (.sel (v 2)) .wrap) .v = true := by decide +kernel
theorem wit_ScalarComputations : ofCalc base (.iadd g0 .scal (dst 3) (v 1) (.sel (v 2)) .wrap) .s = true := by decide +kernel
theorem wit_LongLatencyComputations : on base (fun x => match longForm (.idiv g0 .vec 3 (v 1) (.sel (v 2)) false) with
    | some f => x.ready base (x.act f.g) (argUses f.args) (longDst (x.act f.g) f.ty f.d.idx.toNat).uses false && x.clean (x.act f.g) (argUses f.args)
    | none => false) = true := by decide +kernel
def ofTest (i : Instr) (kind : Kind) : Bool :=
  on base (fun x => match testForm i with
    | some f => f.ty.kind = kind && x.ready base (x.act f.g) (argUses f.args) [] false && x.clean (x.act f.g) (argUses f.args)
    | none => false)
theorem wit_Comparisons : ofTest (.icmp g0 .vec 2 (v 1) (.sel (v 2)) .lt .set) .v = true
    ∧ ofTest (.fcmp g0 .scal 2 (v 1) (.sel (v 2)) .lt .and) .s = true := by decide +kernel
def ofLane (s : State) (form : Iss → Option LaneForm) : Bool :=
  on s (fun x => match form x with
    | some f => f.ok && x.ready s (x.act f.g) f.us (dstUses .v f.d) false
    | none => false)
/-- A line of zero codes in E4M3 with every scale 1.0. -/
def blockLine : VReg := { vreg (fun _ => 0) with sb := mkSb [0x7F0, 0x7F0, 0x7F0, 0x7F0] 1 0 }
def rigLine : State := rig (fun t => { t with vregs := place 4 blockLine t.vregs })
theorem wit_LaneResults : ofLane base (fun x => moveForm x base (.shflDown g0 .vec (dst 3) (v 1) (.imm 1) (v 7))) = true
    ∧ ofLane rigLine (fun x => blockForm x (.bdq g0 (dst 3) (v 4) 3)) = true
    ∧ ofLane rigLine (fun x => writerForm x rigLine (.bqnt g0 .mix 4 (v 1) (v 2) .e4m3 3 false .sat .rn)) = true := by decide +kernel
theorem wit_ScalarMoves : on base (fun x => match wordForm x (.isel g0 .scal (dst 3) (v 1) (.sel (v 2)) 1) with
    | some f => x.ready base (x.act f.g) f.us (dstUses .s f.d) false && x.clean (x.act f.g) f.us
    | none => false) = true := by decide +kernel
theorem wit_PredicateResults : on base (fun x => match predForm x (.pset g0 2 (v 1) true) with
    | some f => x.ready base (x.act f.g) f.us [] false && x.clean (x.act f.g) f.us
    | none => false) = true := by decide +kernel
/-- 05: `iadd v4, v5^ || iadd s6, s2`. -/
def pairH0 : Half := { op := .iadd, d := 4, a := k 5, p := 0, neg := false }
def pairH1 : Half := { op := .iadd, d := 6, a := v 2, p := 0, neg := false }
theorem wit_PairForm : on base (fun x => pairH0.d.toNat % 4 ≠ pairH1.d.toNat % 4
    && x.ready base (x.act (halfGuard pairH0) ||| x.act (halfGuard pairH1)) (pairUses pairH0 pairH1 true)
      (pairDsts pairH0 pairH1 true (x.act (halfGuard pairH0)) (x.act (halfGuard pairH1))) false
    && x.clean (x.act (halfGuard pairH0)) (halfUses pairH0 .v) && x.clean (x.act (halfGuard pairH1)) (halfUses pairH1 .s)) = true := by decide +kernel
theorem wit_Jumps : on base (fun x => match jumpForm x (.bra g0 2 .uniform) with
    | some f => f.ok && x.ready base 0 f.us [] false
    | none => false) = true := by decide +kernel
def ofLink (i : Instr) : Bool := on base (fun x => match linkForm x i with
    | some f => let perf := x.taken f.g .uniform
                x.decided f.g .uniform && (!perf || f.ok) && x.ready base (if perf then x.p.mask else 0) f.us (linkDst perf f.d) false
    | none => false)
theorem wit_LinkingBranches : ofLink (.call g0 5 2) = true ∧ ofLink (.loop { p := 0, neg := true } 5 2) = true := by decide +kernel
theorem wit_Divergence : on base (fun x =>
    let T := x.act { p := 1, neg := false }
    T ≠ 0 && x.p.mask &&& ~~~ T ≠ 0 && x.t.handler.isNone && addrOk57 (x.target (3 : BitVec 20)) && addrOk57 (x.target (4 : BitVec 18))
      && x.t.loft.length + (x.pushes (x.target (4 : BitVec 18))).length ≤ 4
      && x.t.loftDepth + (x.pushes (x.target (4 : BitVec 18))).length ≤ 64) = true := by decide +kernel
/-- The path stands at its reconvergence address. -/
def atJoin (f : Team → Team) : State :=
  rig (fun t => f { t with near := { t.near with path := t.near.path.map (fun p => { p with rpc := p.pc }) } })
def joinEnt : LoftEnt := { kind := .join, mask := allLanes, rpc := rpcNone, pc := w64 (2 ^ 20), ok := true }
theorem wit_PathEnds :
    on base (fun x => x.act { p := 1, neg := false } ≠ 0 && x.p.mask &&& ~~~ x.act { p := 1, neg := false } ≠ 0 && x.t.region.isNone && x.t.handler.isNone) = true
    ∧ on (atJoin (fun t => { t with off := t.near })) (fun x => x.p.rpc = x.p.pc && x.t.loftDepth = 0 && (x.t.side (!x.off)).path.isSome) = true
    ∧ on (atJoin (fun t => { t with loft := [joinEnt], loftDepth := 1 })) (fun x => x.p.rpc = x.p.pc && x.t.loft = [joinEnt] && x.t.loftDepth = 1
        && (x.t.side (!x.off)).path.isNone && joinEnt.mask &&& x.t.live ≠ 0) = true := by decide +kernel
/-- The context has a handler at 2^20, and the team an enabled flag up. -/
def rigTrap : State := (rig (fun t => { t with flags := 1, flagen := 1 })).modCtx 0 (fun c => { c with handler := w64 (2 ^ 20) })
theorem wit_TrapEntry : on rigTrap (fun x => x.act g0 ≠ 0 && x.t.region.isNone && x.t.handler.isNone && x.t.due ≠ 0
      && (rigTrap.ctxAt (rigTrap.ctxOf x.t.block)).handler ≠ 0) = true
    ∧ on base (fun x => x.act g0 ≠ 0 && x.t.region.isNone && x.t.handler.isNone && (base.ctxAt (base.ctxOf x.t.block)).handler = 0) = true := by
  decide +kernel
theorem wit_TrapReturn : on (rig (fun t => { t with handler := some false, shadow := setAt 1 (.plain (w64 (2 ^ 20))) t.shadow }))
    (fun x => x.act g0 ≠ 0 && x.t.handler.isSome && targetOk x.t.resume) = true := by decide +kernel
theorem wit_Breakpoint : on base (fun _ => true) = true := by decide +kernel
theorem wit_SpecialRegisters : on base (fun x =>
    x.ready base (x.act g0) [] (dstUses .v (dst 3)) false && x.ready base (x.act g0) [] (LDst.scal 3).uses false
      && x.ready base (x.act g0) [] (dstUses .s (dst 3)) false
      && x.ready base (x.act g0) [src .s (v 1)] [] false && x.clean (x.act g0) [src .s (v 1)]) = true := by decide +kernel

/-- Addresses 2^12 + 128 × l in the pair v2, v3 of each lane; s1 holds 2^12, s2 an offset, s3 small numbers. -/
def rigMem : State := rig (fun t => { t with
  vregs := place 2 (vreg (fun l => w32 (2 ^ 12 + 128 * l))) (place 3 (vreg (fun _ => 0)) t.vregs)
  sregs := place 1 (sreg (w64 (2 ^ 12))) (place 3 (sreg 1) t.sregs) })
def able (s : State) (form : Iss → Option EffForm) : Bool := on s (fun x => match form x with | some f => x.able s f | none => false)
theorem wit_Loads : able rigMem (fun x => loadForm x rigMem (.ld g0 4 (v 2) .b64 false false plain)) = true
    ∧ able rigMem (fun x => loadForm x rigMem (.ldc { p := 1, neg := false } 4 (v 6) .u8 false)) = true := by decide +kernel
theorem wit_Stores : able rigMem (fun x => storeForm x rigMem (.st g0 (v 2) (v 4) .b64 false false plain)) = true
    ∧ able rigMem (fun x => storeForm x rigMem (.sts g0 (v 1) (v 4) .b8 false plain)) = true
    ∧ rigMem.blockAt 1 ≠ none ∧ on rigMem (fun x => x.t.region.isNone) = true := by decide +kernel
theorem wit_Atomics : able rigMem (fun x => atomForm x rigMem (.atom g0 9 (v 2) (v 5) .fadd false false { ann := .rlx, scope := none })) = true := by
  decide +kernel
theorem wit_SyncAndEngineIssues : able rigMem (fun x => syncForm x rigMem (.fence g0 .dev .rw)) = true
    ∧ able rigMem (fun x => tryForm x rigMem (.tryL g0 8 10)) = true
    ∧ able rigMem (fun x => engineForm x rigMem (.mstoreV g0 (v 0) (v 4))) = true := by decide +kernel
/-- The team has closed one batch. -/
def rigBatch : State := rig (fun t => { t with batch := { t.batch with closed := 1, phase := 1 } })
theorem wit_AnswersAtOnce :
    on rigMem (fun x => match groupForm x rigMem (.lds { p := 1, neg := false } (dst 4) (v 0) .u8 false plain) with
      | some f => f.ok && x.ready rigMem (x.act f.g) f.us (groupDst f.d f.n) false && x.cleanAll (x.act f.g) f.us
      | none => false) = true
    ∧ on rigMem (fun x => match scalForm x rigMem (.sqocc g0 (dst 4)) with
      | some f => f.ok && x.ready rigMem (x.act f.g) f.us (dstUses .s f.d) f.static && x.cleanAll (x.act f.g) f.us
      | none => false) = true
    ∧ on rigBatch (fun x => match passForm x rigBatch (.testp g0 1 .batch (v 0)) with
      | some f => f.ok && x.ready rigBatch (x.act f.g) f.us [] false && x.cleanAll (x.act f.g) f.us
      | none => false) = true := by decide +kernel
/-- A region of the team over two lanes' worth of nothing: it targets 2^20, and lane 1 may have aborted. -/
def tryRec (lane : Bool) (aborted : Lanes) (begun : Option (List QEntry)) : Try :=
  { lane := lane, target := w64 (2 ^ 20), rpc := w64 (2 ^ 20 + 64), mask := allLanes, prpc := rpcNone, loft := 0, sVregs := [], sSregs := [],
    sPreds := [], sFlags := 0, sFlagen := 0, sDraw := 0, sSlots := [], adds := [], buf := [], reads := [], aborted := aborted, stores := 1,
    since := 0, begun := begun, scope := .dev, released := none }
def rigTry (r : Try) : State := rig (fun t => { t with region := some r })
theorem wit_Commits :
    on (rigTry (tryRec false 0 none)) (fun x => let s := rigTry (tryRec false 0 none)
      x.act g0 ≠ 0 && (x.t.side (!x.off)).path.isNone && x.unheld s && x.mayRelease s .dev && !s.otherCommit x.u x.t (tryRec false 0 none)
        && s.net.conflicts = []) = true
    ∧ on (rigTry (tryRec true 2 (some []))) (fun x => let s := rigTry (tryRec true 2 (some []))
      x.act g0 ≠ 0 && !x.t.queue.any (·.commit) && !s.net.writes.any (fun y => y.team = some x.u && y.commit) && x.t.loft.length < 4) = true := by
  decide +kernel
theorem wit_Aborts : on (rigTry (tryRec false 0 none)) (fun x => x.act g0 ≠ 0) = true
    ∧ on (rigTry (tryRec true 2 none)) (fun x => x.p.mask &&& ~~~ (x.act { p := 1, neg := false } &&& allLanes) ≠ 0
      && allLanes &&& ~~~ (2 ||| (x.act { p := 1, neg := false } &&& allLanes)) ≠ 0) = true := by decide +kernel
theorem wit_HarnessForming : on base (fun x => x.act g0 ≠ 0 && x.harnFits 1 3 && 1 ≤ (x.b.harness 3).members.length + 1
    && x.harnFits 8 0 && (x.b.harness 0).members.length + 1 < 8) = true := by decide +kernel

/-! ## States that meet the hypotheses of the statements about events -/

/-- What the lookups of a hypothesis must find. -/
def got {α : Type} (o : Option α) (f : α → Bool) : Bool := match o with | some x => f x | none => false
def onNet (s : State) (f : Net → Net) : State := { s with net := f s.net }
/-- Four bytes at 2^12. -/
def piece : Piece := { addr := 2 ^ 12, mask := 0xF, data := 0x04030201 }
def body : WBody := { pieces := [piece], sides := [] }
def qent (send : Send) (charge : Nat) : QEntry := { view := piece, charge := charge, send := send, commit := false, rel := false, stamp := none }
def rigQueue (e : QEntry) : State := rig (fun t => { t with queue := [e] })
theorem wit_StoresLeave :
    got ((rigQueue (qent (.write body) 64)).teamAt 2) (fun x => let s := rigQueue (qent (.write body) 64)
      let b := s.block x.block
      b.res = .core && decide (64 ≤ (s.budget b.die (s.ctxOf x.block)).chute) && b.die < s.dies.length && (regionOf 4096 matches .hbm)) = true
    ∧ got ((rigQueue (qent .nothing (2 ^ 30))).teamAt 2) (fun x => let s := rigQueue (qent .nothing (2 ^ 30))
      decide ((s.budget (s.block x.block).die (s.ctxOf x.block)).chute < 2 ^ 30)) = true := by decide +kernel
def nwrite (stamp : Clock) (b : WBody) : NWrite :=
  { id := 3, src := 0, home := State.reset.homeOf b.start, team := some 2, ctx := 0, stamp := stamp, owner := 0, body := b, commit := false,
    stream := none }
def clkOf (n : Nat) : Clock := [n, n, n, n, n, n, n, n, n]
/-- Four bytes at the start of the first expander window, whose link has failed. -/
def rigWrite (stamp : Clock) : State := onNet base (fun n => { n with writes := [nwrite stamp body] })
theorem wit_StoresApply :
    (rigWrite .zero).mayApply (nwrite .zero body) = true ∧ (rigWrite .zero).xFailed 4096 = false
    ∧ (rigWrite (clkOf 9)).covers (State.reset.homeOf 4096) 0 (clkOf 9) = false := by decide +kernel
def linePart (c : Clock) (pkg : Option Nat) : LinePart :=
  { line := 32, need := 15, home := base.homeOf 4096, pkg := pkg, clock := c, got := none, noRdc := true, noL1 := false, epoch := 0 }
def laneAt (a : Nat) : LaneAddr := { lane := 0, addr := a, fwd := [] }
def memOp (kind : OpKind) (dst : LDst) : MemOp :=
  { id := 4, team := 2, off := false, pc := w64 placedAt, die := 0, core := 0, ctx := 0, kind := kind, dst := dst, lanes := 1,
    scalar := false, strong := false, acq := none, reason := none }
def loadOp (p : LinePart) : MemOp := memOp (.load 4 .zero false false [p] []) (.vec 3 1)
def rigOp (o : MemOp) : State := onNet base (fun n => { n with ops := [o] })
/-- Package 5 is reached through port 0, and has been asked. -/
def online (s : State) : State := { s with io := { s.io with
  routes := [20, 21, 22, 23].map (fun k => (k, { valid := true, port := 0 }))
  ports := { up := true, retrains := 0, combine := true, slots := 8, trained := true } :: s.io.ports.drop 1 } }
def asked (k : OutKind) (s : State) : State := onNet (online s) (fun n => { n with out :=
  [{ id := 7, pkg := 5, cls := 0, team := some 2, ctx := 0, die := 0, pc := 0, kind := k, waited := 0 }] })
/-- The line at 4096 through the fabric window of this package, package 0, and a request for it. -/
def ownLine : Nat := (2 ^ 51 + 4096) / 128
def ownAsked (k : OutKind) (s : State) : State := onNet s (fun n => { n with out :=
  [{ id := 7, pkg := 0, cls := 0, team := some 2, ctx := 0, die := 0, pc := 0, kind := k, waited := 0 }] })
theorem wit_LoadsServed :
    (rigOp (loadOp (linePart .zero none))).homeServes 0 .zero 4 4096 128 = true
    ∧ (rigOp (loadOp (linePart .zero none))).inTurn (loadOp (linePart .zero none)) 32 15 (base.homeOf 4096) false = true
    ∧ leClk (clkOf 9) ((rigOp (loadOp (linePart (clkOf 9) none))).die (base.homeOf 4096)).applied = false
    ∧ ((asked (.load 4 0) (rigOp (loadOp (linePart .zero (some 5))))).takeOut (.load 4 0)).isSome = true
    ∧ (let s := ownAsked (.load 4 0) (rigOp (loadOp { linePart .zero (some 0) with line := ownLine })); (s.takeOut (.load 4 0)).isSome
        && s.io.fabid = 0 && s.homeServes 8 (s.die 8).clock s.uid (ownPa (128 * ownLine)) 128 && s.ownQuiet 2 (128 * ownLine) 128
        && s.ownAccessTurn (loadOp { linePart .zero (some 0) with line := ownLine }) { linePart .zero (some 0) with line := ownLine }.line 15 false
        && ownPa (128 * ownLine) = 4096) = true := by decide +kernel

/-- The operation has its answer: four bytes of the line for lane 0. -/
def servedOp : MemOp := loadOp { linePart .zero none with got := some (0x04030201, 0, 0, .zero, []) }
theorem wit_ResultsLand : servedOp.ready = true ∧ servedOp.isRecord = false
    ∧ ((rigOp servedOp).opAt 4).isSome = true ∧ got ((rigOp servedOp).teamAt 2) (fun x => !x.killed) = true := by decide +kernel
def atomPart (pkg : Option Nat) : AtomPart :=
  { addr := 4096, home := base.homeOf 4096, pkg := pkg, lanes := [(0, 5, 0), (3, 7, 0)], stamp := .zero, rel := false, sent := true, parked := false,
    refused := false, dest := none, got := none }
def atomOp (p : AtomPart) : MemOp := memOp (.atomic (some .add) 4 [p]) (.vec 3 1)
def atomParked : State := (rigOp (atomOp { atomPart none with parked := true })).setPound (base.homeOf 4096) (poundSlice 4096)
  [{ op := 4, part := 0, sector := 128, fence := none }]
theorem wit_AtomicsApplied :
    (rigOp (atomOp (atomPart none))).atomTurn (atomOp (atomPart none)) 4 (atomPart none) = true
    ∧ (rigOp (atomOp (atomPart none))).poundHolds (base.homeOf 4096) 4096 = false
    ∧ ((rigOp (atomOp (atomPart none))).pound (base.homeOf 4096) (poundSlice 4096)) = []
    ∧ (rigOp (atomOp (atomPart none))).xFailed 4096 = false
    ∧ (let s := rigOp (atomOp (atomPart none)); let s : State := { s with mem := { s.mem with corr := [128] } }
       s.poundHolds (base.homeOf 4096) 4096 && s.atomTurn (atomOp (atomPart none)) 4 (atomPart none)) = true
    ∧ got (atomParked.replayable (base.homeOf 4096) [] (atomParked.pound (base.homeOf 4096) (poundSlice 4096))) (fun y => y.op = 4 && y.part = 0) = true
    ∧ atomParked.memLocked 128 (some 2) = false
    ∧ ((asked (.atomic 4 0) (rigOp (atomOp (atomPart (some 5))))).takeOut (.atomic 4 0)).isSome = true := by decide +kernel
def announce : Announce := { id := 3, src := 1, dst := 0, val := 7 }
theorem wit_Clocks :
    (onNet base (fun n => { n with anns := [announce] })).announced announce = true
    ∧ (onNet (rigWrite .zero) (fun n => { n with anns := [{ announce with id := 4, src := 0, dst := base.homeOf 4096 }] })).announced
        { announce with id := 4, src := 0, dst := base.homeOf 4096 } = false
    ∧ announce.dst < base.dies.length ∧ announce.src < (base.die 0).applied.length
    ∧ base.dies.length = 9 ∧ (∀ d < 9, (base.die d).clock.length = 9) ∧ 0 < (base.die 0).wq.length := by decide +kernel

/-- A barrier of two arrivals at 256 of block 1, and yard 1 over that block. -/
def rigBar : State :=
  let s := base.barPut 1 256 (Bar.new 1 2) none
  { s with launches := [(0, { testLaunch with yards := [(1, BitVec.ofNat 128 (1 * 2 ^ 32 + 16 * 2 ^ 64 + 2 ^ 80 + 2 ^ 96))] })] }
def arrival (n : Nat) : Arrival :=
  { launch := 0, yard := 1, count := n, team := 2, blockIdx := 0, teamIdx := 0, pc := 0, off := false, die := 0, stamp := .zero, ctx := 0 }
def mirror : Mirror :=
  { launch := 0, yard := 1, blockIdx := 0, src := 9, die := 0, off := 32, mask := 0xFFFFFFFF, data := 0x0201, stamp := .zero }
def signal : Signal := { die := 0, port := 3, len := 8, stamp := .zero, after := [3] }
/-- The block's window counts at its barrier, and port 3 of die 0 is bound to it. -/
def rigWin : State :=
  let s := rigBar.modBlock 1 (fun b => { b with windows := [{ yard := 1, base := 2 ^ 30, size := 512, cnt := true, bar := 256 }] })
  s.modDie 0 (fun d => { d with ports := [{ port := 3, block := 1, off := 256 }] })
/-- The block has been spilled. -/
def away (s : State) : State := s.modBlock 1 (fun b => { b with res := .saved })
theorem wit_Arrivals :
    rigBar.arrivalAt (arrival 2) = some (1, 256) ∧ (rigBar.blockAt 1).isSome = true ∧ (rigBar.barAt 1 256).counts = true
    ∧ (rigBar.barAt 1 256).pend = 2 ∧ rigBar.spadLocked 1 256 16 none = false ∧ rigBar.blockOf 0 0 = some 1
    ∧ base.arrivalAt (arrival 1) = none ∧ rigWin.portAt 0 3 = some { port := 3, block := 1, off := 256 } ∧ rigBar.portAt 0 3 = none
    ∧ rigBar.spadLocked 1 32 32 none = false
    ∧ got ((away rigBar).blockAt 1) (fun b => b.res ≠ .core) = true ∧ (base.barAt 1 256).counts = false
    ∧ (rigWrite .zero).net.writes.any (fun w => signal.after.contains w.id) = true := by decide +kernel
/-- An arrival of all that is pending completes the phase; a signal of 8 bytes counts one arrival and its bytes. -/
theorem test_arrivals :
    after (exec (.remoteArrival 0) (onNet rigBar (fun n => { n with arrivals := [arrival 2] }))) (fun t =>
      (t.barAt 1 256).phase = 1 && (t.barAt 1 256).pend = 2) = true
    ∧ after (exec (.remoteArrival 0) (onNet rigBar (fun n => { n with arrivals := [arrival 3] }))) (fun t =>
      (t.barAt 1 256).low = 0x110 && (t.barAt 1 256).pend = 2) = true
    ∧ after (exec (.mirroredStoreArrival 0) (onNet rigWin (fun n => { n with mirrors := [mirror] }))) (fun t =>
      (t.barAt 1 256).landed = 32 && (t.block 1).byte 32 = 1 && (t.block 1).byte 33 = 2) = true
    ∧ after (exec (.putsSignalArrival 0) (onNet rigWin (fun n => { n with signals := [signal] }))) (fun t =>
      (t.barAt 1 256).landed = 8 && (t.barAt 1 256).pend = 1) = true := by decide +kernel
def rigWatch : State :=
  let s := onNet (rigTry (tryRec false 0 none)) (fun n => { n with notes := [{ mon := 7, die := 0, core := 0, block := 1, off := 256 }],
                                                                   conflicts := [{ team := 2, va := 4096 }] })
  (s.barPut 1 256 (Bar.new 3 0) none).modCore 0 0 (fun k => { k with monitors := [{ id := 7, block := 1, off := 256, sector := 128, team := 2 }] })
theorem wit_WatchesAndConflicts :
    (rigWatch.coreAt 0 0).monitors.any (fun m => m.block = 1 && m.off = 256) = true ∧ (rigWatch.blockAt 1).isSome = true
    ∧ rigWatch.net.notes.length = 1 ∧ got (rigWatch.teamAt 2) (fun x => x.region.isSome) = true
    ∧ (rigWatch.net.conflicts.map (·.team)) = [2] := by decide +kernel
theorem test_watch :
    after (exec (.watchEvent 0) rigWatch) (fun t => (t.barAt 1 256).phase = 1) = true
    ∧ after (exec (.monitorLoss 0 0 0) rigWatch) (fun t => (t.barAt 1 256).phase = 1) = true
    ∧ after (exec (.conflictNotice 0) rigWatch) (fun t => team2 t (fun u => u.region.isNone
        && u.near.path = some { pc := w64 (2 ^ 20), mask := allLanes, rpc := rpcNone })) = true := by decide +kernel

/-- 64 bytes from 2^12 in memory to 512 in scratchpad, counted at the barrier at 256; and 64 bytes from 0 in scratchpad to 2^12. -/
def cpyIn : PBlock := { w0 := 4096, w1 := 512, w2 := w64 (64 * 2 ^ 32 + 2 ^ 16 + 16), w3 := 0 }
def cpyOut : PBlock := { w0 := 0, w1 := 4096, w2 := w64 (64 * 2 ^ 32 + 2 ^ 16 + 16), w3 := w64 (2 ^ 18) }
def copyOf (p : PBlock) : Copy :=
  { id := 5, block := 1, team := 2, pc := w64 placedAt, pb := p, ctx := 0, key := 0, draw := 0, batch := none, landed := [], paused := none,
    stamp := .zero, off := false, paid := 0, leases := [] }
/-- Context 0 maps its first page onto itself. -/
def rigCopy (p : PBlock) : State :=
  let s := rigBar.modCore 0 0 (fun k => { k with copies := [copyOf p] })
  { s with mem := s.mem.setBytes 4096 [1, 2, 3, 4] }
theorem wit_CopyLandings :
    [cpyIn, cpyOut].all (fun p => let s := rigCopy p
      let x : CAt := { die := 0, core := 0, c := copyOf p }
      got (s.copyAt 0 0 5) (fun c => c.paused.isNone && (s.blockAt c.block).isSome && s.onCore c.block) && (match x.units s 0 with | .ok (n, _) => n = 2 | _ => false)
        && (match x.make s { seed := (s.ctxAt 0).seed, ctr := 0, key := 0 } 1 with
            | .ok (u, t) => decide (u.bytes.length ≤ (t.budget 0 0).copy) && (match x.write t u with | .ok v => (v.barAt 1 256).counts | _ => false)
            | _ => false)) = true
    ∧ (away (rigCopy cpyIn)).onCore 1 = false ∧ got ((away (rigCopy cpyIn)).copyAt 0 0 5) (fun c => c.block = 1) = true := by decide +kernel
theorem test_copy : after (exec (.copyLanding 0 0 5 0) (rigCopy cpyIn)) (fun t =>
    (t.block 1).bytes 512 5 = [1, 2, 3, 4, 0] && (t.barAt 1 256).landed = 32 && got (t.copyAt 0 0 5) (fun c => c.landed = [0])) = true := by
  decide +kernel
/-- 64 rows of one BF16 line each at 0 and at 8192, K 32, into the tile store's start. -/
def mmaPb : PBlock := { w0 := w64 (2 ^ 16), w1 := w64 (8192 * 2 ^ 32 + 2 ^ 16), w2 := 0, w3 := 0 }
def mqEnt (op : MOp) (doomed : Bool) : MqEntry :=
  { id := 6, block := 1, team := 2, h := 0, op := op, slot := some (0, 3), waits := [], doomed := doomed, older := { bytes := [], sides := [] } }
def rigMq (e : MqEntry) : State := rigBlock (fun b => { b with tile := [(0, 7), (5, 9)] }) |>.modCore 0 0 (fun k => { k with mq := [e] })
def mmaPart : JointPart := { team := 2, off := false, pc := 0, raw := mmaPb, pb := mmaPb, draw := 0, key := 0, zero := false }
theorem wit_MatrixProducts :
    [true, false].all (fun doomed => let s := rigMq (mqEnt (.mma [mmaPart]) doomed)
      got (s.mqHead 0 0) (fun e => e.doomed = doomed && !s.mqHeld e && got (s.blockAt e.block) (fun b =>
        b.linesOk (mmaA mmaPb) 0 0 && b.linesOk (mmaB mmaPb) 0 0 && !([mmaA mmaPb, mmaB mmaPb, mmaBias mmaPb].any b.spanPoison)
          && !(b.accPoison 0 4096)))) = true
    ∧ (base.block 1).linesOk (mmaA mmaPb) 1 0 = false := by decide +kernel
theorem wit_TileMoves :
    [.mzero 0 512, .mload 2 0 1 4, .mstoreV 0 1 (lineOf (fun _ => 7)), .mstoreS 0 128 128, .actld 0].all (fun op =>
      let s := rigMq (mqEnt op false)
      got (s.mqHead 0 0) (fun e => !s.mqHeld e && (s.blockAt e.block).isSome)) = true := by decide +kernel
theorem test_tile :
    after (exec (.tileOpExecute 0 0) (rigMq (mqEnt (.mzero 0 16) false))) (fun t => (t.block 1).acc 0 = 0 && (t.block 1).acc 5 = 9) = true
    ∧ after (exec (.tileOpExecute 0 0) (rigMq (mqEnt (.mstoreS 0 128 128) false))) (fun t =>
      (t.block 1).byte 128 = 7 && (t.block 1).byte 148 = 9 && (t.block 1).acc 5 = 9) = true
    ∧ after (exec (.tileOpExecute 0 0) (rigMq (mqEnt (.mstoreV 0 2 (lineOf (fun _ => 8))) false))) (fun t =>
      (t.block 1).acc 0 = 7 && (t.block 1).acc 1 = 8) = true := by decide +kernel

/-- A collective of this package and package 5 over eight elements, combined under WIDE into scratchpad at 512. -/
def collPb : PBlock := { w0 := 512, w1 := w64 (8 * 2 ^ 32 + 77), w2 := 0, w3 := w64 (16 * 2 ^ 48) }
def coll0 : Coll :=
  { id := 5, block := 1, k := 0, ctx := 0, die := 0, pc := 0, pb := collPb, raws := [], formed := true, parts := [(0, 0), (5, 2)],
    yardBlocks := [], rank := 0, badTable := false, badSource := false, decl := none, grants := [], refusedGrant := false, nodes := [],
    sent := [], paid := 0, landed := [], reruns := [], waited := 0, lost := 0, status := 0, census := 0, paused := none }
def decl0 : CollDecl := { ok := true, lens := [8, 8], inSwitch := false }
def rigColl (c : Coll) : State := onNet (online rigBar) (fun n => { n with colls := [c] })
def report1 : CollReport := { coll0.report with rank := 1 }
/-- A message of a type about chunk 0 and the ranks lo to hi. -/
def collMsg (ty lo hi : Nat) (d1 : W64) : CollMsg :=
  { ext := { d0 := w64 (ty * 2 ^ 60 + 2 ^ 56 + 77 * 2 ^ 24), d1 := d1 ||| w64 (lo * 2 ^ 48 + hi * 2 ^ 32), d2 := 0, d3 := 0 },
    die := 0, rank := 0, val := .wide [some 1] }
def declared : Coll := { coll0 with decl := some decl0, waited := 2000 }
def isFor (m : CollMsg) (c : Coll) : Bool :=
  extOk m.ext && (rigColl c).collFor m = some c && (rigColl c).collAt c.id = some c
theorem wit_Collectives :
    (rigColl coll0).collJudge coll0 ([report1].filter (fun r => coll0.count ≤ r.rank || ((rigColl coll0).collPlace coll0 r.rank).1 ≠ 0))
        = some decl0
    ∧ isFor (collMsg 4 1 1 0) declared = true ∧ isFor (collMsg 6 0 1 0) { declared with status := 3 } = true
    ∧ extOk (collMsg 4 1 1 1).ext = false ∧ isFor (collMsg 5 0 0 (w64 (9 * 2 ^ 16 + 1))) coll0 = true
    ∧ isFor (collMsg 7 0 0 0) declared = true ∧ declared.node 0 0 1 = none ∧ 0 < declared.chunks
    ∧ (rigColl declared).io.fabto.toNat ≤ declared.waited
    ∧ declared.parts.any (fun q => q.1 ≠ 0 && (onNet base (fun n => { n with colls := [declared] })).unreachable q.1 1) = true := by
  decide +kernel
def extPuts : ExtBlock := { d0 := w64 (2 * 2 ^ 60 + 2 ^ 56 + 3 * 2 ^ 30), d1 := 8, d2 := 0, d3 := 0 }
def extSide : ExtBlock := { d0 := w64 (2 ^ 60 + 2 ^ 56), d1 := 0, d2 := 0, d3 := 0 }
def extAtom : ExtBlock := { d0 := w64 (3 * 2 ^ 60 + 2 ^ 56), d1 := 0, d2 := 0, d3 := 0 }
/-- Requests of package 5 have arrived. -/
def asks : List FabReq := [.atomic 5 1 4096 4 .add 7 true none, .read 5 2 32 15]
def rigIngress : State := onNet base (fun n => { n with ingress := asks.map (fun r => { req := r, uid := 9, clock := .zero, park := none }) })
theorem wit_FabricRequests :
    ingressOk 32 none = true ∧ ingressOk 32 (some extSide) = true ∧ ingressOk 32 (some extPuts) = true ∧ ingressOk (2 ^ 33) none = false
    ∧ (extType extSide, extType extPuts, extType extAtom) = (1, 2, 3) ∧ ingressOk 32 (some extAtom) = true
    ∧ 8 < base.dies.length ∧ 8 < (base.die 8).clock.length
    ∧ asks.all (fun r => got (rigIngress.ingressAt r) (fun g => rigIngress.homeServes 8 g.clock g.uid (128 * 32) 128 && rigIngress.homeServes 8 g.clock g.uid 4096 4
        && !rigIngress.memLocked 128 none && !rigIngress.poundHolds (base.homeOf 4096) 4096
        && rigIngress.pound (base.homeOf 4096) (poundSlice 4096) = [] && (look 128 rigIngress.mem.poison).isNone) && (base.ingressAt r).isNone) = true := by decide +kernel
theorem test_fabric_requests :
    after (exec (.fabricIngressWrite (.atomic 5 1 4096 4 .add 7 true none)) rigIngress) (fun t =>
      t.mem.byte 4096 = 7 && (t.net.out.map (·.pkg)) = [5]) = true
    ∧ after (exec (.fabricIngressWrite (.write 5 1 1 32 0xF (0x04030201) true none)) base) (fun t =>
      (t.net.writes.map (fun w => (w.src, w.body.byteAt 4097 0, w.body.byteAt 4100 9))) = [(8, 2, 9)]) = true := by decide +kernel
/-- A GETS of 64 bytes from package 5 into scratchpad at 512, counted at the barrier at 256. -/
def gets : Xfer :=
  { id := 5, gets := true, team := 2, key := 0, off := false, block := 1, pc := 0, ctx := 0, die := 0, core := 0, spad := true, dst := 512, src := 0,
    dstMap := [], srcMap := [], got := [], pkg := 5, len := 64, bar := 256, sig := false, sigDie := 0, sigPort := 0, moved := [], paid := 0, read := false,
    stamp := .zero }
def outReq (k : OutKind) (waited : Nat) : OutReq :=
  { id := 7, pkg := 5, cls := 0, team := some 2, ctx := 0, die := 0, pc := 0, kind := k, waited := waited }
/-- Requests of those kinds wait for package 5, which no port reaches. -/
def lost (k : OutKind) : State := onNet rigBar (fun n => { n with out := [outReq k 2000], xfers := [gets], ops := [loadOp (linePart .zero (some 5))] })
theorem wit_FabricEnds :
    [.write body true, .load 4 0, .gets 5 0, .puts 5 0 body, .signal 5].all (fun k =>
      (lost k).unreachable 5 0 && (lost k).io.fabto.toNat ≤ 2000 && !(online (lost k)).unreachable 5 0
        && (lost k).xferAt 5 = some gets && ((lost k).opAt 4).isSome) = true
    ∧ (lost (.gets 5 0)).net.out.any (fun q => (match q.kind with | .puts i _ _ | .gets i _ | .signal i => decide (i = 5) | _ => false)
        && (lost (.gets 5 0)).io.fabto.toNat ≤ q.waited && (lost (.gets 5 0)).unreachable q.pkg q.cls) = true
    ∧ 8 < (lost (.gets 5 0)).dies.length ∧ ((lost (.gets 5 0)).barAt 1 256).counts = true := by decide +kernel
theorem test_fabric_ends :
    after (exec (.fabricTimeout 7) (lost (.load 4 0))) (fun t => t.net.out = [] && (t.die 8).ctr.fabfail = 1
      && got (t.opAt 4) (fun o => o.ready)) = true
    ∧ after (exec (.transferFailure 5 1) (lost (.gets 5 0))) (fun t => (t.xferAt 5).isNone && t.net.out = [] && (t.barAt 1 256).landed = 64) = true := by
  decide +kernel
def rigGets : State := onNet (asked (.gets 5 0) rigBar) (fun n => { n with xfers := [gets] })
def reply (d : Line) : Reply := { data := d, side := 0, poison := 0 }
theorem wit_GetsLandings :
    got (rigGets.takeOut (.gets 5 0)) (fun y => got (y.2.getsWrite gets 0 (List.replicate 32 3) 0) (fun t =>
      rigGets.onCore 1 && (t.barAt 1 256).counts && (rigGets.blockAt 1).isSome)) = true
    ∧ rigGets.xferAt 5 = some gets
    ∧ got (base.getsWrite { gets with spad := false, dst := 4096, dstMap := [(0, 0)] } 0 [1, 2] 0) (fun _ => true) = true
    ∧ mapPa [(0, 0)] 4096 ≠ mapPa [(0, 0)] 4097 := by decide +kernel
theorem test_gets : after (exec (.getsLanding 5 0 (some (reply 0x0201))) rigGets) (fun t =>
    (t.block 1).bytes 512 3 = [1, 2, 0] && (t.barAt 1 256).landed = 64 && (t.xferAt 5).isNone) = true := by decide +kernel

def rigLaunch (l : Launch) : State := { base with launches := [(0, l)], run := { base.run with uid := 20 } }
def idle : State := { base with teams := [] }
/-- Every lane has left. -/
def ended : State := rig (fun t => { t with exited := allLanes, near := { t.near with path := none } })
theorem wit_BlocksComeAndGo :
    (let s := rigLaunch { testLaunch with placed := 0 }
     s.running 0 = some 0 && (s.placing 0).map Prod.fst = some 0 && (s.placeOne 0 0).isSome) = true
    ∧ got (ended.teamAt 2) (fun x =>
        ended.mayRetire 2 x && x.harness.isNone && (base.block x.block).res = .core) = true
    ∧ got (base.teamAt 2) (fun x => !base.mayRetire 2 x) = true
    ∧ idle.engineWork 1 = false ∧ got (idle.blockAt 1) (fun b => b.res = .core) = true ∧ (idle.launchAt 0).isSome = true := by decide +kernel
theorem test_blocks :
    after (exec (.blockAdmission 0) (rigLaunch { testLaunch with placed := 0 })) (fun t => (t.launch 0).placed = 1
      && got (t.teamAt 21) (fun u => u.block = 20)) = true
    ∧ after (exec (.blockRetirement 1) idle) (fun t => (t.blockAt 1).isNone && (t.launch 0).retired = 1) = true := by decide +kernel

/-- Slot 1 of partition 0 has its descriptor at 2^16 and one record in queue 3; queue 2, of slot 0, holds one of zeros. -/
def descWords : List W64 := [w64 (2 * 2 ^ 48), 9, 0, 0, w64 (2 ^ 32 + 1), w64 (2 ^ 32), w64 (2 ^ 48 + 2 ^ 32 + 1), 0]
def queueOf (ctx : Nat) : Queue := { Queue.reset with base := 32, size := 4, ctx := ctx, devapp := true, en := true, tail := 1, ages := [(0, .zero)] }
def rigSched (s : State) : State :=
  let m := s.mem.setBytes 65536 (wordsBytes descWords)
  ({ s with mem := m, sched := { s.sched with queues := [(2, queueOf 0), (3, queueOf 1)] } }).modCtx 1 (fun x =>
    { x with valid := true, tag := 2, desc := 1024 })
def sched : State := rigSched idle
def quick (n : Nat) (g : Option Nat) : State := (sched.modCtx 0 (fun x => { x with slice := 5, grace := 4 })).modPart 0 (fun x =>
  { x with sliceCount := n, graceCount := g })
def deferred (q : Queue) : State :=
  let s := rig (fun t => { t with near := { t.near with lnch := some { queue := 2, record := List.replicate 8 0, dst := dst 3, a := v 1, b := v 2, stamp := .zero } } })
  { s with sched := { s.sched with queues := [(2, q)] } }
theorem wit_Launches :
    sched.nextQueue 0 = some 2 ∧ sched.covered 8 = true ∧ recordOk (List.replicate 8 0) = true
    ∧ headerOk { testLaunch with record := List.replicate 8 0 } = false ∧ headerOk testLaunch = true ∧ recordOk testLaunch.record = true
    ∧ recordOk [0, 1] = false
    ∧ (queueOf 0).full = false ∧ { queueOf 0 with tail := 16 }.full = true ∧ sched.homeServes 8 (sched.die 8).clock sched.uid 65536 64 = true
    ∧ regionOf ((queueOf 0).slot 1) = .hbm
    ∧ [queueOf 0, { queueOf 0 with devapp := false }].all (fun q => got ((deferred q).teamAt 2) (fun x => (x.side false).lnch.isSome && !x.halted
        && x.park.fault.isNone) && decide ((deferred q).refusesAppend 2 0 = !q.devapp)) = true
    ∧ got ((rigLaunch { testLaunch with retired := 1 }).launchAt 0) (fun l => l.blockCount ≤ l.retired && (rigLaunch l).ctxQuiet l.ctx
        && (rigLaunch l).covered 8) = true
    ∧ got (base.walk 8 0 4096 |>.toOption) (fun y => Perm.wr.allows y.1 && base.paOk (4096 * bits y.1 12 40 + 4096 % 2 ^ levelShift y.2.1)) = true := by
  decide +kernel
theorem test_launch_end : after (exec (.launchEnd 0) (rigLaunch { testLaunch with retired := 1, sticky := true, record := testLaunch.record.set 7 4096 }))
    (fun t => (t.launchAt 0).isNone && t.mem.byte 4096 = 2 && (t.queueAt 0).done = 1) = true := by decide +kernel
theorem test_lqpush : after (exec (.lqpush 2 (w64 65536)) sched) (fun t => (t.queueAt 2).tail = 2 && t.mem.byte (32 * 4096 + 64 + 6) = 2) = true
    ∧ after (exec (.lqpush 5 0) sched) (fun t => (t.queueAt 5).fullerr) = true := by decide +kernel
def unfit : State := sched.modPart 0 (fun x => { x with idle := true })
theorem wit_Scheduling :
    [quick 5 none, quick 0 (some 4)].all (fun s => s.running 0 = some 0 && s.sched.parts.length = 8) = true
    ∧ (sched.nextWork 0 0 = some 1 ∧ base.nextWork 0 0 = none) ∧ (sched.partAt 0).graced = false
    ∧ (sched.readDesc 1 (sched.ctxAt 1)).isSome = true ∧ base.readDesc 1 (base.ctxAt 1) = none
    ∧ (quick 0 (some 4)).mayStop 0 = true ∧ (quick 0 (some 4)).landed 0 = true ∧ ((quick 0 (some 4)).partAt 0).dieList.all (quick 0 (some 4)).covered = true
    ∧ (∀ y ∈ sched.cores, y.2.images = []) ∧ got (sched.blockAt 1) (fun b => sched.ctxOf 1 = 0 && b.res = .core) = true
    ∧ ((unfit.partAt 0).idle = true ∧ (upTo 16).find? (fun k => (unfit.ctxAt k).valid && unfit.queued 0 k) = some 0
      ∧ (unfit.readDesc 1 (unfit.ctxAt 1)).isSome = true)
    ∧ (let s : State := { base with launches := [] }; s.running 0 = some 0 ∧ s.queued 0 0 = false ∧ s.hasWork 0 0 = false)
    ∧ (base.ctxAt 1).valid = false ∧ (sched.ctxAt 1).valid = true ∧ (sched.partAt 0).run = 0 ∧ rising sched.teams = true := by decide +kernel
theorem test_sched :
    after (exec (.timeSliceExpiry 0) (quick 5 none)) (fun t => (t.partAt 0).graceCount = some 0) = true
    ∧ after (exec (.contextEviction 0) (quick 0 (some 4))) (fun t => (t.partAt 0).run = 1 && (t.block 1).res = .shadow) = true
    ∧ after (exec (.contextValidate 0 1 (w64 65537)) { sched with sched := { sched.sched with ctxs := sched.sched.ctxs.filter (fun y => y.1 ≠ 1) } })
      (fun t => (t.ctxAt 1).valid && (t.ctxAt 1).tag = 2 && (t.ctxAt 1).seed = 9) = true
    ∧ after (exec (.partdiesWrite 1 4) base) (fun t => (t.partAt 1).derr) = true := by decide +kernel

/-- Both sides wait for registers that the pool does not have; the team's count has passed a limit of 3. -/
def stuck (f : Team → Team) : State :=
  (rig (fun t => f { t with vregs := (upTo 60).map (fun i => (i, vreg (fun _ => 0))), near := { t.near with wait := .on .regs 0 }, waited := 4 })).modDie 0
    (fun d => { d with wdLimit := 3 })
theorem wit_Parking :
    got (leastBy (fun (y : Nat × Team) => y.2.age) (((rig (fun t => { t with park := { t.park with spill := some (0, 0) } })).coreTeams 0 0).filter
      (fun y => (rig (fun t => { t with park := { t.park with spill := some (0, 0) } })).mayReturn 0 0 y.2))) (fun y => y.1 = 2) = true
    ∧ got ((stuck id).teamAt 2) (fun x => (x.blockedOn).isSome && (stuck id).onCore x.block && !x.halted && decide (3 < x.waited)) = true := by
  decide +kernel
theorem test_watchdog : after (exec (.watchdogLimit 2) (stuck id)) (fun t => team2 t (fun u => u.waited = 0) && (t.die 0).wd.tail = 1) = true := by
  decide +kernel
def fqEnt (seq : Option W16) : FqEnt := { seq := seq, tag := 1, code := 0x0103, granule := 0, words := [0x0103, 1, 2, 3], who := [.team 2] }
def rigFq (seq : Option W16) : State :=
  (rig (fun t => { t with park := { t.park with fault := some (0, 7) } })).modDie 0 (fun d => { d with fqEnts := [fqEnt seq], held := 1 })
theorem wit_FaultAnswers :
    first (fun (y : FqEnt) => y.seq.isNone) ((rigFq none).die 0).fqEnts = some (fqEnt none) ∧ ((rigFq none).die 0).fq.used < 1024
    ∧ (rigFq (some 7)).fqEntry 0 7 = some (fqEnt (some 7)) ∧ got ((rigFq (some 7)).teamAt 2) (fun x => x.park.fault.isSome && x.harness.isNone) = true
    ∧ (away rigBar).arrivalAt (arrival 2) = some (1, 256) ∧ ((away rigBar).blockAt 1).isSome = true ∧ ((away rigBar).barAt 1 256).counts = true
    ∧ (let s := rigBar.modBlock 1 (fun b => { b with res := .shadow }); (s.block 1).res = .shadow) := by decide +kernel
theorem test_fault_answers :
    after (exec (.faultRetry 0 7) (rigFq (some 7))) (fun t => team2 t (fun u => u.park.fault.isNone) && (t.fqEntry 0 7).isNone) = true
    ∧ after (exec (.faultKill 0 7) (rigFq (some 7))) (fun t => team2 t (fun u => u.killed) && (t.ctxAt 0).sticky) = true
    ∧ after (exec (.faultEntryDeferred 0) (rigFq none)) (fun t => (t.die 0).fq.tail = 1 && (t.fqEntry 0 0).isSome) = true := by decide +kernel
/-- The image of block 1 in an emergency area of die 0. -/
def inEmerg (s : State) : State :=
  let i : Image := { ctx := 0, res := .emergency, seq := 1, late := 0, nlate := 0, banks := (s.coreAt 0 0).banks, active := false, mq := [], pend := none, fill := 0 }
  let s := ((s.modBlock 1 (fun b => { b with spadMap := [0] })).modDie 0 (fun d => { d with emergBase := 4, emergEn := true })).modCore 0 0 (fun c => { c with images := [i] })
  { s with mem := s.mem.setBytes (8388608 + 602112) ((s.block 1).bytes 0 1024) }.modBlock 1 (fun b => { b with res := .emergency })
def toLand (s : State) : State :=
  { s with net := { s.net with lands := [{ block := 1, kind := .arrival (arrival 2), paused := none }] } }
/-- An arrival lands in the image: the barrier stands in memory at 0x93000 + 256 of the image. -/
theorem test_image_landing : after (exec (.imageLanding 0) (toLand (inEmerg rigBar))) (fun t =>
    t.mem.bytes (8388608 + 602368) 16 = (t.block 1).bytes 256 16) = true := by decide +kernel
/-- A barrier comes back from the image. -/
theorem test_image_read : (match (inEmerg rigBar).imageOf 0 0 0 with
    | some i => (match (inEmerg rigBar).imagePas 0 0 i .rd with
      | .ok pas => (((inEmerg rigBar).modBlock 1 (fun b => { b with spad := [] })).readBlocks 0 0 0 pas).barAt 1 256 = rigBar.barAt 1 256
      | .error _ => false)
    | none => false) = true := by decide +kernel
/-- Fence 1 of die 0 over 64 KiB at 2^20, bound for 2^21, and a release of it under way. -/
def mig (en : Bool) : MigFence := { MigFence.reset with old := 16, new := 32, en := en }
def job (move : Bool) (left : List Nat) : MigJob := { id := 50, fence := 1, old := 16, new := 32, move := move, left := left, sent := [] }
def rigMig (f : MigFence) (js : List MigJob) : State := base.modDie 0 (fun d => { d with mig := setAt 1 f d.mig, jobs := js })
theorem wit_InvalidationAndMigration :
    (let s : State := { base with sched := { base.sched with inv := { base.sched.inv with busy := true } } }; s.sched.inv.busy = true ∧ s.invDone = true)
    ∧ (let s := rigOp (loadOp (linePart .zero none)); let s : State := { s with sched := { s.sched with inv := { s.sched.inv with busy := true, ops := [4] } } }
       s.invDone = false)
    ∧ base.sched.inv.busy = false ∧ 1 < (base.die 0).mig.length ∧ ((rigMig (mig true) []).die 0).fence 1 = mig true
    ∧ (let j := job true [8192]; let s := rigMig (mig false) [j]; let a := j.there (128 * 8192)
       (s.die 0).moves 1 = some j ∧ a = 2 ^ 21 ∧ (∀ i, i < 4 → s.memLocked (a / 32 + i) none = false) ∧ s.covers (s.homeOf a) 0 (s.die 0).clock = true
        ∧ s.xFailed a = false ∧ regionOf a = .hbm ∧ 65536 * j.old.toNat ≤ 128 * 8192 ∧ s.jobOpen 0 j = true)
    ∧ (let s := rigMig (mig false) [job true []]; first (fun (j : MigJob) => j.fence = 1 && !s.jobOpen 0 j) (s.die 0).jobs = some (job true [])) := by decide +kernel
theorem test_migration :
    (let s := rigMig (mig false) [job true [8192]]; let s : State := { s with mem := s.mem.setBytes (2 ^ 20) [5, 6] }
     after (exec (.migrationMove 0 1) s) (fun t => t.mem.bytes (2 ^ 21) 3 = [5, 6, 0] && (t.die 0).jobs.all (fun j => j.left = []))) = true
    ∧ after (exec (.migrationDone 0 1) (rigMig (mig false) [job false []])) (fun t => ((t.die 0).fence 1).done && (t.die 0).jobs = []) = true := by decide +kernel


/-- The team waits for more scalars than the core has, and stands alone or beside another that does. -/
def starved (two : Bool) : State :=
  let s := rig (fun t => { t with near := { t.near with wait := .on .regs 4001 } })
  if two then { s with teams := s.teams ++ (s.teams.map (fun y => (y.1 + 7, { y.2 with idx := 1 }))) } else s
theorem wit_Parking_deadlock :
    [false, true].all (fun two => let s := starved two
      let live := (s.coreTeams 0 0).filter (fun y => !y.2.parked && y.2.hasPath)
      s.regsDeadlock 0 0 = some .s && live.length = (if two then 2 else 1) && live.all (fun y => !y.2.told)) = true
    ∧ got ((starved true).deadlockVictim 0 0 .s) (fun y => y.1 = 9 && y.2.region.isNone) = true := by decide +kernel

theorem wit_DriverRegisters :
    base.dies.length = 9 ∧ 3 < (base.die 0).pins.length ∧ base.io.lock = false ∧ ({ base with io := { base.io with lock := true } } : State).io.lock = true
    ∧ (base.io.xwins.drop 15).head?.isSome = true
    ∧ (let y : PinWin := { PinWin.reset with fade0 := 4, size := 15 }; y.counts 3 0 ≤ 96 * 2 ^ 20)
    ∧ 96 * 2 ^ 20 < ({ PinWin.reset with fade0 := 4, size := 65535 } : PinWin).counts 3 0
    ∧ regionOf (2 ^ 41 + 4) = .control ∧ (2 ^ 41 + 4) % 8 ≠ 0 := by decide +kernel
/-- R434: EN = 1 clears FAILED. R89: FADE0 = 0 is refused. R427: a locked HOMECFG stays. -/
theorem test_driver :
    after (exec (.xwinEnable 2 3) { base with io := { base.io with xwins := setAt 2 { failed := true, port := 0, en := false } base.io.xwins } })
      (fun t => (t.io.xwins.drop 2).head? = some { failed := false, port := 1, en := true }) = true
    ∧ after (exec (.pinWindowEnable 0 3 1) base) (fun t => (nth (t.die 0).pins 3 .reset).err && !(nth (t.die 0).pins 3 .reset).en) = true
    ∧ after (exec (.homecfgWrite (w64 (2 ^ 63 + 1))) base) (fun t => t.io.lock && t.io.lw = 1
        && after (exec (.homecfgWrite 2) t) (fun t => t.io.lock && t.io.lw = 1)) = true := by decide +kernel
def asleep : State := { base with io := { base.io with mainOn := false }, solnal := { base.solnal with on := true } }
def badImg : BootImage := { key := [], sig := [], header := [], payload := [] }
def rigAtt (job : Option (Option Nat × List Byte)) : State :=
  { asleep with io := { asleep.io with mainOn := true, attJob := job, attBuf := 16 } }
theorem wit_Attestation :
    base.io.meas.length = 8 ∧ asleep.flashOk 0 = false ∧ asleep.flashOk 1 = false ∧ asleep.solnal.on = true ∧ asleep.io.mainOn = false
    ∧ bootOk badImg = false ∧ (rigAtt none).io.mainOn = true
    ∧ regionOf (4096 * (rigAtt none).io.attBuf.toNat) = .hbm ∧ (rigAtt (some (some 65536, []))).io.attJob.isSome = true
    ∧ (List.replicate 32 (0 : Byte)).length = 32 := by decide +kernel
/-- MEAS0 to MEAS3 are the boot's own: an extension of one is refused. -/
theorem test_measure : after (exec (.measurementExtend 3) base) (fun t => t.io.measErr && t.io.meas = base.io.meas) = true
    ∧ after (exec (.attestationGo 1) (rigAtt none)) (fun t => t.io.attJob.isSome && !t.io.attErr) = true := by decide +kernel
theorem wit_SolnalAndPower : asleep.solnal.on = true ∧ State.reset.solnal.on = false ∧ asleep.solnal.flash.length = 2 ∧ asleep.solnal.accepted = none
    ∧ asleep.io.cap = 3400 ∧ 100 * 3000 < 95 * 3400 := by decide +kernel
/-- R445: a step down lowers the clock by 100 MHz, 1500 MHz at least; R442: intervals are multiples of 10 ms. -/
theorem test_power :
    after (exec (.clockStepDown 3500) asleep) (fun t => t.io.mhz = 2600 && t.io.throttled && (t.die 3).nextMHz = 2600) = true
    ∧ after (exec (.powerCapSet 1500) asleep) (fun t => t.io.cap = 1500) = true
    ∧ after (exec (.powerCapSet 1499) asleep) (fun t => t.io.cap = 3400) = true
    ∧ after (exec (.telemetryIntervalSet 15) asleep) (fun t => t.solnal.interval = 100) = true
    ∧ after (exec .packageReset rigWin) (fun t => t.teams = [] && t.blocks = [] && (t.die 0).ports = []) = true := by decide +kernel
/-- A load from the first expander window waits, its window's link on port 1. -/
def rigCxl (waited : Nat) : State :=
  let s := onNet (rigOp (loadOp { linePart .zero none with line := 2 ^ 35 })) (fun n => { n with xwait := [(4, waited)] })
  { s with io := { s.io with xwins := setAt 0 { failed := false, port := 1, en := true } s.io.xwins } }
theorem wit_Links :
    (base.io.ports.drop 15).head?.isSome = true ∧ look 4 (rigCxl 64).net.xwait = some 64 ∧ (rigCxl 64).io.xto.toNat ≤ 64
    ∧ ((rigCxl 64).opAt 4).isSome = true
    ∧ (let s := onNet (rigWrite .zero) (fun n => { n with xwait := [(3, 70)] }); (s.opAt 3).isNone && (first (fun (y : NWrite) => y.id = 3) s.net.writes).isSome) = true := by
  decide +kernel
theorem test_links :
    after (exec (.fabricLinkUp 2 { d0 := w64 (8 * 2 ^ 60 + 2 ^ 56), d1 := w64 (7 * 256 + 1), d2 := 0, d3 := 0 }) base)
      (fun t => (t.io.ports.drop 2).head? = some { up := true, retrains := 0, combine := true, slots := 7, trained := true }) = true
    ∧ after (exec (.cxlLinkFailure 1) (rigCxl 0)) (fun t => (t.xwinAt (2 ^ 42)).failed && got (t.opAt 4) (fun o => o.ready)) = true
    ∧ after (exec (.cxlCompletionTimeout 4) (rigCxl 64)) (fun t => got (t.opAt 4) (fun o => o.ready)) = true
    ∧ after (exec (.cxlCompletionTimeout 4) (rigCxl 63)) (fun t => got (t.opAt 4) (fun o => !o.ready)) = true := by decide +kernel
def l2 (dirty : Bool) (owner : Nat) : State := base.modDie (base.homeOf 4096) (fun d => { d with l2 := [{ line := 32, owner := owner, dirty := dirty }] })
theorem wit_MemoryErrors :
    [false, true].all (fun dirty => got (first (fun (y : L2Line) => y.line = 32) ((l2 dirty 1).die ((l2 dirty 1).homeOf (128 * 32))).l2) (fun x => x.dirty = dirty)) = true
    ∧ (l2 true 9).ctxOfTag 9 = none ∧ (l2 true 1).ctxOfTag 1 = some 0 ∧ ((l2 true 1).ctxAt 0).valid = true
    ∧ got (base.teamAt 2) (fun x => (look 3 x.vregs).isSome && (look 3 x.sregs).isSome) = true
    ∧ got ((rigQueue (qent .nothing 0)).teamAt 2) (fun x => x.queue ≠ []) = true ∧ got (atomParked.pound (base.homeOf 4096) (poundSlice 4096)).head? (fun y => (atomParked.opAt y.op).isSome) = true
    ∧ base.mem.corr = [] ∧ (base.blockAt 1).isSome = true := by decide +kernel
/-- Table 17.11: a clean line goes, a dirty one of a context ends it, a register's lane is poisoned with 0x0405. -/
theorem test_errors :
    after (exec (.uncorrectableError (.l2 32)) (l2 false 1)) (fun t => (t.ctxAt 0).valid && (t.die (base.homeOf 4096)).l2 = []) = true
    ∧ after (exec (.uncorrectableError (.l2 32)) (l2 true 1)) (fun t => !(t.ctxAt 0).valid && (t.teamAt 2).isNone) = true
    ∧ after (exec (.uncorrectableError (.vreg 2 3 31 true)) base) (fun t => team2 t (fun u => got (u.vget 3) (fun r => r.poison = [⟨31, 0x0405, 0⟩]))) = true
    ∧ after (exec (.uncorrectableError (.hbm 128)) base) (fun t => t.mem.poison = [(128, 0x0401)]) = true := by decide +kernel
def rigPcie : State := { rigCopy cpyIn with io := { base.io with pcis := setAt 1 { base := 0, size := 0, en := true } base.io.pcis } }
theorem wit_HostAccesses :
    base.hostAtPa 4096 8 matches .mem ∧ base.io.hostCache = [] ∧ base.poisoned 4096 8 = false ∧ base.net.writes = []
    ∧ (∀ a ∈ from_ 4096 8, base.homeServes 8 (base.die 8).clock base.uid a 1 = true) ∧ base.memLocked 128 none = false
    ∧ base.poundHolds (base.homeOf 4096) 4096 = false ∧ base.pound (base.homeOf 4096) (poundSlice 4096) = []
    ∧ rigPcie.io.pcis.any (fun w => w.holds 4096 8) = true ∧ base.io.pcis.any (fun w => w.holds 4096 8) = false
    ∧ (base.hostAtPa (2 ^ 41) 8 matches .control) ∧ (base.hostAtPa (2 ^ 45) 8 matches .missing) := by decide +kernel
theorem test_hosts :
    after (exec (.hostCoreAccess 1 (.load 4096 4)) rigPcie) (fun t => (t.hostAt 1).last = 0x04030201) = true
    ∧ after (exec (.hostCoreAccess 1 (.amo .add 4096 4 1 false false)) rigPcie) (fun t => (t.hostAt 1).last = 0x04030201 && t.mem.byte 4096 = 2) = true
    ∧ after (exec (.hostCoreAccess 1 (.amo .add 4096 4 1 false true)) rigPcie) (fun t => t.mem.byte 4096 = 1 && clk (t.die 8).clock 8 = 1) = true
    ∧ after (exec (.pcieInboundRequest true (.load 4096 4)) rigPcie) (fun t => t.io.pcieOut = [some 0x04030201]) = true
    ∧ after (exec (.pcieInboundRequest true (.load 4096 4)) base) (fun t => t.io.pcieOut = [none] && (t.die 8).ctr.pcieur = 1) = true := by decide +kernel
theorem wit_BudgetPeriods : 3 < base.dies.length ∧ base.net.xfers = [] ∧ base.net.colls = [] ∧ (base.partAt 0).dieList.head? = some 0
    ∧ got ((stuck id).teamAt 2) (fun x => (x.blockedOn).isSome && [false, true].all (fun off => match (x.side off).waitsFor with
        | some (r, obj) => !(stuck id).peerAway 2 x r obj
        | none => true)) = true := by decide +kernel
theorem test_period : after (exec (.budgetPeriod 0) (stuck id)) (fun t => team2 t (fun u => u.waited = 5) && (t.die 0).period = 1) = true := by decide +kernel
theorem wit_EncodeDecode : [.nop g0, .iadd g0 .vec (dst 255) (v 254) (.sel (v 253)) .wrap, .cas g0 10 (v 4) (v 8) true true { ann := .ar, scope := some .dev }].all Instr.wf
    = true := by decide +kernel
/-- The placed word, and its event. -/
theorem wit_StepRuns :
    (let s := State.reset.place 64 0x0103000000000000
     let s0 : State := { s with run := { s.run with agenda := s.run.agenda.drop 1 } }
     let sc : State := { s0 with run := { s0.run with cur := some (2, false) } }
     s.run.agenda.head? = some (.issue 2 false) && s0.canIssue 2 false && got sc.issuing (fun x =>
       match sc.fetchWord x.b.die x.b.core x.c x.p.pc.toNat with
       | (.ok w, _) => w = 0x0103000000000000 && extWords w = 0
       | _ => false)) = true
    ∧ (match base.translate 0 0 0 4096 .ex with | .ok pa t => t.paOk pa && !t.xFailed pa && pa = 4096 && regionOf pa = .hbm && (look 128 t.mem.poison).isNone | _ => false) = true := by
  decide +kernel
theorem test_step : (match step (State.reset.place 64 0x0103000000000000) with
    | .next t => team2 t (fun u => u.near.path = some { pc := w64 (placedAt + 8), mask := allLanes, rpc := rpcNone }) && t.run.cur.isNone
    | _ => false) = true := by decide +kernel
theorem wit_MemoryStaysCanonical : rising base.mem.cells = true ∧ base.mem.wf = true ∧ (base.mem.setBytes 4096 [1, 0]).wf = true := by decide +kernel
theorem wit_Guards : on base (fun _ => true) = true := by decide +kernel
theorem wit_IntegerSums : (calcForm (.isub g0 .vec (dst 3) (v 1) (.sel (v 2)) .sat)).isSome = true ∧ (unpack 0x1003000060000006).m.toNat = 3
    ∧ (unpack 0x1003000060000006).op = 0x10 ∧ (0x1003000060000006#64).getLsbD 63 = false := by decide +kernel

/-! ## The further clauses of those statements: a state for each -/

def lateTry (lane : Bool) (aborted : Lanes) (es : List QEntry) : State :=
  rigTry { tryRec lane aborted (some es) with released := some .zero }
theorem wit_Commits_parts :
    [lateTry false 0 [], lateTry true 2 []].all (fun s => on s (fun x => x.act g0 ≠ 0 && !x.t.queue.any (·.commit)
      && !s.net.writes.any (fun y => y.team = some x.u && y.commit) && x.t.loft.length < 4)) = true
    ∧ on (lateTry false 0 [qent .nothing 0]) (fun x => x.t.queue.length < 32) = true
    ∧ (let s := rigTry (tryRec false 0 (some []))
       on s (fun x => x.mayRelease s .dev && !s.commitOwn (tryRec false 0 (some [])) x.b.die && (s.blockAt x.t.block).isSome)) = true
    ∧ (let l := ((upTo 64).find? (fun l => base.homeOf (128 * l) = 0)).getD 64
       let r := { tryRec false 0 (some []) with buf := [⟨.mem, 4 * l, [(0, 1, 7)]⟩] }
       on (rigTry r) (fun x => x.mayRelease (rigTry r) .dev && (rigTry r).commitOwn r x.b.die)) = true
    ∧ (let s := rigTry (tryRec false 0 none)
       on s (fun x => !s.accessPending x.u && x.t.loftDepth < 64 && (sortNat ((tryRec false 0 none).buf.map (s.bufHome x.b.die))).length ≤ 1)) = true := by
  decide +kernel
/-- The window at 2^42, on port 1, has failed. -/
def failedWin (s : State) : State := { s with io := { s.io with xwins := setAt 0 { failed := true, port := 1, en := false } s.io.xwins } }
theorem wit_LoadsServed_failed : (failedWin (rigCxl 0)).xFailed (2 ^ 42) = true
    ∧ got ((failedWin (rigCxl 0)).opAt 4) (fun o => got o.kind.lineParts.head? (fun p => p.pkg.isNone && p.got.isNone && 128 * p.line = 2 ^ 42)) = true := by
  decide +kernel
def ownAtom : AtomPart := { atomPart (some 0) with addr := 2 ^ 51 + 4096 }
theorem wit_AtomicsApplied_own :
    (let s := ownAsked (.atomic 4 0) (rigOp (atomOp ownAtom))
     (s.takeOut (.atomic 4 0)).isSome && s.io.fabid = 0 && s.homeServes 8 (s.die 8).clock s.uid 4096 4 && s.ownQuiet 2 ownAtom.addr 4
      && ownPa ownAtom.addr = 4096 && !s.memLocked 128 none && !s.poundHolds (s.homeOf 4096) 4096 && s.pound (s.homeOf 4096) (poundSlice 4096) = []
      && (look 128 s.mem.poison).isNone) = true
    ∧ (let p := { atomPart none with addr := 2 ^ 42, home := base.homeOf (2 ^ 42) }; let s := failedWin (rigOp (atomOp p))
       s.xFailed p.addr && s.atomTurn (atomOp p) 4 p && !s.poundHolds p.home p.addr) = true
    ∧ (let s := rigOp (atomOp (atomPart none)); look 128 { s.mem with poison := [(128, 0x0401)] }.poison = some 0x0401)
    ∧ ¬ (List.replicate 256 (0 : Nat)).length < 256 := by decide +kernel
theorem wit_Arrivals_order : rigBar.covers (rigBar.block 1).die mirror.die mirror.stamp = true
    ∧ rigBar.covers (rigBar.block 1).die mirror.die (clkOf 9) = false
    ∧ [arrival 1, arrival 2].any (fun y => y.team = (arrival 2).team && y.yard = (arrival 2).yard) = true
    ∧ rigBar.spadLocked 1 256 16 none = false ∧ rigWin.spadLocked 1 256 16 none = false
    ∧ got ((rigWin.block 1).window 1) (fun w => w.cnt && decide (mirror.off + 32 ≤ w.bar)) = true := by decide +kernel
/-- The block leaves its core: a lost monitor changes nothing then. -/
theorem wit_WatchesAndConflicts_away : rigWatch.onCore 1 = true ∧ (away rigWatch).onCore 1 = false ∧ rigWatch.spadLocked 1 256 16 none = false := by
  decide +kernel
theorem test_monitor_away : after (exec (.monitorLoss 0 0 0) (away rigWatch)) (fun t => (t.barAt 1 256).phase = 0) = true := by decide +kernel
/-- Package 5 cannot be reached: before the declaration, after it; and no chunk has landed for FABTO. -/
theorem wit_Collectives_lost :
    [{ coll0 with lost := 2000 }, { declared with lost := 2000 }].all (fun c => let s := onNet base (fun n => { n with colls := [c] })
      s.io.fabto.toNat ≤ c.lost && s.collLost c = some 5) = true
    ∧ declared.lost < (rigColl declared).io.fabto.toNat ∧ (rigColl declared).collLost declared = none := by decide +kernel
theorem test_coll_lost :
    after (exec (.collChunkTimeout 5 0) (onNet base (fun n => { n with colls := [{ coll0 with lost := 2000 }] }))) (fun t => got (t.collAt 5) (fun c => c.status = 3)) = true
    ∧ after (exec (.collChunkTimeout 5 0) (rigColl declared)) (fun t => got (t.collAt 5) (fun c => c.reruns = [0])) = true := by decide +kernel
theorem wit_FabricRequests_parks : asks.all (fun r => got (rigIngress.ingressAt r) (fun g => !rigIngress.extHeld (rigIngress.homeOf 4096) 4096 g.park && !rigIngress.scrubbing 128 && ExtPark.at_ g.park 4096 = 4096)) = true
    ∧ fatomOk .add none = true ∧ 4096 % 4 = 0 := by decide +kernel
/-- The signal that a write carries covers the write's own bytes. -/
theorem test_puts_signal : after (exec (.fabricIngressWrite (.write 5 1 1 32 0xF 0x0201 true (some extPuts))) base) (fun t =>
    (t.net.writes.map (fun w => clk w.stamp 8)) = [1] && (t.net.signals.map (fun g => (clk g.stamp 8, g.port, g.len))) = [(2, 3, 8)]) = true := by decide +kernel
theorem wit_FabricEnds_own :
    (let s := ownAsked (.write body true) rigBar
     got s.net.out.head? (fun q => s.ownTurn q && q.pkg = s.io.fabid.toNat) && !s.unreachable 0 0) = true := by decide +kernel
/-- A GETS whose addresses name this package. -/
def ownGets : State := onNet (ownAsked (.gets 5 0) rigBar) (fun n => { n with xfers := [{ gets with pkg := 0, src := 4096 }] })
theorem wit_GetsLandings_own : got (ownGets.xferAt 5) (fun f => got (ownGets.takeOut (.gets 5 0)) (fun y => y.1.pkg = 0
    && got (ownGets.xferReply f (.gets 5 0) none) (fun r => r.1.poison = 0 && (y.2.getsWrite f 0 (List.replicate 64 0) r.1.side).isSome))) = true := by decide +kernel
/-- No walk is left; the driver ends the context. -/
theorem wit_Launches_walks :
    (let s := sched.modDie 8 (fun d => { d with budgets := [] }); s.covered 8 && (s.budget 8 0).walk ≠ 0) = true
    ∧ (let s := sched.setBudget 8 0 (fun b => { b with walk := 0 }); (s.budget 8 0).walk = 0)
    ∧ sched.teams.any (fun y => sched.ctxOf y.2.block = 0) = false ∧ base.teams.any (fun y => base.ctxOf y.2.block = 0) = true
    ∧ ((deferred (queueOf 0)).partAt 0).stopped = false ∧ (sched.ctxAt 0).ending = false := by decide +kernel
/-- The cores of the partition have stopped. -/
def stopped (s : State) : State := s.modPart 0 (fun x => { x with stopped := true })
theorem wit_Scheduling_stopped :
    (let s := stopped (quick 0 (some 4)); (s.partAt 0).stopped && s.landed 0 && !(s.partAt 0).halt && (s.partAt 0).dieList.all s.covered
      && s.nextWork 0 (s.partAt 0).run = some 1 && s.running 0 = none) = true
    ∧ (let s := ((quick 0 (some 4)).modTeam 2 id); s.mayStop 0 = true)
    ∧ (let s : State := { quick 0 (some 4) with teams := (rigOp servedOp).teams, net := (rigOp servedOp).net }
       s.landed 0 = false ∧ s.mayStop 0 = false)
    ∧ (let s : State := { quick 0 (some 4) with net := (rigOp servedOp).net }
       s.landed 0 = false ∧ s.mayStop 0 = true ∧ (s.partAt 0).stopped = false)
    ∧ (let s := base.modPart 0 (fun x => { x with sliceCount := 9, graceCount := some 3 }); (s.nextWork 0 0).isSome = false ∧ s.running 0 = some 0)
    ∧ (let s := rigQueue (qent .nothing 0); (s.endHalt 0).owes 0 = true ∧ (s.ctxAt 0).valid = true)
    ∧ (base.endHalt 0).owes 0 = false ∧ (∀ y ∈ unfit.cores, y.2.images = [])
    ∧ (upTo 16).all (fun k => !(base.ctxAt (16 * 3 + k)).valid) = true ∧ (base.partAt 3).switch = false := by decide +kernel
theorem test_slice_renewed :
    after (exec (.timeSliceExpiry 0) (base.modPart 0 (fun x => { x with sliceCount := 9, graceCount := some 3, graced := true })))
      (fun t => (t.partAt 0).graceCount.isNone && !(t.partAt 0).graced) = true
    ∧ after (exec (.contextEviction 0) (stopped (quick 0 (some 4)))) (fun t => (t.partAt 0).run = 1 && (t.block 1).res = .shadow) = true
    ∧ after (exec (.contextEnd 0 0) (rigQueue (qent .nothing 0))) (fun t => (t.ctxAt 0).valid && (t.ctxAt 0).ending && team2 t (fun u => u.killed)) = true := by
  decide +kernel
theorem wit_FaultAnswers_images :
    [Residence.core, .shadow].all (fun r => let s := rigBar.modBlock 1 (fun b => { b with res := r })
      ((s.block 1).res = .core || (s.block 1).res = .shadow) && s.arrivalAt (arrival 2) = some (1, 256) && (s.barAt 1 256).counts) = true
    ∧ (base.fqEntry 0 7).isNone = true ∧ got ((rigFq (some 7)).teamAt 2) (fun x => x.region.isNone && (rigFq (some 7)).net.colls = []) = true := by
  decide +kernel
theorem wit_Attestation_stages : (rigAtt none).io.stage = 0 ∧ ¬ (1 ≤ (0 : Nat))
    ∧ ({ (rigAtt none) with io := { (rigAtt none).io with stage := 7 } } : State).io.stage < base.io.meas.length := by decide +kernel
/-- A transfer to a window of the expander waits for its link. -/
theorem wit_Links_transfers : (let s := onNet base (fun n => { n with xwait := [(5, 70)], xfers := [{ gets with gets := false }] })
    (s.opAt 5).isNone && s.net.writes = [] && (look 5 s.xCopies).isNone && got (s.xferAt 5) (fun f => !f.gets) && decide (s.io.xto.toNat ≤ 70)) = true := by
  decide +kernel
def snapTry : State := rig (fun t => { t with sregs := change 3 (fun r => { r with snap := true }) t.sregs,
                                              region := some { tryRec false 0 none with sSregs := t.sregs } })
theorem wit_MemoryErrors_sites :
    inExpander (2 ^ 42) = true ∧ isExpander (2 ^ 42) = true ∧ (2 ^ 40 ≤ 32 * 2 ^ 36 ∧ isExpander (2 ^ 41) = false)
    ∧ got (snapTry.teamAt 2) (fun x => x.region.isSome && got (look 3 x.sregs) (·.snap)) = true
    ∧ got ((rigTry { tryRec false 0 none with buf := [⟨.mem, 128, [(0, 1, 7)]⟩] }).teamAt 2) (fun x => got x.region (fun r => decide (0 < r.buf.length))) = true
    ∧ (base.modDie 0 (fun d => { d with rdc := [{ line := 32, held := 15, data := 0, sb := 0, stamp := .zero, owner := 1, filled := 0, vals := [] }] })).dies.length = 9 := by
  decide +kernel
/-- An error that the scrubber has not found is not logged; one that it has found is (R402). -/
theorem test_register_errors :
    after (exec (.uncorrectableError (.sreg 2 3 false)) base) (fun t => !(t.ctxAt 0).sticky && team2 t (fun u => got (look 3 u.sregs) (fun r => r.poison.isSome))) = true
    ∧ after (exec (.uncorrectableError (.sreg 2 3 true)) base) (fun t => (t.ctxAt 0).sticky) = true
    ∧ after (exec (.uncorrectableError (.hbm (2 ^ 37))) base) (fun t => t.mem.poison = [(2 ^ 37, 0x0401)]) = true := by decide +kernel
/-- A team that is not in its pipe's active set; and an event while the main side is off. -/
theorem wit_StepRuns_pending :
    (let s := (State.reset.place 64 0x0103000000000000).modTeam 2 (fun t => { t with active := false })
     got (s.teamAt 2) (fun y => !y.active && s.mayEnter 2 y)) = true
    ∧ standbyMove .mainPowerUp = true ∧ standbyMove (.fabricWriteCompletion 7) = false ∧ asleep.io.mainOn = false ∧ base.io.mainOn = true := by decide +kernel
theorem wit_BudgetPeriods_images : (∀ y ∈ base.cores, y.1 / 512 = 3 → y.2.images = []) ∧ base.dies.length = 9 := by decide +kernel

/-! ## The clauses on ends of paths, spent budgets, parking, migration and the rest -/

def pathEnt : LoftEnt := { kind := .path, mask := 0xF, rpc := rpcNone, pc := w64 (2 ^ 20), ok := true }
/-- Lanes 16 to 31 are the other side's; what is left is all of this side's. -/
def halves : State := rig (fun t =>
  { t with near := { t.near with path := t.near.path.map (fun p => { p with mask := 0xFFFF }) }
           off := { t.off with path := t.near.path.map (fun p => { p with mask := 0xFFFF0000 }) } })
theorem wit_PathEnds_last :
    on halves (fun x => x.act g0 ≠ 0 && x.p.mask &&& ~~~ x.act g0 = 0 && x.t.loftDepth = 0
      && got (x.t.side (!x.off)).path (fun q => q.mask &&& x.act g0 = 0) && x.t.exited ||| x.act g0 ≠ allLanes) = true
    ∧ on base (fun x => x.act g0 ≠ 0 && x.p.mask &&& ~~~ x.act g0 = 0 && x.t.region.isNone && x.t.handler.isNone && x.t.loftDepth = 0
      && (x.t.side (!x.off)).path.isNone && x.t.harness.isNone && base.net.colls.all (fun c => c.block ≠ x.t.block || c.formed)) = true
    ∧ on (atJoin (fun t => { t with off := t.near, loft := [pathEnt], loftDepth := 1 })) (fun x => x.p.rpc = x.p.pc && x.t.loft = [pathEnt]
        && pathEnt.mask &&& x.t.live ≠ 0 && (x.t.side (!x.off)).path.isSome) = true
    ∧ on (rig (fun t => { t with off := { t.off with path := t.near.path } })) (fun x => x.act { p := 1, neg := false } ≠ 0
        && x.p.mask &&& ~~~ x.act { p := 1, neg := false } ≠ 0
        && got (x.t.side (!x.off)).path (fun q => q.mask &&& ~~~ x.act { p := 1, neg := false } ≠ 0)) = true := by decide +kernel
theorem test_exit : after (exec (.exit g0) base) (fun t => team2 t (fun u => u.exited = allLanes && u.near.path.isNone && u.off.path.isNone)) = true
    ∧ after (exec (.reconv g0) (atJoin (fun t => { t with off := t.near, loft := [pathEnt], loftDepth := 1 }))) (fun t => team2 t (fun u =>
      u.near.path = some { pc := w64 (2 ^ 20), mask := 0xF, rpc := rpcNone } && u.loft = [])) = true := by decide +kernel
/-- The queue is full and the chute budget covers its oldest entry, or does not; the context asks for the trap, with a handler or without. -/
def crammed (charge : Nat) (trap : Bool) (handler : W64) : State :=
  (rigMem.modTeam 2 (fun t => { t with queue := List.replicate 32 (qent (.write body) charge) })).modCtx 0 (fun c => { c with sbmode := trap, handler := handler })
theorem wit_Stores_full :
    [(64, false, 0), (2 ^ 30, false, 0), (2 ^ 30, true, w64 (2 ^ 20)), (2 ^ 30, true, 0)].all (fun (n, tr, h) =>
      let s := crammed n tr h
      on s (fun x => match storeForm x s (.st g0 (v 2) (v 4) .b64 false false plain) with
        | some f => x.able s f && !x.queueFits f && decide (x.budgetSpent s = decide (n ≠ 64))
        | none => false)) = true
    ∧ on rigMem (fun x => match storeForm x rigMem (.st g0 (v 2) (v 4) .b64 false false plain) with
        | some f => x.queueFits f | none => false) = true := by decide +kernel
/-- Table 07.13: cause 0x03 with the handler at 2^20. -/
theorem test_backpressure : after (exec (.st g0 (v 2) (v 4) .b64 false false plain) (crammed (2 ^ 30) true (w64 (2 ^ 20)))) (fun t => team2 t (fun u =>
      u.handler = some false && got u.near.path (fun p => p.pc = w64 (2 ^ 20)) && u.shadow.take 1 = [.plain 3]))
    ∧ after (exec (.st g0 (v 2) (v 4) .b64 false false plain) (crammed (2 ^ 30) false 0)) (fun t => team2 t (fun u =>
      u.near.wait = .on .storeBudget 0 && u.queue.length = 32)) := by decide +kernel
/-- A write half in the failed window, half in HBM. -/
def mixedBody : WBody := { pieces := [{ piece with addr := 2 ^ 42 }, piece], sides := [] }
def rigLost (b : WBody) : State := failedWin (onNet base (fun n => { n with writes := [nwrite .zero b] }))
theorem wit_StoresApply_lost :
    [mixedBody, { pieces := [{ piece with addr := 2 ^ 42 }], sides := [] }].all (fun b =>
      (rigLost b).mayApply (nwrite .zero b) && !(b.part (rigLost b).xFailed).none? && got ((rigLost b).teamAt 2) (fun x => !x.killed)) = true
    ∧ (WBody.part { pieces := [{ piece with addr := 2 ^ 42 }], sides := [] } (fun a => !(rigLost mixedBody).xFailed a)).none? = true := by decide +kernel
theorem test_store_lost : after (exec (.storeApply 3) (rigLost mixedBody)) (fun t => t.mem.bytes 4096 2 = [1, 2] && t.net.writes = []
    && (t.die 0).er.tail = 1 && (t.ctxAt 0).sticky && (t.die 8).ctr.xfail = 1) = true := by decide +kernel
/-- Served operations of LDB and MLOAD. -/
def lineOp : MemOp := memOp (.line true [(1, 9)] none { linePart .zero none with got := some (0x0403, 0, 0, .zero, []) }) (.vec 3 1)
def mloadOp : MemOp := memOp (.mload 1 (some ([(0, 5, 77)], [(0, 6)]))) (.vec 3 1)
theorem wit_ResultsLand_lines : [lineOp, mloadOp].all (fun o => o.ready && !o.isRecord && got ((rigOp o).teamAt 2) (fun x => !x.killed && decide (x.landLanes o ≠ 0))) = true := by
  decide +kernel
theorem test_lines_land :
    after (exec (.longLatencyResult 4) (rigOp { lineOp with lanes := allLanes })) (fun t => vlane t 3 0 = some 0x0903 && vlane t 3 1 = some 0) = true
    ∧ after (exec (.longLatencyResult 4) (rigOp { mloadOp with lanes := allLanes })) (fun t => vlane t 3 5 = some 77
      && team2 t (fun u => got (u.vget 3) (fun r => (r.poison.map (·.lane)) = [6]))) = true := by decide +kernel
/-- A write-back is pending at the sector of an atomic; the pound is empty, or full; the atomic names the package's own window. -/
def scrubbed (full : Bool) (p : AtomPart) (k : Option OutKind) : State :=
  let s := rigOp (atomOp p)
  let s := match k with | some k => ownAsked k s | none => s
  let s : State := { s with mem := { s.mem with corr := [128] } }
  s.setPound (base.homeOf 4096) (poundSlice 4096) (if full then List.replicate 256 { op := 40, part := 0, sector := 0, fence := none } else [])
theorem wit_AtomicsApplied_parks :
    [false, true].all (fun full => let s := scrubbed full (atomPart none) none
      s.atomTurn (atomOp (atomPart none)) 4 (atomPart none) && s.parks (base.homeOf 4096) 4096
        && decide (256 ≤ (s.pound (base.homeOf 4096) (poundSlice 4096)).length) = full) = true
    ∧ (rigOp (atomOp (atomPart none))).parks (base.homeOf 4096) 4096 = false
    ∧ [false, true].all (fun full => let s := scrubbed full ownAtom (some (.atomic 4 0))
      (s.takeOut (.atomic 4 0)).isSome && s.homeServes 8 (s.die 8).clock s.uid 4096 4 && s.ownQuiet 2 ownAtom.addr 4
        && s.ownAccessTurn (atomOp ownAtom) (ownAtom.addr / 128) (secBit ownAtom.addr) true && !s.memLocked 128 none && s.parks (s.homeOf 4096) 4096) = true
    ∧ (let s := ownAsked (.atomic 4 0) (rigOp (atomOp ownAtom))
       s.ownAccessTurn (atomOp ownAtom) (ownAtom.addr / 128) (secBit ownAtom.addr) true && !s.parks (s.homeOf 4096) 4096 && !s.xFailed 4096) = true := by decide +kernel
theorem test_own_parks : after (exec (.atomicApply 4 0 none) (scrubbed false ownAtom (some (.atomic 4 0)))) (fun t => t.net.out = []
    && (t.pound (base.homeOf 4096) (poundSlice 4096)).length = 1 && got (t.opAt 4) (fun o => o.kind.atomParts.all (fun p => p.parked && p.dest = some 4096))) = true := by
  decide +kernel
theorem wit_WatchesAndConflicts_live : rigWatch.noteLive { mon := 7, die := 0, core := 0, block := 1, off := 256 } = true
    ∧ rigWatch.noteLive { mon := 6, die := 0, core := 0, block := 1, off := 256 } = false
    ∧ (rigWatch.barAt 1 256).kind = 3 ∧ (base.barAt 1 256).kind ≠ 3 := by decide +kernel
/-- A released monitor's note advances nothing (R276). -/
theorem test_stale_note : after (exec (.watchEvent 0) (rigWatch.modCore 0 0 (fun k => { k with monitors := k.monitors.map (fun m => { m with id := 8 }) })))
    (fun t => (t.barAt 1 256).phase = 0 && t.net.notes = []) = true := by decide +kernel
/-- The copy budget is spent, or covers part of a unit, or with what has been paid all of it. -/
def paying (have_ paid : Nat) : State :=
  ((rigCopy cpyIn).modCore 0 0 (fun k => { k with copies := [{ copyOf cpyIn with paid := paid }] })).setBudget 0 0 (fun b => { b with copy := have_ })
theorem wit_CopyLandings_paid :
    [(0, 0), (20, 0), (20, 12)].all (fun (h, p) => let s := paying h p
      (s.budget 0 0).copy = h && got (s.copyAt 0 0 5) (fun c => c.paid = p)
        && !({ die := 0, core := 0, c := { copyOf cpyIn with paid := p } } : CAt).barLocked s) = true := by decide +kernel
theorem test_copy_paid :
    after (exec (.copyLanding 0 0 5 0) (paying 20 0)) (fun t => got (t.copyAt 0 0 5) (fun c => c.paid = 20 && c.landed = []) && (t.budget 0 0).copy = 0
      && (t.barAt 1 256).landed = 0) = true
    ∧ after (exec (.copyLanding 0 0 5 0) (paying 20 12)) (fun t => got (t.copyAt 0 0 5) (fun c => c.paid = 0 && c.landed = [0]) && (t.budget 0 0).copy = 0
      && (t.barAt 1 256).landed = 32) = true := by decide +kernel
/-- An operand of the MMA is in another format than its lines; its harness is that of its one member. -/
def badMma : State :=
  let p : JointPart := { mmaPart with pb := { mmaPb with w0 := mmaPb.w0 + 0x100 } }
  (rigMq (mqEnt (.mma [p]) false)).modBlock 1 (fun b => b.modHarness 0 (fun y => { y with size := 1, convened := true, members := [2] }))
theorem wit_MatrixProducts_fails : got (badMma.mqHead 0 0) (fun e => !badMma.mqHeld e && !e.doomed && (match e.op with
      | .mma [q] => !((badMma.block 1).linesOk (mmaA q.pb) (mmaFmt q.pb.w0) (mmaLay q.pb.w0))
      | _ => false)) = true
    ∧ ((badMma.block 1).harness 0).convened = true ∧ ((badMma.block 1).harness 0).members = [2] := by decide +kernel
theorem test_mma_fails : after (exec (.mmaExecute 0 0) badMma) (fun t => (t.coreAt 0 0).mq = [] && !((t.block 1).harness 0).convened
    && team2 t (fun u => u.owedFaults = [(0, true)])) = true := by decide +kernel
theorem wit_Collectives_poison : [false, true].all (fun bad =>
    let s := (rigColl coll0).modBlock 1 (fun b => { b with spadPoison := if bad then [(collSoff collPb / 32, 0x0401)] else [] })
    decide ((s.block 1).sourcePoison collPb = bad)) = true ∧ decl0.ok = true ∧ coll0.nodes = [] := by decide +kernel
theorem wit_FabricEnds_bytes : (∀ p ∈ body.pieces, p.addr % 32 = 0 ∧ p.addr / 2 ^ 41 = 0)
    ∧ (let s := ownAsked (.puts 5 0 body) { lost (.puts 5 0 body) with teams := rigBar.teams }
       got s.net.out.head? (fun q => s.ownTurn q && q.pkg = s.io.fabid.toNat) && !s.unreachable 0 0 && (s.xferAt 5).isSome) = true := by decide +kernel
/-- A launch of one block, whose yard table of zeros reads; one whose yard table no table maps; one that needs more blocks than a yard entry has. -/
theorem wit_Launches_status :
    (sched.readYards 0 0).isSome = true ∧ sched.readYards 0 (2 ^ 40) = none
    ∧ yardsOk testLaunch [] = true ∧ yardsOk testLaunch [(0, BitVec.ofNat 128 1)] = false := by decide +kernel
/-- A team that has been chosen, with a load of its own on the way or none. -/
def chosen (busy : Bool) : State :=
  let s := (starved true).modTeam 9 (fun t => { t with park := { t.park with due := true } })
  if busy then onNet s (fun n => { n with ops := [{ servedOp with team := 9 }] }) else s
theorem wit_Parking_chosen : [false, true].all (fun b => got ((chosen b).chosen 0 0) (fun y => y.1 = 9) && decide ((chosen b).writesAway 9 = b)) = true
    ∧ (starved true).chosen 0 0 = none ∧ (starved true).writesAway 9 = false ∧ (chosen true).mayPark 0 0 = true := by decide +kernel
theorem test_parking : after (exec (.regsDeadlockPark 0 0) (chosen false)) (fun t => got (t.teamAt 9) (fun x => !x.park.due && x.park.spill.isSome)) = true
    ∧ after (exec (.regsDeadlockPark 0 0) (chosen true)) (fun t => t = chosen true) = true := by decide +kernel
theorem wit_FaultAnswers_unlocked : (let s := toLand rigBar; got s.net.lands.head? (fun l => !s.landLocked l.block (s.landReads l))) = true := by decide +kernel
/-- Writes to the window of port 1 and to HBM. -/
theorem wit_Links_writes : (let s := onNet (rigCxl 0) (fun n => { n with writes := [nwrite .zero mixedBody] })
    s.net.writes.all (fun w => w.body.pieces.any (fun p => inExpander p.addr && decide ((s.xwinAt p.addr).port.toNat = 1))
      && !(w.body.part (fun a => !inExpander a)).none?)) = true := by decide +kernel
theorem test_link_writes : after (exec (.cxlLinkFailure 1) (onNet (rigCxl 0) (fun n => { n with writes := [nwrite .zero mixedBody] }))) (fun t =>
    (t.net.writes.map (fun w => w.body)) = [body] && t.io.unsaid ≠ []) = true := by decide +kernel
/-- A line of 4096 in the host's caches; the package's own window. -/
def hostHit : State := { base with io := { base.io with hostCache := [{ line := 32, held := 15, data := 0x0605, sb := 0, stamp := .zero, vals := [], filled := 0, owner := 0 }] } }
theorem wit_HostAccesses_hit : (from_ 4096 4).all (fun a => got (hostHit.hostLine a) (fun l => l.line = 32)) = true ∧ hostHit.ownWindow 4096 = false
    ∧ hostHit.hostOwnOut 4096 4 = false ∧ base.ownWindow (2 ^ 51 + 4096) = true ∧ base.hostPa (2 ^ 51 + 4096) = 4096
    ∧ (base.hostAtPa 4096 4 matches .mem) ∧ (from_ 4096 4).all (fun a => (base.hostLine a).isNone) = true := by decide +kernel
theorem test_host_hit : after (exec (.hostCoreAccess 3 (.load 4096 4)) hostHit) (fun t => (t.hostAt 3).last = 0x0605) = true
    ∧ after (exec (.hostCoreAccess 3 (.load (2 ^ 51 + 4096) 4)) hostHit) (fun t => (t.hostAt 3).last = 0 && t.io.hostCache = []) = true
    ∧ after (exec (.hostCoreAccess 3 (.store (2 ^ 51 + 4096) 4 7)) hostHit) (fun t => t.net.writes = [] && (t.net.out.map (·.pkg)) = [0]) = true
    ∧ after (exec (.hostCoreAccess 64 .fenceRwW) base) (fun t => t = base) = true := by decide +kernel
theorem wit_StepRuns_due : (let s := State.reset.place 64 0x0103000000000000; got (s.teamAt 2) (fun y => !y.park.due)) = true
    ∧ base.mayPark 0 0 = false ∧ (chosen true).mayPark 0 0 = true := by decide +kernel
/-- R451: a reset while a sample is read keeps the sample, and how much of it had been read is free; an update may be incomplete at a boot. -/
def sampled : State := { asleep with io := { asleep.io with mainOn := true } }
theorem wit_SolnalAndPower_reading :
    after (exec (.telemetrySample 900 []) sampled) (fun t => t.solnal.on && t.solnal.reading && got t.solnal.sample (fun x => x.items = 51)) = true := by
  decide +kernel
theorem test_cut : after (exec (.telemetrySample 900 []) sampled) (fun t => after (exec .packageReset t) (fun v =>
      !v.solnal.reading && got v.solnal.sample (fun x => x.power = 900 && x.mhz = some 2700)))
    ∧ after (exec (.firmwareUpdate badImg) { asleep with solnal := { asleep.solnal with accepted := some 0 } }) (fun t => t.solnal.writing = some 1
        && after (exec .mainPowerUp t) (fun v => !v.io.mainOn)) = true := by decide +kernel
theorem wit_Scheduling_grace : (let s := base.modPart 0 (fun x => { x with graceCount := some (base.ctxAt 0).grace })
      s.running 0 = some 0 && !s.allBlocked 0 && !(s.partAt 0).graced
      && after (exec (.graceExpiry 0) s) (fun t => (t.partAt 0).graced && t.sched.graceIrqs = [0])) = true
    ∧ (quick 0 (some 4)).allBlocked 0 = true := by decide +kernel

/-! ## The spec's worked examples, a step each -/

def f32s (f : Nat → W32) : VReg := vreg f
def withV (l : List (Nat × VReg)) (f : Team → Team) : State := rig (fun t => f { t with vregs := l.foldl (fun r y => place y.1 y.2 r) t.vregs })
/-- 07, Table 07.5: a 64-bit add in 32-bit lanes. -/
def add64 : State := withV [(2, vreg (fun _ => 0xFFFFFFF0)), (3, vreg (fun _ => 1)), (4, vreg (fun _ => 0x20)), (5, vreg (fun _ => 0x7FFFFFFF))]
  (fun t => { t with near := { t.near with latches := [none, some (.vec (lineOf (fun _ => 1)) 0 []), none, none] } })
theorem test_iadd_low : after (exec (.iadd g0 .vec (dst 10) (v 2) (.sel (v 4)) .wrap) add64) (fun t => vlane t 10 31 = some 0x10) = true := by decide +kernel
theorem test_iaddc_high : after (exec (.iaddc g0 .vec (dst 7) (v 3) (.sel (v 5)) (.sel (.latch 1)) false) add64)
    (fun t => vlane t 7 0 = some 0x80000001) = true := by decide +kernel
/-- 07, Table 07.10: the BRC's sides and loft entry; lanes 0 to 19 hold p1. -/
def brcStart : State := rig (fun t => { t with preds := setAt 1 0x000FFFFF#32 t.preds })
theorem test_brc : after (exec (.brc { p := 1, neg := false } 3 4) brcStart) (fun t => team2 t (fun u =>
    (u.near.path.map (fun p => (p.pc.toNat - placedAt, p.mask, p.rpc.toNat - placedAt))) = some (8, 0xFFF00000, 32)
    && (u.off.path.map (fun p => (p.pc.toNat - placedAt, p.mask, p.rpc.toNat - placedAt))) = some (24, 0x000FFFFF, 32)
    && (u.loft.map (fun e => (e.mask, e.rpc, e.pc.toNat - placedAt))) = [(0xFFFFFFFF, rpcNone, 32)])) = true := by decide +kernel
/-- 08, Table 08.10: 100.0 in lane 0, 3.0 in lane 1, quantised against 29/128 and read back. -/
def quant : State := withV [(2, vreg (fun l => if l = 0 then 0x42C80000 else if l = 1 then 0x40400000 else 0)), (4, vreg (fun _ => 0x42C80000)),
  (5, vreg (fun _ => 0x7CD))] id
theorem test_bmax : after (exec (.bmax g0 (dst 6) (v 2)) quant) (fun t => vlane t 6 31 = some 0x42C80000) = true := by decide +kernel
theorem test_bscale : after (exec (.bscale g0 (dst 6) (v 4) .e4m3) quant) (fun t => vlane t 6 7 = some 0x7CD) = true := by decide +kernel
theorem test_bqnt : after (exec (.bqnt g0 .vec 8 (v 2) (v 5) .e4m3 0 false .sat .rn) quant) (fun t =>
    vlane t 8 0 = some 0x557E && vlane t 8 1 = some 0
    && team2 t (fun u => u.flags = 0x10 && got (u.vget 8) (fun r => sbFormat r.sb = 1 && sbLayout r.sb = 0 && sbOk r.sb && r.sb = mkSb [0x7CD] 1 0))) = true := by
  decide +kernel
theorem test_bdq : after (exec (.bdq g0 (dst 9) (v 8) 0) (withV [(8, { vreg (fun l => if l = 0 then 0x557E else 0) with sb := mkSb [0x7CD] 1 0 })] id))
    (fun t => vlane t 9 0 = some 0x42CB0000 && vlane t 9 1 = some 0x403C8000 && vlane t 9 2 = some 0) = true := by decide +kernel
/-- 08, Table 08.14: lane 28 on the off side, lane 30 exited. -/
def lanes14 : State := withV [(1, vreg (fun l => w32 (10 + l))), (7, vreg (fun _ => 0xFFFFFFFF))] (fun t =>
  { t with exited := 0x40000000, near := { t.near with path := t.near.path.map (fun p => { p with mask := 0xAFFFFFFF }) }
           off := { t.off with path := t.near.path.map (fun p => { p with mask := 0x10000000 }) } })
theorem test_shfl : after (exec (.shflDown g0 .vec (dst 9) (v 1) (.imm 1) (v 7)) lanes14) (fun t =>
    (vlane t 9 0, vlane t 9 27, vlane t 9 28, vlane t 9 29, vlane t 9 31) = (some 11, some 38, some 0, some 0xFFFFFFFF, some 0xFFFFFFFF)) = true := by decide +kernel
theorem test_lscan : after (exec (.lscan g0 (dst 9) (v 1) .iadd false 0) lanes14) (fun t =>
    (vlane t 9 27, vlane t 9 28, vlane t 9 29, vlane t 9 30, vlane t 9 31) = (some 658, some 0, some 697, some 0, some 738)) = true := by decide +kernel
theorem test_lred : after (exec (.lred g0 (dst 9) (v 1) .iadd 0) lanes14) (fun t => (vlane t 9 0, vlane t 9 28) = (some 738, some 0)) = true := by decide +kernel
/-- 09: the aggregated floating-point add at its home, lanes in order. -/
def fadds : AtomPart := { atomPart none with lanes := [(0, 0x3F800000, 0), (1, 0x4B800000, 0), (2, 0x3F800000, 0), (3, 0x3F800000, 0)] }
theorem test_atom_fadd : after (exec (.atomicApply 4 0 none) (rigOp (memOp (.atomic (some .fadd) 4 [fadds]) (.vec 9 1)))) (fun t =>
    t.mem.bytes 4096 4 = [0, 0, 0x80, 0x4B]
    && got (t.opAt 4) (fun o => (o.kind.atomParts.map (fun p => p.got.map (·.1))) = [some [(0, 0), (1, 0x3F800000), (2, 0x4B800000), (3, 0x4B800000)]])) = true := by
  decide +kernel
/-- 09, bytes that run ahead, steps 2, 4, 6 and 7 (the object at 0x40 in s3 and s4). -/
def ahead (b : Bar) : State := (rig (fun t => { t with sregs := [(3, sreg 0x40), (4, sreg 0), (5, sreg 4096)] })).barPut 1 0x40 b none
theorem test_expect : after (exec (.expect g0 (.local (v 3)) (v 5)) (ahead (Bar.new 1 2))) (fun t => (t.barAt 1 0x40).expb = 4096 && (t.barAt 1 0x40).pend = 2) = true := by
  decide +kernel
theorem test_arrive :
    after (exec (.arrive g0 (v 3) none none) (ahead { Bar.new 1 2 with expb := 4096, landed := 4096 })) (fun t => (t.barAt 1 0x40).pend = 1 && (t.barAt 1 0x40).phase = 0) = true
    ∧ after (exec (.arrive g0 (v 3) none none) (ahead { Bar.new 1 2 with expb := 4096, landed := 5120, pend := 1 })) (fun t =>
      (t.barAt 1 0x40) = { Bar.new 1 2 with phase := 1, landed := 1024 }) = true := by decide +kernel
theorem test_testp : after (exec (.testp g0 3 (.bar (.local (v 3))) (v 4)) (ahead { Bar.new 1 2 with phase := 1, landed := 1024 })) (fun t =>
    team2 t (fun u => u.pred 3 = allLanes)) = true := by decide +kernel

end Sys2Proof.Tests
end

section
/-! Memory as its bytes determine it, and the machine after package reset (00_scope.md R2, R5; 03_memory_hierarchy.md R76). -/

namespace Sys2Proof.Machine

/-! ## Rising lists, determined by what they answer -/

theorem look_above {α : Type} {i k : Nat} {l : List (Nat × α)} (h : above i l = true) (hk : k ≤ i) : look k l = none := by
  induction l with
  | nil => rfl
  | cons c r ih =>
    simp only [above, List.all_cons, Bool.and_eq_true, decide_eq_true_eq] at h ih
    have hc : c.1 ≠ k := by omega
    simp [look, hc, ih h.2]
theorem mem_of_look {α : Type} {k : Nat} {v : α} {l : List (Nat × α)} (h : look k l = some v) : (k, v) ∈ l := by
  induction l with
  | nil => simp [look] at h
  | cons c r ih =>
    by_cases e : c.1 = k
    · simp [look, e] at h; simp [← h, ← e]
    · simp [look, e] at h; exact List.mem_cons_of_mem _ (ih h)
/-- The heads agree, since each list answers at its own head and nowhere below it; the tails agree where the heads do not answer. -/
theorem rising_ext {α : Type} {l m : List (Nat × α)} (hl : rising l = true) (hm : rising m = true) (h : ∀ k, look k l = look k m) :
    l = m := by
  induction l generalizing m with
  | nil => cases m with
    | nil => rfl
    | cons d q => simpa [look] using h d.1
  | cons c r ih =>
    obtain ⟨i, v⟩ := c
    obtain ⟨hi, hr⟩ := (rising_cons _ _).1 hl
    cases m with
    | nil => simpa [look] using h i
    | cons d q =>
      obtain ⟨j, w⟩ := d
      obtain ⟨hj, hq⟩ := (rising_cons _ _).1 hm
      have hij : i = j := by
        have h1 := h i
        have h2 := h j
        rcases Nat.lt_trichotomy i j with a | a | a
        · simp [look, Nat.ne_of_gt a, look_above hj (Nat.le_of_lt a)] at h1
        · exact a
        · simp [look, Nat.ne_of_gt a, look_above hi (Nat.le_of_lt a)] at h2
      subst hij
      have hvw : v = w := by simpa [look] using h i
      have tails : ∀ k, look k r = look k q := by
        intro k
        by_cases e : i = k
        · rw [look_above hi (Nat.le_of_eq e.symm), look_above hj (Nat.le_of_eq e.symm)]
        · simpa [look, e] using h k
      rw [hvw, ih hr hq tails]

/-! ## Memory in its canonical form -/

/-- A listed byte is one that an unlisted address would not read as. -/
theorem Mem.look_cells {m : Mem} (h : m.wf = true) (a : Nat) :
    look a m.cells = if m.byte a = m.unlisted a then none else some (m.byte a) := by
  have hall := List.all_eq_true.1 ((Mem.wf_iff m).1 h).2
  unfold Mem.byte
  cases e : look a m.cells with
  | none => simp
  | some v =>
    have hv : v ≠ m.unlisted a := by simpa using hall _ (mem_of_look e)
    simp [hv]
theorem Mem.cells_ext {m n : Mem} (hm : m.wf = true) (hn : n.wf = true) (hu : ∀ a, m.unlisted a = n.unlisted a)
    (hb : ∀ a, m.byte a = n.byte a) : m.cells = n.cells :=
  rising_ext ((Mem.wf_iff m).1 hm).1 ((Mem.wf_iff n).1 hn).1
    (fun a => by rw [Mem.look_cells hm, Mem.look_cells hn, hu, hb])
theorem Mem.setByte_byte_self {m : Mem} (h : m.wf = true) (a : Nat) : m.setByte a (m.byte a) = m := by
  have hc : (m.setByte a (m.byte a)).cells = m.cells :=
    Mem.cells_ext (Mem.setByte_wf h a _) h (fun _ => rfl) (fun x => by rw [Mem.setByte_byte]; split <;> simp_all)
  cases m
  exact congrArg (fun c => Mem.mk c _ _ _ _ _ _) hc
theorem Mem.setBytes_bytes_self {m : Mem} (h : m.wf = true) (n a : Nat) : m.setBytes a (m.bytes a n) = m := by
  induction n generalizing a with
  | zero => rfl
  | succ n ih =>
    show (m.setByte a (m.byte a)).setBytes (a + 1) (m.bytes (a + 1) n) = m
    rw [Mem.setByte_byte_self h, ih]
theorem Mem.bytes_setBytes (bs : List Byte) (m : Mem) (a : Nat) : (m.setBytes a bs).bytes a bs.length = bs := by
  induction bs generalizing m a with
  | nil => rfl
  | cons b r ih =>
    show ((m.setByte a b).setBytes (a + 1) r).byte a :: ((m.setByte a b).setBytes (a + 1) r).bytes (a + 1) r.length = b :: r
    rw [ih, Mem.setBytes_byte, if_neg (by omega), Mem.setByte_byte, if_pos rfl]
theorem Mem.word_setBytes (m : Mem) (a : Nat) (v : W64) : (m.setBytes a (toBytes 8 v)).word a = v := by
  have hb : (m.setBytes a (toBytes 8 v)).bytes a 8 = toBytes 8 v := by
    simpa using Mem.bytes_setBytes (toBytes 8 v) m a
  have hv : v.toNat % 256 ^ 8 = v.toNat := Nat.mod_eq_of_lt v.isLt
  rw [Mem.word, hb, ofBytes_toBytes, hv, w64, BitVec.ofNat_toNat, BitVec.setWidth_eq]

/-- Settles O57: a rising list without redundant entries is determined by its answers, and writing goes byte by byte. -/
theorem memoryWords : Obligations.MemoryWords := by
  refine ⟨fun m n hm hn hr hl hb => ?_, fun m a v => ⟨Mem.word_setBytes m a v, fun x hx => ?_, ?_⟩,
    fun m a h => Mem.setBytes_bytes_self h 8 a⟩
  · exact Mem.cells_ext hm hn (fun a => by simp only [Mem.unlisted, hr, hl]) hb
  · rw [Mem.setBytes_byte, length_toBytes, if_neg (by omega)]
  · rw [Mem.setBytes_byte, length_toBytes, if_pos (by omega), Nat.sub_self, nth_toBytes, if_pos (by omega)]
    simp [byteOf, BitVec.setWidth_eq_extractLsb']

/-! ## Package reset -/

theorem nth_replicate {α : Type} (n : Nat) (x : α) (k : Nat) : nth (List.replicate n x) k x = x := by
  induction n generalizing k with
  | zero => simp
  | succ n ih => cases k <;> simp [List.replicate_succ, ih]
@[simp] theorem State.reset_die (d : Nat) : State.reset.die d = .reset := nth_replicate 9 Die.reset d
@[simp] theorem clk_zero (j : Nat) : clk Clock.zero j = 0 := nth_replicate 9 0 j
theorem State.reset_partAt_dies {p : Nat} (h0 : 0 < p) (h8 : p < 8) : (State.reset.partAt p).dies = 0 :=
  have all : ∀ q : Fin 8, 0 < q.val → (State.reset.partAt q.val).dies = 0 := by decide
  all ⟨p, h8⟩ h0

/-- Settles O58: each register at its reset value, each list of the traffic empty. -/
theorem resetState : Obligations.ResetState := by
  have clocks : ∀ d, d < 9 → ∀ j, j < 9 → clk (State.reset.die d).clock j = 0 ∧ clk (State.reset.die d).applied j = 0 :=
    fun d _ j _ => by rw [State.reset_die]; exact ⟨clk_zero j, clk_zero j⟩
  have dies : ∀ d, d < 9 → (State.reset.die d).wdLimit = 0 ∧ (State.reset.die d).scrubEn = true ∧ (State.reset.die d).scrubLines = 4096
      ∧ (State.reset.die d).clockMHz = 2700 ∧ (∀ p ∈ (State.reset.die d).pins, p.en = false)
      ∧ (∀ f ∈ (State.reset.die d).mig, f.en = false) ∧ (State.reset.die d).jobs = [] := by
    intro d _
    rw [State.reset_die]
    refine ⟨rfl, rfl, rfl, rfl, fun p hp => ?_, fun f hf => ?_, rfl⟩
    · rw [List.eq_of_mem_replicate hp]; rfl
    · rw [List.eq_of_mem_replicate hf]; rfl
  refine ⟨reset_memWf, rfl, rfl, rfl, rfl, rfl, clocks, dies, rfl, rfl, rfl, rfl, rfl, rfl,
    fun m hm => List.eq_of_mem_replicate hm, rfl, fun p => State.reset_partAt_dies, fun _ => rfl, fun _ => rfl,
    fun _ => ⟨rfl, rfl, rfl⟩⟩

end Sys2Proof.Machine
end

section
/-! Package reset, Solnal, power cap and clock steps (00_scope.md R5; 17_translation_errors_links.md R429; 18_fleet_operation.md R440 to
R451). -/

namespace Sys2Proof.Machine

/-! ## Terms of the statements -/

theorem State.calm_of {s t : State} (ht : t.teams = s.teams) (hb : t.blocks = s.blocks) (hm : t.mem = s.mem) : t.calm s :=
  ⟨ht, hb, fun _ => by rw [hm]⟩
theorem nth_eq_getElem? {α : Type} (l : List α) (n : Nat) (d : α) : nth l n d = (l[n]?).getD d := by
  induction l generalizing n with
  | nil => simp
  | cons x r ih => cases n <;> simp [ih]

/-! ## Memory after a reset (R5, log 34) -/

theorem look_filter {α : Type} {k : Nat} {p : Nat × α → Bool} (hp : ∀ v, p (k, v) = true) (l : List (Nat × α)) :
    look k (l.filter p) = look k l := by
  induction l with
  | nil => rfl
  | cons c r ih =>
    obtain ⟨i, v⟩ := c
    by_cases e : i = k
    · subst e; simp [hp, look]
    · by_cases h : p (i, v) = true <;> simp [h, look, e, ih]
theorem Mem.afterReset_unlisted (m : Mem) (free : Nat) {a : Nat} (ha : 2 ^ 40 ≤ a) : (m.afterReset free).unlisted a = m.unlisted a := by
  have hl : (m.afterReset free).looseAt a = m.looseAt a := first_cut 0 (2 ^ 40) a (by omega) m.loose
  have hlt : ¬ a < 2 ^ 40 := by omega
  rw [Mem.unlisted_eq, Mem.unlisted_eq, hl]
  cases m.looseAt a with
  | some c => rfl
  | none => cases hr : m.rehomed <;> simp only [Mem.afterReset, hlt, if_false]
/-- The expander keeps its bytes. -/
theorem Mem.afterReset_byte (m : Mem) (free : Nat) {a : Nat} (ha : 2 ^ 40 ≤ a) : (m.afterReset free).byte a = m.byte a := by
  have hc : look a (m.afterReset free).cells = look a m.cells := look_filter (fun _ => decide_eq_true ha) m.cells
  rw [Mem.byte, Mem.byte, hc, Mem.afterReset_unlisted m free ha]

/-! ## Solnal's history (R449) -/

/-- A history entry changes Solnal alone. -/
theorem State.history_eq (s : State) (e : HistEnt) : s.history e = { s with solnal := (s.history e).solnal } := by
  unfold State.history; dsimp only; split <;> rfl
@[simp] theorem State.history_io (s : State) (e : HistEnt) : (s.history e).io = s.io := by rw [State.history_eq]
@[simp] theorem State.history_dies (s : State) (e : HistEnt) : (s.history e).dies = s.dies := by rw [State.history_eq]
@[simp] theorem State.history_events (s : State) (e : HistEnt) : (s.history e).solnal.events = s.solnal.events := by
  unfold State.history; dsimp only; split <;> rfl
theorem State.history_gap {s : State} (h : s.solnal.gap = true) (e : HistEnt) : (s.history e).solnal.gap = true := by
  unfold State.history; dsimp only; split
  · rfl
  · exact h
theorem State.history_calm (s : State) (e : HistEnt) : (s.history e).calm s := by
  rw [State.history_eq]; exact State.calm_of rfl rfl rfl
theorem State.history_noted (s : State) (e : HistEnt) : Solnal.noted (s.history e).solnal s.solnal e := by
  constructor <;> intro h <;> simp [State.history, h]

/-! ## Package reset (R5, R451) -/

/-- What Solnal holds once the main side is reset: items of the sample that it was reading stay unread. -/
def Solnal.afterReset (v : Solnal) (lost : Bool) (us : List Nat) : Solnal :=
  { v with gap := v.gap || lost, reading := v.reading && !v.on
           sample := v.sample.map (fun x => if v.on && v.reading then { x with unread := us } else x) }
theorem Solnal.cut_eq (v : Solnal) (free : W64) : ∃ us, v.cut free = v.afterReset false us := by
  unfold Solnal.cut Solnal.afterReset
  cases hc : v.on && v.reading with
  | false =>
    have hr : (v.reading && !v.on) = v.reading := by cases hr : v.reading <;> simp_all
    exact ⟨[], by simp [hr]⟩
  | true =>
    have hr : (v.reading && !v.on) = false := by simp_all
    cases hs : v.sample with
    | none => exact ⟨[], by simp [hr]⟩
    | some x => exact ⟨(upTo x.items).filter (bitOf free), by simp [hr]⟩
theorem State.packageReset_solnal (s : State) :
    ∃ us, s.packageReset.solnal = s.solnal.afterReset (decide (s.io.unsaid ≠ [])) us := by
  obtain ⟨us, hus⟩ := Solnal.cut_eq s.solnal (Config.freeWord (s.run.free + 1))
  refine ⟨us, ?_⟩
  unfold State.packageReset
  dsimp only
  rw [hus]
  by_cases hu : s.io.unsaid = [] <;> simp [hu, Solnal.afterReset]
theorem Solnal.afterReset_off {v : Solnal} (h : v.on = false) (lost : Bool) (us : List Nat) :
    v.afterReset lost us = { v with gap := v.gap || lost } := by
  simp [Solnal.afterReset, h]
/-- An entry noted after the reset is one noted in the history before it. -/
theorem Solnal.noted_afterReset {t v : Solnal} {lost : Bool} {us : List Nat} {e : HistEnt} (h : Solnal.noted t (v.afterReset lost us) e) :
    Solnal.noted t v e := by
  obtain ⟨hoff, hon⟩ := h
  refine ⟨fun h => ?_, fun h => hon h⟩
  rw [hoff h, Solnal.afterReset_off h]
theorem State.packageReset_gap {s : State} (h : s.io.unsaid ≠ []) : s.packageReset.solnal.gap = true := by
  obtain ⟨us, hus⟩ := s.packageReset_solnal
  simp [hus, Solnal.afterReset, h]
/-- The entry that an undervoltage leaves after the reset. -/
theorem State.undervoltage_noted (s : State) :
    Solnal.noted (s.packageReset.eventEntry 3 8).solnal s.solnal { time := 0, die := 8, code := Config.eventCode 3, tag := 0, addr := 0 } := by
  obtain ⟨us, hus⟩ := s.packageReset_solnal
  exact Solnal.noted_afterReset (hus ▸ State.history_noted _ _)

/-! ## Clock steps (R445) -/

theorem State.setClock_die (s : State) (m : Nat) {d : Nat} (h8 : d < 8) (hd : d < s.dies.length) :
    (s.setClock m).die d = { s.die d with nextMHz := m } := by
  have ht : d < ((s.dies.take 8).map (fun (x : Die) => { x with nextMHz := m })).length := by
    rw [List.length_map, List.length_take]; omega
  simp only [State.die, State.setClock, nth_eq_getElem?]
  rw [List.getElem?_append_left ht, List.getElem?_map, List.getElem?_take_of_lt h8, List.getElem?_eq_getElem hd]
  rfl
/-- A clock step: the registers of PWRCAP, and the clock that each compute die takes. -/
theorem State.setClock_took (s : State) (m : Nat) :
    (s.setClock m).calm s ∧ (s.setClock m).net = s.net ∧ (s.setClock m).io.mhz = BitVec.ofNat 16 m
      ∧ (s.setClock m).io.throttled = decide (m < 2700)
      ∧ ∀ d, d < 8 → d < s.dies.length → (s.setClock m).die d = { s.die d with nextMHz := m } :=
  ⟨State.calm_of rfl rfl rfl, rfl, rfl, rfl, fun _ h8 hd => s.setClock_die m h8 hd⟩

/-! ## What each event does -/

theorem exec_packageReset (s : State) : exec .packageReset s = .next s.packageReset := rfl
theorem exec_supplyUndervoltage (s : State) : exec .supplyUndervoltage s = .next (s.packageReset.eventEntry 3 8) := rfl
theorem exec_datetimeSet (us : Nat) (s : State) :
    exec (.datetimeSet us) s = .next (if s.solnal.on then { s with solnal := { s.solnal with clock := us } } else s) := rfl
theorem exec_telemetryIntervalSet (ms : Nat) (s : State) : exec (.telemetryIntervalSet ms) s = .next
    (if s.solnal.on && 10 ≤ ms && ms ≤ 10000 && ms % 10 = 0 then { s with solnal := { s.solnal with interval := ms } } else s) := rfl
theorem exec_telemetrySample (power : Nat) (temps : List Nat) (s : State) :
    exec (.telemetrySample power temps) s = execTelemetrySample power temps s := rfl
theorem exec_firmwareUpdate (img : BootImage) (s : State) : exec (.firmwareUpdate img) s = execFirmwareUpdate img s := rfl
theorem exec_powerCapSet (w : Nat) (s : State) : exec (.powerCapSet w) s = .next
    (if s.solnal.on && 1500 ≤ w && w ≤ 3400 then { s with io := { s.io with cap := BitVec.ofNat 16 w } } else s) := rfl
theorem exec_clockStepDown (mean : Nat) (s : State) : exec (.clockStepDown mean) s = .next
    (if s.solnal.on && s.io.cap.toNat < mean then s.setClock (Nat.max 1500 (s.io.mhz.toNat - 100)) else s) := rfl
theorem exec_clockStepUp (mean : Nat) (s : State) : exec (.clockStepUp mean) s = execClockStepUp mean s := rfl

/-- With Solnal off nothing that goes through it happens. -/
theorem exec_of_solnal_off {us ms power watts mean : Nat} {temps : List Nat} {img : BootImage} {i : Instr} {s : State}
    (hoff : s.solnal.on = false)
    (hi : i ∈ [.datetimeSet us, .telemetryIntervalSet ms, .telemetrySample power temps, .firmwareUpdate img, .powerCapSet watts,
      .clockStepDown mean, .clockStepUp mean]) : exec i s = .next s := by
  simp only [List.mem_cons, List.not_mem_nil, or_false] at hi
  rcases hi with rfl | rfl | rfl | rfl | rfl | rfl | rfl
  · simp [exec_datetimeSet, hoff]
  · simp [exec_telemetryIntervalSet, hoff]
  · simp [exec_telemetrySample, execTelemetrySample, hoff]
  · simp [exec_firmwareUpdate, execFirmwareUpdate, hoff]
  · simp [exec_powerCapSet, hoff]
  · simp [exec_clockStepDown, hoff]
  · simp [exec_clockStepUp, execClockStepUp, hoff]

/-- The state that a telemetry sample leaves, and the sample. -/
theorem exec_telemetrySample_on {s : State} (hon : s.solnal.on = true) (power : Nat) (temps : List Nat) :
    ∃ t x, exec (.telemetrySample power temps) s = .next t ∧ t.calm s ∧ t.io = s.io ∧ t.dies = s.dies
      ∧ t.solnal.sample = some x ∧ t.solnal.history = s.solnal.history ∧ t.solnal.clock = s.solnal.clock + 1000 * s.solnal.interval
      ∧ x.time = t.solnal.clock ∧ x.power = power ∧ x.temps = temps ∧ x.ends = s.solnal.ended ∧ x.offline = !s.io.mainOn
      ∧ x.unread = [] ∧ t.solnal.reading = s.io.mainOn
      ∧ (s.io.mainOn = true → x.mhz = some s.io.mhz ∧ x.ctrs = s.dies.map (·.ctr) ∧ x.ports = s.io.ports ∧ x.failed = s.io.xwins.map (·.failed))
      ∧ (s.io.mainOn = false → x.mhz = none ∧ x.ctrs = [] ∧ x.ports = [] ∧ x.failed = [] ∧ x.losts = []) := by
  rw [exec_telemetrySample, execTelemetrySample, if_neg (by simp [hon])]
  refine ⟨_, _, rfl, State.calm_of rfl rfl rfl, rfl, rfl, rfl, rfl, rfl, rfl, rfl, rfl, rfl, rfl, rfl, Bool.not_not _,
    fun hm => ?_, fun hm => ?_⟩ <;> simp [hm]

/-- The flash copy that an update replaces: the one not last accepted (log 35). -/
def State.updated (s : State) : Nat := match s.solnal.accepted with | some k => 1 - k | none => b1 (bitOf s.freeW 0)
theorem State.updated_lt (s : State) : s.updated < 2 := by
  unfold State.updated
  split
  · omega
  · cases bitOf s.freeW 0 <;> simp [b1]
theorem State.updated_ne {s : State} {n : Nat} (h : s.solnal.accepted = some n) : n ≠ s.updated := by
  simp only [State.updated, h]; omega
theorem exec_firmwareUpdate_on {s : State} (hon : s.solnal.on = true) (img : BootImage) : exec (.firmwareUpdate img) s = .next
    { s.useFree with solnal := { s.solnal with flash := setAt s.updated (some img) s.solnal.flash, writing := some s.updated } } := by
  rw [exec_firmwareUpdate, execFirmwareUpdate, if_neg (by simp [hon])]; rfl

/-- The evaluation that finds the cap exceeded at the lowest clock. -/
theorem exec_clockStepUp_critical {s : State} {mean : Nat} (hon : s.solnal.on = true) (hc : 95 * s.io.cap.toNat ≤ 100 * mean)
    (hm : s.io.mhz.toNat = 1500) (hx : s.io.cap.toNat < mean) :
    ∃ t, exec (.clockStepUp mean) s = .next t ∧ t.calm s ∧ t.io = s.io ∧ t.dies = s.dies
      ∧ t.solnal.events.length = s.solnal.events.length + 1 := by
  have hm' : s.io.mhz = 1500 := BitVec.eq_of_toNat_eq hm
  rw [exec_clockStepUp, execClockStepUp]
  simp only [hon, Bool.not_true, Bool.false_eq_true, if_false, Nat.not_lt.2 hc, hm', hx, decide_true, Bool.and_self, if_true]
  refine ⟨_, rfl, State.history_calm _ _, ?_, ?_, ?_⟩ <;> simp [State.eventEntry]
theorem exec_clockStepUp_stays {s : State} {mean : Nat} (hc : 95 * s.io.cap.toNat ≤ 100 * mean)
    (hm : ¬ (s.io.mhz.toNat = 1500 ∧ s.io.cap.toNat < mean)) : exec (.clockStepUp mean) s = .next s := by
  have hm' : (s.io.mhz = 1500 && decide (s.io.cap.toNat < mean)) = false := by
    rw [Bool.eq_false_iff]
    intro h
    obtain ⟨h1, h2⟩ := Bool.and_eq_true_iff.1 h
    exact hm ⟨congrArg BitVec.toNat (of_decide_eq_true h1), of_decide_eq_true h2⟩
  rw [exec_clockStepUp, execClockStepUp]
  simp only [Nat.not_lt.2 hc, if_false, hm', Bool.false_eq_true, ite_self]

/-- What both resets leave, whatever becomes of Solnal. -/
def State.isReset (t s : State) : Prop :=
  t.teams = [] ∧ t.blocks = [] ∧ t.launches = [] ∧ t.cores = [] ∧ t.dies = State.reset.dies ∧ t.sched = State.reset.sched
    ∧ t.net = State.reset.net ∧ t.io = State.reset.io ∧ ∀ a, 2 ^ 40 ≤ a → t.mem.byte a = s.mem.byte a
theorem State.packageReset_isReset (s : State) : s.packageReset.isReset s :=
  ⟨rfl, rfl, rfl, rfl, rfl, rfl, rfl, rfl, fun _ ha => Mem.afterReset_byte _ _ ha⟩
theorem State.isReset_history {t s : State} (h : t.isReset s) (e : HistEnt) : (t.history e).isReset s := by
  rw [State.history_eq]; exact h

/-- Settles O48: a reset sets everything but the expander and Solnal; each request to Solnal changes the one item it names. -/
theorem solnalAndPower : Obligations.SolnalAndPower := by
  refine ⟨fun i s hi => ?_, fun s => ⟨_, rfl, State.calm_of rfl rfl rfl, rfl, rfl⟩,
    fun _ _ _ _ _ _ _ _ s => exec_of_solnal_off, fun s hon => ⟨fun us => ?_, fun ms => ?_, ?_, fun img hf => ?_, fun w => ?_, fun mean => ?_⟩⟩
  · rcases hi with rfl | rfl
    · obtain ⟨ht, hb, hl, hc, hd, hs, hn, hio, hm⟩ := s.packageReset_isReset
      obtain ⟨us, hus⟩ := s.packageReset_solnal
      exact ⟨_, exec_packageReset s, ht, hb, hl, hc, hd, hs, hn, hio, fun _ => ⟨us, hus⟩, State.packageReset_gap, nofun, hm⟩
    · obtain ⟨ht, hb, hl, hc, hd, hs, hn, hio, hm⟩ := State.isReset_history s.packageReset_isReset _
      exact ⟨_, exec_supplyUndervoltage s, ht, hb, hl, hc, hd, hs, hn, hio, nofun,
        fun hu => State.history_gap (State.packageReset_gap hu) _, fun _ => s.undervoltage_noted, hm⟩
  · rw [exec_datetimeSet, if_pos hon]
    exact ⟨_, rfl, State.calm_of rfl rfl rfl, rfl, rfl⟩
  · intro fits
    rw [exec_telemetryIntervalSet]
    constructor <;> intro hf
    · rw [if_neg (by simpa [hon, fits, and_assoc] using hf)]
    · rw [if_pos (by simpa [hon, fits, and_assoc] using hf)]
      exact ⟨_, rfl, State.calm_of rfl rfl rfl, rfl, rfl⟩
  · exact exec_telemetrySample_on hon
  · refine ⟨_, s.updated, exec_firmwareUpdate_on hon img, State.calm_of rfl rfl rfl, rfl, s.updated_lt,
      fun n => State.updated_ne, ?_, rfl, fun j hj => ?_⟩
    · simp [setAt, nth_modAt, hf, s.updated_lt]
    · simp [setAt, nth_modAt, hj]
  · rw [exec_powerCapSet]
    constructor
    · intro hw
      rw [if_neg (by simp; omega)]
    · intro h1 h2
      rw [if_pos (by simp [hon, h1, h2])]
      exact ⟨_, rfl, State.calm_of rfl rfl rfl, rfl⟩
  · intro mhz cap took
    refine ⟨fun hc => ?_, fun hc => ?_, fun hc => ?_, exec_clockStepUp_stays, exec_clockStepUp_critical hon⟩
    · rw [exec_clockStepDown, if_neg (by simpa [hon] using hc)]
    · rw [exec_clockStepDown, if_pos (by simpa [hon] using hc)]
      exact ⟨_, rfl, s.setClock_took _⟩
    · rw [exec_clockStepUp, execClockStepUp, if_neg (by simp [hon]), if_pos hc]
      exact ⟨_, rfl, s.setClock_took _⟩

end Sys2Proof.Machine
end

section
/-! The registers that the driver writes (00_scope.md R4; 03_memory_hierarchy.md R87 to R89; 15_launch_and_scheduling.md R374;
17_translation_errors_links.md R427, R432, R434; 18_fleet_operation.md R443). -/

namespace Sys2Proof.Machine

/-! ## One die changed, one window changed -/

theorem State.modDie_die_same {s : State} {d : Nat} (h : d < s.dies.length) (f : Die → Die) : (s.modDie d f).die d = f (s.die d) := by
  simp [State.die, State.modDie, nth_modAt, h]
theorem State.modDie_die_other {e d : Nat} (h : e ≠ d) (s : State) (f : Die → Die) : (s.modDie d f).die e = s.die e := by
  simp [State.die, State.modDie, nth_modAt, h]
theorem State.modDie_calm (s : State) (d : Nat) (f : Die → Die) : (s.modDie d f).calm s := State.calm_of rfl rfl rfl
theorem State.modDie_otherDies (s : State) (d : Nat) (f : Die → Die) : (s.modDie d f).otherDies s d :=
  fun _ h => State.modDie_die_other h s f
theorem getElem?_modAt {α : Type} (n k : Nat) (f : α → α) (l : List α) :
    (modAt n f l)[k]? = if k = n then l[k]?.map f else l[k]? := by
  induction l generalizing n k with
  | nil => simp [modAt]
  | cons x r ih => cases n <;> cases k <;> simp [modAt, ih]

/-! ## Pinned windows (R87 to R89) -/

/-- The window's fields as a write of its control register has them, before the enable rule. -/
def PinWin.given (x : PinWin) (v : W64) : PinWin := { x with fade0 := v.extractLsb' 24 8, size := v.extractLsb' 8 16 }
theorem State.modPin_pin {s : State} {d n : Nat} (hd : d < s.dies.length) (hn : n < (s.die d).pins.length) (f : PinWin → PinWin) (k : Nat) :
    nth ((s.modPin d n f).die d).pins k .reset = if k = n then f (nth (s.die d).pins n .reset) else nth (s.die d).pins k .reset := by
  rw [State.modPin, State.modDie_die_same hd]
  simp [nth_modAt, hn]
/-- The bytes that the other enabled windows of a die count. -/
def State.otherPins (s : State) (d n : Nat) : Nat :=
  ((upTo 16).zip (s.die d).pins).foldl (fun k z => if z.1 ≠ n && z.2.en then k + z.2.counts s.io.lw.toNat d else k) 0
theorem State.pinEnable_zero {s : State} {d n : Nat} {x : PinWin} (h : x.fade0 = 0) :
    s.pinEnable d n x = { x with en := false, err := true } := by rw [State.pinEnable, if_pos h]
theorem State.pinEnable_over {s : State} {d n : Nat} {x : PinWin} (h : x.fade0 ≠ 0)
    (hx : 96 * 2 ^ 20 < s.otherPins d n + x.counts s.io.lw.toNat d) :
    s.pinEnable d n x = { x with en := false, err := true, fade := x.fade0 } := by
  rw [State.pinEnable, if_neg h]; exact if_pos hx
theorem State.pinEnable_fits {s : State} {d n : Nat} {x : PinWin} (h : x.fade0 ≠ 0)
    (hx : s.otherPins d n + x.counts s.io.lw.toNat d ≤ 96 * 2 ^ 20) :
    s.pinEnable d n x = { x with en := true, err := false, fade := x.fade0 } := by
  rw [State.pinEnable, if_neg h]; exact if_neg (Nat.not_lt.2 hx)
theorem exec_pinWindowEnable {d : Nat} (h : d < 8) (n : Nat) (v : W64) (s : State) :
    exec (.pinWindowEnable d n v) s = .next (s.modPin d n (fun _ =>
      if bitOf v 0 then s.pinEnable d n ((nth (s.die d).pins n .reset).given v)
      else { (nth (s.die d).pins n .reset).given v with en := false, err := false })) := by
  show Host.Outcome.next (if d < 8 then _ else s) = _
  rw [if_pos h]; rfl

/-! ## Home interleave, expander windows, counters (R427, R434, R443) -/

theorem exec_homecfgWrite (v : W64) (s : State) : exec (.homecfgWrite v) s = .next (s.homeWrite v) := rfl
theorem State.homeWrite_locked {s : State} (h : s.io.lock = true) (v : W64) : s.homeWrite v = s := by
  rw [State.homeWrite, if_pos h]
/-- Without a lock: the teams and blocks stay, the expander keeps its bytes, and HBM is lost only where LW changes. -/
theorem State.homeWrite_open {s : State} (h : s.io.lock = false) (v : W64) :
    (s.homeWrite v).teams = s.teams ∧ (s.homeWrite v).blocks = s.blocks ∧ (s.homeWrite v).io.lock = bitOf v 63
      ∧ (s.homeWrite v).io.lw = v.extractLsb' 0 2 ∧ (∀ a, 2 ^ 40 ≤ a → (s.homeWrite v).mem.byte a = s.mem.byte a)
      ∧ (v.extractLsb' 0 2 = s.io.lw → (s.homeWrite v).mem = s.mem) := by
  rw [State.homeWrite, if_neg (by simp [h])]
  dsimp only
  by_cases hw : v.extractLsb' 0 2 = s.io.lw
  · rw [if_pos hw]
    exact ⟨rfl, rfl, rfl, rfl, fun _ _ => rfl, fun _ => rfl⟩
  · rw [if_neg hw]
    exact ⟨rfl, rfl, rfl, rfl, fun _ ha => Mem.afterReset_byte _ _ ha, fun h => absurd h hw⟩
theorem exec_xwinEnable (n : Nat) (v : W64) (s : State) : exec (.xwinEnable n v) s = .next (s.xwinWrite n v) := rfl
theorem State.xwinWrite_xwin (s : State) (n : Nat) (v : W64) (k : Nat) : ((s.xwinWrite n v).io.xwins.drop k).head?
    = if k = n then (s.io.xwins.drop k).head?.map (fun x => { port := v.extractLsb' 1 2, en := bitOf v 0, failed := x.failed && !bitOf v 0 })
      else (s.io.xwins.drop k).head? := by
  simp only [List.head?_drop, State.xwinWrite, getElem?_modAt]
theorem Counters.get_clear_same (c : Counters) : ∀ {n : Nat}, n < 10 → (c.clear n).get n = 0
  | 0, _ | 1, _ | 2, _ | 3, _ | 4, _ | 5, _ | 6, _ | 7, _ | 8, _ | 9, _ => rfl
  | n + 10, h => absurd h (by omega)
/-- Each counter is a field of its own. -/
theorem Counters.get_clear_other (c : Counters) {n k : Nat} (h : k ≠ n) : (c.clear n).get k = c.get k := by
  unfold Counters.clear
  split <;> unfold Counters.get <;> split <;> simp_all
theorem exec_telemetryCounterClear {d n : Nat} (h : n < 7 ∨ 8 ≤ d) (s : State) :
    exec (.telemetryCounterClear d n) s = .next (s.modDie d (fun x => { x with ctr := x.ctr.clear n })) := by
  show Host.Outcome.next (if (decide (d < 8) && decide (6 < n)) = true then s else _) = _
  rw [if_neg (by simp; omega)]

/-! ## The fields of a word -/

/-- A field kept in its place is the word under the field's mask. -/
theorem field_mask (v : W64) (lo w : Nat) : w64 (bits v lo w * 2 ^ lo) = v &&& w64 ((2 ^ w - 1) * 2 ^ lo) := by
  apply BitVec.eq_of_getLsbD_eq
  intro i hi
  simp only [w64, bits, fieldN, BitVec.getLsbD_and, BitVec.getLsbD_ofNat, hi, decide_true, Bool.true_and, Nat.testBit_mul_two_pow,
    Nat.testBit_mod_two_pow, Nat.testBit_div_two_pow, Nat.testBit_two_pow_sub_one]
  by_cases h : lo ≤ i
  · simp only [h, decide_true, Bool.true_and, Nat.sub_add_cancel]
    exact Bool.and_comm _ _
  · simp [h]
theorem w64_extract (v : W64) (w : Nat) : w64 (v.extractLsb' 0 w).toNat = v &&& w64 (2 ^ w - 1) := by
  have h := field_mask v 0 w
  simpa [bits, fieldN, BitVec.extractLsb'_toNat] using h
/-- Two fields without a bit in common. -/
theorem two_fields (v : W64) {lo w lo' w' : Nat} (h : w64 ((2 ^ w - 1) * 2 ^ lo) &&& w64 ((2 ^ w' - 1) * 2 ^ lo') = 0) :
    w64 (bits v lo w * 2 ^ lo + bits v lo' w' * 2 ^ lo') = v &&& (w64 ((2 ^ w - 1) * 2 ^ lo) ||| w64 ((2 ^ w' - 1) * 2 ^ lo')) := by
  have hs : w64 (bits v lo w * 2 ^ lo + bits v lo' w' * 2 ^ lo') = w64 (bits v lo w * 2 ^ lo) + w64 (bits v lo' w' * 2 ^ lo') :=
    BitVec.ofNat_add ..
  have hd : (v &&& w64 ((2 ^ w - 1) * 2 ^ lo)) &&& (v &&& w64 ((2 ^ w' - 1) * 2 ^ lo')) = 0 := by
    rw [BitVec.and_assoc, ← BitVec.and_assoc _ v, BitVec.and_comm _ v, BitVec.and_assoc v, h]; simp
  rw [hs, field_mask, field_mask, BitVec.add_eq_or_of_and_eq_zero _ _ hd, BitVec.and_or_distrib_left]
theorem b1_bitOf {n : Nat} (v : BitVec n) (i : Nat) : b1 (bitOf v i) = bits v i 1 := by
  rw [bits, fieldN, bitOf, b1, BitVec.getLsbD, Nat.testBit_eq_decide_div_mod_eq]
  have h : v.toNat / 2 ^ i % 2 < 2 := Nat.mod_lt _ (by omega)
  split <;> simp_all
/-- PHASE, ARRIVED and PENDING of a gate, as one word. -/
theorem gate_word (v : W64) :
    w64 ((v.extractLsb' 32 16).toNat * 2 ^ 32 + (v.extractLsb' 16 16).toNat * 2 ^ 16 + (v.extractLsb' 0 16).toNat) = v &&& 0xFFFFFFFFFFFF#64 := by
  have h : (v.extractLsb' 32 16).toNat * 2 ^ 32 + (v.extractLsb' 16 16).toNat * 2 ^ 16 + (v.extractLsb' 0 16).toNat
      = (v.extractLsb' 0 48).toNat := by
    simp only [BitVec.extractLsb'_toNat, Nat.shiftRight_eq_div_pow]; omega
  rw [h, w64_extract]; rfl


/-! ## Control blocks (R374) -/

theorem regionOf_control {d o : Nat} (hd : d < 9) (ho : o < 2 ^ 24) : regionOf (2 ^ 41 + d * 2 ^ 24 + o) = .control := by
  unfold regionOf
  rw [if_neg (by omega), if_neg (by simp; omega), if_neg (by simp; omega), if_pos (by simp; omega)]
theorem controlBlock_div_mod {d o : Nat} (ho : o < 2 ^ 24) : (2 ^ 41 + d * 2 ^ 24 + o - 2 ^ 41) / 2 ^ 24 = d ∧ (2 ^ 41 + d * 2 ^ 24 + o) % 2 ^ 24 = o := by
  omega
/-- The offsets that every block gives its die's own registers, on the I/O die too. -/
abbrev dieOffset (o : Nat) : Prop := 0x3000 ≤ o ∧ o < 0x4000 ∧ o % 8 = 0
/-- An offset of the I/O die's own registers. -/
abbrev ioOffset (o : Nat) : Prop := ¬ (0x3000 ≤ o ∧ o < 0x4000) ∧ o < 2 ^ 24 ∧ o % 8 = 0
theorem exec_registerWrite_die {d o : Nat} (hd : d < 9) (ho : dieOffset o) (v : W64) (s : State) :
    exec (.registerWrite (2 ^ 41 + d * 2 ^ 24 + o) v) s = .next (s.dieWrite d o v) := by
  obtain ⟨hlo, hhi, ha⟩ := ho
  obtain ⟨hb, hm⟩ := controlBlock_div_mod (d := d) (o := o) (by omega)
  show Host.Outcome.next (if regionOf _ = .control then State.regWrite s _ v else s) = _
  rw [if_pos (regionOf_control hd (by omega)), State.regWrite, hb, hm]
  by_cases h8 : d = 8 <;> simp [ha, h8, hlo, hhi]
theorem State.regRead_die {d o : Nat} (ho : dieOffset o) (s : State) : s.regRead (2 ^ 41 + d * 2 ^ 24 + o) = s.dieRead d o := by
  obtain ⟨hlo, hhi, ha⟩ := ho
  obtain ⟨hb, hm⟩ := controlBlock_div_mod (d := d) (o := o) (by omega)
  rw [State.regRead, hb, hm]
  by_cases h8 : d = 8 <;> simp [ha, h8, hlo, hhi]
theorem exec_registerWrite_io {o : Nat} (ho : ioOffset o) (v : W64) (s : State) :
    exec (.registerWrite (2 ^ 41 + 8 * 2 ^ 24 + o) v) s = .next (s.ioWrite o v) := by
  obtain ⟨hn, hhi, ha⟩ := ho
  obtain ⟨hb, hm⟩ := controlBlock_div_mod (d := 8) (o := o) hhi
  show Host.Outcome.next (if regionOf _ = .control then State.regWrite s _ v else s) = _
  rw [if_pos (regionOf_control (by omega) hhi), State.regWrite, hb, hm]
  rw [if_neg (by simp [ha]), if_pos rfl, if_neg (by simpa using hn)]
theorem State.regRead_io {o : Nat} (ho : ioOffset o) (s : State) : s.regRead (2 ^ 41 + 8 * 2 ^ 24 + o) = s.ioRead o := by
  obtain ⟨hn, hhi, ha⟩ := ho
  obtain ⟨hb, hm⟩ := controlBlock_div_mod (d := 8) (o := o) hhi
  rw [State.regRead, hb, hm]
  rw [if_neg (by simp [ha]), if_pos rfl, if_neg (by simpa using hn)]
theorem exec_registerWrite_not {pa : Nat} (h : regionOf pa ≠ .control ∨ pa % 8 ≠ 0) (v : W64) (s : State) :
    exec (.registerWrite pa v) s = .next s := by
  show Host.Outcome.next (if regionOf pa = .control then s.regWrite pa v else s) = _
  by_cases hr : regionOf pa = .control
  · have ha : pa % 2 ^ 24 % 8 ≠ 0 := by have := h.resolve_left (fun n => n hr); omega
    rw [if_pos hr, State.regWrite, if_pos ha]
  · rw [if_neg hr]

/-! ## Registers that software owns -/

/-- A register of a die that a write sets and a read gives back under a mask. -/
theorem dieRegister {d o : Nat} {m v : W64} {s : State} {f : Die → Die} {get : Die → W64} (hd : d < 9) (hl : d < s.dies.length)
    (ho : dieOffset o) (hw : s.dieWrite d o v = s.modDie d f) (hr : ∀ t : State, t.dieRead d o = get (t.die d))
    (hm : get (f (s.die d)) = v &&& m) :
    ∃ t, exec (.registerWrite (2 ^ 41 + d * 2 ^ 24 + o) v) s = .next t ∧ t.calm s ∧ t.otherDies s d
      ∧ t.regRead (2 ^ 41 + d * 2 ^ 24 + o) = v &&& m :=
  ⟨_, by rw [exec_registerWrite_die hd ho, hw], s.modDie_calm d f, s.modDie_otherDies d f, by
    rw [State.regRead_die ho, hr, State.modDie_die_same hl, hm]⟩
/-- A register of the I/O die, likewise. -/
theorem ioRegister {o : Nat} {m v : W64} {s : State} {io : Io} {get : Io → W64} (ho : ioOffset o)
    (hw : s.ioWrite o v = { s with io := io }) (hr : ∀ t : State, t.ioRead o = get t.io) (hm : get io = v &&& m) :
    ∃ t, exec (.registerWrite (2 ^ 41 + 8 * 2 ^ 24 + o) v) s = .next t ∧ t.calm s ∧ t.dies = s.dies
      ∧ t.regRead (2 ^ 41 + 8 * 2 ^ 24 + o) = v &&& m :=
  ⟨{ s with io := io }, by rw [exec_registerWrite_io ho, hw], State.calm_of rfl rfl rfl, rfl, by rw [State.regRead_io ho, hr]; exact hm⟩
theorem State.ioWrite_gate (s : State) {g : Nat} (h : g < 4096) (v : W64) : s.ioWrite (0x10000 + 8 * g) v
    = s.setGate g { s.gateAt g with phase := v.extractLsb' 32 16, arr := v.extractLsb' 16 16, pend := v.extractLsb' 0 16 } := by
  have hg : (0x10000 + 8 * g - 0x10000) / 8 = g := by omega
  simp only [State.ioWrite, Bool.and_eq_true, decide_eq_true_eq]
  repeat rw [if_neg (by omega)]
  rw [if_pos (by omega), hg]
theorem State.ioRead_gate (s : State) {g : Nat} (h : g < 4096) : s.ioRead (0x10000 + 8 * g)
    = w64 ((s.gateAt g).phase.toNat * 2 ^ 32 + (s.gateAt g).arr.toNat * 2 ^ 16 + (s.gateAt g).pend.toNat) := by
  have hg : (0x10000 + 8 * g - 0x10000) / 8 = g := by omega
  simp only [State.ioRead, Bool.and_eq_true, decide_eq_true_eq]
  repeat rw [if_neg (by omega)]
  rw [if_pos (by omega), hg]
theorem State.ioWrite_route (s : State) {k : Nat} (h : k < 4096) (v : W64) :
    s.ioWrite (0x100000 + 8 * k) v = { s with io := s.io.setRoute k v } := by
  have hk : (0x100000 + 8 * k - 0x100000) / 8 = k := by omega
  simp only [State.ioWrite, Bool.and_eq_true, decide_eq_true_eq]
  repeat rw [if_neg (by omega)]
  rw [if_pos (by omega), hk]
theorem State.ioRead_route (s : State) {k : Nat} (h : k < 4096) : s.ioRead (0x100000 + 8 * k) = s.io.route k := by
  have hk : (0x100000 + 8 * k - 0x100000) / 8 = k := by omega
  simp only [State.ioRead, Bool.and_eq_true, decide_eq_true_eq]
  repeat rw [if_neg (by omega)]
  rw [if_pos (by omega), hk]
theorem State.gateAt_setGate (s : State) (g k : Nat) (x : Gate) : (s.setGate g x).gateAt k = if k = g then x else s.gateAt k := by
  unfold State.gateAt State.setGate
  simp only [look_place]
  split <;> rfl
/-- An entry that reads as zero is not listed. -/
theorem Io.route_setRoute (io : Io) (k : Nat) (v : W64) : (io.setRoute k v).route k = v &&& 0x800000000000000F#64 := by
  have hw : w64 (2 ^ 63 * b1 (bitOf v 63) + (v.extractLsb' 0 4).toNat) = v &&& 0x800000000000000F#64 := by
    have hp : (v.extractLsb' 0 4).toNat = bits v 0 4 * 2 ^ 0 := by simp [bits, fieldN, BitVec.extractLsb'_toNat]
    rw [b1_bitOf, hp, Nat.mul_comm, two_fields v (by decide)]; rfl
  rw [Io.setRoute, Io.route]
  by_cases hz : (bitOf v 63 || decide (v.extractLsb' 0 4 ≠ 0)) = true
  · rw [if_pos hz, look_place_same]; exact hw
  · obtain ⟨hv, hport⟩ : bitOf v 63 = false ∧ v.extractLsb' 0 4 = 0 := by simpa using hz
    rw [if_neg hz, look_drop_same, ← hw, hv, hport]; rfl

/-- Settles O46: the enable rule of a window field by field, and the value of each register after a write of it. -/
theorem driverRegisters : Obligations.DriverRegisters := by
  refine ⟨fun d n v s h8 hd hn => ?_, fun v s => ⟨fun hl => ?_, fun hl => ?_⟩, fun n v x s hx => ?_, fun d n s hd hn hc => ?_, fun v s =>
    ⟨fun pa => fun h => exec_registerWrite_not h v s, fun d o m hd hl hom => ?_, fun o m hom => ?_, fun g hg => ?_, fun k hk => ?_⟩⟩
  · intro x y lw others
    have pins := fun f k => s.modPin_pin hd hn f k
    refine ⟨_, exec_pinWindowEnable h8 n v s, s.modDie_calm d _, s.modDie_otherDies d _, fun k hk => ?_, ?_⟩
    · rw [pins, if_neg hk]
    · rw [pins, if_pos rfl]
      refine ⟨fun hb => ?_, fun hb h0 => ?_, fun hb h0 hx => ?_, fun hb h0 hx => ?_⟩
      · rw [hb]; rfl
      · rw [hb, if_pos rfl]; exact State.pinEnable_zero h0
      · rw [hb, if_pos rfl]; exact State.pinEnable_over h0 hx
      · rw [hb, if_pos rfl]; exact State.pinEnable_fits h0 hx
  · rw [exec_homecfgWrite, State.homeWrite_locked hl]
  · exact ⟨_, exec_homecfgWrite v s, State.homeWrite_open hl v⟩
  · refine ⟨_, exec_xwinEnable n v s, State.calm_of rfl rfl rfl, fun k hk => ?_, ?_⟩
    · rw [State.xwinWrite_xwin, if_neg hk]
    · rw [State.xwinWrite_xwin, if_pos rfl, hx]; rfl
  · refine ⟨_, exec_telemetryCounterClear hc s, s.modDie_calm d _, s.modDie_otherDies d _, ?_⟩
    rw [State.modDie_die_same hd]
    exact ⟨Counters.get_clear_same _ hn, fun k hk => Counters.get_clear_other _ hk⟩
  · simp only [List.mem_cons, Prod.mk.injEq, List.not_mem_nil, or_false] at hom
    rcases hom with ⟨rfl, rfl⟩ | ⟨rfl, rfl⟩ | ⟨rfl, rfl⟩
    · exact dieRegister (get := fun x => w64 x.wdLimit.toNat) hd hl (by decide) rfl (fun _ => rfl) (w64_extract v 32)
    · exact dieRegister (get := fun x => x.wd.base) hd hl (by decide) rfl (fun _ => rfl) (field_mask v 12 40)
    · exact dieRegister (get := fun x => x.er.base) hd hl (by decide) rfl (fun _ => rfl) (field_mask v 14 38)
  · simp only [List.mem_cons, Prod.mk.injEq, List.not_mem_nil, or_false] at hom
    rcases hom with ⟨rfl, rfl⟩ | ⟨rfl, rfl⟩ | ⟨rfl, rfl⟩
    · exact ioRegister (get := fun io => w64 io.fabid.toNat) (by decide) rfl (fun _ => rfl) (w64_extract v 10)
    · exact ioRegister (get := fun io => w64 io.fabto.toNat) (by decide) rfl (fun _ => rfl) (w64_extract v 32)
    · exact ioRegister (get := fun io => w64 io.xto.toNat) (by decide) rfl (fun _ => rfl) (w64_extract v 32)
  · have ho : ioOffset (0x10000 + 8 * g) := by unfold ioOffset; omega
    rw [Nat.add_assoc (2 ^ 41 + 8 * 2 ^ 24), exec_registerWrite_io ho, s.ioWrite_gate hg]
    refine ⟨_, rfl, State.calm_of rfl rfl rfl, fun k hk => ?_, ?_⟩
    · rw [State.gateAt_setGate, if_neg hk]
    · rw [State.regRead_io ho, State.ioRead_gate _ hg, State.gateAt_setGate, if_pos rfl, gate_word]
  · have ho : ioOffset (0x100000 + 8 * k) := by unfold ioOffset; omega
    rw [Nat.add_assoc (2 ^ 41 + 8 * 2 ^ 24), exec_registerWrite_io ho, s.ioWrite_route hk]
    refine ⟨_, rfl, State.calm_of rfl rfl rfl, ?_⟩
    rw [State.regRead_io ho, State.ioRead_route _ hk, Io.route_setRoute]

end Sys2Proof.Machine
end

section
/-! Host cores and PCIe requesters (00_scope.md R1; 03_memory_hierarchy.md R76; 04_ordering_and_visibility.md R132, Table 04.7;
17_translation_errors_links.md R436). -/

namespace Sys2Proof.Machine

/-! ## What the device keeps of a host core -/

theorem State.hostAt_setHost (s : State) (k j : Nat) (h : HostCore) : (s.setHost k h).hostAt j = if j = k then h else s.hostAt j := by
  unfold State.hostAt State.setHost
  simp only [look_place]
  split <;> rfl
@[simp] theorem State.loaded_last (s : State) (k : Nat) (v : W64) (st : Clock) : ((s.loaded k v st).hostAt k).last = v := by
  simp [State.loaded, State.hostAt_setHost]
theorem State.loaded_hostAt_other {k j : Nat} (h : j ≠ k) (s : State) (v : W64) (st : Clock) :
    (s.loaded k v st).hostAt j = s.hostAt j := by
  simp [State.loaded, State.hostAt_setHost, h]

/-! ## A read by a host core or a PCIe requester -/

/-- The machine without its dies and the host caches, which are all that a read of memory changes. -/
def State.butCaches (s : State) : State := { s with dies := [], io := { s.io with hostCache := [] } }
theorem State.touchL2_butCaches (s : State) (pa o : Nat) (w : Bool) : (s.touchL2 pa o w).butCaches = s.butCaches := by
  unfold State.touchL2; split <;> rfl
theorem State.calm_of_butCaches {s t : State} (h : t.butCaches = s.butCaches) : t.calm s :=
  State.calm_of (congrArg (·.teams) h :) (congrArg (·.blocks) h :) (congrArg (·.mem) h :)
theorem State.net_of_butCaches {s t : State} (h : t.butCaches = s.butCaches) : t.net = s.net := (congrArg (·.net) h :)
theorem State.mem_of_butCaches {s t : State} (h : t.butCaches = s.butCaches) : t.mem = s.mem := (congrArg (·.mem) h :)
theorem State.pcieOut_of_butCaches {s t : State} (h : t.butCaches = s.butCaches) : t.io.pcieOut = s.io.pcieOut :=
  (congrArg (·.io.pcieOut) h :)
theorem State.hostAt_of_butCaches {s t : State} (h : t.butCaches = s.butCaches) (k : Nat) : t.hostAt k = s.hostAt k :=
  (congrArg (·.hostAt k) h :)

/-- The byte that a read finds: in the host caches, where it may look there, else at its home. -/
def State.hostByte (s : State) (cached : Bool) (a : Nat) : Byte :=
  ((if cached then s.hostLine a else none).map (fun l => byteOf l.data (a % 128))).getD (s.mem.byte a)
/-- A byte that has to come from its home. -/
def State.hostMisses (s : State) (cached : Bool) (a : Nat) : Bool := !cached || (s.hostLine a).isNone
/-- No earlier store of the requester stands in the way of a read of bytes. -/
def State.hostQuiet (s : State) (stream pa n : Nat) : Prop :=
  (∀ w ∈ s.net.writes, w.stream ≠ some stream) ∧ s.hostOwnOut pa n = false

/-- A read that nothing stands in the way of and whose homes serve what the caches lack: its bytes, and a machine that differs in dies
and host caches alone; not even there when the caches hold every byte. -/
theorem State.hostRead_served {s : State} {stream pa n upto : Nat} {cached : Bool} {ck : Clock} (hq : s.hostQuiet stream pa n)
    (hs : ∀ a ∈ from_ pa n, s.hostMisses cached a = true → s.homeServes 8 ck upto a 1 = true) :
    ∃ st t, s.hostRead stream pa n cached upto ck = some ((from_ pa n).map (s.hostByte cached), st, t) ∧ t.butCaches = s.butCaches
      ∧ ((∀ a ∈ from_ pa n, s.hostMisses cached a = false) → t = s) := by
  obtain ⟨hw, ho⟩ := hq
  have hown : (s.net.writes.any (fun w => decide (w.stream = some stream) && bodyHits w.body pa n) || s.hostOwnOut pa n) = false := by
    rw [ho, Bool.or_false, List.any_eq_false]
    intro w hw'
    simp [hw w hw']
  have hfar : ((from_ pa n).filter (fun a => !cached || (s.hostLine a).isNone)).all (fun a => s.homeServes 8 ck upto a 1) = true := by
    rw [List.all_eq_true]
    intro a ha
    obtain ⟨ha1, ha2⟩ := List.mem_filter.1 ha
    exact hs a ha1 ha2
  unfold State.hostRead
  dsimp only
  rw [hown, hfar, Bool.not_true, Bool.or_false, if_neg Bool.false_ne_true]
  refine ⟨_, _, congrArg some (Prod.ext ?_ rfl), ?_, fun hnone => ?_⟩
  · rw [List.map_map]
    refine List.map_congr_left (fun a _ => ?_)
    dsimp only [State.hostByte, Function.comp]
    cases (if cached then s.hostLine a else none) <;> rfl
  · refine foldl_same State.butCaches _ (fun b l => ?_) _ s
    split
    · exact State.touchL2_butCaches ..
    · exact State.touchL2_butCaches ..
  · have hf : (from_ pa n).filter (fun a => !cached || (s.hostLine a).isNone) = [] :=
      List.filter_eq_nil_iff.2 (fun a ha => Bool.eq_false_iff.1 (hnone a ha))
    rw [hf]; rfl
theorem State.hostRead_homes {s : State} {stream pa n upto : Nat} {cached : Bool} {ck : Clock} (hq : s.hostQuiet stream pa n)
    (hs : ∀ a ∈ from_ pa n, s.homeServes 8 ck upto a 1 = true) (hc : ∀ a ∈ from_ pa n, cached = true → s.hostLine a = none) :
    ∃ st t, s.hostRead stream pa n cached upto ck = some (s.mem.bytes pa n, st, t) ∧ t.butCaches = s.butCaches := by
  obtain ⟨st, t, hr, ht, -⟩ := State.hostRead_served hq (fun a ha _ => hs a ha)
  refine ⟨st, t, hr.trans (congrArg (fun bs => some (bs, st, t)) (List.map_congr_left fun a ha => ?_)), ht⟩
  cases hcached : cached with
  | false => rfl
  | true => simp [State.hostByte, hc a ha hcached]
/-- Every byte in the host caches: no home is asked. -/
theorem State.hostRead_hits {s : State} {stream pa n upto : Nat} {ck : Clock} {lines : Nat → RdcLine} (hq : s.hostQuiet stream pa n)
    (hc : ∀ a ∈ from_ pa n, s.hostLine a = some (lines a)) :
    ∃ st, s.hostRead stream pa n true upto ck = some ((from_ pa n).map (fun a => byteOf (lines a).data (a % 128)), st, s) := by
  have hm : ∀ a ∈ from_ pa n, s.hostMisses true a = false := fun a ha => by simp [State.hostMisses, hc a ha]
  obtain ⟨st, t, hr, -, ht⟩ := State.hostRead_served (cached := true) (upto := upto) (ck := ck) hq
    (fun a ha h => absurd h (by simp [hm a ha]))
  rw [ht hm] at hr
  refine ⟨st, hr.trans (congrArg (fun bs => some (bs, st, s)) (List.map_congr_left fun a ha => ?_))⟩
  simp [State.hostByte, hc a ha]

/-! ## Loads -/

theorem State.ownWindow_false {s : State} {pa : Nat} : s.ownWindow pa = false ↔ s.hostPa pa = pa := by simp [State.ownWindow]
theorem exec_hostCoreAccess (k : Nat) (op : HostOp) (s : State) : exec (.hostCoreAccess k op) s = execHostCoreAccess k op s := rfl
theorem hostCores_not_le {k : Nat} (hk : k < 64) : ¬ Config.hostCores ≤ k := Nat.not_le.2 hk
theorem exec_hostLoad {k : Nat} (hk : k < 64) (pa n : Nat) (s : State) : exec (.hostCoreAccess k (.load pa n)) s = s.hostLoad k pa n := by
  rw [exec_hostCoreAccess, execHostCoreAccess, if_neg (hostCores_not_le hk)]
theorem exec_hostStore {k : Nat} (hk : k < 64) (pa n : Nat) (v : W64) (s : State) :
    exec (.hostCoreAccess k (.store pa n v)) s = s.hostWrite k pa n v := by
  rw [exec_hostCoreAccess, execHostCoreAccess, if_neg (hostCores_not_le hk)]
theorem State.hostLoad_mem {s t : State} {k pa n : Nat} {bs : List Byte} {st : Clock} (hm : s.hostAtPa (s.hostPa pa) n = .mem)
    (hp : s.poisoned (s.hostPa pa) n = false)
    (hr : s.hostRead (hostStream k) (s.hostPa pa) n (!s.ownWindow pa) s.uid (s.die 8).clock = some (bs, st, t)) :
    s.hostLoad k pa n = .next ((if s.ownWindow pa then t.hostDrop (s.hostPa pa) n else t).loaded k (w64 (ofBytes bs)) st) := by
  simp only [State.hostLoad, hm, hr, hp, Bool.false_eq_true, if_false]
theorem State.hostDrop_gone (s : State) {pa n : Nat} {l : RdcLine} (hl : l ∈ (s.hostDrop pa n).io.hostCache) {a : Nat} (h1 : pa ≤ a)
    (h2 : a < pa + n) : l.line ≠ a / 128 := by
  have h := (List.mem_filter.1 hl).2
  simp only [Bool.or_eq_true, decide_eq_true_eq] at h
  omega

/-! ## AMOs -/

theorem State.queueWrite_butCaches (s : State) (w : WBody) : (s.queueWrite w).butCaches = s.butCaches :=
  foldl_same State.butCaches _ (fun _ _ => by split <;> rfl) w.pieces s
/-- An AMO of one access applied at its home, after which no host cache holds its line. -/
def State.hostApply (s : State) (f : Option AtomOp) (pa n : Nat) (v c : W64) (ck : Clock) : State :=
  let t := (s.atomWord f n pa [(0, v, c)] ck 0 none).2
  { t with io := { t.io with hostCache := t.io.hostCache.filter (fun l => l.line ≠ pa / 128) } }
/-- What a word holds after one access. -/
def atomNew (f : Option AtomOp) (n : Nat) (old v c : W64) : List Byte := toBytes n (atomLast old (atomRun f n old [(0, v, c)]))
theorem State.hostApply_quiet (s : State) (f : Option AtomOp) (pa n : Nat) (v c : W64) (ck : Clock) :
    (s.hostApply f pa n v c ck).teams = s.teams ∧ (s.hostApply f pa n v c ck).blocks = s.blocks := by
  obtain ⟨ht, hb, -⟩ := State.calm_of_butCaches (State.queueWrite_butCaches (s.applyBody _ ck 0 none) _)
  exact ⟨ht.trans (State.applyBody_teams ..), hb.trans (State.applyBody_blocks ..)⟩
theorem State.hostApply_byte (s : State) (f : Option AtomOp) (pa n : Nat) (v c : W64) (ck : Clock) (a : Nat) :
    (s.hostApply f pa n v c ck).mem.byte a
      = if pa ≤ a ∧ a < pa + n then nth (atomNew f n (w64 (ofBytes (s.mem.bytes pa n))) v c) (a - pa) 0 else s.mem.byte a := by
  show (State.queueWrite _ _).mem.byte a = _
  rw [State.mem_of_butCaches (State.queueWrite_butCaches _ _), State.applyBody_byte, piecesOf_byte, length_toBytes]
  rfl
/-- Nothing at its home holds an aligned AMO outside (R421, log 29). -/
structure State.hostMayApply (s : State) (k pa n : Nat) : Prop where
  size : n ≠ 0
  aligned : pa % n = 0
  unlocked : s.memLocked (pa / 32) none = false
  free : s.poundHolds (s.homeOf pa) pa = false
  alone : (s.pound (s.homeOf pa) (poundSlice pa)).any (fun y => y.sector = pa / 32) = false
  unparked : (s.hostAt k).amo = none
theorem State.hostAmo_mem {s t : State} {k pa n : Nat} {f : Option AtomOp} {v c : W64} {bs : List Byte} {st : Clock}
    (hown : s.ownWindow pa = false) (hm : s.hostAtPa pa n = .mem) (ha : s.hostMayApply k pa n)
    (hw : ∀ w ∈ s.net.writes, w.stream ≠ some (hostStream k)) (hp : t.poisoned pa n = false)
    (hr : s.hostRead (hostStream k) pa n false s.uid (s.die 8).clock = some (bs, st, t)) :
    s.hostAmo k f pa n v c false false = .next ((t.hostApply f pa n v c (s.die 8).clock).loaded k (w64 (ofBytes bs)) st) := by
  obtain ⟨hn, hal, hlock, hfree, halone, hamo⟩ := ha
  obtain ⟨hscrub, hfence⟩ := Bool.or_eq_false_iff.1 hfree
  have hpa := State.ownWindow_false.1 hown
  have hstream : (s.net.writes.any fun w => decide (w.stream = some (hostStream k)) && decide (w.home = 8)) = false := by
    rw [List.any_eq_false]
    intro w hw'
    simp [hw w hw']
  have hrel : s.hostRelease k false = s := rfl
  have hck : s.hostClock k false = (s.uid, (s.die 8).clock) := rfl
  simp only [State.hostAmo, hpa, hm, hrel, hck, hamo, Option.bind_none, ExtPark.at_, State.extHeld, hn, hal, hlock, hscrub, hfence, halone,
    hstream, hr, hp, decide_false, ne_eq, not_true_eq_false, Bool.or_self, Bool.and_false, Bool.false_eq_true, if_false]
  rfl

/-! ## Stores -/

theorem piecesOf_addr {pa : Nat} {bs : List Byte} {p : Piece} (h : p ∈ piecesOf pa bs) :
    pa / 32 ≤ p.addr / 32 ∧ p.addr / 32 ≤ (pa + bs.length - 1) / 32 := by
  unfold piecesOf at h
  dsimp only at h
  by_cases h0 : bs.length = 0
  · simp [h0] at h
  · rw [if_neg h0] at h
    obtain ⟨sec, hs, rfl⟩ := List.mem_map.1 h
    have := (mem_from _ _ _).1 hs
    dsimp only
    omega
theorem piecesOf_ne_nil {pa : Nat} {bs : List Byte} (h : bs.length ≠ 0) : piecesOf pa bs ≠ [] := by
  unfold piecesOf
  dsimp only
  rw [if_neg h, from_]
  simp
theorem sortNat_replicate (c n : Nat) : sortNat (List.replicate (n + 1) c) = [c] := by
  have h : ∀ m, (List.replicate m c).foldl (fun acc k => insertNat k acc) [c] = [c] := by
    intro m
    induction m with
    | zero => rfl
    | succ m ih => simpa [List.replicate_succ, insertNat] using ih
  exact h n
/-- The write that carries a store of one line from die 8. -/
def State.hostLineWrite (s : State) (stream pa : Nat) (bs : List Byte) : NWrite :=
  { id := s.uid, src := 8, home := s.homeOf (128 * (pa / 128)), team := none, ctx := noCtx, stamp := (s.die 8).clock, owner := 0
    body := { pieces := piecesOf pa bs, sides := [] }, commit := false, stream := some stream }
theorem State.hostStore_line (s : State) (stream : Nat) {pa : Nat} {bs : List Byte} (h0 : bs.length ≠ 0) (hl : pa % 128 + bs.length ≤ 128) :
    ∃ c, s.hostStore stream pa bs = (({ s with io := { s.io with hostCache := c } } : State).setNet
      (fun x => { x with writes := x.writes ++ [s.hostLineWrite stream pa bs] })).bump := by
  have hline : ∀ p ∈ piecesOf pa bs, p.addr / 128 = pa / 128 := fun p hp => by
    have := piecesOf_addr hp
    omega
  have hone : sortNat ((piecesOf pa bs).map (fun p => p.addr / 128)) = [pa / 128] := by
    obtain ⟨m, hm⟩ := Nat.exists_eq_succ_of_ne_zero (fun h => piecesOf_ne_nil h0 (List.length_eq_zero_iff.1 h))
    have hrep : (piecesOf pa bs).map (fun p => p.addr / 128) = List.replicate (m + 1) (pa / 128) :=
      List.eq_replicate_iff.2 ⟨by rw [List.length_map, hm], by simpa using hline⟩
    rw [hrep, sortNat_replicate]
  have hall : (piecesOf pa bs).filter (fun p => decide (p.addr / 128 = pa / 128)) = piecesOf pa bs :=
    List.filter_eq_self.2 (fun p hp => decide_eq_true (hline p hp))
  unfold State.hostStore
  dsimp only
  rw [hone, List.foldl_cons, List.foldl_nil, hall]
  exact ⟨_, rfl⟩
/-- The bytes of a store, where the write reaches its home. -/
theorem State.hostLineWrite_byteAt (s : State) (stream pa n : Nat) (v : W64) (a : Nat) (x : Byte) :
    (s.hostLineWrite stream pa (toBytes n v)).body.byteAt a x = if pa ≤ a ∧ a < pa + n then byteOf v (a - pa) else x := by
  show (piecesOf pa (toBytes n v)).foldl _ x = _
  rw [piecesOf_byte, length_toBytes, nth_toBytes]
  by_cases h : pa ≤ a ∧ a < pa + n
  · rw [if_pos h, if_pos h, if_pos (by omega)]
  · rw [if_neg h, if_neg h]

/-! ## Registers, and addresses that nothing answers -/

theorem State.hostAtPa_control {s : State} {pa n : Nat} (h : s.hostAtPa pa n = .control) : regionOf pa = .control := by
  unfold State.hostAtPa at h
  split at h
  case h_1 => cases h
  case h_2 =>
    split at h
    · cases h
    · split at h <;> cases h
  case h_3 => cases h
  case h_4 => assumption
  case h_5 => cases h
theorem State.hostPa_of_control {s : State} {pa : Nat} (h : regionOf pa = .control) : s.hostPa pa = pa := by
  simp only [State.hostPa, h]
theorem State.hostLoad_register {s : State} {pa : Nat} (h : s.hostAtPa pa 8 = .control) (k : Nat) :
    s.hostLoad k pa 8 = .next (s.loaded k (s.regRead pa) .zero) := by
  simp only [State.hostLoad, State.hostPa_of_control (State.hostAtPa_control h), h, if_true]
theorem exec_registerWrite_control {pa : Nat} (h : regionOf pa = .control) (v : W64) (s : State) :
    exec (.registerWrite pa v) s = .next (s.regWrite pa v) := by
  show Host.Outcome.next (if regionOf pa = .control then _ else s) = _
  rw [if_pos h]
theorem State.hostWrite_register {s : State} {pa : Nat} (h : s.hostAtPa pa 8 = .control) (k : Nat) (v : W64) :
    s.hostWrite k pa 8 v = exec (.registerWrite pa v) s := by
  have hr := State.hostAtPa_control h
  rw [exec_registerWrite_control hr]
  simp only [State.hostWrite, State.hostPa_of_control hr, h, if_true]
theorem State.hostAccess_missing {s : State} {pa n : Nat} (h : s.hostAtPa (s.hostPa pa) n = .missing) (k : Nat) (v : W64) :
    s.hostLoad k pa n = .fault (.unmappedHostAccess (s.hostPa pa)) ∧ s.hostWrite k pa n v = .fault (.unmappedHostAccess (s.hostPa pa)) := by
  simp only [State.hostLoad, State.hostWrite, h, and_self]

/-! ## The package's own window -/

theorem State.hostWrite_own {s : State} {pa n : Nat} (hown : s.ownWindow pa = true) (hm : s.hostAtPa (s.hostPa pa) n = .mem) (k : Nat)
    (v : W64) : s.hostWrite k pa n v = .next ((s.hostDrop (s.hostPa pa) n).hostOut pa (toBytes n v)) := by
  simp only [State.hostWrite, hm, hown, if_true]
theorem State.hostWrite_mem {s : State} {pa n : Nat} (hown : s.ownWindow pa = false) (hm : s.hostAtPa pa n = .mem) (k : Nat) (v : W64) :
    s.hostWrite k pa n v = .next (s.hostStore (hostStream k) pa (toBytes n v)) := by
  simp only [State.hostWrite, State.ownWindow_false.1 hown, hm, hown, Bool.false_eq_true, if_false]

/-! ## Fences (Table 04.7) -/

theorem exec_hostFences {k : Nat} (hk : k < 64) (s : State) :
    exec (.hostCoreAccess k .fenceRwW) s = .next (s.increment 8) ∧ exec (.hostCoreAccess k .fenceRRw) s = .next (s.hostAcquire k) := by
  simp only [exec_hostCoreAccess, execHostCoreAccess, if_neg (hostCores_not_le hk), and_self]
/-- A release: the die's own entry of its clock grows, the others stay. -/
theorem State.increment_clk {s : State} {d : Nat} (hd : d < s.dies.length) (hc : d < (s.die d).clock.length) (j : Nat) :
    clk ((s.increment d).die d).clock j = if j = d then clk (s.die d).clock d + 1 else clk (s.die d).clock j := by
  have h : ((s.increment d).die d).clock = modAt d (· + 1) (s.die d).clock :=
    congrArg Die.clock (State.modDie_die_same hd (fun x : Die => { x with clock := modAt d (· + 1) x.clock }))
  rw [h, clk, nth_modAt]
  simp [clk, hc]
theorem State.discardRdc_clock {s : State} (h : 8 < s.dies.length) : ((s.discardRdc 8).die 8).clock = (s.die 8).clock := by
  show ((s.modDie 8 _).die 8).clock = _
  rw [State.modDie_die_same h]
/-- An acquire of a host core: what it has read joins the clock of die 8, and the host caches keep what covers that clock. -/
theorem State.hostAcquire_clock {s : State} (h8 : 8 < s.dies.length) (k : Nat) :
    ((s.hostAcquire k).die 8).clock = joinClk (s.die 8).clock (s.hostAt k).seen :=
  calc ((s.hostAcquire k).die 8).clock
      = ((s.merge 8 (s.hostAt k).seen).die 8).clock := State.discardRdc_clock (by simpa [State.merge, State.modDie] using h8)
    _ = joinClk (s.die 8).clock (s.hostAt k).seen := congrArg Die.clock (State.modDie_die_same h8 _)
theorem State.hostAcquire_cache {s : State} (h8 : 8 < s.dies.length) (k : Nat) (l : RdcLine) :
    l ∈ (s.hostAcquire k).io.hostCache ↔ l ∈ s.io.hostCache ∧ leClk ((s.hostAcquire k).die 8).clock l.stamp = true := by
  have hm : ((s.merge 8 (s.hostAt k).seen).die 8).clock = joinClk (s.die 8).clock (s.hostAt k).seen :=
    congrArg Die.clock (State.modDie_die_same h8 _)
  rw [State.hostAcquire_clock h8, ← hm]
  exact List.mem_filter
theorem State.hostAcquire_seen (s : State) (k : Nat) : ((s.hostAcquire k).hostAt k).seen = .zero := by
  rw [State.hostAcquire, State.hostAt_setHost, if_pos rfl]

/-! ## PCIe (R436) -/

theorem exec_pcieInboundRequest (r : Bool) (op : HostOp) (s : State) :
    exec (.pcieInboundRequest r op) s = execPcieInboundRequest r op s := rfl
/-- Outside every window: Unsupported Request, counted. -/
theorem exec_pcie_refused {s : State} {pa n : Nat} {v : W64} {op : HostOp} (hop : op = .load pa n ∨ op = .store pa n v)
    (h : s.io.pcis.any (fun w => w.holds pa n) = false) (r : Bool) : exec (.pcieInboundRequest r op) s
      = .next ((s.pcieAnswer none).modDie 8 (fun d => { d with ctr := { d.ctr with pcieur := satInc d.ctr.pcieur } })) := by
  rcases hop with rfl | rfl
  · simp only [exec_pcieInboundRequest, execPcieInboundRequest, h, Bool.not_false, if_true]
  · simp only [exec_pcieInboundRequest, execPcieInboundRequest, h, Bool.not_false, if_true]
theorem exec_pcieStore {s : State} {pa n : Nat} (hown : s.ownWindow pa = false) (hm : s.hostAtPa pa n = .mem)
    (h : s.io.pcis.any (fun w => w.holds pa n) = true) (v : W64) :
    exec (.pcieInboundRequest true (.store pa n v)) s = .next (s.hostStore pcieStream pa (toBytes n v)) := by
  simp only [exec_pcieInboundRequest, execPcieInboundRequest, h, Bool.not_true, Bool.false_eq_true, if_false, if_true, State.ownWindow_false.1 hown, hm]
theorem exec_pcieLoad {s t : State} {pa n : Nat} {bs : List Byte} {st : Clock} (hown : s.ownWindow pa = false) (hm : s.hostAtPa pa n = .mem)
    (h : s.io.pcis.any (fun w => w.holds pa n) = true) (hp : s.poisoned pa n = false)
    (hr : s.hostRead pcieStream pa n false s.uid (s.die 8).clock = some (bs, st, t)) :
    exec (.pcieInboundRequest false (.load pa n)) s = .next (t.pcieAnswer (some (w64 (ofBytes bs)))) := by
  simp only [exec_pcieInboundRequest, execPcieInboundRequest, h, Bool.not_true, Bool.false_eq_true, if_false, State.ownWindow_false.1 hown, hm, hr, hp]

/-! ## Together -/

/-- A load whose bytes the homes serve. -/
theorem exec_hostLoad_homes {s : State} {k pa n : Nat} (hk : k < 64) (hm : s.hostAtPa (s.hostPa pa) n = .mem)
    (hp : s.poisoned (s.hostPa pa) n = false) (hq : s.hostQuiet (hostStream k) (s.hostPa pa) n)
    (hs : ∀ a ∈ from_ (s.hostPa pa) n, s.homeServes 8 (s.die 8).clock s.uid a 1 = true)
    (hc : s.ownWindow pa = false → ∀ a ∈ from_ (s.hostPa pa) n, s.hostLine a = none) :
    ∃ (st : Clock) (t : State), t.butCaches = s.butCaches ∧ exec (.hostCoreAccess k (.load pa n)) s
      = .next ((if s.ownWindow pa then t.hostDrop (s.hostPa pa) n else t).loaded k (w64 (ofBytes (s.mem.bytes (s.hostPa pa) n))) st) := by
  obtain ⟨st, t, hr, ht⟩ := State.hostRead_homes (cached := !s.ownWindow pa) hq hs (fun a ha h => hc (by simpa using h) a ha)
  exact ⟨st, t, ht, by rw [exec_hostLoad hk, State.hostLoad_mem hm hp hr]⟩
/-- An AMO, or a compare-and-swap, at its home: the core has the old bytes, and memory the new ones. -/
theorem State.hostAmo_lands {s : State} {k pa n : Nat} {v c : W64} (f : Option AtomOp) (hown : s.ownWindow pa = false)
    (hm : s.hostAtPa pa n = .mem) (ha : s.hostMayApply k pa n) (hp : s.poisoned pa n = false) (hq : s.hostQuiet (hostStream k) pa n)
    (hs : ∀ a ∈ from_ pa n, s.homeServes 8 (s.die 8).clock s.uid a 1 = true) :
    ∃ t, s.hostAmo k f pa n v c false false = .next t ∧ t.teams = s.teams ∧ t.blocks = s.blocks
      ∧ (t.hostAt k).last = w64 (ofBytes (s.mem.bytes pa n))
      ∧ ∀ a, t.mem.byte a = if pa ≤ a ∧ a < pa + n then nth (atomNew f n (w64 (ofBytes (s.mem.bytes pa n))) v c) (a - pa) 0
          else s.mem.byte a := by
  obtain ⟨st, t, hr, ht⟩ := State.hostRead_homes (cached := false) hq hs nofun
  have hmem := State.mem_of_butCaches ht
  obtain ⟨htt, htb, -⟩ := State.calm_of_butCaches ht
  obtain ⟨hat, hab⟩ := State.hostApply_quiet t f pa n v c (s.die 8).clock
  have hpt : t.poisoned pa n = false := by rw [State.poisoned, hmem]; exact hp
  refine ⟨_, State.hostAmo_mem hown hm ha hq.1 hpt hr, hat.trans htt, hab.trans htb, State.loaded_last .., fun a => ?_⟩
  rw [← hmem]
  exact State.hostApply_byte ..

/-- Settles O51: a read changes dies and host caches alone, a store is one write of its line, an AMO one step at its home. -/
theorem hostAccesses : Obligations.HostAccesses := by
  intro k pa n v c s h home put served
  refine ⟨fun hk op => ?_, fun hk hm hown hserved => ⟨fun hc => ?_, fun f hn hal hlock hfree halone hamo => ?_⟩,
    fun hk hm hown hp hw ho lines hc => ?_, fun hk hown hm h0 => ⟨fun hserved => ?_, ?_⟩, fun hm hown h0 hl h8 => ⟨fun hk => ?_, fun hpci => ?_⟩,
    fun hk hm => ⟨?_, ?_⟩, fun hk hm => ?_, fun hk h8 hcl => ?_, fun hk h8 => ?_, fun op r hop hpci => ?_,
    fun hm hown hpci hp ho hw hs => ?_⟩
  · exact (exec_hostCoreAccess k op s).trans (if_pos hk)
  · obtain ⟨hp, hw, ho, hs⟩ := hserved
    have hpa := State.ownWindow_false.1 hown
    obtain ⟨st, t, ht, he⟩ := exec_hostLoad_homes hk (hpa.symm ▸ hm) (hpa.symm ▸ hp) (hpa.symm ▸ ⟨hw, ho⟩) (hpa.symm ▸ hs)
      (fun _ => hpa.symm ▸ hc)
    rw [hown, hpa, if_neg Bool.false_ne_true] at he
    exact ⟨_, he, (State.calm_of_butCaches ht :), (State.net_of_butCaches ht :), State.loaded_last .., fun j hj => by
      rw [State.loaded_hostAt_other hj, State.hostAt_of_butCaches ht]⟩
  · obtain ⟨hp, hw, ho, hs⟩ := hserved
    have lands := fun f c => State.hostAmo_lands (v := v) (c := c) f hown hm ⟨hn, hal, hlock, hfree, halone, hamo⟩ hp ⟨hw, ho⟩ hs
    simp only [exec_hostCoreAccess, execHostCoreAccess, if_neg (hostCores_not_le hk)]
    exact ⟨fun h0 => by subst h0; exact lands (some f) 0, lands none c⟩
  · have hpa := State.ownWindow_false.1 hown
    obtain ⟨st, hr⟩ := State.hostRead_hits (upto := s.uid) (ck := (s.die 8).clock) ⟨hw, ho⟩ hc
    have he := State.hostLoad_mem (k := k) (pa := pa) (hpa.symm ▸ hm) (hpa.symm ▸ hp) (by rw [hpa, hown]; exact hr)
    rw [hown, if_neg Bool.false_ne_true] at he
    exact ⟨_, (exec_hostLoad hk ..).trans he, State.calm_of rfl rfl rfl, rfl, rfl, rfl, State.loaded_last .., fun j hj =>
      State.loaded_hostAt_other hj ..⟩
  · obtain ⟨hp, hw, ho, hs⟩ := hserved
    obtain ⟨st, t, ht, he⟩ := exec_hostLoad_homes hk hm hp ⟨hw, ho⟩ hs (fun h => absurd h (by simp [hown]))
    rw [hown, if_pos rfl] at he
    exact ⟨_, he, (State.calm_of_butCaches ht :), (State.net_of_butCaches ht :), fun l hl a => State.hostDrop_gone t hl, State.loaded_last ..⟩
  · exact ⟨_, _, (exec_hostStore hk ..).trans (State.hostWrite_own hown hm k v), State.calm_of rfl rfl rfl, rfl,
      fun l hl a => State.hostDrop_gone s hl, rfl, rfl, rfl, rfl, rfl, rfl⟩
  · obtain ⟨cache, he⟩ := s.hostStore_line (hostStream k) (bs := toBytes n v) (by simp; omega) (by simpa using hl)
    exact ⟨_, _, (exec_hostStore hk ..).trans ((State.hostWrite_mem hown hm k v).trans (congrArg _ he)), State.calm_of rfl rfl rfl, rfl, rfl,
      rfl, rfl, rfl, rfl, rfl, rfl, rfl, rfl, s.hostLineWrite_byteAt _ pa n v⟩
  · obtain ⟨cache, he⟩ := s.hostStore_line pcieStream (bs := toBytes n v) (by simp; omega) (by simpa using hl)
    exact ⟨_, _, (exec_pcieStore hown hm hpci v).trans (congrArg _ he), State.calm_of rfl rfl rfl, rfl, rfl,
      rfl, rfl, rfl, rfl, rfl, rfl, rfl, rfl, s.hostLineWrite_byteAt _ pa n v⟩
  · exact ⟨_, (exec_hostLoad hk ..).trans (State.hostLoad_register hm k), State.calm_of rfl rfl rfl, rfl, rfl, State.loaded_last ..⟩
  · exact (exec_hostStore hk ..).trans (State.hostWrite_register hm k v)
  · rw [exec_hostLoad hk, exec_hostStore hk]
    exact State.hostAccess_missing hm k v
  · have hc := State.increment_clk h8 hcl
    exact ⟨_, (exec_hostFences hk s).1, State.calm_of rfl rfl rfl, rfl, by rw [hc, if_pos rfl], fun j hj => by rw [hc, if_neg hj]⟩
  · exact ⟨_, (exec_hostFences hk s).2, State.calm_of rfl rfl rfl, rfl, s.hostAcquire_seen k, State.hostAcquire_clock h8 k,
      State.hostAcquire_cache h8 k⟩
  · exact ⟨_, exec_pcie_refused hop hpci r, State.calm_of rfl rfl rfl, rfl, rfl, fun h8 =>
      congrArg (fun x : Die => x.ctr.pcieur) (State.modDie_die_same h8 _)⟩
  · obtain ⟨st, t, hr, ht⟩ := State.hostRead_homes (cached := false) ⟨hw, ho⟩ hs nofun
    exact ⟨_, exec_pcieLoad hown hm hpci hp hr, (State.calm_of_butCaches ht :), (State.net_of_butCaches ht :),
      congrArg _ (State.pcieOut_of_butCaches ht)⟩

end Sys2Proof.Machine
end
